-- ==== Sys2Proof/Word.lean ====
section
/-! DEFINITION. The word types of MAZES-ACCEL: bytes, 16-bit fields and 32-bit registers (00_scope.md R6, R8). -/

namespace Sys2Proof

/-- A byte of system memory or of a stream (R8). -/
abbrev Byte := BitVec 8

/-- A u16 field: coordinates and grid sizes (10_state.md R38, R56 to R58). -/
abbrev Half := BitVec 16

/-- A register, REG_W = 32 bits, and a system-memory address, ADDR_W = 32 bits (00_scope.md R6). -/
abbrev Word := BitVec 32

end Sys2Proof
end

