-- ==== Sys2Proof/Config.lean ====
section
/-! DEFINITION. What an implementation fixes (00_scope.md R6) and the free values for what the spec leaves
unspecified (93_implementation_defined.md S1 to S6). The parameters are plain data that the state carries
unchanged (log 1). The free values are constants with no body (log 3). -/

namespace Sys2Proof

/-- The kind of a byte access, `kind ∈ {R, W}` (00_scope.md R6). -/
inductive Access where
  | R
  | W
  deriving DecidableEq, Repr

/-- A range of system-memory bytes whose accesses of one kind the bus does NOT complete. The predicate
`admit` of R6 is held as the list of these (log 1). -/
structure Window where
  base : Nat
  len  : Nat
  kind : Access
  deriving DecidableEq, Repr

/-- The OPEN parameters of 00_scope.md R6. -/
structure Params where
  /-- FRONTIER_CAP, read in PARAM_FRONTIER_CAP. -/
  frontierCap : Word
  /-- NODE_CAP, read in PARAM_NODE_CAP. -/
  nodeCap     : Word
  /-- LANES. No rule depends on it (43_decode_pipeline.md R350). -/
  lanes       : Nat
  /-- BLOCK_BASE. No rule depends on it. -/
  blockBase   : Word
  /-- The accesses the bus does not complete: `admit(a, k)` is false exactly on these. -/
  closed      : List Window
  deriving DecidableEq, Repr

/-- The bounds R6 puts on the parameters (FRONTIER_CAP < 2^32 holds by its type). -/
abbrev Params.wf (p : Params) : Prop :=
  1 ≤ p.frontierCap.toNat ∧ 1 ≤ p.nodeCap.toNat ∧ p.nodeCap.toNat ≤ 2 ^ 30 ∧ 1 ≤ p.lanes

/-- The parameter values of the vectors' conventions (95_test_vectors.md): FRONTIER_CAP = 64,
NODE_CAP = 65536, every byte admitted. DESIGN CHOICE (log 1): unsafe for a claim that rests on them. -/
def Params.vectors : Params where
  frontierCap := 64
  nodeCap     := 65536
  lanes       := 1
  blockBase   := 0
  closed      := []

/-- MAX_PF_DIM (R6). -/
def Config.maxPfDim : Nat := 32768

/-- The k-th word drawn where the spec says a 32-bit value is unspecified (S1, S6): nothing is known of it
(log 3). -/
opaque Config.freeWord : Nat → Word

/-- The k-th byte drawn where the spec says a byte is unspecified (S2 to S5): nothing is known of it (log 3). -/
opaque Config.freeByte : Nat → Byte

end Sys2Proof
end

