-- ==== Sys2Proof/Syntax.lean ====
section
/-! DEFINITION. The encoded items of MAZES-ACCEL: the nine row formats of opcode_table.json (30_encoding.md
R150) and one constructor of `Instr` for each of its 114 rows. The CMD rows are the commands; the rows of the
other formats are data encodings that a unit decodes while a command runs (log 5). -/

namespace Sys2Proof

/-- The row formats of 30_encoding.md R150. -/
inductive Format where
  /-- CMD: a command word written to CMD, 32 bits (30_encoding.md R140, R141). -/
  | cmd
  /-- FSEL: the filter selector byte of a scanline, 8 bits (30_encoding.md R145). -/
  | fsel
  /-- HDRKEY: BIT_DEPTH × 256 + COLOR_TYPE, 16 bits (30_encoding.md R146, 42_unpack.md R301). -/
  | hdrKey
  /-- INTERLACE: INTERLACE[7:0], 8 bits (30_encoding.md R147). -/
  | interlace
  /-- PF_MODE: PF_MODE[0], 1 bit (30_encoding.md R148). -/
  | pfMode
  /-- BTYPE: the deflate block type, 2 bits (40_inflate.md R207). -/
  | btype
  /-- LITLEN: a decoded literal/length symbol, 9 bits (40_inflate.md R220 to R224). -/
  | litLen
  /-- DIST: a decoded distance symbol, 5 bits (40_inflate.md R225 to R227). -/
  | dist
  /-- CL: a decoded code-length symbol, 5 bits (40_inflate.md R214). -/
  | cl
  deriving DecidableEq, Repr

/-- The encoded items, one constructor for each row of opcode_table.json. A command has no operand of its own
(R140, R143). LIT carries its literal byte and CL_LEN its code length. -/
inductive Instr where
  -- CMD: a command word written to CMD, 32 bits
  /-- NOP, R330. -/
  | nop
  /-- HDR_CHECK, R333. -/
  | hdrCheck
  /-- INFLATE, R252. -/
  | inflate
  /-- SIZE_CHECK, R336. -/
  | sizeCheck
  /-- UNFILTER_ROW, R285. -/
  | unfilterRow
  /-- UNPACK_ROW, R312. -/
  | unpackRow
  /-- DECODE, R342. -/
  | decode
  /-- PF_START, R410. -/
  | pfStart
  /-- PF_STEP, R412. -/
  | pfStep
  /-- PF_TRACE, R418. -/
  | pfTrace
  /-- PF_SEARCH, R422. -/
  | pfSearch
  /-- PQ_CLEAR, R378. -/
  | pqClear
  /-- PQ_INSERT, R379. -/
  | pqInsert
  /-- PQ_EXTRACT, R380. -/
  | pqExtract
  /-- PQ_PEEK, R381. -/
  | pqPeek
  /-- PQ_DECREASE, R382. -/
  | pqDecrease
  /-- NODE_READ, R424. -/
  | nodeRead
  -- FSEL: the filter selector byte of a scanline, 8 bits
  /-- FILTER_NONE, R276. -/
  | filterNone
  /-- FILTER_SUB, R277. -/
  | filterSub
  /-- FILTER_UP, R278. -/
  | filterUp
  /-- FILTER_AVERAGE, R279. -/
  | filterAverage
  /-- FILTER_PAETH, R280. -/
  | filterPaeth
  -- HDRKEY: BIT_DEPTH × 256 + COLOR_TYPE, 16 bits
  /-- GRAY1, R301. -/
  | gray1
  /-- GRAY2, R301. -/
  | gray2
  /-- GRAY4, R301. -/
  | gray4
  /-- GRAY8, R301. -/
  | gray8
  /-- GRAY16, R301. -/
  | gray16
  /-- RGB8, R301. -/
  | rgb8
  /-- RGB16, R301. -/
  | rgb16
  /-- PAL1, R301. -/
  | pal1
  /-- PAL2, R301. -/
  | pal2
  /-- PAL4, R301. -/
  | pal4
  /-- PAL8, R301. -/
  | pal8
  /-- GRAYA8, R301. -/
  | graya8
  /-- GRAYA16, R301. -/
  | graya16
  /-- RGBA8, R301. -/
  | rgba8
  /-- RGBA16, R301. -/
  | rgba16
  -- INTERLACE: INTERLACE[7:0], 8 bits
  /-- INTERLACE_NONE, R147. -/
  | interlaceNone
  /-- INTERLACE_ADAM7, R147. -/
  | interlaceAdam7
  -- PF_MODE: PF_MODE[0], 1 bit
  /-- PF_DIJKSTRA, R148. -/
  | pfDijkstra
  /-- PF_ASTAR, R148. -/
  | pfAstar
  -- BTYPE: the deflate block type, 2 bits
  /-- BTYPE_STORED, R210. -/
  | btypeStored
  /-- BTYPE_FIXED, R209. -/
  | btypeFixed
  /-- BTYPE_DYNAMIC, R211. -/
  | btypeDynamic
  /-- BTYPE_RESERVED, R229. -/
  | btypeReserved
  -- LITLEN: a decoded literal/length symbol, 9 bits
  /-- LIT, R221. -/
  | lit (value : Nat)
  /-- EOB, R222. -/
  | eob
  /-- LEN257, R223: length 3 to 3. -/
  | len257
  /-- LEN258, R223: length 4 to 4. -/
  | len258
  /-- LEN259, R223: length 5 to 5. -/
  | len259
  /-- LEN260, R223: length 6 to 6. -/
  | len260
  /-- LEN261, R223: length 7 to 7. -/
  | len261
  /-- LEN262, R223: length 8 to 8. -/
  | len262
  /-- LEN263, R223: length 9 to 9. -/
  | len263
  /-- LEN264, R223: length 10 to 10. -/
  | len264
  /-- LEN265, R223: length 11 to 12. -/
  | len265
  /-- LEN266, R223: length 13 to 14. -/
  | len266
  /-- LEN267, R223: length 15 to 16. -/
  | len267
  /-- LEN268, R223: length 17 to 18. -/
  | len268
  /-- LEN269, R223: length 19 to 22. -/
  | len269
  /-- LEN270, R223: length 23 to 26. -/
  | len270
  /-- LEN271, R223: length 27 to 30. -/
  | len271
  /-- LEN272, R223: length 31 to 34. -/
  | len272
  /-- LEN273, R223: length 35 to 42. -/
  | len273
  /-- LEN274, R223: length 43 to 50. -/
  | len274
  /-- LEN275, R223: length 51 to 58. -/
  | len275
  /-- LEN276, R223: length 59 to 66. -/
  | len276
  /-- LEN277, R223: length 67 to 82. -/
  | len277
  /-- LEN278, R223: length 83 to 98. -/
  | len278
  /-- LEN279, R223: length 99 to 114. -/
  | len279
  /-- LEN280, R223: length 115 to 130. -/
  | len280
  /-- LEN281, R223: length 131 to 162. -/
  | len281
  /-- LEN282, R223: length 163 to 194. -/
  | len282
  /-- LEN283, R223: length 195 to 226. -/
  | len283
  /-- LEN284, R223: length 227 to 258. -/
  | len284
  /-- LEN285, R223: length 258 to 258. -/
  | len285
  /-- LITLEN_RESERVED286, R224. -/
  | litlenReserved286
  /-- LITLEN_RESERVED287, R224. -/
  | litlenReserved287
  -- DIST: a decoded distance symbol, 5 bits
  /-- DIST0, R226: distance 1 to 1. -/
  | dist0
  /-- DIST1, R226: distance 2 to 2. -/
  | dist1
  /-- DIST2, R226: distance 3 to 3. -/
  | dist2
  /-- DIST3, R226: distance 4 to 4. -/
  | dist3
  /-- DIST4, R226: distance 5 to 6. -/
  | dist4
  /-- DIST5, R226: distance 7 to 8. -/
  | dist5
  /-- DIST6, R226: distance 9 to 12. -/
  | dist6
  /-- DIST7, R226: distance 13 to 16. -/
  | dist7
  /-- DIST8, R226: distance 17 to 24. -/
  | dist8
  /-- DIST9, R226: distance 25 to 32. -/
  | dist9
  /-- DIST10, R226: distance 33 to 48. -/
  | dist10
  /-- DIST11, R226: distance 49 to 64. -/
  | dist11
  /-- DIST12, R226: distance 65 to 96. -/
  | dist12
  /-- DIST13, R226: distance 97 to 128. -/
  | dist13
  /-- DIST14, R226: distance 129 to 192. -/
  | dist14
  /-- DIST15, R226: distance 193 to 256. -/
  | dist15
  /-- DIST16, R226: distance 257 to 384. -/
  | dist16
  /-- DIST17, R226: distance 385 to 512. -/
  | dist17
  /-- DIST18, R226: distance 513 to 768. -/
  | dist18
  /-- DIST19, R226: distance 769 to 1024. -/
  | dist19
  /-- DIST20, R226: distance 1025 to 1536. -/
  | dist20
  /-- DIST21, R226: distance 1537 to 2048. -/
  | dist21
  /-- DIST22, R226: distance 2049 to 3072. -/
  | dist22
  /-- DIST23, R226: distance 3073 to 4096. -/
  | dist23
  /-- DIST24, R226: distance 4097 to 6144. -/
  | dist24
  /-- DIST25, R226: distance 6145 to 8192. -/
  | dist25
  /-- DIST26, R226: distance 8193 to 12288. -/
  | dist26
  /-- DIST27, R226: distance 12289 to 16384. -/
  | dist27
  /-- DIST28, R226: distance 16385 to 24576. -/
  | dist28
  /-- DIST29, R226: distance 24577 to 32768. -/
  | dist29
  /-- DIST_RESERVED30, R227. -/
  | distReserved30
  /-- DIST_RESERVED31, R227. -/
  | distReserved31
  -- CL: a decoded code-length symbol, 5 bits
  /-- CL_LEN, R214. -/
  | clLen (length : Nat)
  /-- CL_REP16, R214. -/
  | clRep16
  /-- CL_REP17, R214. -/
  | clRep17
  /-- CL_REP18, R214. -/
  | clRep18
  deriving DecidableEq, Repr

end Sys2Proof
end

