-- ==== Sys2Proof/WellFormed.lean ====
section
/-! DEFINITION. When an encoded item is well formed: its operand fits the bits the encoding gives it. Only LIT
and CL_LEN have an operand (opcode_table.json, rows LIT and CL_LEN). -/

namespace Sys2Proof

/-- LIT's literal is a byte (40_inflate.md R221), CL_LEN's code length is 0 to 15 (R214); every other item has
no operand. -/
def Instr.wellFormed (i : Instr) : Bool :=
  match i with
  | .lit value => decide (value < 256)
  | .clLen length => decide (length < 16)
  | .nop | .hdrCheck | .inflate | .sizeCheck | .unfilterRow | .unpackRow | .decode | .pfStart | .pfStep
  | .pfTrace | .pfSearch | .pqClear | .pqInsert | .pqExtract | .pqPeek | .pqDecrease | .nodeRead
  | .filterNone | .filterSub | .filterUp | .filterAverage | .filterPaeth | .gray1 | .gray2 | .gray4
  | .gray8 | .gray16 | .rgb8 | .rgb16 | .pal1 | .pal2 | .pal4 | .pal8 | .graya8 | .graya16 | .rgba8
  | .rgba16 | .interlaceNone | .interlaceAdam7 | .pfDijkstra | .pfAstar | .btypeStored | .btypeFixed
  | .btypeDynamic | .btypeReserved | .eob | .len257 | .len258 | .len259 | .len260 | .len261 | .len262
  | .len263 | .len264 | .len265 | .len266 | .len267 | .len268 | .len269 | .len270 | .len271 | .len272
  | .len273 | .len274 | .len275 | .len276 | .len277 | .len278 | .len279 | .len280 | .len281 | .len282
  | .len283 | .len284 | .len285 | .litlenReserved286 | .litlenReserved287 | .dist0 | .dist1 | .dist2
  | .dist3 | .dist4 | .dist5 | .dist6 | .dist7 | .dist8 | .dist9 | .dist10 | .dist11 | .dist12 | .dist13
  | .dist14 | .dist15 | .dist16 | .dist17 | .dist18 | .dist19 | .dist20 | .dist21 | .dist22 | .dist23
  | .dist24 | .dist25 | .dist26 | .dist27 | .dist28 | .dist29 | .distReserved30 | .distReserved31
  | .clRep16 | .clRep17 | .clRep18 => true

end Sys2Proof
end

