-- ==== Sys2Proof/Decode.lean ====
section
/-! DEFINITION. Decoding and encoding of every item of opcode_table.json (30_encoding.md). `decode` is total: a
value with no row is rejected by name. LITLEN, DIST and CL items are decoded from the symbol, not from its code
bits (R150). -/

namespace Sys2Proof

/-- Why a value decodes to no item, one name for each format. -/
inductive Reject where
  /-- CMD: an unassigned OPC or nonzero bits [31:8] (R142). -/
  | illegalCommand (bits : Nat)
  /-- FSEL: a selector 5 to 255 (R145, 41_unfilter.md R281). -/
  | unknownFilter (bits : Nat)
  /-- HDRKEY: a pair that is no row of 42_unpack.md R301. -/
  | noHeaderKey (bits : Nat)
  /-- INTERLACE: an interlace code other than 0 and 1 (R147). -/
  | invalidInterlace (bits : Nat)
  /-- PF_MODE: not a 1-bit value: PF_MODE[0] cannot hold it (R148). -/
  | noMode (bits : Nat)
  /-- BTYPE: not a 2-bit value (40_inflate.md R207). -/
  | noBlockType (bits : Nat)
  /-- LITLEN: no literal/length symbol: the alphabet is 0 to 287 (R149). -/
  | noLitLen (bits : Nat)
  /-- DIST: no distance symbol: the alphabet is 0 to 31 (R149). -/
  | noDist (bits : Nat)
  /-- CL: no code-length symbol: the alphabet is 0 to 18 (R149). -/
  | noCodeLength (bits : Nat)
  deriving DecidableEq, Repr

/-- The width in bits of a format (R150). -/
def Format.width (f : Format) : Nat :=
  match f with
  | .cmd => 32
  | .fsel => 8
  | .hdrKey => 16
  | .interlace => 8
  | .pfMode => 1
  | .btype => 2
  | .litLen => 9
  | .dist => 5
  | .cl => 5

/-- The command map of R141: OPC in [7:0], bits [31:8] zero; anything else is illegal (R142). -/
def decodeCmd (v : Nat) : Except Reject Instr :=
  match v with
  | 0x00 => .ok .nop
  | 0x01 => .ok .hdrCheck
  | 0x02 => .ok .inflate
  | 0x03 => .ok .sizeCheck
  | 0x04 => .ok .unfilterRow
  | 0x05 => .ok .unpackRow
  | 0x06 => .ok .decode
  | 0x10 => .ok .pfStart
  | 0x11 => .ok .pfStep
  | 0x12 => .ok .pfTrace
  | 0x13 => .ok .pfSearch
  | 0x18 => .ok .pqClear
  | 0x19 => .ok .pqInsert
  | 0x1A => .ok .pqExtract
  | 0x1B => .ok .pqPeek
  | 0x1C => .ok .pqDecrease
  | 0x1D => .ok .nodeRead
  | _ => .error (.illegalCommand v)

/-- The filter selector of R145. -/
def decodeFsel (v : Nat) : Except Reject Instr :=
  match v with
  | 0 => .ok .filterNone
  | 1 => .ok .filterSub
  | 2 => .ok .filterUp
  | 3 => .ok .filterAverage
  | 4 => .ok .filterPaeth
  | _ => .error (.unknownFilter v)

/-- The header pairs of R146 and 42_unpack.md R301, key = BIT_DEPTH × 256 + COLOR_TYPE. -/
def decodeHdrKey (v : Nat) : Except Reject Instr :=
  match v with
  | 0x0100 => .ok .gray1
  | 0x0200 => .ok .gray2
  | 0x0400 => .ok .gray4
  | 0x0800 => .ok .gray8
  | 0x1000 => .ok .gray16
  | 0x0802 => .ok .rgb8
  | 0x1002 => .ok .rgb16
  | 0x0103 => .ok .pal1
  | 0x0203 => .ok .pal2
  | 0x0403 => .ok .pal4
  | 0x0803 => .ok .pal8
  | 0x0804 => .ok .graya8
  | 0x1004 => .ok .graya16
  | 0x0806 => .ok .rgba8
  | 0x1006 => .ok .rgba16
  | _ => .error (.noHeaderKey v)

/-- The interlace code of R147. -/
def decodeInterlace (v : Nat) : Except Reject Instr :=
  match v with
  | 0 => .ok .interlaceNone
  | 1 => .ok .interlaceAdam7
  | _ => .error (.invalidInterlace v)

/-- The mode bit of R148. -/
def decodePfMode (v : Nat) : Except Reject Instr :=
  match v with
  | 0 => .ok .pfDijkstra
  | 1 => .ok .pfAstar
  | _ => .error (.noMode v)

/-- The block type of 40_inflate.md R207. -/
def decodeBtype (v : Nat) : Except Reject Instr :=
  match v with
  | 0 => .ok .btypeStored
  | 1 => .ok .btypeFixed
  | 2 => .ok .btypeDynamic
  | 3 => .ok .btypeReserved
  | _ => .error (.noBlockType v)

/-- The literal/length alphabet of 40_inflate.md R220 to R224. -/
def decodeLitLen (v : Nat) : Except Reject Instr :=
  if v < 256 then .ok (.lit v) else
  match v with
  | 256 => .ok .eob
  | 257 => .ok .len257
  | 258 => .ok .len258
  | 259 => .ok .len259
  | 260 => .ok .len260
  | 261 => .ok .len261
  | 262 => .ok .len262
  | 263 => .ok .len263
  | 264 => .ok .len264
  | 265 => .ok .len265
  | 266 => .ok .len266
  | 267 => .ok .len267
  | 268 => .ok .len268
  | 269 => .ok .len269
  | 270 => .ok .len270
  | 271 => .ok .len271
  | 272 => .ok .len272
  | 273 => .ok .len273
  | 274 => .ok .len274
  | 275 => .ok .len275
  | 276 => .ok .len276
  | 277 => .ok .len277
  | 278 => .ok .len278
  | 279 => .ok .len279
  | 280 => .ok .len280
  | 281 => .ok .len281
  | 282 => .ok .len282
  | 283 => .ok .len283
  | 284 => .ok .len284
  | 285 => .ok .len285
  | 286 => .ok .litlenReserved286
  | 287 => .ok .litlenReserved287
  | _ => .error (.noLitLen v)

/-- The distance alphabet of 40_inflate.md R226 and R227. -/
def decodeDist (v : Nat) : Except Reject Instr :=
  match v with
  | 0 => .ok .dist0
  | 1 => .ok .dist1
  | 2 => .ok .dist2
  | 3 => .ok .dist3
  | 4 => .ok .dist4
  | 5 => .ok .dist5
  | 6 => .ok .dist6
  | 7 => .ok .dist7
  | 8 => .ok .dist8
  | 9 => .ok .dist9
  | 10 => .ok .dist10
  | 11 => .ok .dist11
  | 12 => .ok .dist12
  | 13 => .ok .dist13
  | 14 => .ok .dist14
  | 15 => .ok .dist15
  | 16 => .ok .dist16
  | 17 => .ok .dist17
  | 18 => .ok .dist18
  | 19 => .ok .dist19
  | 20 => .ok .dist20
  | 21 => .ok .dist21
  | 22 => .ok .dist22
  | 23 => .ok .dist23
  | 24 => .ok .dist24
  | 25 => .ok .dist25
  | 26 => .ok .dist26
  | 27 => .ok .dist27
  | 28 => .ok .dist28
  | 29 => .ok .dist29
  | 30 => .ok .distReserved30
  | 31 => .ok .distReserved31
  | _ => .error (.noDist v)

/-- The code-length alphabet of 40_inflate.md R214. -/
def decodeCl (v : Nat) : Except Reject Instr :=
  if v < 16 then .ok (.clLen v) else
  match v with
  | 16 => .ok .clRep16
  | 17 => .ok .clRep17
  | 18 => .ok .clRep18
  | _ => .error (.noCodeLength v)

/-- The decoder: the item a value of a format encodes, or the name of what it is not (R150). -/
def decode (f : Format) (v : Nat) : Except Reject Instr :=
  match f with
  | .cmd => decodeCmd v
  | .fsel => decodeFsel v
  | .hdrKey => decodeHdrKey v
  | .interlace => decodeInterlace v
  | .pfMode => decodePfMode v
  | .btype => decodeBtype v
  | .litLen => decodeLitLen v
  | .dist => decodeDist v
  | .cl => decodeCl v

/-- An encoded item: its format and its bits. -/
structure Encoded where
  fmt  : Format
  bits : Nat
  deriving DecidableEq, Repr

/-- The encoder, from the same tables of the spec (R141, R145 to R150). -/
def encode (i : Instr) : Encoded :=
  match i with
  | .nop => ⟨.cmd, 0x00⟩
  | .hdrCheck => ⟨.cmd, 0x01⟩
  | .inflate => ⟨.cmd, 0x02⟩
  | .sizeCheck => ⟨.cmd, 0x03⟩
  | .unfilterRow => ⟨.cmd, 0x04⟩
  | .unpackRow => ⟨.cmd, 0x05⟩
  | .decode => ⟨.cmd, 0x06⟩
  | .pfStart => ⟨.cmd, 0x10⟩
  | .pfStep => ⟨.cmd, 0x11⟩
  | .pfTrace => ⟨.cmd, 0x12⟩
  | .pfSearch => ⟨.cmd, 0x13⟩
  | .pqClear => ⟨.cmd, 0x18⟩
  | .pqInsert => ⟨.cmd, 0x19⟩
  | .pqExtract => ⟨.cmd, 0x1A⟩
  | .pqPeek => ⟨.cmd, 0x1B⟩
  | .pqDecrease => ⟨.cmd, 0x1C⟩
  | .nodeRead => ⟨.cmd, 0x1D⟩
  | .filterNone => ⟨.fsel, 0⟩
  | .filterSub => ⟨.fsel, 1⟩
  | .filterUp => ⟨.fsel, 2⟩
  | .filterAverage => ⟨.fsel, 3⟩
  | .filterPaeth => ⟨.fsel, 4⟩
  | .gray1 => ⟨.hdrKey, 0x0100⟩
  | .gray2 => ⟨.hdrKey, 0x0200⟩
  | .gray4 => ⟨.hdrKey, 0x0400⟩
  | .gray8 => ⟨.hdrKey, 0x0800⟩
  | .gray16 => ⟨.hdrKey, 0x1000⟩
  | .rgb8 => ⟨.hdrKey, 0x0802⟩
  | .rgb16 => ⟨.hdrKey, 0x1002⟩
  | .pal1 => ⟨.hdrKey, 0x0103⟩
  | .pal2 => ⟨.hdrKey, 0x0203⟩
  | .pal4 => ⟨.hdrKey, 0x0403⟩
  | .pal8 => ⟨.hdrKey, 0x0803⟩
  | .graya8 => ⟨.hdrKey, 0x0804⟩
  | .graya16 => ⟨.hdrKey, 0x1004⟩
  | .rgba8 => ⟨.hdrKey, 0x0806⟩
  | .rgba16 => ⟨.hdrKey, 0x1006⟩
  | .interlaceNone => ⟨.interlace, 0⟩
  | .interlaceAdam7 => ⟨.interlace, 1⟩
  | .pfDijkstra => ⟨.pfMode, 0⟩
  | .pfAstar => ⟨.pfMode, 1⟩
  | .btypeStored => ⟨.btype, 0⟩
  | .btypeFixed => ⟨.btype, 1⟩
  | .btypeDynamic => ⟨.btype, 2⟩
  | .btypeReserved => ⟨.btype, 3⟩
  | .lit value => ⟨.litLen, value⟩
  | .eob => ⟨.litLen, 256⟩
  | .len257 => ⟨.litLen, 257⟩
  | .len258 => ⟨.litLen, 258⟩
  | .len259 => ⟨.litLen, 259⟩
  | .len260 => ⟨.litLen, 260⟩
  | .len261 => ⟨.litLen, 261⟩
  | .len262 => ⟨.litLen, 262⟩
  | .len263 => ⟨.litLen, 263⟩
  | .len264 => ⟨.litLen, 264⟩
  | .len265 => ⟨.litLen, 265⟩
  | .len266 => ⟨.litLen, 266⟩
  | .len267 => ⟨.litLen, 267⟩
  | .len268 => ⟨.litLen, 268⟩
  | .len269 => ⟨.litLen, 269⟩
  | .len270 => ⟨.litLen, 270⟩
  | .len271 => ⟨.litLen, 271⟩
  | .len272 => ⟨.litLen, 272⟩
  | .len273 => ⟨.litLen, 273⟩
  | .len274 => ⟨.litLen, 274⟩
  | .len275 => ⟨.litLen, 275⟩
  | .len276 => ⟨.litLen, 276⟩
  | .len277 => ⟨.litLen, 277⟩
  | .len278 => ⟨.litLen, 278⟩
  | .len279 => ⟨.litLen, 279⟩
  | .len280 => ⟨.litLen, 280⟩
  | .len281 => ⟨.litLen, 281⟩
  | .len282 => ⟨.litLen, 282⟩
  | .len283 => ⟨.litLen, 283⟩
  | .len284 => ⟨.litLen, 284⟩
  | .len285 => ⟨.litLen, 285⟩
  | .litlenReserved286 => ⟨.litLen, 286⟩
  | .litlenReserved287 => ⟨.litLen, 287⟩
  | .dist0 => ⟨.dist, 0⟩
  | .dist1 => ⟨.dist, 1⟩
  | .dist2 => ⟨.dist, 2⟩
  | .dist3 => ⟨.dist, 3⟩
  | .dist4 => ⟨.dist, 4⟩
  | .dist5 => ⟨.dist, 5⟩
  | .dist6 => ⟨.dist, 6⟩
  | .dist7 => ⟨.dist, 7⟩
  | .dist8 => ⟨.dist, 8⟩
  | .dist9 => ⟨.dist, 9⟩
  | .dist10 => ⟨.dist, 10⟩
  | .dist11 => ⟨.dist, 11⟩
  | .dist12 => ⟨.dist, 12⟩
  | .dist13 => ⟨.dist, 13⟩
  | .dist14 => ⟨.dist, 14⟩
  | .dist15 => ⟨.dist, 15⟩
  | .dist16 => ⟨.dist, 16⟩
  | .dist17 => ⟨.dist, 17⟩
  | .dist18 => ⟨.dist, 18⟩
  | .dist19 => ⟨.dist, 19⟩
  | .dist20 => ⟨.dist, 20⟩
  | .dist21 => ⟨.dist, 21⟩
  | .dist22 => ⟨.dist, 22⟩
  | .dist23 => ⟨.dist, 23⟩
  | .dist24 => ⟨.dist, 24⟩
  | .dist25 => ⟨.dist, 25⟩
  | .dist26 => ⟨.dist, 26⟩
  | .dist27 => ⟨.dist, 27⟩
  | .dist28 => ⟨.dist, 28⟩
  | .dist29 => ⟨.dist, 29⟩
  | .distReserved30 => ⟨.dist, 30⟩
  | .distReserved31 => ⟨.dist, 31⟩
  | .clLen length => ⟨.cl, length⟩
  | .clRep16 => ⟨.cl, 16⟩
  | .clRep17 => ⟨.cl, 17⟩
  | .clRep18 => ⟨.cl, 18⟩

/-- The command word from the four register byte lanes of a write to CMD: lane k carries bits [8k+7:8k], which
is little-endian (20_memory.md R102). -/
def commandWord (b0 b1 b2 b3 : Nat) : Nat := b0 + 2 ^ 8 * b1 + 2 ^ 16 * b2 + 2 ^ 24 * b3

/-- The format that a value of `nbits` bits is read in when the table is asked without a format. Formats of
equal rounded width cannot be told apart by the value (log 6): 16 bits are a header key where one matches and a
literal/length symbol otherwise, 8 bits are a distance symbol where one matches and a filter selector
otherwise. Exact widths below a byte name their format. -/
def formatOfWidth (nbits w : Nat) : Format :=
  match nbits with
  | 32 => .cmd
  | 16 => match decodeHdrKey w with
    | .ok _ => .hdrKey
    | .error _ => .litLen
  | 9 => .litLen
  | 8 => if w < 32 then .dist else .fsel
  | 5 => .dist
  | 2 => .btype
  | 1 => .pfMode
  | _ => .cmd

/-- The instruction this decoder reads from an item of `nbits` bits `w`, as opcode_table.json numbers them. A
command word is laid out in its register byte lanes and read back from them (R102). -/
def decodeTableWord (nbits w : Nat) : Option Instr :=
  let v := match formatOfWidth nbits w with
    | .cmd => commandWord (w % 256) (w / 2 ^ 8 % 256) (w / 2 ^ 16 % 256) (w / 2 ^ 24)
    | .fsel | .hdrKey | .interlace | .pfMode | .btype | .litLen | .dist | .cl => w
  match decode (formatOfWidth nbits w) v with
  | .ok i => some i
  | .error _ => none

end Sys2Proof
end

