-- ==== Sys2Proof/Machine/State.lean ====
section
/-! DEFINITION. The state of MAZES-ACCEL as plain data: every register of 10_state.md R38, the internal state of
R55 to R59, system memory (R62), the host's accesses to come, and the state after reset
(70_reset_and_hazards.md R490). What software sees of a field narrower than 32 bits, and the views BUSY and
PQ_COUNT, are computed in Machine/Flags.lean and Machine/HostBus.lean: each thing is stored once. -/

namespace Sys2Proof.Machine

/-! ### Registers -/

/-- The search state PF_STATE (R52). The reserved codes 5 to 7 are never produced (S13), so they have no value
here. -/
inductive PfState where
  | idle
  | active
  | found
  | noPath
  | failed
  deriving DecidableEq, Repr

/-- The error kinds of 60_exceptions.md R451. The first eight are never raised: 0x00 is no error, and the
chunk-layer kinds keep codes for the host only (R452). -/
inductive ErrorKind where
  | none
  | invalidSignature
  | checksumMismatch
  | insufficientBytes
  | missingHeader
  | missingTerminator
  | missingImageData
  | missingPalette
  | invalidColorType
  | invalidBitDepth
  | invalidInterlace
  | unsupportedMethod
  | unsupportedInterlace
  | decompressionFailed
  | unknownFilter
  | scanlineSizeMismatch
  | noPath
  | illegalCommand
  | notConfigured
  | invalidDimensions
  | tooLarge
  | outputOverflow
  | rowOutOfRange
  | busError
  | invalidCoordinate
  | frontierOverflow
  | frontierEmpty
  | nodeNotFound
  | searchStateError
  | regionOverlap
  deriving DecidableEq, Repr

/-- CTRL.IE, the stored STATUS bits and the error registers (R39, R41, R42). -/
structure Control where
  ie       : Bool
  done     : Bool
  err      : Bool
  ovr      : Bool
  cfgValid : Bool
  infOk    : Bool
  pfState  : PfState
  errCode  : Byte
  errInfo  : Word
  errCmd   : Byte
  deriving DecidableEq, Repr

/-- ARG0 to ARG3 (R44). -/
structure Args where
  a0 : Word
  a1 : Word
  a2 : Word
  a3 : Word
  deriving DecidableEq, Repr

/-- RES0 to RES3 (R44). -/
structure Results where
  r0 : Word
  r1 : Word
  r2 : Word
  r3 : Word
  deriving DecidableEq, Repr

/-- The seven IHDR registers (R45). -/
structure Header where
  width      : Word
  height     : Word
  bitDepth   : Byte
  colorType  : Byte
  compMethod : Byte
  filtMethod : Byte
  interlace  : Byte
  deriving DecidableEq, Repr

/-- The buffer registers (R46). -/
structure Buffers where
  srcAddr : Word
  srcLen  : Word
  infAddr : Word
  infCap  : Word
  rawAddr : Word
  pixAddr : Word
  deriving DecidableEq, Repr

/-- The derived registers (R47). -/
structure Derived where
  channels      : Word
  pixelBits     : Word
  bpp           : Word
  scanlineBytes : Word
  expectedLen   : Word
  pixKind       : BitVec 2
  deriving DecidableEq, Repr

/-- INF_LEN, INF_SRC_USED and INF_ADLER (R48). -/
structure InfResults where
  len     : Word
  srcUsed : Word
  adler   : Word
  deriving DecidableEq, Repr

/-- The pathfinder registers the host writes (R50). -/
structure PfRegs where
  w        : Half
  h        : Half
  gridAddr : Word
  startX   : Half
  startY   : Half
  goalX    : Half
  goalY    : Half
  mode     : BitVec 1
  pathAddr : Word
  pathCap  : Word
  deriving DecidableEq, Repr

/-- The latched pathfinder configuration L_W .. L_MODE (R56). -/
structure PfLatch where
  w    : Half
  h    : Half
  grid : Word
  sx   : Half
  sy   : Half
  gx   : Half
  gy   : Half
  mode : BitVec 1
  deriving DecidableEq, Repr

/-! ### Internal memories -/

/-- A grid coordinate of two u16. -/
structure Coord where
  x : Half
  y : Half
  deriving DecidableEq, Repr

/-- A node of the node table (R57): `pred` is NONE or a coordinate. -/
structure Node where
  cost : Word
  pred : Option Coord
  d    : Word
  deriving DecidableEq, Repr

/-- An entry of the frontier (R58). -/
structure Entry where
  x    : Half
  y    : Half
  cost : Word
  d    : Word
  deriving DecidableEq, Repr

/-- System memory: the bytes that differ from the default, by strictly rising address. -/
abbrev Memory := List Host.Cell

/-- The node table NODE: the cells that are not EMPTY, by strictly rising index (R57). -/
abbrev NodeTable := List (Nat × Node)

/-- A region of system memory that a command reads or writes (20_memory.md R110). -/
structure Region where
  base : Nat
  len  : Nat
  kind : Access
  deriving DecidableEq, Repr

/-! ### Transient state of a running command (R59) -/

/-- The failure subcodes of the inflater (40_inflate.md R247). -/
inductive InfFail where
  | truncated
  | badCm
  | badCinfo
  | badFcheck
  | fdict
  | badBtype
  | badStoredLen
  | badCodeCounts
  | badCodeLengths
  | badSymbol
  | badDistance
  | badAdler
  deriving DecidableEq, Repr

/-- One used symbol of a Huffman code: its length in bits and its code (R215). A code is the list of its used
symbols; EMPTY is the empty list (R216). -/
structure HuffEntry where
  sym  : Nat
  len  : Nat
  code : Nat
  deriving DecidableEq, Repr

/-- Where the inflater stands in the stream: what it reads next (R205, R214, R220, R225, R240). -/
inductive InfPhase where
  /-- BFINAL and BTYPE of the next block (R205). -/
  | block
  /-- A code length of a dynamic block (R214). -/
  | codeLen
  /-- A literal/length symbol (R220). -/
  | litLen
  /-- The distance symbol of a copy of this length (R225). -/
  | dist (length : Nat)
  /-- The trailer (R240). -/
  | trailer
  /-- The trailer has been checked. -/
  | done
  deriving DecidableEq, Repr

/-- The running Adler-32 sums of the output so far (R59, 40_inflate.md R241). -/
structure AdlerSums where
  a : Nat
  b : Nat
  deriving DecidableEq, Repr

/-- The inflater's transient state (R59, R201). `hist` is `out`, newest byte first, and `sums` its running Adler-32
sums. `lens`, `nlit` and `total` are
the code lengths read so far of a dynamic block and how many there are (R211, R214). -/
structure Inflater where
  src   : List Byte
  pos   : Nat
  hist  : List Byte
  sums  : AdlerSums
  phase : InfPhase
  final : Bool
  lit   : List HuffEntry
  dist  : List HuffEntry
  cl    : List HuffEntry
  lens  : List Nat
  nlit  : Nat
  total : Nat
  deriving DecidableEq, Repr

/-- The phases of the filter reversal FSM (41_unfilter.md R271). -/
inductive FilterPhase where
  | select
  | run
  | done
  | fail
  deriving DecidableEq, Repr

/-- The filter reversal FSM's transient state (phase, f, i, raw) of R271, with the inputs of its row (R273). -/
structure FilterFsm where
  phase : FilterPhase
  f     : Nat
  i     : Nat
  raw   : List Byte
  y     : Nat
  bpp   : Nat
  flt   : List Byte
  prev  : List Byte
  deriving DecidableEq, Repr

/-- Where a pixel of fewer than 8 bits lies in its row: the index of its byte and its shift in it (42_unpack.md
R304). -/
structure BitPlace where
  index : Nat
  shift : Nat
  deriving DecidableEq, Repr

/-- The unpacker's transient state of 42_unpack.md R302, while it unpacks row y: the row bytes, the column x, and
for bit depths below 8 the byte index and shift of the current pixel. `out` is the record bytes so far (R313). -/
structure Unpacker where
  y     : Nat
  row   : List Byte
  x     : Nat
  place : Option BitPlace
  out   : List Byte
  deriving DecidableEq, Repr

/-- The transient state of the running command (R59): which unit is about to decode a data encoding, and that
unit's own state. Idle between commands (R490; log 5). -/
inductive Transient where
  | idle
  /-- The header check is about to decode the (color type, bit depth) pair (43_decode_pipeline.md R331). -/
  | headerKey
  /-- The header check has accepted this color type and bit depth and is about to decode INTERLACE. -/
  | headerInterlace (colorType bitDepth : Nat)
  /-- A body command is about to decode INTERLACE (R337, R342). -/
  | bodyCheck
  /-- The inflater runs (40_inflate.md R201). -/
  | inflating (c : Inflater)
  /-- The filter FSM runs (41_unfilter.md R271). -/
  | unfiltering (f : FilterFsm)
  /-- The unpacker runs (42_unpack.md R302); it is about to decode the header pair, which selects its operation. -/
  | unpacking (u : Unpacker)
  /-- PF_START is about to latch the mode bit (45_pathfinder.md R402). -/
  | starting
  deriving DecidableEq, Repr

/-! ### The host -/

/-- The assigned registers of 10_state.md R38, in offset order. -/
inductive Reg where
  | id | ctrl | status | cmd | errCode | errInfo | errCmd | paramFrontierCap
  | arg0 | arg1 | arg2 | arg3 | res0 | res1 | res2 | res3
  | width | height | bitDepth | colorType | compMethod | filtMethod | interlace | paramNodeCap
  | srcAddr | srcLen | infAddr | infCap | rawAddr | pixAddr
  | channels | pixelBits | bpp | scanlineBytes | expectedLen | pixKind
  | infLen | infSrcUsed | infAdler | rowsDone
  | pfW | pfH | gridAddr | startX | startY | goalX | goalY | pfMode | pathAddr | pathCap
  | pathLen | pqCount | pfSteps
  deriving DecidableEq, Repr

/-- The access types of R38. STATUS is "mixed": its fields have types of their own. -/
inductive AccessType where
  | ro
  | rw
  | wo
  | mixed
  deriving DecidableEq, Repr

/-- One access of the host (00_scope.md R14), or a turn it leaves to the engine (log 4). -/
inductive HostOp where
  /-- A register read of `size` bytes at a byte offset of the block (10_state.md R32). -/
  | rd (size offset : Nat)
  /-- A register write of `size` bytes at a byte offset of the block. -/
  | wr (size offset : Nat) (v : Word)
  /-- A read of one byte of system memory. -/
  | memRd (addr : Word)
  /-- A write of one byte of system memory. -/
  | memWr (addr : Word) (v : Byte)
  /-- The poll loop of `wait`: read STATUS until BUSY reads 0 (30_encoding.md R156). -/
  | wait
  /-- The engine moves before the host's next access (70_reset_and_hazards.md R510). -/
  | engineTurn
  /-- Hardware reset (R490). -/
  | hardReset
  deriving DecidableEq, Repr

/-! ### Stops -/

/-- Why a step stops with a fault. -/
inductive Fault where
  /-- A host write to a byte of a region of the running command, a race (20_memory.md R120). Raised by the
  host's memory write. Safe: the model stops. -/
  | hostRace (addr : Word)
  /-- PF_STEP, PF_TRACE or PF_SEARCH meets an extracted or preceding cell that has no node, which
  45_pathfinder.md R419 excludes. Raised by no run from a reset (log 12). Safe. -/
  | nodeMissing (x y : Half)
  /-- PF_TRACE follows predecessors for more than L_W × L_H cells, which R419 excludes. Raised by no run from
  a reset (log 12). Safe. -/
  | predecessorCycle
  /-- PF_SEARCH is not over after more steps than any search has (R420). Raised by no run from a reset
  (log 12). Safe. -/
  | searchUnbounded
  /-- A relaxation reads a grid byte beyond 2^32, which PF_START's region check excludes (R403, R410). Raised
  by no run from a reset (log 12). Safe. -/
  | gridOutside (addr : Nat)
  /-- UNPACK_ROW finds CFG_VALID = 1 with a header pair that is no row of 42_unpack.md R301, which
  10_state.md R45 excludes. Raised by no run from a reset (log 12). Safe. -/
  | headerPairLost (colorType bitDepth : Nat)
  /-- A data encoding is run by itself in a unit whose row or buffer passes 2^32, which its command's
  CheckRegions excludes (20_memory.md R109, R110). Raised by the meanings of the data encodings; by no run from a
  reset (log 12). Safe. -/
  | unitOutside
  deriving DecidableEq, Repr

/-- Why a step is refused. -/
inductive Refusal where
  /-- An instruction that has no meaning yet; raised by exec's arms only. Safe. -/
  | notModelled (mnemonic : String)
  /-- A host register access that is not 32 bits at a multiple of 4 inside the block (10_state.md R32: "A model
  refuses such a host step"; log 14). Raised by the host's register accesses. Safe. -/
  | hostAccess (size offset : Nat)
  /-- A data encoding run where the unit that decodes it does not run (R59; log 5). Raised by the meanings of
  the data encodings. Safe. -/
  | itemOutOfPlace (fmt : Format)
  /-- A latched value that its format cannot hold, so that no unit decodes it (30_encoding.md R150; log 5).
  Raised by the fetch of an item. Safe. -/
  | noSuchItem (fmt : Format) (bits : Nat)
  deriving DecidableEq, Repr

/-! ### The state -/

/-- The whole state (INVENTORY.md, State). -/
structure State where
  /-- The parameters of 00_scope.md R6 (log 1). -/
  par      : Params
  ctl      : Control
  args     : Args
  res      : Results
  hdr      : Header
  buf      : Buffers
  der      : Derived
  inf      : InfResults
  rowsDone : Word
  pf       : PfRegs
  pathLen  : Word
  pfSteps  : Word
  /-- The command sequencer's `pending` (R55). BUSY = 1 exactly when it is not empty. -/
  pending  : Option Word
  latch    : PfLatch
  node     : NodeTable
  frontier : List Entry
  /-- The transient state of the running command (R59). -/
  unit     : Transient
  /-- System memory (R62). -/
  mem      : Memory
  /-- The model's own: a data encoding latched for one unit to run by itself (log 5). -/
  item     : Option (Format × Nat)
  /-- The model's own: the host's accesses to come, first one first (log 4). -/
  agenda   : List HostOp
  /-- The model's own: what the host bus last returned (log 4). -/
  reply    : Option Word
  /-- The model's own: how many free values have been drawn (log 3). -/
  draws    : Nat
  deriving DecidableEq, Repr

/-- Hardware reset of a block with parameters `p` in a system whose memory is `m`: the table of
70_reset_and_hazards.md R490. Memory is not block state and keeps its bytes (R62). -/
def State.resetWith (p : Params) (m : Memory) : State where
  par      := p
  ctl      := ⟨false, false, false, false, false, false, .idle, 0, 0, 0⟩
  args     := ⟨0, 0, 0, 0⟩
  res      := ⟨0, 0, 0, 0⟩
  hdr      := ⟨0, 0, 0, 0, 0, 0, 0⟩
  buf      := ⟨0, 0, 0, 0, 0, 0⟩
  der      := ⟨0, 0, 0, 0, 0, 0⟩
  inf      := ⟨0, 0, 0⟩
  rowsDone := 0
  pf       := ⟨0, 0, 0, 0, 0, 0, 0, 0, 0, 0⟩
  pathLen  := 0
  pfSteps  := 0
  pending  := none
  latch    := ⟨0, 0, 0, 0, 0, 0, 0, 0⟩
  node     := []
  frontier := []
  unit     := .idle
  mem      := m
  item     := none
  agenda   := []
  reply    := none
  draws    := 0

/-- The machine right after hardware reset, with the parameters of the spec's vectors (log 1) and nothing
listed in memory (log 2). -/
def State.reset : State := State.resetWith Params.vectors []

end Sys2Proof.Machine
end

