-- ==== Sys2Proof/Machine/Ops.lean ====
section
/-! DEFINITION. The shared operations: sparse memories, byte accesses (20_memory.md R107), free values,
regions and their check (R109 to R111), how a command's rule ends, completion with success or an error
(60_exceptions.md R455), and the acceptance of a command (10_state.md R40), which is also the end of the error
state (R465). -/

namespace Sys2Proof.Machine

/-! ### Sparse data by key -/

/-- The value listed under a key, if one is. -/
def Sparse.get {α : Type} (m : List (Nat × α)) (a : Nat) : Option α :=
  match m with
  | [] => none
  | (k, v) :: rest => if k = a then some v else Sparse.get rest a

/-- List a value under a key, or unlist the key; the keys stay strictly rising. -/
def Sparse.set {α : Type} (m : List (Nat × α)) (a : Nat) (o : Option α) : List (Nat × α) :=
  match m with
  | [] =>
    match o with
    | none => []
    | some v => [(a, v)]
  | (k, b) :: rest =>
    if a < k then
      match o with
      | none => (k, b) :: rest
      | some v => (a, v) :: (k, b) :: rest
    else if a = k then
      match o with
      | none => rest
      | some v => (a, v) :: rest
    else (k, b) :: Sparse.set rest a o

/-! ### System memory -/

/-- What a byte of memory that is not listed reads as: 0x00, as in the conventions of 95_test_vectors.md.
DESIGN CHOICE (log 2). -/
def Memory.blank : Byte := 0

/-- Read one byte. -/
def Memory.readByte (m : Memory) (a : Nat) : Byte := (Sparse.get m a).getD Memory.blank

/-- Write one byte; a byte that becomes blank is unlisted, so the form stays canonical. -/
def Memory.writeByte (m : Memory) (a : Nat) (v : Byte) : Memory :=
  Sparse.set m a (if v = Memory.blank then none else some v)

/-- `MemRead(addr, n)` (00_scope.md R11): n bytes in address order. -/
def Memory.read (m : Memory) (a n : Nat) : List Byte :=
  match n with
  | 0 => []
  | k + 1 => Memory.readByte m a :: Memory.read m (a + 1) k

/-- `MemWrite(addr, n, bytes)` (R11): the bytes in address order. -/
def Memory.write (m : Memory) (a : Nat) (bytes : List Byte) : Memory :=
  match bytes with
  | [] => m
  | b :: rest => Memory.write (Memory.writeByte m a b) (a + 1) rest

/-- n bytes from address a become unspecified: each is a free value (93_implementation_defined.md S2 to S4). -/
def Memory.draw (m : Memory) (a n k : Nat) : Memory :=
  match n with
  | 0 => m
  | j + 1 => Memory.draw (Memory.writeByte m a (Config.freeByte k)) (a + 1) j (k + 1)

/-- le16 of R11. -/
def le16 (b0 b1 : Nat) : Nat := b0 + 256 * b1

/-- be16 of R11. -/
def be16 (b0 b1 : Nat) : Nat := 256 * b0 + b1

/-- be32 of R11. -/
def be32 (b0 b1 b2 b3 : Nat) : Nat := b0 * 2 ^ 24 + b1 * 2 ^ 16 + b2 * 2 ^ 8 + b3

/-- `le16bytes(v)` (42_unpack.md R313): v mod 256, then floor(v / 256). -/
def le16bytes (v : Nat) : List Byte := [BitVec.ofNat 8 (v % 256), BitVec.ofNat 8 (v / 256)]

/-- A Nat saturated at 0xFFFFFFFF (40_inflate.md R252). -/
def saturate (n : Nat) : Word := BitVec.ofNat 32 (min n 0xFFFFFFFF)

/-! ### Error codes -/

/-- The code of an error kind (60_exceptions.md R451). -/
def ErrorKind.code (e : ErrorKind) : Byte :=
  match e with
  | .none => 0x00
  | .invalidSignature => 0x01
  | .checksumMismatch => 0x02
  | .insufficientBytes => 0x03
  | .missingHeader => 0x04
  | .missingTerminator => 0x05
  | .missingImageData => 0x06
  | .missingPalette => 0x07
  | .invalidColorType => 0x08
  | .invalidBitDepth => 0x09
  | .invalidInterlace => 0x0A
  | .unsupportedMethod => 0x0B
  | .unsupportedInterlace => 0x0C
  | .decompressionFailed => 0x0D
  | .unknownFilter => 0x0E
  | .scanlineSizeMismatch => 0x0F
  | .noPath => 0x10
  | .illegalCommand => 0x20
  | .notConfigured => 0x21
  | .invalidDimensions => 0x22
  | .tooLarge => 0x23
  | .outputOverflow => 0x24
  | .rowOutOfRange => 0x25
  | .busError => 0x26
  | .invalidCoordinate => 0x27
  | .frontierOverflow => 0x28
  | .frontierEmpty => 0x29
  | .nodeNotFound => 0x2A
  | .searchStateError => 0x2B
  | .regionOverlap => 0x2C

/-! ### How a command's rule ends -/

/-- How a rule, or a part of one, ends: it ran to its end, it raised an error with its info
(00_scope.md R11), or it met a state no run reaches (log 12). A raise keeps the changes made before it
(60_exceptions.md R456). -/
inductive Ended where
  | ok (s : State)
  | raised (e : ErrorKind) (info : Word) (s : State)
  | stuck (f : Fault)
  deriving DecidableEq, Repr

/-- Go on with the rule unless it has ended: no statement after a raise runs (R11). -/
def Ended.andThen (r : Ended) (f : State → Ended) : Ended :=
  match r with
  | .ok s => f s
  | .raised e info s => .raised e info s
  | .stuck x => .stuck x

/-- Change the state of a raise, for what a rule leaves unspecified when it fails (R458). -/
def Ended.onRaise (r : Ended) (f : State → State) : Ended :=
  match r with
  | .ok s => .ok s
  | .raised e info s => .raised e info (f s)
  | .stuck x => .stuck x

/-- `raise E(n)` (R11). -/
def raiseError (e : ErrorKind) (n : Nat) (s : State) : Ended := .raised e (BitVec.ofNat 32 n) s

/-! ### Completion: the taking of an error (60_exceptions.md R455, R464) -/

/-- Completion after a success: DONE rises, BUSY falls, `pending` becomes empty, the transient state goes. -/
def finish (s : State) : State :=
  { s with ctl := { s.ctl with done := true }, pending := none, unit := .idle }

/-- Completion with an error: ERR rises, and ERR_CODE, ERR_INFO and ERR_CMD save the code, the info and the
OPC of the failing command. Control goes nowhere: the engine becomes idle (R464). -/
def takeError (opc : Byte) (e : ErrorKind) (info : Word) (s : State) : State :=
  finish { s with ctl := { s.ctl with err := true, errCode := e.code, errInfo := info, errCmd := opc } }

/-- `Complete(outcome)` (R455) of the command with this OPC. -/
def complete (opc : Byte) (r : Ended) : Host.Outcome State Fault Refusal :=
  match r with
  | .ok s => .next (finish s)
  | .raised e info s => .next (takeError opc e info s)
  | .stuck f => .fault f

/-- BUSY, which is 1 exactly when `pending` is not empty (10_state.md R55). -/
def State.busy (s : State) : Bool := s.pending.isSome

/-- A host write of a word to CMD (R40), the acceptance of a command and the end of the error state (R465).
Accepting an INFLATE or a DECODE also clears INF_OK (R48; log 16). -/
def accept (w : Word) (s : State) : State :=
  if s.busy then { s with ctl := { s.ctl with ovr := true } }
  else
    { s with
      pending := some w
      ctl := { s.ctl with
        done := false
        err := false
        errCode := 0
        errInfo := 0
        errCmd := 0
        infOk := if w = 0x02 ∨ w = 0x06 then false else s.ctl.infOk } }

/-! ### Regions (20_memory.md R106 to R111) -/

/-- The bus predicate `admit(a, k)` (R106): no closed window holds the byte. -/
def admits (p : Params) (a : Nat) (k : Access) : Bool :=
  !p.closed.any fun w => decide (w.kind = k ∧ w.base ≤ a ∧ a < w.base + w.len)

/-- Where a window and a region of its kind first meet. -/
def Window.meets (w : Window) (r : Region) : Option Nat :=
  if w.kind = r.kind ∧ max w.base r.base < min (w.base + w.len) (r.base + r.len)
  then some (max w.base r.base) else none

/-- The first byte of a region, in ascending order, that the bus does not admit. -/
def firstUnadmitted (p : Params) (r : Region) : Option Nat :=
  (p.closed.filterMap fun w => Window.meets w r).min?

/-- `overlap(r, s)` of R110: some byte lies in both. -/
def Region.overlaps (r s : Region) : Bool :=
  decide (0 < r.len ∧ 0 < s.len ∧ r.base < s.base + s.len ∧ s.base < r.base + r.len)

/-- A region is in range (R109). -/
def Region.inRange (r : Region) : Bool := decide (r.base + r.len ≤ 2 ^ 32)

/-- Pass 1 of R110: the first region that passes 2^32. -/
def firstTooLarge (i : Nat) (rs : List Region) : Option Nat :=
  match rs with
  | [] => none
  | r :: rest => if 2 ^ 32 < r.base + r.len then some i else firstTooLarge (i + 1) rest

/-- Pass 2 of R110, for one region: the first later one it may not overlap. -/
def firstClash (r : Region) (j : Nat) (rs : List Region) : Option Nat :=
  match rs with
  | [] => none
  | s :: rest =>
    if (r.kind = .W ∨ s.kind = .W) ∧ r.overlaps s = true then some j else firstClash r (j + 1) rest

/-- Pass 2 of R110: i × 256 + j of the first pair that may not overlap and does. -/
def firstOverlap (i : Nat) (rs : List Region) : Option Nat :=
  match rs with
  | [] => none
  | r :: rest =>
    match firstClash r (i + 1) rest with
    | some j => some (i * 256 + j)
    | none => firstOverlap (i + 1) rest

/-- Pass 3 of R110: the first unadmitted byte, region by region. -/
def firstBusError (p : Params) (rs : List Region) : Option Nat :=
  match rs with
  | [] => none
  | r :: rest =>
    match firstUnadmitted p r with
    | some a => some a
    | none => firstBusError p rest

/-- `CheckRegions(rs)` of R110: range, then overlap, then bus admission, each pass run fully before the next. -/
def checkRegions (rs : List Region) (s : State) : Ended :=
  match firstTooLarge 0 rs with
  | some i => raiseError .tooLarge i s
  | none =>
    match firstOverlap 0 rs with
    | some ij => raiseError .regionOverlap ij s
    | none =>
      match firstBusError s.par rs with
      | some a => raiseError .busError a s
      | none => .ok s

/-- Every byte of a region becomes unspecified (R458, 70_reset_and_hazards.md R491). -/
def drawRegion (r : Region) (s : State) : State :=
  { s with mem := s.mem.draw r.base r.len s.draws, draws := s.draws + r.len }

/-- The bytes of a region that exist: addresses end at 2^32 (20_memory.md R100). -/
def Region.clipped (r : Region) : Region := { r with len := min r.len (2 ^ 32 - r.base) }

/-- Every byte of the write regions of a list becomes unspecified. -/
def drawWrites (rs : List Region) (s : State) : State :=
  match rs with
  | [] => s
  | r :: rest =>
    match r.kind with
    | .R => drawWrites rest s
    | .W => drawWrites rest (drawRegion r.clipped s)

/-- INF_LEN, INF_SRC_USED and INF_ADLER become unspecified (40_inflate.md R253, S1). -/
def drawInfResults (s : State) : State :=
  { s with
    inf := ⟨Config.freeWord s.draws, Config.freeWord (s.draws + 1), Config.freeWord (s.draws + 2)⟩
    draws := s.draws + 3 }

/-! ### Items run by themselves (log 5) -/

/-- A unit runs on these regions, which its command's CheckRegions has found in range (R109; log 12). -/
def onRegions (rs : List Region) (run : Host.Outcome State Fault Refusal) : Host.Outcome State Fault Refusal :=
  if rs.all Region.inRange then run else .fault .unitOutside

/-- How the run of one data encoding ends: the command goes on, or the raise completes it with the OPC of
`pending`. Without a command no unit runs. -/
def endItem (fmt : Format) (s : State) (r : Ended) : Host.Outcome State Fault Refusal :=
  match s.pending with
  | none => .refused (.itemOutOfPlace fmt)
  | some w =>
    match r with
    | .ok t => .next t
    | .raised e info t => complete (w.setWidth 8) (.raised e info t)
    | .stuck f => .fault f

end Sys2Proof.Machine
end

