-- ==== Sys2Proof/Machine/Flags.lean ====
section
/-! DEFINITION. The flags: the STATUS word and its write-one-to-clear bits (10_state.md R38, R41), PF_STATE's
codes (R52) and the interrupt output (60_exceptions.md R460). There are no condition codes (R61). -/

namespace Sys2Proof.Machine

/-- The code of PF_STATE (R52). -/
def PfState.code (p : PfState) : Nat :=
  match p with
  | .idle => 0
  | .active => 1
  | .found => 2
  | .noPath => 3
  | .failed => 4

/-- A flag as a bit. -/
def flagBit (b : Bool) : Nat := if b then 1 else 0

/-- PQ_COUNT, always len(FRONTIER) (R51, R58). -/
def State.pqCount (s : State) : Word := BitVec.ofNat 32 s.frontier.length

/-- The STATUS word (R38): BUSY 0, DONE 1, ERR 2, OVR 3, CFG_VALID 4, INF_OK 5, PF_STATE [10:8]; reserved bits
read 0 (R34). -/
def State.statusWord (s : State) : Word :=
  BitVec.ofNat 32 (flagBit s.busy + 2 * flagBit s.ctl.done + 4 * flagBit s.ctl.err + 8 * flagBit s.ctl.ovr
    + 16 * flagBit s.ctl.cfgValid + 32 * flagBit s.ctl.infOk + 256 * s.ctl.pfState.code)

/-- A host write to STATUS (R41): a 1 clears DONE, ERR or OVR; a 0 leaves it; the RO fields ignore it. -/
def State.writeStatus (v : Word) (s : State) : State :=
  { s with ctl := { s.ctl with
      done := s.ctl.done && !v.getLsbD 1
      err := s.ctl.err && !v.getLsbD 2
      ovr := s.ctl.ovr && !v.getLsbD 3 } }

/-- The interrupt output IRQ = CTRL.IE AND STATUS.DONE (R460). -/
def State.irq (s : State) : Bool := s.ctl.ie && s.ctl.done

end Sys2Proof.Machine
end

