-- ==== Sys2Proof/Machine/Operands.lean ====
section
/-! DEFINITION. How commands take their operands from registers and place their results (30_encoding.md R143,
R144). Every field is unsigned and zero-extended; nothing is signed, scaled or shifted. -/

namespace Sys2Proof.Machine

/-- The row operand of UNFILTER_ROW and UNPACK_ROW: ARG0[31:0]. -/
def State.rowOperand (s : State) : Nat := s.args.a0.toNat

/-- The cell operand of PQ_INSERT, PQ_DECREASE and NODE_READ: ARG0[15:0], ARG1[15:0]; bits [31:16] are ignored. -/
def State.cellOperand (s : State) : Coord := ⟨s.args.a0.setWidth 16, s.args.a1.setWidth 16⟩

/-- The cost operand of PQ_INSERT and PQ_DECREASE: ARG2[31:0]. -/
def State.costOperand (s : State) : Word := s.args.a2

/-- The d operand of PQ_INSERT: ARG3[31:0]. -/
def State.distanceOperand (s : State) : Word := s.args.a3

/-- A frontier entry in RES0 to RES3: x, y, cost, d, each zero-extended (R144). -/
def Entry.results (e : Entry) : Results := ⟨e.x.setWidth 32, e.y.setWidth 32, e.cost, e.d⟩

/-- The SRC region (20_memory.md R104). -/
def State.srcRegion (s : State) : Region := ⟨s.buf.srcAddr.toNat, s.buf.srcLen.toNat, .R⟩

/-- The INF region (R104), as INFLATE and DECODE write it. -/
def State.infRegion (s : State) : Region := ⟨s.buf.infAddr.toNat, s.buf.infCap.toNat, .W⟩

/-- The address of scanline y in the INF buffer: INF_ADDR + y × (1 + SB) (R104). -/
def State.infRow (s : State) (y : Nat) : Nat := s.buf.infAddr.toNat + y * (1 + s.der.scanlineBytes.toNat)

/-- The address of row y in the RAW buffer: RAW_ADDR + y × SB (R104). -/
def State.rawRow (s : State) (y : Nat) : Nat := s.buf.rawAddr.toNat + y * s.der.scanlineBytes.toNat

/-- The address of row y in the PIX buffer: PIX_ADDR + 8 × y × W (R104). -/
def State.pixRow (s : State) (y : Nat) : Nat := s.buf.pixAddr.toNat + 8 * y * s.hdr.width.toNat

/-- The GRID region of the latched search (R104). -/
def State.gridRegion (s : State) : Region := ⟨s.latch.grid.toNat, s.latch.w.toNat * s.latch.h.toNat, .R⟩

/-- The PATH region of n entries (R104, 45_pathfinder.md R418). -/
def State.pathRegion (s : State) (n : Nat) : Region := ⟨s.pf.pathAddr.toNat, 4 * n, .W⟩

end Sys2Proof.Machine
end

