-- ==== Sys2Proof/Machine/Frontier.lean ====
section
/-! DEFINITION. The frontier priority queue (44_frontier.md): the exact key order, its operations, and the five
PQ commands. -/

namespace Sys2Proof.Machine

/-! ### The key order (R370, R372) -/

/-- `S(t, P, Q)`: the sign of t + √P − √Q, for t ≥ 0. -/
def keySign (t p q : Int) : Int :=
  let a := t * t + p - q
  let b := 2 * t
  if 0 ≤ a then (if a = 0 ∧ b * b * p = 0 then 0 else 1)
  else Int.sign (b * b * p - a * a)

/-- `KeyCmp(c1, d1, c2, d2)`: −1, 0 or 1 as c1 + √d1 is below, equal to or above c2 + √d2. -/
def keyCmp (c1 d1 c2 d2 : Nat) : Int :=
  let t : Int := (c1 : Int) - c2
  if 0 ≤ t then keySign t d1 d2 else -keySign (-t) d2 d1

/-- KeyCmp of two entries. -/
def Entry.cmp (e f : Entry) : Int := keyCmp e.cost.toNat e.d.toNat f.cost.toNat f.d.toNat

/-! ### Operations (R374 to R377) -/

/-- An entry is for a cell. -/
def Entry.isAt (c : Coord) (e : Entry) : Bool := e.x = c.x && e.y = c.y

/-- The index of the entry of a cell, or NONE. -/
def findCell (f : List Entry) (c : Coord) : Option Nat := f.findIdx? (Entry.isAt c)

/-- The insertion position of a new entry: how many entries have a smaller or equal key (R375). -/
def insertPos (f : List Entry) (e : Entry) : Nat := f.countP fun g => decide (g.cmp e ≤ 0)

/-- `insertAt` (00_scope.md R11). -/
def insertAt (f : List Entry) (p : Nat) (e : Entry) : List Entry := f.take p ++ e :: f.drop p

/-- The frontier with an entry at its position, in place of the cell's old entry (R376). -/
def placeEntry (f : List Entry) (e : Entry) : List Entry :=
  let g := match findCell f ⟨e.x, e.y⟩ with
    | none => f
    | some j => f.eraseIdx j
  insertAt g (insertPos g e) e

/-- A new cell does not fit in the frontier (R376). -/
def State.frontierFull (s : State) (c : Coord) : Bool :=
  (findCell s.frontier c).isNone && decide (s.par.frontierCap.toNat ≤ s.frontier.length)

/-- `FInsert` (R376): the capacity check comes before any change. -/
def frontierInsert (e : Entry) (s : State) : Ended :=
  if s.frontierFull ⟨e.x, e.y⟩ then .raised .frontierOverflow s.par.frontierCap s
  else .ok { s with frontier := placeEntry s.frontier e }

/-- `FExtract` (R377): the entry of the minimum key, the first inserted of them; then the rule goes on. -/
def frontierExtract (s : State) (next : Entry → State → Ended) : Ended :=
  match s.frontier with
  | [] => raiseError .frontierEmpty 0 s
  | e :: rest => next e { s with frontier := rest }

/-- `FPeek` (R377). -/
def frontierPeek (s : State) (next : Entry → State → Ended) : Ended :=
  match s.frontier with
  | [] => raiseError .frontierEmpty 0 s
  | e :: _ => next e s

/-- The direct frontier commands are refused while a search is active (R383). -/
def requireNoSearch (s : State) : Ended :=
  if s.ctl.pfState = .active then raiseError .searchStateError s.ctl.pfState.code s else .ok s

/-! ### The commands -/

/-- The rule of PQ_CLEAR (R378). -/
def pqClearRule (s : State) : Ended :=
  (requireNoSearch s).andThen fun s => .ok { s with frontier := [] }

/-- PQ_CLEAR (R378). -/
def execPqClear (s : State) : Host.Outcome State Fault Refusal := complete 0x18 (pqClearRule s)

/-- The entry PQ_INSERT makes of its operands (R379). -/
def State.insertOperand (s : State) : Entry :=
  ⟨s.cellOperand.x, s.cellOperand.y, s.costOperand, s.distanceOperand⟩

/-- The rule of PQ_INSERT (R379). -/
def pqInsertRule (s : State) : Ended :=
  (requireNoSearch s).andThen fun s => frontierInsert s.insertOperand s

/-- PQ_INSERT (R379). -/
def execPqInsert (s : State) : Host.Outcome State Fault Refusal := complete 0x19 (pqInsertRule s)

/-- The rule of PQ_EXTRACT (R380). -/
def pqExtractRule (s : State) : Ended :=
  (requireNoSearch s).andThen fun s => frontierExtract s fun e s => .ok { s with res := e.results }

/-- PQ_EXTRACT (R380). -/
def execPqExtract (s : State) : Host.Outcome State Fault Refusal := complete 0x1A (pqExtractRule s)

/-- The rule of PQ_PEEK (R381): allowed in every PF_STATE. -/
def pqPeekRule (s : State) : Ended := frontierPeek s fun e s => .ok { s with res := e.results }

/-- PQ_PEEK (R381). -/
def execPqPeek (s : State) : Host.Outcome State Fault Refusal := complete 0x1B (pqPeekRule s)

/-- x + 65536 × y of a cell. -/
def Coord.packed (c : Coord) : Nat := c.x.toNat + 65536 * c.y.toNat

/-- The rule of PQ_DECREASE (R382): only a lower cost moves the entry, which keeps its d. -/
def pqDecreaseRule (s : State) : Ended :=
  (requireNoSearch s).andThen fun s =>
    match s.frontier.find? (Entry.isAt s.cellOperand) with
    | none => raiseError .nodeNotFound s.cellOperand.packed s
    | some e =>
      if s.costOperand.toNat < e.cost.toNat then frontierInsert ⟨e.x, e.y, s.costOperand, e.d⟩ s else .ok s

/-- PQ_DECREASE (R382). -/
def execPqDecrease (s : State) : Host.Outcome State Fault Refusal := complete 0x1C (pqDecreaseRule s)

end Sys2Proof.Machine
end

