-- ==== Sys2Proof/Machine/Pathfinder.lean ====
section
/-! DEFINITION. The pathfinder (45_pathfinder.md): grid and heuristic, PF_START, PF_STEP, PF_TRACE, PF_SEARCH,
NODE_READ, and the meanings of the PF_MODE items (30_encoding.md R148). -/

namespace Sys2Proof.Machine

/-! ### Node table, grid and heuristic -/

/-- The element of a cell in the node table: y × L_W + x (10_state.md R57). -/
def State.cellIndex (s : State) (c : Coord) : Nat := c.y.toNat * s.latch.w.toNat + c.x.toNat

/-- NODE[c]: none is EMPTY. -/
def State.nodeAt (s : State) (c : Coord) : Option Node := Sparse.get s.node (s.cellIndex c)

/-- NODE[c] ← n. -/
def State.putNode (s : State) (c : Coord) (n : Node) : State :=
  { s with node := Sparse.set s.node (s.cellIndex c) (some n) }

/-- The square of a coordinate difference. -/
def squaredDiff (a b : Nat) : Nat := (((a : Int) - b) * ((a : Int) - b)).toNat

/-- d(x, y) (R406): the squared Euclidean distance to the goal under A*, 0 under Dijkstra. -/
def State.heuristic (s : State) (c : Coord) : Word :=
  if s.latch.mode = 1 then
    BitVec.ofNat 32 (squaredDiff c.x.toNat s.latch.gx.toNat + squaredDiff c.y.toNat s.latch.gy.toNat)
  else 0

/-- The start and the goal of the latched search. -/
def PfLatch.start (l : PfLatch) : Coord := ⟨l.sx, l.sy⟩

/-- The goal of the latched search. -/
def PfLatch.goal (l : PfLatch) : Coord := ⟨l.gx, l.gy⟩

/-- The neighbours N, S, E, W of a cell, in that order: (x, y−1), (x, y+1), (x+1, y), (x−1, y). A cell at the
edge has no neighbour beyond it (R403, R404). -/
def State.neighbours (s : State) (c : Coord) : List Coord :=
  let x := c.x.toNat
  let y := c.y.toNat
  (if 0 < y then [⟨c.x, BitVec.ofNat 16 (y - 1)⟩] else []) ++
  (if y + 1 < s.latch.h.toNat then [⟨c.x, BitVec.ofNat 16 (y + 1)⟩] else []) ++
  (if x + 1 < s.latch.w.toNat then [⟨BitVec.ofNat 16 (x + 1), c.y⟩] else []) ++
  (if 0 < x then [⟨BitVec.ofNat 16 (x - 1), c.y⟩] else [])

/-- The address of a grid byte: L_GRID + y × L_W + x (R401). -/
def State.gridAddrOf (s : State) (c : Coord) : Nat := s.latch.grid.toNat + s.cellIndex c

/-- A cell is on the latched grid (R401). -/
def State.onGrid (s : State) (c : Coord) : Bool :=
  decide (c.x.toNat < s.latch.w.toNat) && decide (c.y.toNat < s.latch.h.toNat)

/-! ### PF_START -/

/-- PF_START's checks before its region check, in their order (R410). -/
def pfStartChecks (s : State) : Ended :=
  let w := s.pf.w.toNat
  let h := s.pf.h.toNat
  if w = 0 ∨ Config.maxPfDim < w then raiseError .invalidDimensions 2 s
  else if h = 0 ∨ Config.maxPfDim < h then raiseError .invalidDimensions 3 s
  else if s.par.nodeCap.toNat < w * h then raiseError .tooLarge 0x102 s
  else if w ≤ s.pf.startX.toNat ∨ h ≤ s.pf.startY.toNat then raiseError .invalidCoordinate 0 s
  else if w ≤ s.pf.goalX.toNat ∨ h ≤ s.pf.goalY.toNat then raiseError .invalidCoordinate 1 s
  else .ok s

/-- The region of PF_START: the grid (R410). -/
def pfStartRegionList (s : State) : List Region :=
  [⟨s.pf.gridAddr.toNat, s.pf.w.toNat * s.pf.h.toNat, .R⟩]

/-- The latch with a mode bit (R402). -/
def State.latchWith (s : State) (mode : BitVec 1) : PfLatch :=
  ⟨s.pf.w, s.pf.h, s.pf.gridAddr, s.pf.startX, s.pf.startY, s.pf.goalX, s.pf.goalY, mode⟩

/-- PF_START after its checks: latch, clear, seed the frontier with the start at cost 0 (R410, R411). -/
def pfSeed (mode : BitVec 1) (s : State) : Ended :=
  let s := { s with latch := s.latchWith mode, node := [], frontier := [], pfSteps := 0, pathLen := 0 }
  let c := s.latch.start
  let d := s.heuristic c
  (frontierInsert ⟨c.x, c.y, 0, d⟩ (s.putNode c ⟨0, none, d⟩)).andThen fun s =>
    .ok { s with ctl := { s.ctl with pfState := .active } }

/-- `PfStart()` (R410). -/
def pfStart (s : State) : Ended :=
  (pfStartChecks s).andThen fun s =>
    (checkRegions (pfStartRegionList s) s).andThen fun s => pfSeed s.pf.mode s

/-- PF_START (R410). -/
def execPfStart (s : State) : Host.Outcome State Fault Refusal := complete 0x10 (pfStart s)

/-! ### PF_STEP -/

/-- The node of v after its relaxation from u at cost nc (R413): a new node, or the lowered one. -/
def State.relaxedNode (s : State) (u v : Coord) (nc : Nat) : Node :=
  match s.nodeAt v with
  | none => ⟨BitVec.ofNat 32 nc, some u, s.heuristic v⟩
  | some n => ⟨BitVec.ofNat 32 nc, some u, n.d⟩

/-- A relaxation to cost nc improves v: v has no node, or one of a higher cost (R413, R414). -/
def State.improves (s : State) (v : Coord) (nc : Nat) : Bool :=
  match s.nodeAt v with
  | none => true
  | some n => decide (nc < n.cost.toNat)

/-- `Relax(u, v)` (R413): the capacity check comes first. -/
def relax (u v : Coord) (s : State) : Ended :=
  match s.nodeAt u with
  | none => .stuck (.nodeMissing u.x u.y)
  | some nu =>
    let nc := nu.cost.toNat + 1
    if s.improves v nc then
      if s.frontierFull v then
        .raised .frontierOverflow s.par.frontierCap { s with ctl := { s.ctl with pfState := .failed } }
      else
        let n := s.relaxedNode u v nc
        frontierInsert ⟨v.x, v.y, n.cost, n.d⟩ (s.putNode v n)
    else .ok s

/-- The neighbour v is relaxed if it is passable: on the grid, with a grid byte, read now, that is not 0 (R403,
R412). -/
def relaxPassable (u v : Coord) (s : State) : Ended :=
  if s.onGrid v = false then .ok s
  else if 2 ^ 32 ≤ s.gridAddrOf v then .stuck (.gridOutside (s.gridAddrOf v))
  else if s.mem.readByte (s.gridAddrOf v) = 0 then .ok s
  else relax u v s

/-- The neighbours, one after another (R412). -/
def relaxAll (u : Coord) (vs : List Coord) (s : State) : Ended :=
  match vs with
  | [] => .ok s
  | v :: rest => (relaxPassable u v s).andThen fun s => relaxAll u rest s

/-- PF_STEP after the extraction of an entry: RES, PF_STEPS, then the goal test or the relaxations (R412, R416). -/
def pfExpand (e : Entry) (s : State) : Ended :=
  let s := { s with res := e.results, pfSteps := s.pfSteps + 1 }
  if e.x = s.latch.gx ∧ e.y = s.latch.gy then .ok { s with ctl := { s.ctl with pfState := .found } }
  else relaxAll ⟨e.x, e.y⟩ (s.neighbours ⟨e.x, e.y⟩) s

/-- `PfStep()` (R412, R417). -/
def pfStep (s : State) : Ended :=
  if s.ctl.pfState ≠ .active then raiseError .searchStateError s.ctl.pfState.code s
  else if s.frontier = [] then
    .raised .noPath s.pfSteps { s with ctl := { s.ctl with pfState := .noPath } }
  else frontierExtract s pfExpand

/-- PF_STEP (R412). -/
def execPfStep (s : State) : Host.Outcome State Fault Refusal := complete 0x11 (pfStep s)

/-! ### PF_TRACE -/

/-- A chain of predecessors, or why there is none. -/
inductive Chain where
  | path (cells : List Coord)
  | broken (f : Fault)
  deriving DecidableEq, Repr

/-- The loop of `PfTrace` (R418): from cell c to the start, at most `fuel` cells; the cells found so far come
after. -/
def traceChain (s : State) (fuel : Nat) (c : Coord) (cells : List Coord) : Chain :=
  match fuel with
  | 0 => .broken .predecessorCycle
  | k + 1 =>
    match s.nodeAt c with
    | none => .broken (.nodeMissing c.x c.y)
    | some n =>
      match n.pred with
      | none => .path (c :: cells)
      | some p => traceChain s k p (c :: cells)

/-- The path from the start to the goal: at most L_W × L_H cells (R418). -/
def State.foundPath (s : State) : Chain :=
  traceChain s (s.latch.w.toNat * s.latch.h.toNat) s.latch.goal []

/-- The bytes of path entries: x then y, each a little-endian u16 (R430). -/
def pathBytes (cells : List Coord) : List Byte :=
  cells.flatMap fun c => le16bytes c.x.toNat ++ le16bytes c.y.toNat

/-- `PfTrace` with the path it has found (R418). -/
def tracePath (extra : List Region) (cells : List Coord) (s : State) : Ended :=
  let n := cells.length
  if s.pf.pathCap.toNat < n then raiseError .outputOverflow n s
  else (checkRegions (extra ++ [s.pathRegion n]) s).andThen fun s =>
    .ok { s with mem := s.mem.write s.pf.pathAddr.toNat (pathBytes cells), pathLen := BitVec.ofNat 32 n }

/-- `PfTrace(extra)` (R418). -/
def pfTrace (extra : List Region) (s : State) : Ended :=
  if s.ctl.pfState ≠ .found then raiseError .searchStateError s.ctl.pfState.code s
  else
    match s.foundPath with
    | .broken f => .stuck f
    | .path cells => tracePath extra cells s

/-- PF_TRACE (R418). -/
def execPfTrace (s : State) : Host.Outcome State Fault Refusal := complete 0x12 (pfTrace [] s)

/-! ### PF_SEARCH -/

/-- The loop of PF_SEARCH: steps while the search is active (R422). -/
def pfLoop (fuel : Nat) (s : State) : Ended :=
  if s.ctl.pfState ≠ .active then .ok s
  else
    match fuel with
    | 0 => .stuck .searchUnbounded
    | k + 1 => (pfStep s).andThen fun s => pfLoop k s

/-- More steps than a search can take: every step takes an entry out, and an entry comes in only when a cell's
node is made or its u32 cost falls (R420; log 21). -/
def State.searchFuel (s : State) : Nat := s.latch.w.toNat * s.latch.h.toNat * 2 ^ 33 + 2

/-- The phases of PF_SEARCH before its trace: PF_START, then the steps (R422). -/
def pfSearchSteps (s : State) : Ended := (pfStart s).andThen fun s => pfLoop s.searchFuel s

/-- The rule of PF_SEARCH (R422). -/
def pfSearchRule (s : State) : Ended := (pfSearchSteps s).andThen fun s => pfTrace [s.gridRegion] s

/-- PF_SEARCH (R422). -/
def execPfSearch (s : State) : Host.Outcome State Fault Refusal := complete 0x13 (pfSearchRule s)

/-! ### NODE_READ -/

/-- The results of NODE_READ for a cell (R424). -/
def nodeResults (s : State) (c : Coord) : Results :=
  match s.nodeAt c with
  | none => ⟨0, 0, 0, 0⟩
  | some n =>
    let inq := flagBit (findCell s.frontier c).isSome
    let pv := flagBit n.pred.isSome
    let pred := match n.pred with
      | none => 0
      | some p => p.packed
    ⟨BitVec.ofNat 32 (1 + 2 * inq + 4 * pv), n.cost, BitVec.ofNat 32 pred, n.d⟩

/-- The rule of NODE_READ (R424). -/
def nodeReadRule (s : State) : Ended :=
  if s.onGrid s.cellOperand then .ok { s with res := nodeResults s s.cellOperand }
  else raiseError .invalidCoordinate 2 s

/-- NODE_READ (R424). -/
def execNodeRead (s : State) : Host.Outcome State Fault Refusal := complete 0x1D (nodeReadRule s)

/-! ### PF_MODE items -/

/-- A decoded mode bit, when PF_START latches it: the search is seeded in that mode (R402, R406, R410). -/
def modeItem (mode : BitVec 1) (s : State) : Host.Outcome State Fault Refusal :=
  match s.unit with
  | .starting => endItem .pfMode s (pfSeed mode { s with unit := .idle })
  | .idle | .headerKey | .headerInterlace _ _ | .bodyCheck | .inflating _ | .unfiltering _ | .unpacking _ =>
    .refused (.itemOutOfPlace .pfMode)

/-- PF_DIJKSTRA (30_encoding.md R148). -/
def execPfDijkstra (s : State) : Host.Outcome State Fault Refusal := modeItem 0 s

/-- PF_ASTAR (R148). -/
def execPfAstar (s : State) : Host.Outcome State Fault Refusal := modeItem 1 s

end Sys2Proof.Machine
end

