-- ==== Sys2Proof/Machine/Header.lean ====
section
/-! DEFINITION. NOP, the header check and the checks the row commands share (43_decode_pipeline.md R330 to R341),
and the meanings of the INTERLACE items (30_encoding.md R147) and of the header pairs in the header check
(R146). -/

namespace Sys2Proof.Machine

/-! ### NOP -/

/-- NOP (R330): completes with success. -/
def execNop (s : State) : Host.Outcome State Fault Refusal := complete 0x00 (.ok s)

/-! ### Color models (42_unpack.md R301) -/

/-- Channels of a color type; none for a code that is no color type. -/
def channelsOf (ct : Nat) : Option Nat :=
  match ct with
  | 0 => some 1
  | 2 => some 3
  | 3 => some 1
  | 4 => some 2
  | 6 => some 4
  | _ => none

/-- The bit depths allowed for a color type. -/
def depthsOf (ct : Nat) : List Nat :=
  match ct with
  | 0 => [1, 2, 4, 8, 16]
  | 2 => [8, 16]
  | 3 => [1, 2, 4, 8]
  | 4 => [8, 16]
  | 6 => [8, 16]
  | _ => []

/-- PIX_KIND of a color type (R332): 0 Grayscale, 2 Palette, 1 for the three others. -/
def pixKindOf (ct : Nat) : Nat :=
  match ct with
  | 0 => 0
  | 3 => 2
  | _ => 1

/-- ceil(a / 8). -/
def ceilDiv8 (a : Nat) : Nat := (a + 7) / 8

/-- pixel-bit-size = channels × bit-depth. -/
def pixelBitsOf (ct bd : Nat) : Nat := (channelsOf ct).getD 0 * bd

/-- bpp = max(1, ceil(pixel-bit-size / 8)). -/
def bppOf (ct bd : Nat) : Nat := max 1 (ceilDiv8 (pixelBitsOf ct bd))

/-- scanline_byte_size = ceil(width × pixel-bit-size / 8). -/
def scanlineBytesOf (w ct bd : Nat) : Nat := ceilDiv8 (w * pixelBitsOf ct bd)

/-- EXPECTED_LEN = HEIGHT × (1 + SB), unbounded. -/
def expectedLenOf (w h ct bd : Nat) : Nat := h * (1 + scanlineBytesOf w ct bd)

/-- `Derive` (R332), as the six registers hold it. -/
def deriveRegs (w h ct bd : Nat) : Derived where
  channels      := BitVec.ofNat 32 ((channelsOf ct).getD 0)
  pixelBits     := BitVec.ofNat 32 (pixelBitsOf ct bd)
  bpp           := BitVec.ofNat 32 (bppOf ct bd)
  scanlineBytes := BitVec.ofNat 32 (scanlineBytesOf w ct bd)
  expectedLen   := BitVec.ofNat 32 (expectedLenOf w h ct bd)
  pixKind       := BitVec.ofNat 2 (pixKindOf ct)

/-! ### The header check (R331) -/

/-- The last part of the header check: dimensions, sizes, then the derived registers and CFG_VALID (R331 to
R333). -/
def headerFinish (ct bd : Nat) (s : State) : Ended :=
  let w := s.hdr.width.toNat
  let h := s.hdr.height.toNat
  if w = 0 then raiseError .invalidDimensions 0 s
  else if h = 0 then raiseError .invalidDimensions 1 s
  else if 0xFFFFFFFF < expectedLenOf w h ct bd then raiseError .tooLarge 0x100 s
  else if 0xFFFFFFFF < 8 * w * h then raiseError .tooLarge 0x101 s
  else .ok { s with der := deriveRegs w h ct bd, ctl := { s.ctl with cfgValid := true } }

/-- The interlace check of the header check: 0 and 1 pass (R331, R334). -/
def headerInterlace (ct bd il : Nat) (s : State) : Ended :=
  if 1 < il then raiseError .invalidInterlace il s else headerFinish ct bd s

/-- The color type and bit depth checks (R331): a color type with no channels, then a pair that is no row. -/
def headerPair (ct bd : Nat) (s : State) : Ended :=
  match channelsOf ct with
  | none => raiseError .invalidColorType ct s
  | some _ => if bd ∈ depthsOf ct then .ok s else raiseError .invalidBitDepth bd s

/-- `HeaderCheck()` with the writes of R333: the first check that does not hold is reported (R331). -/
def headerCheck (s : State) : Ended :=
  let ct := s.hdr.colorType.toNat
  let bd := s.hdr.bitDepth.toNat
  if s.hdr.compMethod ≠ 0 ∨ s.hdr.filtMethod ≠ 0 then
    raiseError .unsupportedMethod (s.hdr.compMethod.toNat + 256 * s.hdr.filtMethod.toNat) s
  else
    (headerPair ct bd s).andThen fun s => headerInterlace ct bd s.hdr.interlace.toNat s

/-- STATUS.CFG_VALID becomes 0 (R333, R342). -/
def clearCfgValid (s : State) : State := { s with ctl := { s.ctl with cfgValid := false } }

/-- The rule of HDR_CHECK (R333). -/
def hdrCheckRule (s : State) : Ended := headerCheck (clearCfgValid s)

/-- HDR_CHECK (R333). -/
def execHdrCheck (s : State) : Host.Outcome State Fault Refusal := complete 0x01 (hdrCheckRule s)

/-! ### Checks the row commands share (R337 to R341) -/

/-- A body command's interlace test (R338): Adam7 is not decoded. -/
def bodyInterlace (il : Nat) (s : State) : Ended :=
  if il = 1 then raiseError .unsupportedInterlace 1 s else .ok s

/-- `RequireConfig()` (R337). -/
def requireConfig (s : State) : Ended :=
  if s.ctl.cfgValid = false then raiseError .notConfigured 0 s
  else bodyInterlace s.hdr.interlace.toNat s

/-- `RequireInflated()` (R339). -/
def requireInflated (s : State) : Ended :=
  if s.ctl.infOk = false then raiseError .notConfigured 1 s
  else if s.inf.len ≠ s.der.expectedLen then raiseError .scanlineSizeMismatch s.inf.len.toNat s
  else .ok s

/-- The rule of SIZE_CHECK (R336). -/
def sizeCheckRule (s : State) : Ended := (requireConfig s).andThen requireInflated

/-- SIZE_CHECK (R336). -/
def execSizeCheck (s : State) : Host.Outcome State Fault Refusal := complete 0x03 (sizeCheckRule s)

/-! ### INTERLACE items -/

/-- A decoded INTERLACE code. In the header check it passes (R334) and the check goes on to its end; before an
image body, None passes and Adam7 fails UnsupportedInterlace(1) (R338). -/
def interlaceItem (il : Nat) (s : State) : Host.Outcome State Fault Refusal :=
  match s.unit with
  | .headerInterlace ct bd => endItem .interlace s (headerInterlace ct bd il { s with unit := .idle })
  | .bodyCheck => endItem .interlace s (bodyInterlace il { s with unit := .idle })
  | .idle | .headerKey | .inflating _ | .unfiltering _ | .unpacking _ | .starting =>
    .refused (.itemOutOfPlace .interlace)

/-- INTERLACE_NONE (30_encoding.md R147). -/
def execInterlaceNone (s : State) : Host.Outcome State Fault Refusal := interlaceItem 0 s

/-- INTERLACE_ADAM7 (R147). -/
def execInterlaceAdam7 (s : State) : Host.Outcome State Fault Refusal := interlaceItem 1 s

end Sys2Proof.Machine
end

