-- ==== Sys2Proof/Machine/Inflate.lean ====
section
/-! DEFINITION. The zlib inflater (40_inflate.md): the bit reader, Huffman codes, the block types and alphabets,
the trailer, INFLATE, and the meanings of the BTYPE, LITLEN, DIST and CL items.

The pseudocode's loops are written as one machine: the inflater's `phase` says what it reads next, and one turn
of `turn` reads one item and runs it (log 17). The bytes it emits are collected in `hist` and written to the INF
buffer below its capacity (R245). -/

namespace Sys2Proof.Machine

/-- An action of the inflater: it fails with a subcode or goes on with a result. -/
abbrev Inf := StateT Inflater (Except InfFail)

/-- The subcode X of a failure (R247). -/
def InfFail.code (x : InfFail) : Nat :=
  match x with
  | .truncated => 1
  | .badCm => 2
  | .badCinfo => 3
  | .badFcheck => 4
  | .fdict => 5
  | .badBtype => 6
  | .badStoredLen => 7
  | .badCodeCounts => 8
  | .badCodeLengths => 9
  | .badSymbol => 10
  | .badDistance => 11
  | .badAdler => 12

/-- `fail X` (R247, R248): it ends the inflater at once. -/
def Inf.fail {α : Type} (x : InfFail) : Inf α := fun _ => .error x

/-! ### Bits and bytes (R202, R206) -/

/-- `getbit()`: stream bit p is bit (p mod 8) of byte floor(p / 8); past the last byte it fails TRUNCATED
(R246). -/
def getbit : Inf Nat := fun c =>
  match c.src[c.pos / 8]? with
  | none => .error .truncated
  | some b => .ok (b.toNat / 2 ^ (c.pos % 8) % 2, { c with pos := c.pos + 1 })

/-- `bits(m)`: the least significant bit first. -/
def bits (m : Nat) : Inf Nat :=
  match m with
  | 0 => pure 0
  | k + 1 => do
    let v ← bits k
    let b ← getbit
    pure (v + b * 2 ^ k)

/-- `alignByte()`. -/
def alignByte : Inf Unit := fun c => .ok ((), { c with pos := 8 * ((c.pos + 7) / 8) })

/-- `byte()`. -/
def getByte : Inf Nat := bits 8

/-! ### Output (R228, R241, R245) -/

/-- The Adler-32 sums of no byte (R241). -/
def adlerStart : AdlerSums := ⟨1, 0⟩

/-- One byte more in the Adler-32 sums (R241). -/
def adlerByte (s : AdlerSums) (x : Byte) : AdlerSums :=
  let a := (s.a + x.toNat) % 65521
  ⟨a, (s.b + a) % 65521⟩

/-- The Adler-32 that two sums give (R241). -/
def adlerValue (s : AdlerSums) : Nat := s.b * 65536 + s.a

/-- Adler-32 of a byte sequence (R241). -/
def adler32 (bytes : List Byte) : Nat := adlerValue (bytes.foldl adlerByte adlerStart)

/-- A byte appended to `out`, and added to the running sums (R59). The sink to memory is `sink`. -/
def Inflater.push (v : Byte) (c : Inflater) : Inflater := { c with hist := v :: c.hist, sums := adlerByte c.sums v }

/-- `emit(v)`. -/
def emit (v : Nat) : Inf Unit := fun c => .ok ((), c.push (BitVec.ofNat 8 v))

/-- The copying of `CopyBack`, byte by byte: a copy may repeat the bytes it has just emitted. -/
def copyBytes (n dist : Nat) (c : Inflater) : Inflater :=
  match n with
  | 0 => c
  | k + 1 => copyBytes k dist (c.push (c.hist.getD (dist - 1) 0))

/-- `CopyBack(length, dist)` (R228). -/
def copyBack (length dist : Nat) : Inf Unit := fun c =>
  if c.hist.length < dist then .error .badDistance else .ok ((), copyBytes length dist c)

/-! ### Huffman codes (R209, R212, R215 to R217) -/

/-- Which code `BuildCode` makes (R211, R215). -/
inductive CodeKind where
  | codes
  | lens
  | dists
  deriving DecidableEq, Repr

/-- `count[1..15]`. -/
def codeCounts (lengths : List Nat) : List Nat :=
  (List.range 15).map fun l => lengths.countP fun n => n = l + 1

/-- `CheckComplete`'s loop over the counts: how much of the code space is left, none if over-subscribed (R216). -/
def codeSpace (counts : List Nat) (left : Nat) : Option Nat :=
  match counts with
  | [] => some left
  | n :: rest => if 2 * left < n then none else codeSpace rest (2 * left - n)

/-- `CheckComplete(count, kind)` (R216): complete, or the one-symbol code of length 1 that LENS and DISTS allow. -/
def codeValid (counts : List Nat) (kind : CodeKind) : Bool :=
  match codeSpace counts 1 with
  | none => false
  | some left => left = 0 || (kind != .codes && counts.getD 0 0 = 1 && counts.sum = 1)

/-- `next[l]` for l = 1..15 (R215): next[1] = 0, next[l] = (next[l-1] + count[l-1]) << 1. -/
def firstCodes (counts : List Nat) (next : Nat) : List Nat :=
  match counts with
  | [] => []
  | n :: rest => next :: firstCodes rest ((next + n) * 2)

/-- The codes of the symbols from s on, in ascending order of symbol (R215). -/
def assignCodes (s : Nat) (lengths next : List Nat) : List HuffEntry :=
  match lengths with
  | [] => []
  | 0 :: rest => assignCodes (s + 1) rest next
  | l :: rest =>
    let code := next.getD (l - 1) 0
    ⟨s, l, code⟩ :: assignCodes (s + 1) rest (next.set (l - 1) (code + 1))

/-- `BuildCode(lengths, kind)` (R215, R216): none if the code is not valid, EMPTY if no symbol is used. -/
def buildCode (lengths : List Nat) (kind : CodeKind) : Option (List HuffEntry) :=
  let counts := codeCounts lengths
  if counts.all (· = 0) then some []
  else if codeValid counts kind then some (assignCodes 0 lengths (firstCodes counts 0))
  else none

/-- `Decode(C)`'s loop (R217): n more bits may be read, c is the code so far and l - 1 its length. -/
def decodeBits (code : List HuffEntry) (n l c : Nat) : Inf Nat :=
  match n with
  | 0 => Inf.fail .badSymbol
  | k + 1 => do
    let b ← getbit
    let c' := 2 * c + b
    match code.find? fun e => e.len = l && e.code = c' with
    | some e => pure e.sym
    | none =>
      if code.any fun e => l < e.len && e.code / 2 ^ (e.len - l) = c' then decodeBits code k (l + 1) c'
      else Inf.fail .badSymbol

/-- `Decode(C)` (R217): the bits of a code are read most significant first. -/
def decodeSymbol (code : List HuffEntry) : Inf Nat :=
  match code with
  | [] => Inf.fail .badSymbol
  | e :: rest => decodeBits (e :: rest) 15 1 0

/-- FIXED_LIT's lengths (R209). -/
def fixedLitLengths : List Nat :=
  List.replicate 144 8 ++ List.replicate 112 9 ++ List.replicate 24 7 ++ List.replicate 8 8

/-- FIXED_DIST's lengths (R209). -/
def fixedDistLengths : List Nat := List.replicate 32 5

/-- FIXED_LIT (R209). -/
def fixedLit : List HuffEntry := (buildCode fixedLitLengths .lens).getD []

/-- FIXED_DIST (R209). -/
def fixedDist : List HuffEntry := (buildCode fixedDistLengths .dists).getD []

/-- CL_ORDER (R212). -/
def clOrder : List Nat := [16, 17, 18, 0, 8, 7, 9, 6, 10, 5, 11, 4, 12, 3, 13, 2, 14, 1, 15]

/-- The length table (R223): base and number of extra bits of symbols 257 to 285. -/
def lengthTable : List (Nat × Nat) :=
  [(3, 0), (4, 0), (5, 0), (6, 0), (7, 0), (8, 0), (9, 0), (10, 0)] ++
  [(11, 1), (13, 1), (15, 1), (17, 1), (19, 2), (23, 2), (27, 2), (31, 2)] ++
  [(35, 3), (43, 3), (51, 3), (59, 3), (67, 4), (83, 4), (99, 4), (115, 4)] ++
  [(131, 5), (163, 5), (195, 5), (227, 5), (258, 0)]

/-- The distance table (R226): base and number of extra bits of symbols 0 to 29. -/
def distTable : List (Nat × Nat) :=
  [(1, 0), (2, 0), (3, 0), (4, 0), (5, 1), (7, 1), (9, 2), (13, 2), (17, 3), (25, 3)] ++
  [(33, 4), (49, 4), (65, 5), (97, 5), (129, 6), (193, 6), (257, 7), (385, 7), (513, 8), (769, 8)] ++
  [(1025, 9), (1537, 9), (2049, 10), (3073, 10), (4097, 11), (6145, 11), (8193, 12), (12289, 12)] ++
  [(16385, 13), (24577, 13)]

/-! ### Symbols and blocks -/

/-- Go to a place in the stream. -/
def goTo (p : InfPhase) : Inf Unit := fun c => .ok ((), { c with phase := p })

/-- The end of a block (R205, R222): the next block, or the trailer after the last one. -/
def endBlock : Inf Unit := fun c => .ok ((), { c with phase := if c.final then .trailer else .block })

/-- A literal/length symbol (R220 to R224): a literal, end of block, a length, or a reserved symbol. -/
def litLenSymbol (sym : Nat) : Inf Unit :=
  if sym ≤ 255 then emit sym
  else if sym = 256 then endBlock
  else
    match lengthTable[sym - 257]? with
    | some (base, extra) => do
      let x ← bits extra
      goTo (.dist (base + x))
    | none => Inf.fail .badSymbol

/-- A distance symbol (R225 to R228): the distance, then the copy of the length before it. -/
def distSymbol (sym length : Nat) : Inf Unit :=
  match distTable[sym]? with
  | some (base, extra) => do
    let x ← bits extra
    copyBack length (base + x)
    goTo .litLen
  | none => Inf.fail .badSymbol

/-- `ReadDynamicCodes` after its code lengths (R211): the two codes, in the order of its checks. -/
def buildDynamic : Inf Unit := fun c =>
  let litLens := c.lens.take c.nlit
  let distLens := c.lens.drop c.nlit
  if litLens.getD 256 0 = 0 then .error .badCodeLengths
  else
    match buildCode litLens .lens with
    | none => .error .badCodeLengths
    | some lit =>
      match buildCode distLens .dists with
      | none => .error .badCodeLengths
      | some dist => .ok ((), { c with lit := lit, dist := dist, phase := .litLen })

/-- Append r code lengths v (R214); when the sequence is whole the codes are built (R211). -/
def pushLengths (r v : Nat) : Inf Unit := fun c =>
  if c.total < c.lens.length + r then .error .badCodeLengths
  else
    let c := { c with lens := c.lens ++ List.replicate r v }
    if c.lens.length < c.total then .ok ((), c) else buildDynamic c

/-- The code length a repeat repeats: the last one read, and an error if there is none (R214). -/
def previousLength : Inf Nat := fun c =>
  match c.lens.getLast? with
  | none => .error .badCodeLengths
  | some v => .ok (v, c)

/-- A code-length symbol (R214): a length, repeat the previous one, or zeros. -/
def clSymbol (sym : Nat) : Inf Unit :=
  if sym ≤ 15 then pushLengths 1 sym
  else if sym = 16 then do
    let v ← previousLength
    let x ← bits 2
    pushLengths (3 + x) v
  else if sym = 17 then do
    let x ← bits 3
    pushLengths (3 + x) 0
  else do
    let x ← bits 7
    pushLengths (11 + x) 0

/-- `repeat LEN times: emit(byte())` (R210). -/
def storedBytes (n : Nat) : Inf Unit :=
  match n with
  | 0 => pure ()
  | k + 1 => do
    let b ← getByte
    emit b
    storedBytes k

/-- `StoredBlock()` (R210). -/
def storedBlock : Inf Unit := do
  alignByte
  let l0 ← getByte
  let l1 ← getByte
  let n0 ← getByte
  let n1 ← getByte
  if le16 n0 n1 ≠ le16 l0 l1 ^^^ 0xFFFF then Inf.fail .badStoredLen
  else do
    storedBytes (le16 l0 l1)
    endBlock

/-- The code-length-code lengths: the 3-bit lengths of these symbols, in this order (R211, R212). -/
def readClLengths (order : List Nat) (clen : List Nat) : Inf (List Nat) :=
  match order with
  | [] => pure clen
  | sym :: rest => do
    let l ← bits 3
    readClLengths rest (clen.set sym l)

/-- The code lengths of nlit literal/length and ndist distance symbols are read next (R211). -/
def beginCodeLengths (cl : List HuffEntry) (nlit ndist : Nat) : Inf Unit := fun c =>
  .ok ((), { c with cl := cl, lens := [], nlit := nlit, total := nlit + ndist, phase := .codeLen })

/-- `ReadDynamicCodes()` up to the code-length code (R211, R213). -/
def dynamicHeader : Inf Unit := do
  let hlit ← bits 5
  let hdist ← bits 5
  let hclen ← bits 4
  if 286 < hlit + 257 ∨ 30 < hdist + 1 then Inf.fail .badCodeCounts
  else do
    let clen ← readClLengths (clOrder.take (hclen + 4)) (List.replicate 19 0)
    match buildCode clen .codes with
    | none => Inf.fail .badCodeLengths
    | some cl => beginCodeLengths cl (hlit + 257) (hdist + 1)

/-- A fixed-code block begins (R209, R220). -/
def fixedBlock : Inf Unit := fun c =>
  .ok ((), { c with lit := fixedLit, dist := fixedDist, phase := .litLen })

/-- A block type (R205, R207): stored, fixed, dynamic, or the reserved type, which fails BAD_BTYPE (R229). -/
def blockType (t : Nat) : Inf Unit :=
  match t with
  | 0 => storedBlock
  | 1 => fixedBlock
  | 2 => dynamicHeader
  | _ => Inf.fail .badBtype

/-- The comparison of the trailer with the output's Adler-32, which the running sums give (R240, R59). -/
def checkAdler (a : Nat) : Inf Unit := fun c =>
  if a ≠ adlerValue c.sums then .error .badAdler else .ok ((), { c with phase := .done })

/-- `alignByte(); Trailer()` (R205, R240): the big-endian Adler-32 of the output. -/
def trailer : Inf Unit := do
  alignByte
  let b0 ← getByte
  let b1 ← getByte
  let b2 ← getByte
  let b3 ← getByte
  checkAdler (be32 b0 b1 b2 b3)

/-! ### The whole stream (R200, R203, R205) -/

/-- BFINAL (R205). -/
def setFinal (f : Nat) : Inf Unit := fun c => .ok ((), { c with final := decide (f = 1) })

/-- The block header, then the block or its beginning (R205, R207). -/
def nextBlock : Inf Unit := do
  let f ← bits 1
  let t ← bits 2
  setFinal f
  blockType t

/-- A symbol of a code, then what the symbol does. -/
def readAndRun (code : List HuffEntry) (run : Nat → Inf Unit) : Inf Unit := do
  let sym ← decodeSymbol code
  run sym

/-- One turn of the inflater: read what comes next, and run it (log 17). -/
def turn : Inf Unit := fun c =>
  match c.phase with
  | .block => nextBlock c
  | .codeLen => readAndRun c.cl clSymbol c
  | .litLen => readAndRun c.lit litLenSymbol c
  | .dist n => readAndRun c.dist (fun sym => distSymbol sym n) c
  | .trailer => trailer c
  | .done => .ok ((), c)

/-- Turns until the trailer has been checked. Every turn but the last reads a bit, so 8 × len(S) + 2 turns are
enough, and a stream that outlasts them is truncated (R250; log 21). -/
def turns (fuel : Nat) (c : Inflater) : Except InfFail Inflater :=
  match fuel with
  | 0 => .error .truncated
  | k + 1 =>
    match turn c with
    | .error x => .error x
    | .ok (_, c') => if c'.phase = .done then .ok c' else turns k c'

/-- The inflater at the first block of a stream. -/
def Inflater.start (src : List Byte) : Inflater where
  src   := src
  pos   := 16
  hist  := []
  sums  := adlerStart
  phase := .block
  final := false
  lit   := []
  dist  := []
  cl    := []
  lens  := []
  nlit  := 0
  total := 0

/-- The checks of the zlib header, in their order (R203, R204). -/
def zlibHeader (src : List Byte) : Except InfFail Inflater :=
  match src with
  | cmf :: flg :: _ =>
    if (cmf.toNat * 256 + flg.toNat) % 31 ≠ 0 then .error .badFcheck
    else if cmf.toNat % 16 ≠ 8 then .error .badCm
    else if 7 < cmf.toNat / 16 then .error .badCinfo
    else if flg.toNat / 32 % 2 = 1 then .error .fdict
    else .ok (Inflater.start src)
  | _ => .error .truncated

/-- `Inflate(S)` (R200): the inflater after the trailer. L is the length of `hist`, `used` is pos / 8. -/
def inflateStream (src : List Byte) : Except InfFail Inflater :=
  match zlibHeader src with
  | .error x => .error x
  | .ok c => turns (8 * src.length + 2) c

/-- The sink (R245): the bytes emitted after the first `k`, written below the capacity of the INF buffer. -/
def sink (k : Nat) (c : Inflater) (s : State) : State :=
  let bytes := (c.hist.reverse.take s.buf.infCap.toNat).drop k
  { s with mem := s.mem.write (s.buf.infAddr.toNat + k) bytes }

/-! ### INFLATE (R252, R253) -/

/-- The RAW and PIX regions of DECODE, as its rule lists them (43_decode_pipeline.md R342). -/
def State.imageRegions (s : State) : List Region :=
  [⟨s.buf.rawAddr.toNat, s.hdr.height.toNat * s.der.scanlineBytes.toNat, .W⟩,
   ⟨s.buf.pixAddr.toNat, 8 * s.hdr.width.toNat * s.hdr.height.toNat, .W⟩]

/-- The regions a failed inflate phase leaves unspecified (60_exceptions.md R458): INF, and for a DECODE also RAW
and PIX. -/
def State.inflateRegions (isDecode : Bool) (s : State) : List Region :=
  s.infRegion :: if isDecode then s.imageRegions else []

/-- A stream error (R252, R253, R458): the INF results and the regions become unspecified, and the command
raises DecompressionFailed(X). -/
def inflateFailed (isDecode : Bool) (x : InfFail) (s : State) : Ended :=
  raiseError .decompressionFailed x.code (drawWrites (s.inflateRegions isDecode) (drawInfResults s))

/-- The inflate phase of INFLATE and DECODE (R252, 43_decode_pipeline.md R342): S is read, the stream inflated
into the INF buffer, the results written; then the rule goes on with L. -/
def inflatePhase (isDecode : Bool) (s : State) (next : Nat → State → Ended) : Ended :=
  match inflateStream (s.mem.read s.buf.srcAddr.toNat s.buf.srcLen.toNat) with
  | .error x => inflateFailed isDecode x s
  | .ok c =>
    let s := sink 0 c s
    next c.hist.length
      { s with inf := ⟨saturate c.hist.length, BitVec.ofNat 32 (c.pos / 8), BitVec.ofNat 32 (adlerValue c.sums)⟩ }

/-- STATUS.INF_OK becomes 0 (10_state.md R48). -/
def clearInfOk (s : State) : State := { s with ctl := { s.ctl with infOk := false } }

/-- STATUS.INF_OK becomes 1 (R252). -/
def setInfOk (s : State) : State := { s with ctl := { s.ctl with infOk := true } }

/-- The regions of INFLATE (R252). -/
def inflateRegionList (s : State) : List Region := [s.srcRegion, s.infRegion]

/-- The rule of INFLATE (R252). -/
def inflateRule (s : State) : Ended :=
  (checkRegions (inflateRegionList s) (clearInfOk s)).andThen fun s =>
    inflatePhase false s fun l s =>
      if s.buf.infCap.toNat < l then
        .raised .outputOverflow (saturate l) (drawWrites [s.infRegion] s)
      else .ok (setInfOk s)

/-- INFLATE (R252). -/
def execInflate (s : State) : Host.Outcome State Fault Refusal := complete 0x02 (inflateRule s)

/-! ### Deflate items -/

/-- Whether the running command is a DECODE (its OPC in `pending`). -/
def State.decoding (s : State) : Bool := s.pending = some 0x06

/-- Run one deflate item on the running inflater: it goes on with the emitted bytes written (R245), or fails as
the stream does. -/
def inflaterItem (fmt : Format) (act : Inf Unit) (c : Inflater) (s : State) : Host.Outcome State Fault Refusal :=
  onRegions [s.infRegion]
    (match act c with
    | .error x => endItem fmt s (inflateFailed s.decoding x s)
    | .ok (_, c') => endItem fmt s (.ok { sink c.hist.length c' s with unit := .inflating c' }))

/-- A BTYPE item, read where a block begins. -/
def btypeItem (t : Nat) (s : State) : Host.Outcome State Fault Refusal :=
  match s.unit with
  | .inflating c => if c.phase = .block then inflaterItem .btype (blockType t) c s else .refused (.itemOutOfPlace .btype)
  | .idle | .headerKey | .headerInterlace _ _ | .bodyCheck | .unfiltering _ | .unpacking _ | .starting =>
    .refused (.itemOutOfPlace .btype)

/-- A LITLEN item, read in the body of a compressed block. -/
def litLenItem (sym : Nat) (s : State) : Host.Outcome State Fault Refusal :=
  match s.unit with
  | .inflating c =>
    if c.phase = .litLen then inflaterItem .litLen (litLenSymbol sym) c s else .refused (.itemOutOfPlace .litLen)
  | .idle | .headerKey | .headerInterlace _ _ | .bodyCheck | .unfiltering _ | .unpacking _ | .starting =>
    .refused (.itemOutOfPlace .litLen)

/-- A DIST item, read after a length. -/
def distItem (sym : Nat) (s : State) : Host.Outcome State Fault Refusal :=
  match s.unit with
  | .inflating c =>
    match c.phase with
    | .dist n => inflaterItem .dist (distSymbol sym n) c s
    | .block | .codeLen | .litLen | .trailer | .done => .refused (.itemOutOfPlace .dist)
  | .idle | .headerKey | .headerInterlace _ _ | .bodyCheck | .unfiltering _ | .unpacking _ | .starting =>
    .refused (.itemOutOfPlace .dist)

/-- A CL item, read in the header of a dynamic block. -/
def clItem (sym : Nat) (s : State) : Host.Outcome State Fault Refusal :=
  match s.unit with
  | .inflating c => if c.phase = .codeLen then inflaterItem .cl (clSymbol sym) c s else .refused (.itemOutOfPlace .cl)
  | .idle | .headerKey | .headerInterlace _ _ | .bodyCheck | .unfiltering _ | .unpacking _ | .starting =>
    .refused (.itemOutOfPlace .cl)

/-- BTYPE_STORED (R210). -/
def execBtypeStored (s : State) : Host.Outcome State Fault Refusal := btypeItem 0 s

/-- BTYPE_FIXED (R209, R220). -/
def execBtypeFixed (s : State) : Host.Outcome State Fault Refusal := btypeItem 1 s

/-- BTYPE_DYNAMIC (R211). -/
def execBtypeDynamic (s : State) : Host.Outcome State Fault Refusal := btypeItem 2 s

/-- BTYPE_RESERVED (R229). -/
def execBtypeReserved (s : State) : Host.Outcome State Fault Refusal := btypeItem 3 s

/-- LIT (R221). -/
def execLit (value : Nat) (s : State) : Host.Outcome State Fault Refusal := litLenItem value s

/-- EOB (R222). -/
def execEob (s : State) : Host.Outcome State Fault Refusal := litLenItem 256 s

/-- LEN257 (R223). -/
def execLen257 (s : State) : Host.Outcome State Fault Refusal := litLenItem 257 s

/-- LEN258 (R223). -/
def execLen258 (s : State) : Host.Outcome State Fault Refusal := litLenItem 258 s

/-- LEN259 (R223). -/
def execLen259 (s : State) : Host.Outcome State Fault Refusal := litLenItem 259 s

/-- LEN260 (R223). -/
def execLen260 (s : State) : Host.Outcome State Fault Refusal := litLenItem 260 s

/-- LEN261 (R223). -/
def execLen261 (s : State) : Host.Outcome State Fault Refusal := litLenItem 261 s

/-- LEN262 (R223). -/
def execLen262 (s : State) : Host.Outcome State Fault Refusal := litLenItem 262 s

/-- LEN263 (R223). -/
def execLen263 (s : State) : Host.Outcome State Fault Refusal := litLenItem 263 s

/-- LEN264 (R223). -/
def execLen264 (s : State) : Host.Outcome State Fault Refusal := litLenItem 264 s

/-- LEN265 (R223). -/
def execLen265 (s : State) : Host.Outcome State Fault Refusal := litLenItem 265 s

/-- LEN266 (R223). -/
def execLen266 (s : State) : Host.Outcome State Fault Refusal := litLenItem 266 s

/-- LEN267 (R223). -/
def execLen267 (s : State) : Host.Outcome State Fault Refusal := litLenItem 267 s

/-- LEN268 (R223). -/
def execLen268 (s : State) : Host.Outcome State Fault Refusal := litLenItem 268 s

/-- LEN269 (R223). -/
def execLen269 (s : State) : Host.Outcome State Fault Refusal := litLenItem 269 s

/-- LEN270 (R223). -/
def execLen270 (s : State) : Host.Outcome State Fault Refusal := litLenItem 270 s

/-- LEN271 (R223). -/
def execLen271 (s : State) : Host.Outcome State Fault Refusal := litLenItem 271 s

/-- LEN272 (R223). -/
def execLen272 (s : State) : Host.Outcome State Fault Refusal := litLenItem 272 s

/-- LEN273 (R223). -/
def execLen273 (s : State) : Host.Outcome State Fault Refusal := litLenItem 273 s

/-- LEN274 (R223). -/
def execLen274 (s : State) : Host.Outcome State Fault Refusal := litLenItem 274 s

/-- LEN275 (R223). -/
def execLen275 (s : State) : Host.Outcome State Fault Refusal := litLenItem 275 s

/-- LEN276 (R223). -/
def execLen276 (s : State) : Host.Outcome State Fault Refusal := litLenItem 276 s

/-- LEN277 (R223). -/
def execLen277 (s : State) : Host.Outcome State Fault Refusal := litLenItem 277 s

/-- LEN278 (R223). -/
def execLen278 (s : State) : Host.Outcome State Fault Refusal := litLenItem 278 s

/-- LEN279 (R223). -/
def execLen279 (s : State) : Host.Outcome State Fault Refusal := litLenItem 279 s

/-- LEN280 (R223). -/
def execLen280 (s : State) : Host.Outcome State Fault Refusal := litLenItem 280 s

/-- LEN281 (R223). -/
def execLen281 (s : State) : Host.Outcome State Fault Refusal := litLenItem 281 s

/-- LEN282 (R223). -/
def execLen282 (s : State) : Host.Outcome State Fault Refusal := litLenItem 282 s

/-- LEN283 (R223). -/
def execLen283 (s : State) : Host.Outcome State Fault Refusal := litLenItem 283 s

/-- LEN284 (R223). -/
def execLen284 (s : State) : Host.Outcome State Fault Refusal := litLenItem 284 s

/-- LEN285 (R223). -/
def execLen285 (s : State) : Host.Outcome State Fault Refusal := litLenItem 285 s

/-- LITLEN_RESERVED286 (R224). -/
def execLitlenReserved286 (s : State) : Host.Outcome State Fault Refusal := litLenItem 286 s

/-- LITLEN_RESERVED287 (R224). -/
def execLitlenReserved287 (s : State) : Host.Outcome State Fault Refusal := litLenItem 287 s

/-- DIST0 (R226). -/
def execDist0 (s : State) : Host.Outcome State Fault Refusal := distItem 0 s

/-- DIST1 (R226). -/
def execDist1 (s : State) : Host.Outcome State Fault Refusal := distItem 1 s

/-- DIST2 (R226). -/
def execDist2 (s : State) : Host.Outcome State Fault Refusal := distItem 2 s

/-- DIST3 (R226). -/
def execDist3 (s : State) : Host.Outcome State Fault Refusal := distItem 3 s

/-- DIST4 (R226). -/
def execDist4 (s : State) : Host.Outcome State Fault Refusal := distItem 4 s

/-- DIST5 (R226). -/
def execDist5 (s : State) : Host.Outcome State Fault Refusal := distItem 5 s

/-- DIST6 (R226). -/
def execDist6 (s : State) : Host.Outcome State Fault Refusal := distItem 6 s

/-- DIST7 (R226). -/
def execDist7 (s : State) : Host.Outcome State Fault Refusal := distItem 7 s

/-- DIST8 (R226). -/
def execDist8 (s : State) : Host.Outcome State Fault Refusal := distItem 8 s

/-- DIST9 (R226). -/
def execDist9 (s : State) : Host.Outcome State Fault Refusal := distItem 9 s

/-- DIST10 (R226). -/
def execDist10 (s : State) : Host.Outcome State Fault Refusal := distItem 10 s

/-- DIST11 (R226). -/
def execDist11 (s : State) : Host.Outcome State Fault Refusal := distItem 11 s

/-- DIST12 (R226). -/
def execDist12 (s : State) : Host.Outcome State Fault Refusal := distItem 12 s

/-- DIST13 (R226). -/
def execDist13 (s : State) : Host.Outcome State Fault Refusal := distItem 13 s

/-- DIST14 (R226). -/
def execDist14 (s : State) : Host.Outcome State Fault Refusal := distItem 14 s

/-- DIST15 (R226). -/
def execDist15 (s : State) : Host.Outcome State Fault Refusal := distItem 15 s

/-- DIST16 (R226). -/
def execDist16 (s : State) : Host.Outcome State Fault Refusal := distItem 16 s

/-- DIST17 (R226). -/
def execDist17 (s : State) : Host.Outcome State Fault Refusal := distItem 17 s

/-- DIST18 (R226). -/
def execDist18 (s : State) : Host.Outcome State Fault Refusal := distItem 18 s

/-- DIST19 (R226). -/
def execDist19 (s : State) : Host.Outcome State Fault Refusal := distItem 19 s

/-- DIST20 (R226). -/
def execDist20 (s : State) : Host.Outcome State Fault Refusal := distItem 20 s

/-- DIST21 (R226). -/
def execDist21 (s : State) : Host.Outcome State Fault Refusal := distItem 21 s

/-- DIST22 (R226). -/
def execDist22 (s : State) : Host.Outcome State Fault Refusal := distItem 22 s

/-- DIST23 (R226). -/
def execDist23 (s : State) : Host.Outcome State Fault Refusal := distItem 23 s

/-- DIST24 (R226). -/
def execDist24 (s : State) : Host.Outcome State Fault Refusal := distItem 24 s

/-- DIST25 (R226). -/
def execDist25 (s : State) : Host.Outcome State Fault Refusal := distItem 25 s

/-- DIST26 (R226). -/
def execDist26 (s : State) : Host.Outcome State Fault Refusal := distItem 26 s

/-- DIST27 (R226). -/
def execDist27 (s : State) : Host.Outcome State Fault Refusal := distItem 27 s

/-- DIST28 (R226). -/
def execDist28 (s : State) : Host.Outcome State Fault Refusal := distItem 28 s

/-- DIST29 (R226). -/
def execDist29 (s : State) : Host.Outcome State Fault Refusal := distItem 29 s

/-- DIST_RESERVED30 (R227). -/
def execDistReserved30 (s : State) : Host.Outcome State Fault Refusal := distItem 30 s

/-- DIST_RESERVED31 (R227). -/
def execDistReserved31 (s : State) : Host.Outcome State Fault Refusal := distItem 31 s

/-- CL_LEN (R214): a code length 0 to 15. -/
def execClLen (length : Nat) (s : State) : Host.Outcome State Fault Refusal := clItem length s

/-- CL_REP16 (R214): repeat the previous length. -/
def execClRep16 (s : State) : Host.Outcome State Fault Refusal := clItem 16 s

/-- CL_REP17 (R214): 3 to 10 zeros. -/
def execClRep17 (s : State) : Host.Outcome State Fault Refusal := clItem 17 s

/-- CL_REP18 (R214): 11 to 138 zeros. -/
def execClRep18 (s : State) : Host.Outcome State Fault Refusal := clItem 18 s

end Sys2Proof.Machine
end

