-- ==== Sys2Proof/Machine/Unfilter.lean ====
section
/-! DEFINITION. The scanline unfilter (41_unfilter.md): the Paeth predictor, the five filters, the filter
reversal FSM, UNFILTER_ROW, and the meanings of the FSEL items. -/

namespace Sys2Proof.Machine

/-- `PaethPredictor(a, b, c)` on mathematical integers (R275): ties break in the order a, b, c. -/
def paethPredictor (a b c : Nat) : Nat :=
  let p : Int := (a : Int) + b - c
  let pa := (p - a).natAbs
  let pb := (p - b).natAbs
  let pc := (p - c).natAbs
  if pa ≤ pb ∧ pa ≤ pc then a
  else if pb ≤ pc then b
  else c

/-- The prediction of filter f from the neighbours left a, above b, above left c (R276 to R280, R286). -/
def filterPrediction (f a b c : Nat) : Nat :=
  match f with
  | 0 => 0
  | 1 => a
  | 2 => b
  | 3 => (a + b) / 2
  | _ => paethPredictor a b c

/-- `Filter_f(flt, a, b, c)`: the reconstructed byte (R276 to R280, R284). -/
def filterByte (f : Nat) (flt : Byte) (a b c : Nat) : Byte :=
  BitVec.ofNat 8 ((flt.toNat + filterPrediction f a b c) % 256)

/-- Byte i − bpp of a row, or 0 if i < bpp (R274). -/
def leftOf (row : List Byte) (bpp i : Nat) : Nat :=
  if bpp ≤ i then (row.getD (i - bpp) 0).toNat else 0

/-- The FSM of row y before its selector is read, with the row's inputs (R273). -/
def FilterFsm.load (y : Nat) (s : State) : FilterFsm where
  phase := .select
  f     := 0
  i     := 0
  raw   := []
  y     := y
  bpp   := s.der.bpp.toNat
  flt   := s.mem.read (s.infRow y + 1) s.der.scanlineBytes.toNat
  prev  :=
    if y = 0 then List.replicate s.der.scanlineBytes.toNat 0
    else s.mem.read (s.rawRow (y - 1)) s.der.scanlineBytes.toNat

/-- The SELECT transition (R271): a selector above 4 goes to FAIL. -/
def FilterFsm.select (f : Nat) (m : FilterFsm) : FilterFsm :=
  if 4 < f then { m with f := f, phase := .fail }
  else { m with f := f, i := 0, raw := [], phase := .run }

/-- A RUN transition (R271): the next byte, or DONE after the last one. -/
def FilterFsm.advance (m : FilterFsm) : FilterFsm :=
  match m.flt[m.i]? with
  | none => { m with phase := .done }
  | some x =>
    let a := leftOf m.raw m.bpp m.i
    let b := (m.prev.getD m.i 0).toNat
    let c := leftOf m.prev m.bpp m.i
    { m with raw := m.raw ++ [filterByte m.f x a b c], i := m.i + 1 }

/-- RUN transitions until DONE: SB of them reconstruct the row, one more ends it (R271, R282). -/
def FilterFsm.runAll (n : Nat) (m : FilterFsm) : FilterFsm :=
  match n with
  | 0 => m
  | k + 1 =>
    match m.phase with
    | .run => FilterFsm.runAll k m.advance
    | .select | .done | .fail => m

/-- The FSM from SELECT with a selector to DONE or FAIL. -/
def FilterFsm.filtered (f : Nat) (m : FilterFsm) : FilterFsm :=
  FilterFsm.runAll (m.flt.length + 1) (m.select f)

/-- The end of the FSM: DONE has written raw to RAW row y in one MemWrite, FAIL raises UnknownFilter(y) and
writes nothing (R271, R281, R284). -/
def filterEnd (m : FilterFsm) (s : State) : Ended :=
  match m.phase with
  | .fail => raiseError .unknownFilter m.y s
  | .select | .run | .done => .ok { s with mem := s.mem.write (s.rawRow m.y) m.raw }

/-- `UnfilterRow(y)` (R284). -/
def unfilterRow (y : Nat) (s : State) : Ended :=
  filterEnd ((FilterFsm.load y s).filtered (s.mem.readByte (s.infRow y)).toNat) s

/-- UNFILTER_ROW's checks before its region check (R285). -/
def unfilterChecks (s : State) : Ended :=
  ((requireConfig s).andThen requireInflated).andThen fun s =>
    if s.hdr.height.toNat ≤ s.rowOperand then raiseError .rowOutOfRange s.rowOperand s else .ok s

/-- The regions of UNFILTER_ROW: the scanline, the row above (empty for row 0), the row (R285). -/
def unfilterRegionList (s : State) : List Region :=
  let y := s.rowOperand
  let sb := s.der.scanlineBytes.toNat
  [⟨s.infRow y, 1 + sb, .R⟩,
   if 0 < y then ⟨s.rawRow (y - 1), sb, .R⟩ else ⟨s.buf.rawAddr.toNat, 0, .R⟩,
   ⟨s.rawRow y, sb, .W⟩]

/-- The rule of UNFILTER_ROW (R285). -/
def unfilterRowRule (s : State) : Ended :=
  (unfilterChecks s).andThen fun s =>
    (checkRegions (unfilterRegionList s) s).andThen fun s => unfilterRow s.rowOperand s

/-- UNFILTER_ROW (R285). -/
def execUnfilterRow (s : State) : Host.Outcome State Fault Refusal := complete 0x04 (unfilterRowRule s)

/-! ### Filter selector items -/

/-- The FSM's run, from its selector on, when its row is by itself: its state afterwards stays in the unit. -/
def filterItemEnd (m : FilterFsm) (s : State) : Ended :=
  (filterEnd m s).andThen fun t => .ok { t with unit := .unfiltering m }

/-- A decoded filter selector: SELECT, then RUN to the end of the row (R271). -/
def filterItem (f : Nat) (s : State) : Host.Outcome State Fault Refusal :=
  match s.unit with
  | .unfiltering m =>
    if m.phase = .select then
      onRegions [⟨s.rawRow m.y, m.flt.length, .W⟩] (endItem .fsel s (filterItemEnd (m.filtered f) s))
    else .refused (.itemOutOfPlace .fsel)
  | .idle | .headerKey | .headerInterlace _ _ | .bodyCheck | .inflating _ | .unpacking _ | .starting =>
    .refused (.itemOutOfPlace .fsel)

/-- FILTER_NONE (R276). -/
def execFilterNone (s : State) : Host.Outcome State Fault Refusal := filterItem 0 s

/-- FILTER_SUB (R277). -/
def execFilterSub (s : State) : Host.Outcome State Fault Refusal := filterItem 1 s

/-- FILTER_UP (R278). -/
def execFilterUp (s : State) : Host.Outcome State Fault Refusal := filterItem 2 s

/-- FILTER_AVERAGE (R279). -/
def execFilterAverage (s : State) : Host.Outcome State Fault Refusal := filterItem 3 s

/-- FILTER_PAETH (R280). -/
def execFilterPaeth (s : State) : Host.Outcome State Fault Refusal := filterItem 4 s

end Sys2Proof.Machine
end

