-- ==== Sys2Proof/Machine/Unpack.lean ====
section
/-! DEFINITION. The pixel unpacker (42_unpack.md): sample extraction, pixel assembly, UNPACK_ROW, and the meanings
of the header pairs (30_encoding.md R146): in the header check and in the unpacker. -/

namespace Sys2Proof.Machine

/-- Byte i of a row. -/
def rowByte (row : List Byte) (i : Nat) : Nat := (row.getD i 0).toNat

/-- The place of pixel x at bit depth bd, which only depths below 8 have (R304). -/
def bitPlace (bd x : Nat) : Option BitPlace :=
  if bd < 8 then some ⟨x * bd / 8, 8 / (8 / bd) * (8 / bd - 1 - x % (8 / bd))⟩ else none

/-- The pixel of bd bits at a place of a row: masked, then shifted (R304). -/
def sampleSubByte (row : List Byte) (p : BitPlace) (bd : Nat) : Nat :=
  let mask := (2 ^ bd - 1) * 2 ^ p.shift
  (rowByte row p.index &&& mask) / 2 ^ p.shift

/-- `Sample(row, x, k, bd, C)` at the current column: channel k of pixel x (R303 to R305). -/
def Unpacker.sample (u : Unpacker) (bd c k : Nat) : Nat :=
  match u.place with
  | some p => sampleSubByte u.row p bd
  | none =>
    if bd = 8 then rowByte u.row (u.x * c + k)
    else be16 (rowByte u.row (2 * (u.x * c + k))) (rowByte u.row (2 * (u.x * c + k) + 1))

/-- The pixel record of the current column: s0 to s3 (R308 to R310, R313). -/
def Unpacker.record (u : Unpacker) (ct bd c : Nat) : List Nat :=
  let smp := u.sample bd c
  match ct with
  | 0 => [smp 0, 0, 0, 0]
  | 2 => [smp 0, smp 1, smp 2, 2 ^ bd - 1]
  | 3 => [smp 0, 0, 0, 0]
  | 4 => [smp 0, smp 0, smp 0, smp 1]
  | _ => [smp 0, smp 1, smp 2, smp 3]

/-- A record's 8 bytes: four little-endian u16 (R310). -/
def recordBytes (r : List Nat) : List Byte := r.flatMap le16bytes

/-- The unpacker of row y before its header pair is decoded: the row bytes are read from RAW row y (R302). -/
def Unpacker.load (y : Nat) (s : State) : Unpacker :=
  ⟨y, s.mem.read (s.rawRow y) s.der.scanlineBytes.toNat, 0, none, []⟩

/-- The unpacker at a column, with no record made yet. -/
def Unpacker.startAt (bd x : Nat) (u : Unpacker) : Unpacker := { u with x := x, place := bitPlace bd x, out := [] }

/-- One pixel: its record is appended and the next column becomes the current one (R313). -/
def Unpacker.advance (ct bd c : Nat) (u : Unpacker) : Unpacker :=
  { u with x := u.x + 1, place := bitPlace bd (u.x + 1), out := u.out ++ recordBytes (u.record ct bd c) }

/-- n pixels, one after another (R313). -/
def Unpacker.runAll (ct bd c n : Nat) (u : Unpacker) : Unpacker :=
  match n with
  | 0 => u
  | k + 1 => Unpacker.runAll ct bd c k (u.advance ct bd c)

/-- The records of n pixels of a row from column x on. -/
def rowRecords (row : List Byte) (ct bd c x n : Nat) : List Byte :=
  ((Unpacker.startAt bd x ⟨0, row, 0, none, []⟩).runAll ct bd c n).out

/-- The unpack operation a header pair selects, from column 0 to WIDTH: exactly WIDTH records, of which the channels
are as CHANNELS says (R313, R146). -/
def Unpacker.unpacked (ct bd : Nat) (s : State) (u : Unpacker) : Unpacker :=
  (u.startAt bd 0).runAll ct bd s.der.channels.toNat s.hdr.width.toNat

/-- The records of PIX row y are written in one MemWrite (R313). -/
def writeRecords (y : Nat) (u : Unpacker) (s : State) : State := { s with mem := s.mem.write (s.pixRow y) u.out }

/-- The operation of a header pair on row y, as RAW holds it (R313). -/
def unpackWith (ct bd y : Nat) (s : State) : State :=
  writeRecords y ((Unpacker.load y s).unpacked ct bd s) s

/-- `UnpackRow(y)` (R313): the operation is the one the current header pair selects. A pair that is no row of
R301 cannot stand beside CFG_VALID = 1 (10_state.md R45; log 12). -/
def unpackRow (y : Nat) (s : State) : Ended :=
  let ct := s.hdr.colorType.toNat
  let bd := s.hdr.bitDepth.toNat
  if bd ∈ depthsOf ct then .ok (unpackWith ct bd y s) else .stuck (.headerPairLost ct bd)

/-- UNPACK_ROW's checks before its region check (R312). -/
def unpackChecks (s : State) : Ended :=
  (requireConfig s).andThen fun s =>
    if s.hdr.height.toNat ≤ s.rowOperand then raiseError .rowOutOfRange s.rowOperand s else .ok s

/-- The regions of UNPACK_ROW (R312). -/
def unpackRegionList (s : State) : List Region :=
  let y := s.rowOperand
  [⟨s.rawRow y, s.der.scanlineBytes.toNat, .R⟩, ⟨s.pixRow y, 8 * s.hdr.width.toNat, .W⟩]

/-- The rule of UNPACK_ROW (R312). -/
def unpackRowRule (s : State) : Ended :=
  (unpackChecks s).andThen fun s =>
    (checkRegions (unpackRegionList s) s).andThen fun s => unpackRow s.rowOperand s

/-- UNPACK_ROW (R312). -/
def execUnpackRow (s : State) : Host.Outcome State Fault Refusal := complete 0x05 (unpackRowRule s)

/-! ### Header pair items -/

/-- A decoded header pair. In the header check it is accepted and INTERLACE comes next (43_decode_pipeline.md
R331); in the unpacker it selects the operation on the row, after which nothing of it is held (R146, R302). -/
def headerPairItem (ct bd : Nat) (s : State) : Host.Outcome State Fault Refusal :=
  match s.unit with
  | .headerKey => endItem .hdrKey s (.ok { s with unit := .headerInterlace ct bd })
  | .unpacking u =>
    onRegions [⟨s.pixRow u.y, 8 * s.hdr.width.toNat, .W⟩]
      (endItem .hdrKey s (.ok { writeRecords u.y (u.unpacked ct bd s) s with unit := .idle }))
  | .idle | .headerInterlace _ _ | .bodyCheck | .inflating _ | .unfiltering _ | .starting =>
    .refused (.itemOutOfPlace .hdrKey)

/-- GRAY1: color type 0, bit depth 1 (R301). -/
def execGray1 (s : State) : Host.Outcome State Fault Refusal := headerPairItem 0 1 s

/-- GRAY2: color type 0, bit depth 2 (R301). -/
def execGray2 (s : State) : Host.Outcome State Fault Refusal := headerPairItem 0 2 s

/-- GRAY4: color type 0, bit depth 4 (R301). -/
def execGray4 (s : State) : Host.Outcome State Fault Refusal := headerPairItem 0 4 s

/-- GRAY8: color type 0, bit depth 8 (R301). -/
def execGray8 (s : State) : Host.Outcome State Fault Refusal := headerPairItem 0 8 s

/-- GRAY16: color type 0, bit depth 16 (R301). -/
def execGray16 (s : State) : Host.Outcome State Fault Refusal := headerPairItem 0 16 s

/-- RGB8: color type 2, bit depth 8 (R301). -/
def execRgb8 (s : State) : Host.Outcome State Fault Refusal := headerPairItem 2 8 s

/-- RGB16: color type 2, bit depth 16 (R301). -/
def execRgb16 (s : State) : Host.Outcome State Fault Refusal := headerPairItem 2 16 s

/-- PAL1: color type 3, bit depth 1 (R301). -/
def execPal1 (s : State) : Host.Outcome State Fault Refusal := headerPairItem 3 1 s

/-- PAL2: color type 3, bit depth 2 (R301). -/
def execPal2 (s : State) : Host.Outcome State Fault Refusal := headerPairItem 3 2 s

/-- PAL4: color type 3, bit depth 4 (R301). -/
def execPal4 (s : State) : Host.Outcome State Fault Refusal := headerPairItem 3 4 s

/-- PAL8: color type 3, bit depth 8 (R301). -/
def execPal8 (s : State) : Host.Outcome State Fault Refusal := headerPairItem 3 8 s

/-- GRAYA8: color type 4, bit depth 8 (R301). -/
def execGraya8 (s : State) : Host.Outcome State Fault Refusal := headerPairItem 4 8 s

/-- GRAYA16: color type 4, bit depth 16 (R301). -/
def execGraya16 (s : State) : Host.Outcome State Fault Refusal := headerPairItem 4 16 s

/-- RGBA8: color type 6, bit depth 8 (R301). -/
def execRgba8 (s : State) : Host.Outcome State Fault Refusal := headerPairItem 6 8 s

/-- RGBA16: color type 6, bit depth 16 (R301). -/
def execRgba16 (s : State) : Host.Outcome State Fault Refusal := headerPairItem 6 16 s

end Sys2Proof.Machine
end

