-- ==== Sys2Proof/Machine/Pipeline.lean ====
section
/-! DEFINITION. DECODE, the whole image pipeline (43_decode_pipeline.md R342 to R347). It is the sequential row
loop, which is all of the parallel orchestrator that can be observed (R350; LANES, log 1). -/

namespace Sys2Proof.Machine

/-- Row y of the loop: unfilter, unpack, ROWS_DONE ← y + 1 (R345). -/
def decodeRow (y : Nat) (s : State) : Ended :=
  ((unfilterRow y s).andThen fun s => unpackRow y s).andThen fun s =>
    .ok { s with rowsDone := BitVec.ofNat 32 (y + 1) }

/-- `DecodeRows`: n rows from row y on (R345). -/
def decodeRows (n y : Nat) (s : State) : Ended :=
  match n with
  | 0 => .ok s
  | k + 1 => (decodeRow y s).andThen fun s => decodeRows k (y + 1) s

/-- DECODE's rule up to its region check: INF_OK, ROWS_DONE and CFG_VALID cleared, the header check with the
derived registers, the interlace test (R342). -/
def decodeHead (s : State) : Ended :=
  (headerCheck (clearCfgValid { clearInfOk s with rowsDone := 0 })).andThen fun s =>
    bodyInterlace s.hdr.interlace.toNat s

/-- The regions of DECODE: SRC, INF, RAW and PIX (R342). -/
def decodeRegionList (s : State) : List Region := s.srcRegion :: s.infRegion :: s.imageRegions

/-- DECODE after its region check: the inflate phase, the size check, the capacity, then the rows (R342). A
failure leaves the write regions unspecified (R347). -/
def decodeBody (s : State) : Ended :=
  inflatePhase true s fun l s =>
    let lost := drawWrites (s.inflateRegions true)
    if l ≠ s.der.expectedLen.toNat then .raised .scanlineSizeMismatch (saturate l) (lost s)
    else if s.buf.infCap.toNat < l then .raised .outputOverflow (saturate l) (lost s)
    else (decodeRows s.hdr.height.toNat 0 (setInfOk s)).onRaise lost

/-- The rule of DECODE (R342). -/
def decodeRule (s : State) : Ended :=
  (decodeHead s).andThen fun s => (checkRegions (decodeRegionList s) s).andThen decodeBody

/-- DECODE (R342). -/
def execDecode (s : State) : Host.Outcome State Fault Refusal := complete 0x06 (decodeRule s)

end Sys2Proof.Machine
end

