-- ==== Sys2Proof/Machine/Dispatch.lean ====
section
/-! DEFINITION. exec: one arm for each constructor of Instr. The first 17 are the commands, the others the data
encodings (log 5). -/

namespace Sys2Proof.Machine

def exec (i : Instr) (s : State) : Host.Outcome State Fault Refusal :=
  match i with
  | .nop => Sys2Proof.Machine.execNop s
  | .hdrCheck => Sys2Proof.Machine.execHdrCheck s
  | .inflate => Sys2Proof.Machine.execInflate s
  | .sizeCheck => Sys2Proof.Machine.execSizeCheck s
  | .unfilterRow => Sys2Proof.Machine.execUnfilterRow s
  | .unpackRow => Sys2Proof.Machine.execUnpackRow s
  | .decode => Sys2Proof.Machine.execDecode s
  | .pfStart => Sys2Proof.Machine.execPfStart s
  | .pfStep => Sys2Proof.Machine.execPfStep s
  | .pfTrace => Sys2Proof.Machine.execPfTrace s
  | .pfSearch => Sys2Proof.Machine.execPfSearch s
  | .pqClear => Sys2Proof.Machine.execPqClear s
  | .pqInsert => Sys2Proof.Machine.execPqInsert s
  | .pqExtract => Sys2Proof.Machine.execPqExtract s
  | .pqPeek => Sys2Proof.Machine.execPqPeek s
  | .pqDecrease => Sys2Proof.Machine.execPqDecrease s
  | .nodeRead => Sys2Proof.Machine.execNodeRead s
  | .filterNone => Sys2Proof.Machine.execFilterNone s
  | .filterSub => Sys2Proof.Machine.execFilterSub s
  | .filterUp => Sys2Proof.Machine.execFilterUp s
  | .filterAverage => Sys2Proof.Machine.execFilterAverage s
  | .filterPaeth => Sys2Proof.Machine.execFilterPaeth s
  | .gray1 => Sys2Proof.Machine.execGray1 s
  | .gray2 => Sys2Proof.Machine.execGray2 s
  | .gray4 => Sys2Proof.Machine.execGray4 s
  | .gray8 => Sys2Proof.Machine.execGray8 s
  | .gray16 => Sys2Proof.Machine.execGray16 s
  | .rgb8 => Sys2Proof.Machine.execRgb8 s
  | .rgb16 => Sys2Proof.Machine.execRgb16 s
  | .pal1 => Sys2Proof.Machine.execPal1 s
  | .pal2 => Sys2Proof.Machine.execPal2 s
  | .pal4 => Sys2Proof.Machine.execPal4 s
  | .pal8 => Sys2Proof.Machine.execPal8 s
  | .graya8 => Sys2Proof.Machine.execGraya8 s
  | .graya16 => Sys2Proof.Machine.execGraya16 s
  | .rgba8 => Sys2Proof.Machine.execRgba8 s
  | .rgba16 => Sys2Proof.Machine.execRgba16 s
  | .interlaceNone => Sys2Proof.Machine.execInterlaceNone s
  | .interlaceAdam7 => Sys2Proof.Machine.execInterlaceAdam7 s
  | .pfDijkstra => Sys2Proof.Machine.execPfDijkstra s
  | .pfAstar => Sys2Proof.Machine.execPfAstar s
  | .btypeStored => Sys2Proof.Machine.execBtypeStored s
  | .btypeFixed => Sys2Proof.Machine.execBtypeFixed s
  | .btypeDynamic => Sys2Proof.Machine.execBtypeDynamic s
  | .btypeReserved => Sys2Proof.Machine.execBtypeReserved s
  | .lit value => Sys2Proof.Machine.execLit value s
  | .eob => Sys2Proof.Machine.execEob s
  | .len257 => Sys2Proof.Machine.execLen257 s
  | .len258 => Sys2Proof.Machine.execLen258 s
  | .len259 => Sys2Proof.Machine.execLen259 s
  | .len260 => Sys2Proof.Machine.execLen260 s
  | .len261 => Sys2Proof.Machine.execLen261 s
  | .len262 => Sys2Proof.Machine.execLen262 s
  | .len263 => Sys2Proof.Machine.execLen263 s
  | .len264 => Sys2Proof.Machine.execLen264 s
  | .len265 => Sys2Proof.Machine.execLen265 s
  | .len266 => Sys2Proof.Machine.execLen266 s
  | .len267 => Sys2Proof.Machine.execLen267 s
  | .len268 => Sys2Proof.Machine.execLen268 s
  | .len269 => Sys2Proof.Machine.execLen269 s
  | .len270 => Sys2Proof.Machine.execLen270 s
  | .len271 => Sys2Proof.Machine.execLen271 s
  | .len272 => Sys2Proof.Machine.execLen272 s
  | .len273 => Sys2Proof.Machine.execLen273 s
  | .len274 => Sys2Proof.Machine.execLen274 s
  | .len275 => Sys2Proof.Machine.execLen275 s
  | .len276 => Sys2Proof.Machine.execLen276 s
  | .len277 => Sys2Proof.Machine.execLen277 s
  | .len278 => Sys2Proof.Machine.execLen278 s
  | .len279 => Sys2Proof.Machine.execLen279 s
  | .len280 => Sys2Proof.Machine.execLen280 s
  | .len281 => Sys2Proof.Machine.execLen281 s
  | .len282 => Sys2Proof.Machine.execLen282 s
  | .len283 => Sys2Proof.Machine.execLen283 s
  | .len284 => Sys2Proof.Machine.execLen284 s
  | .len285 => Sys2Proof.Machine.execLen285 s
  | .litlenReserved286 => Sys2Proof.Machine.execLitlenReserved286 s
  | .litlenReserved287 => Sys2Proof.Machine.execLitlenReserved287 s
  | .dist0 => Sys2Proof.Machine.execDist0 s
  | .dist1 => Sys2Proof.Machine.execDist1 s
  | .dist2 => Sys2Proof.Machine.execDist2 s
  | .dist3 => Sys2Proof.Machine.execDist3 s
  | .dist4 => Sys2Proof.Machine.execDist4 s
  | .dist5 => Sys2Proof.Machine.execDist5 s
  | .dist6 => Sys2Proof.Machine.execDist6 s
  | .dist7 => Sys2Proof.Machine.execDist7 s
  | .dist8 => Sys2Proof.Machine.execDist8 s
  | .dist9 => Sys2Proof.Machine.execDist9 s
  | .dist10 => Sys2Proof.Machine.execDist10 s
  | .dist11 => Sys2Proof.Machine.execDist11 s
  | .dist12 => Sys2Proof.Machine.execDist12 s
  | .dist13 => Sys2Proof.Machine.execDist13 s
  | .dist14 => Sys2Proof.Machine.execDist14 s
  | .dist15 => Sys2Proof.Machine.execDist15 s
  | .dist16 => Sys2Proof.Machine.execDist16 s
  | .dist17 => Sys2Proof.Machine.execDist17 s
  | .dist18 => Sys2Proof.Machine.execDist18 s
  | .dist19 => Sys2Proof.Machine.execDist19 s
  | .dist20 => Sys2Proof.Machine.execDist20 s
  | .dist21 => Sys2Proof.Machine.execDist21 s
  | .dist22 => Sys2Proof.Machine.execDist22 s
  | .dist23 => Sys2Proof.Machine.execDist23 s
  | .dist24 => Sys2Proof.Machine.execDist24 s
  | .dist25 => Sys2Proof.Machine.execDist25 s
  | .dist26 => Sys2Proof.Machine.execDist26 s
  | .dist27 => Sys2Proof.Machine.execDist27 s
  | .dist28 => Sys2Proof.Machine.execDist28 s
  | .dist29 => Sys2Proof.Machine.execDist29 s
  | .distReserved30 => Sys2Proof.Machine.execDistReserved30 s
  | .distReserved31 => Sys2Proof.Machine.execDistReserved31 s
  | .clLen length => Sys2Proof.Machine.execClLen length s
  | .clRep16 => Sys2Proof.Machine.execClRep16 s
  | .clRep17 => Sys2Proof.Machine.execClRep17 s
  | .clRep18 => Sys2Proof.Machine.execClRep18 s

end Sys2Proof.Machine
end

