-- ==== Sys2Proof/Machine/HostBus.lean ====
section
/-! DEFINITION. The host's accesses: the register map with its access rules (10_state.md R30 to R51), soft and
hardware reset (70_reset_and_hazards.md R490 to R492), and host accesses to system memory (20_memory.md R120). -/

namespace Sys2Proof.Machine

/-! ### The register map (R38) -/

/-- The byte offset of a register (R38). -/
def Reg.offset (r : Reg) : Nat :=
  match r with
  | .id => 0x000
  | .ctrl => 0x004
  | .status => 0x008
  | .cmd => 0x00C
  | .errCode => 0x010
  | .errInfo => 0x014
  | .errCmd => 0x018
  | .paramFrontierCap => 0x01C
  | .arg0 => 0x020
  | .arg1 => 0x024
  | .arg2 => 0x028
  | .arg3 => 0x02C
  | .res0 => 0x030
  | .res1 => 0x034
  | .res2 => 0x038
  | .res3 => 0x03C
  | .width => 0x040
  | .height => 0x044
  | .bitDepth => 0x048
  | .colorType => 0x04C
  | .compMethod => 0x050
  | .filtMethod => 0x054
  | .interlace => 0x058
  | .paramNodeCap => 0x05C
  | .srcAddr => 0x060
  | .srcLen => 0x064
  | .infAddr => 0x068
  | .infCap => 0x06C
  | .rawAddr => 0x070
  | .pixAddr => 0x074
  | .channels => 0x080
  | .pixelBits => 0x084
  | .bpp => 0x088
  | .scanlineBytes => 0x08C
  | .expectedLen => 0x090
  | .pixKind => 0x094
  | .infLen => 0x098
  | .infSrcUsed => 0x09C
  | .infAdler => 0x0A0
  | .rowsDone => 0x0A4
  | .pfW => 0x0C0
  | .pfH => 0x0C4
  | .gridAddr => 0x0C8
  | .startX => 0x0CC
  | .startY => 0x0D0
  | .goalX => 0x0D4
  | .goalY => 0x0D8
  | .pfMode => 0x0DC
  | .pathAddr => 0x0E0
  | .pathCap => 0x0E4
  | .pathLen => 0x0E8
  | .pqCount => 0x0EC
  | .pfSteps => 0x0F0

/-- The register at a byte offset, or none where the offset is reserved (R33, R38). -/
def regAt (offset : Nat) : Option Reg :=
  match offset with
  | 0x000 => some .id
  | 0x004 => some .ctrl
  | 0x008 => some .status
  | 0x00C => some .cmd
  | 0x010 => some .errCode
  | 0x014 => some .errInfo
  | 0x018 => some .errCmd
  | 0x01C => some .paramFrontierCap
  | 0x020 => some .arg0
  | 0x024 => some .arg1
  | 0x028 => some .arg2
  | 0x02C => some .arg3
  | 0x030 => some .res0
  | 0x034 => some .res1
  | 0x038 => some .res2
  | 0x03C => some .res3
  | 0x040 => some .width
  | 0x044 => some .height
  | 0x048 => some .bitDepth
  | 0x04C => some .colorType
  | 0x050 => some .compMethod
  | 0x054 => some .filtMethod
  | 0x058 => some .interlace
  | 0x05C => some .paramNodeCap
  | 0x060 => some .srcAddr
  | 0x064 => some .srcLen
  | 0x068 => some .infAddr
  | 0x06C => some .infCap
  | 0x070 => some .rawAddr
  | 0x074 => some .pixAddr
  | 0x080 => some .channels
  | 0x084 => some .pixelBits
  | 0x088 => some .bpp
  | 0x08C => some .scanlineBytes
  | 0x090 => some .expectedLen
  | 0x094 => some .pixKind
  | 0x098 => some .infLen
  | 0x09C => some .infSrcUsed
  | 0x0A0 => some .infAdler
  | 0x0A4 => some .rowsDone
  | 0x0C0 => some .pfW
  | 0x0C4 => some .pfH
  | 0x0C8 => some .gridAddr
  | 0x0CC => some .startX
  | 0x0D0 => some .startY
  | 0x0D4 => some .goalX
  | 0x0D8 => some .goalY
  | 0x0DC => some .pfMode
  | 0x0E0 => some .pathAddr
  | 0x0E4 => some .pathCap
  | 0x0E8 => some .pathLen
  | 0x0EC => some .pqCount
  | 0x0F0 => some .pfSteps
  | _ => none

/-- The access type of a register (R38). -/
def Reg.access (r : Reg) : AccessType :=
  match r with
  | .id => .ro
  | .ctrl => .rw
  | .status => .mixed
  | .cmd => .wo
  | .errCode => .ro
  | .errInfo => .ro
  | .errCmd => .ro
  | .paramFrontierCap => .ro
  | .arg0 => .rw
  | .arg1 => .rw
  | .arg2 => .rw
  | .arg3 => .rw
  | .res0 => .ro
  | .res1 => .ro
  | .res2 => .ro
  | .res3 => .ro
  | .width => .rw
  | .height => .rw
  | .bitDepth => .rw
  | .colorType => .rw
  | .compMethod => .rw
  | .filtMethod => .rw
  | .interlace => .rw
  | .paramNodeCap => .ro
  | .srcAddr => .rw
  | .srcLen => .rw
  | .infAddr => .rw
  | .infCap => .rw
  | .rawAddr => .rw
  | .pixAddr => .rw
  | .channels => .ro
  | .pixelBits => .ro
  | .bpp => .ro
  | .scanlineBytes => .ro
  | .expectedLen => .ro
  | .pixKind => .ro
  | .infLen => .ro
  | .infSrcUsed => .ro
  | .infAdler => .ro
  | .rowsDone => .ro
  | .pfW => .rw
  | .pfH => .rw
  | .gridAddr => .rw
  | .startX => .rw
  | .startY => .rw
  | .goalX => .rw
  | .goalY => .rw
  | .pfMode => .rw
  | .pathAddr => .rw
  | .pathCap => .rw
  | .pathLen => .ro
  | .pqCount => .ro
  | .pfSteps => .ro

/-- The current value of a register: a field narrower than 32 bits is zero-extended, reserved bits read 0 (R31,
R34, R38, R40, R43; 00_scope.md R10). -/
def Reg.value (r : Reg) (s : State) : Word :=
  match r with
  | .id => 0x4D5A0007
  | .ctrl => BitVec.ofNat 32 (flagBit s.ctl.ie)
  | .status => s.statusWord
  | .cmd => 0
  | .errCode => s.ctl.errCode.setWidth 32
  | .errInfo => s.ctl.errInfo
  | .errCmd => s.ctl.errCmd.setWidth 32
  | .paramFrontierCap => s.par.frontierCap
  | .arg0 => s.args.a0
  | .arg1 => s.args.a1
  | .arg2 => s.args.a2
  | .arg3 => s.args.a3
  | .res0 => s.res.r0
  | .res1 => s.res.r1
  | .res2 => s.res.r2
  | .res3 => s.res.r3
  | .width => s.hdr.width
  | .height => s.hdr.height
  | .bitDepth => s.hdr.bitDepth.setWidth 32
  | .colorType => s.hdr.colorType.setWidth 32
  | .compMethod => s.hdr.compMethod.setWidth 32
  | .filtMethod => s.hdr.filtMethod.setWidth 32
  | .interlace => s.hdr.interlace.setWidth 32
  | .paramNodeCap => s.par.nodeCap
  | .srcAddr => s.buf.srcAddr
  | .srcLen => s.buf.srcLen
  | .infAddr => s.buf.infAddr
  | .infCap => s.buf.infCap
  | .rawAddr => s.buf.rawAddr
  | .pixAddr => s.buf.pixAddr
  | .channels => s.der.channels
  | .pixelBits => s.der.pixelBits
  | .bpp => s.der.bpp
  | .scanlineBytes => s.der.scanlineBytes
  | .expectedLen => s.der.expectedLen
  | .pixKind => s.der.pixKind.setWidth 32
  | .infLen => s.inf.len
  | .infSrcUsed => s.inf.srcUsed
  | .infAdler => s.inf.adler
  | .rowsDone => s.rowsDone
  | .pfW => s.pf.w.setWidth 32
  | .pfH => s.pf.h.setWidth 32
  | .gridAddr => s.pf.gridAddr
  | .startX => s.pf.startX.setWidth 32
  | .startY => s.pf.startY.setWidth 32
  | .goalX => s.pf.goalX.setWidth 32
  | .goalY => s.pf.goalY.setWidth 32
  | .pfMode => s.pf.mode.setWidth 32
  | .pathAddr => s.pf.pathAddr
  | .pathCap => s.pf.pathCap
  | .pathLen => s.pathLen
  | .pqCount => s.pqCount
  | .pfSteps => s.pfSteps

/-- A write to one of the IHDR registers: CFG_VALID becomes 0, even if the value is unchanged (R45). -/
def setHeader (h : Header) (s : State) : State := { clearCfgValid s with hdr := h }

/-- An accepted write to a read-write register other than CTRL: a narrow field keeps the low bits (R34); the IHDR
registers clear CFG_VALID (R45), INF_ADDR and INF_CAP clear INF_OK (R48). -/
def setReg (r : Reg) (v : Word) (s : State) : State :=
  match r with
  | .arg0 => { s with args := { s.args with a0 := v } }
  | .arg1 => { s with args := { s.args with a1 := v } }
  | .arg2 => { s with args := { s.args with a2 := v } }
  | .arg3 => { s with args := { s.args with a3 := v } }
  | .width => setHeader { s.hdr with width := v } s
  | .height => setHeader { s.hdr with height := v } s
  | .bitDepth => setHeader { s.hdr with bitDepth := v.setWidth 8 } s
  | .colorType => setHeader { s.hdr with colorType := v.setWidth 8 } s
  | .compMethod => setHeader { s.hdr with compMethod := v.setWidth 8 } s
  | .filtMethod => setHeader { s.hdr with filtMethod := v.setWidth 8 } s
  | .interlace => setHeader { s.hdr with interlace := v.setWidth 8 } s
  | .srcAddr => { s with buf := { s.buf with srcAddr := v } }
  | .srcLen => { s with buf := { s.buf with srcLen := v } }
  | .infAddr => { clearInfOk s with buf := { s.buf with infAddr := v } }
  | .infCap => { clearInfOk s with buf := { s.buf with infCap := v } }
  | .rawAddr => { s with buf := { s.buf with rawAddr := v } }
  | .pixAddr => { s with buf := { s.buf with pixAddr := v } }
  | .pfW => { s with pf := { s.pf with w := v.setWidth 16 } }
  | .pfH => { s with pf := { s.pf with h := v.setWidth 16 } }
  | .gridAddr => { s with pf := { s.pf with gridAddr := v } }
  | .startX => { s with pf := { s.pf with startX := v.setWidth 16 } }
  | .startY => { s with pf := { s.pf with startY := v.setWidth 16 } }
  | .goalX => { s with pf := { s.pf with goalX := v.setWidth 16 } }
  | .goalY => { s with pf := { s.pf with goalY := v.setWidth 16 } }
  | .pfMode => { s with pf := { s.pf with mode := v.setWidth 1 } }
  | .pathAddr => { s with pf := { s.pf with pathAddr := v } }
  | .pathCap => { s with pf := { s.pf with pathCap := v } }
  | .id | .ctrl | .status | .cmd | .errCode | .errInfo | .errCmd | .paramFrontierCap | .res0 | .res1
  | .res2 | .res3 | .paramNodeCap | .channels | .pixelBits | .bpp | .scanlineBytes | .expectedLen
  | .pixKind | .infLen | .infSrcUsed | .infAdler | .rowsDone | .pathLen | .pqCount | .pfSteps => s

/-! ### The regions of the running command -/

/-- The regions of a rule whose checks before its region check have passed; none if they fail (R492). -/
def regionsAfter (r : Ended) (f : State → List Region) : List Region :=
  match r with
  | .ok s => f s
  | .raised _ _ _ => []
  | .stuck _ => []

/-- The path region the trace would check, if the search has found a path that fits (45_pathfinder.md R418). -/
def pathRegionList (s : State) : List Region :=
  if s.ctl.pfState = .found then
    match s.foundPath with
    | .path cells => if s.pf.pathCap.toNat < cells.length then [] else [s.pathRegion cells.length]
    | .broken _ => []
  else []

/-- The regions of the running command w, from the register values at acceptance (R492, 20_memory.md R104). A
PF_STEP has no region check and reads the latched grid; PF_SEARCH's path region is the one its search leads to
(log 10). -/
def commandRegions (w : Word) (s : State) : List Region :=
  match w.toNat with
  | 0x02 => inflateRegionList s
  | 0x04 => regionsAfter (unfilterChecks s) unfilterRegionList
  | 0x05 => regionsAfter (unpackChecks s) unpackRegionList
  | 0x06 => regionsAfter (decodeHead s) decodeRegionList
  | 0x10 => regionsAfter (pfStartChecks s) pfStartRegionList
  | 0x11 => if s.ctl.pfState = .active then [s.gridRegion] else []
  | 0x12 => pathRegionList s
  | 0x13 => regionsAfter (pfStartChecks s) pfStartRegionList ++ regionsAfter (pfSearchSteps s) pathRegionList
  | _ => []

/-- The regions of the command in `pending`; none when the engine is idle. -/
def State.runningRegions (s : State) : List Region :=
  match s.pending with
  | none => []
  | some w => commandRegions w s

/-- A byte lies in a region. -/
def Region.holds (r : Region) (a : Nat) : Bool := decide (r.base ≤ a ∧ a < r.base + r.len)

/-! ### Reset -/

/-- Hardware reset (R490): the whole table; the parameters are constants, system memory is not block state, and
the host's own state is not the block's (log 8). -/
def hardReset (s : State) : State :=
  { State.resetWith s.par s.mem with agenda := s.agenda, reply := s.reply, draws := s.draws }

/-- Soft reset (R491, R492): a running command is dropped without completing, and every byte of its write regions
becomes unspecified (log 9); then the table of R490. -/
def softReset (s : State) : State := hardReset (drawWrites s.runningRegions s)

/-! ### Register accesses -/

/-- The registers whose value is unspecified while a command runs (10_state.md R37, S6; log 11). -/
def Reg.unstable (r : Reg) : Bool :=
  match r with
  | .res0 | .res1 | .res2 | .res3 | .infLen | .infSrcUsed | .infAdler | .rowsDone | .pathLen | .pqCount | .pfSteps => true
  | .id | .ctrl | .status | .cmd | .errCode | .errInfo | .errCmd | .paramFrontierCap
  | .arg0 | .arg1 | .arg2 | .arg3 | .width | .height | .bitDepth | .colorType | .compMethod | .filtMethod
  | .interlace | .paramNodeCap | .srcAddr | .srcLen | .infAddr | .infCap | .rawAddr | .pixAddr
  | .channels | .pixelBits | .bpp | .scanlineBytes | .expectedLen | .pixKind
  | .pfW | .pfH | .gridAddr | .startX | .startY | .goalX | .goalY | .pfMode | .pathAddr | .pathCap => false

/-- A read of a register by the host: the current value, with no side effect on the block; an unstable register
read while BUSY = 1 returns a free value (R37). -/
def busRead (r : Reg) (s : State) : State :=
  if s.busy && r.unstable then { s with reply := some (Config.freeWord s.draws), draws := s.draws + 1 }
  else { s with reply := some (r.value s) }

/-- A host write to CTRL (R39): SRST = 1 is a soft reset, whatever the other bits; otherwise IE takes bit 0. -/
def writeCtrl (v : Word) (s : State) : State :=
  if v.getLsbD 1 then softReset s else { s with ctl := { s.ctl with ie := v.getLsbD 0 } }

/-- A host write to a register, by its access type (R35, R36, R38, R40, R41): RO ignores it; an RW register other
than CTRL ignores it while BUSY = 1. -/
def busWrite (r : Reg) (v : Word) (s : State) : State :=
  match r.access with
  | .ro => s
  | .wo => accept v s
  | .mixed => s.writeStatus v
  | .rw => if r = .ctrl then writeCtrl v s else if s.busy then s else setReg r v s

/-- An access the block takes: 32 bits, at a multiple of 4, inside the 256-byte block (R30, R32; log 14). -/
def goodAccess (size offset : Nat) : Bool := decide (size = 4 ∧ offset % 4 = 0 ∧ offset < 256)

/-- A host read at an offset: a reserved offset returns 0 (R33). -/
def hostRead (size offset : Nat) (s : State) : Host.Outcome State Fault Refusal :=
  if goodAccess size offset then
    match regAt offset with
    | some r => .next (busRead r s)
    | none => .next { s with reply := some 0 }
  else .refused (.hostAccess size offset)

/-- A host write at an offset: a reserved offset ignores it (R33). -/
def hostWrite (size offset : Nat) (v : Word) (s : State) : Host.Outcome State Fault Refusal :=
  if goodAccess size offset then
    match regAt offset with
    | some r => .next (busWrite r v s)
    | none => .next s
  else .refused (.hostAccess size offset)

/-! ### System-memory accesses (20_memory.md R120) -/

/-- A host read of a byte: in a write region of the running command a free value, elsewhere the byte. The model's choice
(log 23): `admit` (R106) bounds the engine's accesses only, and every host access completes. -/
def hostMemRead (a : Word) (s : State) : State :=
  if s.runningRegions.any fun r => r.kind = .W && r.holds a.toNat then
    { s with reply := some ((Config.freeByte s.draws).setWidth 32), draws := s.draws + 1 }
  else { s with reply := some ((s.mem.readByte a.toNat).setWidth 32) }

/-- A host write of a byte: in a region of the running command, read or write, it is a race. The model's choice (log
23): `admit` (R106) bounds the engine's accesses only, and every other host access completes. -/
def hostMemWrite (a : Word) (v : Byte) (s : State) : Host.Outcome State Fault Refusal :=
  if s.runningRegions.any fun r => r.holds a.toNat then .fault (.hostRace a)
  else .next { s with mem := s.mem.writeByte a.toNat v }

end Sys2Proof.Machine
end

