-- ==== Sys2Proof/Machine/Fetch.lean ====
section
/-! DEFINITION. What a step fetches: the command in `pending`, or a latched data encoding (log 5); a value that
decodes to no item; and the places a fetched item needs (log 7). Machine/Step.lean calls these. -/

namespace Sys2Proof.Machine

/-- The completion of an illegal command word (30_encoding.md R142, 60_exceptions.md R455): IllegalCommand(w). -/
def illegalCommand (w : Word) (s : State) : State := takeError (w.setWidth 8) .illegalCommand w s

/-- A latched value that is no item of its format. A reserved selector, header pair or interlace code does what
the unit does on it (30_encoding.md R145 to R147); a value wider than its format is no item at all. -/
def reservedItem (f : Format) (v : Nat) (s : State) : Host.Outcome State Fault Refusal :=
  if 2 ^ f.width ≤ v then .refused (.noSuchItem f v)
  else
    match f with
    | .fsel => filterItem v s
    | .interlace => interlaceItem v s
    | .hdrKey =>
      match s.unit with
      | .headerKey => endItem .hdrKey s (headerPair (v % 256) (v / 256) { s with unit := .idle })
      | .unpacking _ => endItem .hdrKey s (.stuck (.headerPairLost (v % 256) (v / 256)))
      | .idle | .headerInterlace _ _ | .bodyCheck | .inflating _ | .unfiltering _ | .starting =>
        .refused (.itemOutOfPlace .hdrKey)
    | .cmd | .pfMode | .btype | .litLen | .dist | .cl => .refused (.noSuchItem f v)

/-- A unit that is about to decode an item of a format, with the row or the stream that the registers name. -/
def unitFor (f : Format) (s : State) : Transient :=
  let c := Inflater.start (s.mem.read s.buf.srcAddr.toNat s.buf.srcLen.toNat)
  match f with
  | .cmd => .idle
  | .fsel => .unfiltering (FilterFsm.load s.rowOperand s)
  | .hdrKey => .headerKey
  | .interlace => .headerInterlace s.hdr.colorType.toNat s.hdr.bitDepth.toNat
  | .pfMode => .starting
  | .btype => .inflating c
  | .litLen => .inflating { c with phase := .litLen }
  | .dist => .inflating (Inflater.push 0 { c with phase := .dist 3 })
  | .cl => .inflating { c with phase := .codeLen, lens := [0], nlit := 257, total := 258 }

/-- A command that runs a unit of a format. -/
def commandFor (f : Format) : Word :=
  match f with
  | .cmd => 0x00
  | .fsel => 0x04
  | .hdrKey => 0x01
  | .interlace => 0x01
  | .pfMode => 0x10
  | .btype => 0x02
  | .litLen => 0x02
  | .dist => 0x02
  | .cl => 0x02

/-- The engine moves next: before the host's next access if one is to come. -/
def State.engineNext (s : State) : State :=
  match s.agenda with
  | [] => s
  | op :: rest => { s with agenda := .engineTurn :: op :: rest }

/-- A command word in `pending`, to be run next. -/
def State.withCommand (s : State) (w : Word) : State := { s.engineNext with pending := some w, item := none }

/-- A data encoding latched for a unit that is about to decode one of its format. -/
def State.withItem (s : State) (f : Format) (v : Nat) : State :=
  { s with pending := some (commandFor f), unit := unitFor f s, item := some (f, v) }

end Sys2Proof.Machine
end

