-- ==== Sys2Proof/Machine/Script.lean ====
section
/-! DEFINITION. The host script notation (30_encoding.md R155 to R157): statements, pseudo-statements and their
expansion to bus operations. -/

namespace Sys2Proof.Machine

/-- The statements of R155 and the pseudo-statements of R156. -/
inductive Stmt where
  /-- `wr NAME, v` -/
  | wr (r : Reg) (v : Word)
  /-- `rd NAME` -/
  | rd (r : Reg)
  /-- `mem a: b0 b1 ...`, launch-state bytes -/
  | mem (a : Nat) (bytes : List Byte)
  /-- `mem16 a: h0 h1 ...`, launch-state u16 values, little-endian -/
  | mem16 (a : Nat) (halves : List Half)
  /-- `cmd MNEMONIC` -/
  | cmd (i : Instr)
  /-- `wait` -/
  | wait
  /-- `call MNEMONIC` -/
  | call (i : Instr)
  /-- `ack` -/
  | ack
  /-- `srst` -/
  | srst
  /-- `args a, b, c, d` -/
  | args (a b c d : Word)
  deriving DecidableEq, Repr

/-- A 32-bit host write of a register (R155). -/
def wrOp (r : Reg) (v : Word) : HostOp := .wr 4 r.offset v

/-- The bus operations of a statement (R155 to R157); `mem` and `mem16` are none. -/
def Stmt.expand (t : Stmt) : List HostOp :=
  match t with
  | .wr r v => [wrOp r v]
  | .rd r => [.rd 4 r.offset]
  | .mem _ _ => []
  | .mem16 _ _ => []
  | .cmd i => [wrOp .cmd (BitVec.ofNat 32 (encode i).bits)]
  | .wait => [.wait]
  | .call i => [wrOp .cmd (BitVec.ofNat 32 (encode i).bits), .wait]
  | .ack => [wrOp .status 0x0000000E]
  | .srst => [wrOp .ctrl 0x00000002]
  | .args a b c d => [wrOp .arg0 a, wrOp .arg1 b, wrOp .arg2 c, wrOp .arg3 d]

/-- The launch memory of a statement (R155). -/
def Stmt.launch (t : Stmt) (m : Memory) : Memory :=
  match t with
  | .mem a bytes => m.write a bytes
  | .mem16 a halves => m.write a (halves.flatMap fun h => le16bytes h.toNat)
  | .wr _ _ | .rd _ | .cmd _ | .wait | .call _ | .ack | .srst | .args _ _ _ _ => m

/-- A script placed before the machine: its launch memory, and its bus operations as the host's agenda (R157;
log 7). -/
def State.withScript (s : State) (script : List Stmt) : State :=
  { s with
    mem := script.foldl (fun m t => t.launch m) s.mem
    agenda := script.flatMap Stmt.expand }

end Sys2Proof.Machine
end

