-- ==== Sys2Proof/Machine/Step.lean ====
section
/-! DEFINITION. One step of the machine (00_scope.md R14): one access of the host, or one engine step, which runs
the whole pending command (60_exceptions.md R454). Which of the two comes next is said by `agenda` (log 4). -/

namespace Sys2Proof.Machine

/-- An engine step (R454): take `pending`, decode it, run it and complete. An idle engine waits
(70_reset_and_hazards.md R493). -/
def engineStep (s : State) : Host.Outcome State Fault Refusal :=
  match s.pending with
  | none => .next s
  | some w =>
    match decode .cmd w.toNat with
    | .ok i => exec i s
    | .error _ => .next (illegalCommand w s)

/-- A latched data encoding is decoded and run by its unit (log 5). -/
def itemStep (f : Format) (v : Nat) (s : State) : Host.Outcome State Fault Refusal :=
  match decode f v with
  | .ok i => exec i s
  | .error _ => reservedItem f v s

/-- The host's next access, with the rest of its agenda already in the state. `wait` polls STATUS: while BUSY = 1
the engine gets its turn and the poll is repeated (30_encoding.md R156, 70_reset_and_hazards.md R511). -/
def hostStep (op : HostOp) (s : State) : Host.Outcome State Fault Refusal :=
  match op with
  | .rd size offset => hostRead size offset s
  | .wr size offset v => hostWrite size offset v s
  | .memRd a => .next (hostMemRead a s)
  | .memWr a v => hostMemWrite a v s
  | .wait => if s.busy then engineStep { s with agenda := .wait :: s.agenda } else .next (busRead .status s)
  | .engineTurn => engineStep s
  | .hardReset => .next (hardReset s)

/-- One step. When the host has no access to come, the engine moves (R511). -/
def step (s : State) : Host.Outcome State Fault Refusal :=
  match s.item with
  | some fv => itemStep fv.1 fv.2 { s with item := none }
  | none =>
    match s.agenda with
    | [] => engineStep s
    | op :: rest => hostStep op { s with agenda := rest }

/-- The state whose next step fetches and runs the item of `nbits` bits `w`, as opcode_table.json numbers them
(log 7). -/
def State.withFetchWord (s : State) (nbits w : Nat) : State :=
  match formatOfWidth nbits w with
  | .cmd => s.withCommand (BitVec.ofNat 32 w)
  | .fsel => s.withItem .fsel w
  | .hdrKey => s.withItem .hdrKey w
  | .interlace => s.withItem .interlace w
  | .pfMode => s.withItem .pfMode w
  | .btype => s.withItem .btype w
  | .litLen => s.withItem .litLen w
  | .dist => s.withItem .dist w
  | .cl => s.withItem .cl w

end Sys2Proof.Machine
end

