-- ==== Sys2Proof/Safety.lean ====
section
/-! DEFINITION. What a claim may say of a state: the canonical form of memory, the invariants the rules give
(10_state.md R45, R48, R55, R58; 45_pathfinder.md R419; 60_exceptions.md R451), and the vocabulary in which results
are stated without the meanings that compute them. -/

namespace Sys2Proof.Machine

/-! ### Canonical form -/

/-- Memory is in its canonical form: addresses strictly rise and lie below 2^32 (20_memory.md R100), and no listed
byte is the one an unlisted address reads as. -/
abbrev Memory.wf (m : Memory) : Prop :=
  m.Pairwise (fun c d => c.1 < d.1) ∧ ∀ c ∈ m, c.1 < 2 ^ 32 ∧ c.2 ≠ Memory.blank

/-- The node table is in its canonical form for a table of `cells` cells (R57): indices strictly rise and exist. -/
abbrev NodeTable.wf (t : NodeTable) (cells : Nat) : Prop :=
  t.Pairwise (fun c d => c.1 < d.1) ∧ ∀ c ∈ t, c.1 < cells

/-! ### The frontier (R58, 44_frontier.md R374) -/

/-- No two entries have the same cell, the keys do not fall, and there are at most `cap` entries. -/
abbrev frontierWf (cap : Nat) (f : List Entry) : Prop :=
  f.Pairwise (fun e g => ¬ (e.x = g.x ∧ e.y = g.y)) ∧ f.Pairwise (fun e g => e.cmp g ≤ 0) ∧ f.length ≤ cap

/-! ### The image configuration (R45, R47, R48) -/

/-- The header registers pass the header check (43_decode_pipeline.md R331), said check by check. -/
abbrev Header.valid (h : Header) : Prop :=
  h.compMethod = 0 ∧ h.filtMethod = 0 ∧ h.bitDepth.toNat ∈ depthsOf h.colorType.toNat ∧ h.interlace.toNat ≤ 1 ∧
  h.width ≠ 0 ∧ h.height ≠ 0 ∧
  expectedLenOf h.width.toNat h.height.toNat h.colorType.toNat h.bitDepth.toNat ≤ 0xFFFFFFFF ∧
  8 * h.width.toNat * h.height.toNat ≤ 0xFFFFFFFF

/-- The derived registers of a header (R332). -/
def Header.derived (h : Header) : Derived :=
  deriveRegs h.width.toNat h.height.toNat h.colorType.toNat h.bitDepth.toNat

/-- CFG_VALID says that the derived registers hold the result of a successful check of the current IHDR registers
(R41, R45), and INF_OK that the inflated length fits the INF buffer (43_decode_pipeline.md R339). -/
abbrev State.configInv (s : State) : Prop :=
  (s.ctl.cfgValid = true → s.hdr.valid ∧ s.der = s.hdr.derived) ∧
  (s.ctl.infOk = true → s.inf.len.toNat ≤ s.buf.infCap.toNat)

/-! ### Completion and errors (60_exceptions.md R451, R455) -/

/-- The error codes the block produces: 0x00 and the codes R451 names, without the chunk-layer kinds 0x01 to 0x07
(R452) and the reserved codes (S12). -/
abbrev producedCode (c : Byte) : Prop :=
  c = 0 ∨ (0x08 ≤ c.toNat ∧ c.toNat ≤ 0x10) ∨ (0x20 ≤ c.toNat ∧ c.toNat ≤ 0x2C)

/-- While a command is pending neither DONE nor ERR is set and the error registers are 0 (10_state.md R40 to R42);
ERR_CODE is always a code the block produces, and not 0 while ERR is set. -/
abbrev State.completionInv (s : State) : Prop :=
  (s.busy = true → s.ctl.done = false ∧ s.ctl.err = false ∧ s.ctl.errCode = 0 ∧ s.ctl.errInfo = 0 ∧
    s.ctl.errCmd = 0) ∧
  producedCode s.ctl.errCode ∧ (s.ctl.err = true → s.ctl.errCode ≠ 0)

/-- No transient state between commands (R59), and no data encoding latched. -/
abbrev State.settled (s : State) : Prop := s.unit = .idle ∧ s.item = none

/-! ### The search (45_pathfinder.md R410, R419) -/

/-- Two cells are 4-adjacent (R404). -/
abbrev Coord.adjacent (c d : Coord) : Prop :=
  (c.x = d.x ∧ (c.y.toNat + 1 = d.y.toNat ∨ d.y.toNat + 1 = c.y.toNat)) ∨
  (c.y = d.y ∧ (c.x.toNat + 1 = d.x.toNat ∨ d.x.toNat + 1 = c.x.toNat))

/-- The latched configuration passed PF_START's checks (R410). -/
abbrev State.latchInv (s : State) : Prop :=
  1 ≤ s.latch.w.toNat ∧ s.latch.w.toNat ≤ Config.maxPfDim ∧
  1 ≤ s.latch.h.toNat ∧ s.latch.h.toNat ≤ Config.maxPfDim ∧
  s.latch.w.toNat * s.latch.h.toNat ≤ s.par.nodeCap.toNat ∧
  s.onGrid s.latch.start = true ∧ s.onGrid s.latch.goal = true ∧
  s.latch.grid.toNat + s.latch.w.toNat * s.latch.h.toNat ≤ 2 ^ 32

/-- The node-table invariants of R419: the start has cost 0 and no predecessor, every other node has an adjacent
predecessor whose cost is one less, and a node's d is its cell's heuristic (R57, R406). -/
def State.nodeInv (s : State) : Prop :=
  (s.nodeAt s.latch.start = some ⟨0, none, s.heuristic s.latch.start⟩) ∧
  ∀ c n, s.onGrid c = true → s.nodeAt c = some n → c ≠ s.latch.start →
    n.d = s.heuristic c ∧
    ∃ p np, n.pred = some p ∧ s.onGrid p = true ∧ p.adjacent c ∧ s.nodeAt p = some np ∧
      n.cost.toNat = np.cost.toNat + 1

/-- Every frontier entry has a node on the grid with the entry's cost and d (R419). -/
def State.entriesInv (s : State) : Prop :=
  ∀ e ∈ s.frontier, s.onGrid ⟨e.x, e.y⟩ = true ∧
    ∃ n, s.nodeAt ⟨e.x, e.y⟩ = some n ∧ n.cost = e.cost ∧ n.d = e.d

/-- What holds of cells whose node has been extracted, that is, is not in the frontier: no entry has a smaller key,
and only such a cell is a predecessor (R407, R415). With it the invariants of R419 are kept. -/
def State.extractedInv (s : State) : Prop :=
  (∀ c n, s.onGrid c = true → s.nodeAt c = some n → findCell s.frontier c = none → ∀ e ∈ s.frontier,
    keyCmp n.cost.toNat n.d.toNat e.cost.toNat e.d.toNat ≤ 0) ∧
  (∀ c n p, s.onGrid c = true → s.nodeAt c = some n → n.pred = some p → findCell s.frontier p = none)

/-- The invariants of a search: no latch and no node before the first search (R52, R56); of the latch and the node
table once a search has been started; of the frontier while it is active; a node of the goal once it is found. -/
def State.searchInv (s : State) : Prop :=
  NodeTable.wf s.node (s.latch.w.toNat * s.latch.h.toNat) ∧
  (s.ctl.pfState = .idle → s.latch = ⟨0, 0, 0, 0, 0, 0, 0, 0⟩) ∧
  (s.ctl.pfState ≠ .idle → s.latchInv ∧ s.nodeInv) ∧
  (s.ctl.pfState = .active → s.entriesInv ∧ s.extractedInv) ∧
  (s.ctl.pfState = .found → (s.nodeAt s.latch.goal).isSome = true)

/-! ### Vocabulary for results -/

/-- A byte sequence as a little-endian number: stream bit k is bit (k mod 8) of byte floor(k / 8) (40_inflate.md
R202). -/
def leNat (bytes : List Byte) : Nat :=
  match bytes with
  | [] => 0
  | b :: rest => b.toNat + 256 * leNat rest

/-- The n stream bits from position p on, the first one least significant (R202, R206). -/
def streamBits (src : List Byte) (p n : Nat) : Nat := leNat src / 2 ^ p % 2 ^ n

/-- n more stream bits exist from position p on (R246). -/
abbrev hasBits (src : List Byte) (p n : Nat) : Prop := p + n ≤ 8 * src.length

/-- How many symbols have code length l (40_inflate.md R215's count[l], for l from 1 on). -/
def lengthCount (lengths : List Nat) (l : Nat) : Nat := if l = 0 then 0 else lengths.countP fun n => n = l

/-- The first code of length l (R215's next[l]). -/
def firstCode (lengths : List Nat) (l : Nat) : Nat :=
  match l with
  | 0 => 0
  | k + 1 => (firstCode lengths k + lengthCount lengths k) * 2

/-- How much of the 2^15 codes of 15 bits the codes of these lengths cover. -/
def codeCover (lengths : List Nat) : Nat := ((List.range 16).map fun l => lengthCount lengths l * 2 ^ (15 - l)).sum

/-- The next n stream bits, the first one most significant, as a Huffman code is read (R206, R217). -/
def codeBits (src : List Byte) (p n : Nat) : Nat :=
  match n with
  | 0 => 0
  | k + 1 => 2 * codeBits src p k + streamBits src (p + k) 1

/-- The four bytes from byte n on as a big-endian number (R240). -/
def trailerAt (src : List Byte) (n : Nat) : Nat :=
  rowByte src n * 2 ^ 24 + rowByte src (n + 1) * 2 ^ 16 + rowByte src (n + 2) * 2 ^ 8 + rowByte src (n + 3)

/-- Memory m' is memory m with `bytes` at address a, read byte by byte: inside they are read, outside nothing
changed. -/
def Memory.storesAt (m m' : Memory) (a : Nat) (bytes : List Byte) : Prop :=
  (∀ i, i < bytes.length → Memory.readByte m' (a + i) = bytes.getD i 0) ∧
  ∀ x, (x < a ∨ a + bytes.length ≤ x) → Memory.readByte m' x = Memory.readByte m x

/-- Outside the write regions of a list every byte reads as before. -/
def Memory.keepsOutside (m m' : Memory) (rs : List Region) : Prop :=
  ∀ x, (∀ r ∈ rs, r.kind = .W → r.holds x = false) → Memory.readByte m' x = Memory.readByte m x

/-- `CheckRegions` passes (20_memory.md R110), said region by region and byte by byte: each is in range, no two
overlap where one is written (R111), every byte is admitted (R106). -/
def regionsPass (p : Params) (rs : List Region) : Prop :=
  (∀ r ∈ rs, r.base + r.len ≤ 2 ^ 32) ∧
  rs.Pairwise (fun r s => (r.kind = .W ∨ s.kind = .W) → ∀ x, ¬ (r.holds x = true ∧ s.holds x = true)) ∧
  ∀ r ∈ rs, ∀ x, r.holds x = true → admits p x r.kind = true

/-- The width of a register's field (10_state.md R38); CTRL has the one stored bit IE, STATUS bits [10:0]. -/
def Reg.fieldWidth (r : Reg) : Nat :=
  match r with
  | .ctrl | .pfMode => 1
  | .pixKind => 2
  | .errCode | .errCmd | .bitDepth | .colorType | .compMethod | .filtMethod | .interlace => 8
  | .status => 11
  | .pfW | .pfH | .startX | .startY | .goalX | .goalY => 16
  | .id | .cmd | .errInfo | .paramFrontierCap | .arg0 | .arg1 | .arg2 | .arg3 | .res0 | .res1 | .res2 | .res3
  | .width | .height | .paramNodeCap | .srcAddr | .srcLen | .infAddr | .infCap | .rawAddr | .pixAddr
  | .channels | .pixelBits | .bpp | .scanlineBytes | .expectedLen | .infLen | .infSrcUsed | .infAdler
  | .rowsDone | .gridAddr | .pathAddr | .pathCap | .pathLen | .pqCount | .pfSteps => 32

/-! ### Rows and pixels, as the rules give them -/

/-- The byte bpp back in a row, 0 for i < bpp (41_unfilter.md R274). -/
def neighbour (row : List Byte) (bpp i : Nat) : Nat := if i < bpp then 0 else rowByte row (i - bpp)

/-- pred_f of R286: 0, a, b, floor((a + b) / 2) or PaethPredictor(a, b, c). -/
def predicted (f a b c : Nat) : Nat :=
  match f with
  | 0 => 0
  | 1 => a
  | 2 => b
  | 3 => (a + b) / 2
  | _ => paethPredictor a b c

/-- `raw` is the reconstruction of the filtered bytes `flt` under filter f above the row `prev` (R274, R276 to
R280): as a relation between the rows, not as the FSM that computes it. -/
def reconstructs (f bpp : Nat) (flt prev raw : List Byte) : Prop :=
  raw.length = flt.length ∧
  ∀ i, i < flt.length → rowByte raw i =
    (rowByte flt i + predicted f (neighbour raw bpp i) (rowByte prev i) (neighbour prev bpp i)) % 256

/-- The forward filter of R286: filtered[i] = (raw[i] - pred_f) mod 256. -/
def forwardFilter (f bpp : Nat) (raw prev : List Byte) : List Byte :=
  (List.range raw.length).map fun i =>
    BitVec.ofNat 8 (rowByte raw i + 256 - predicted f (neighbour raw bpp i) (rowByte prev i) (neighbour prev bpp i))

/-- Channel k of pixel x of a row of c channels and bit depth bd (42_unpack.md R303 to R305). -/
def sampleAt (row : List Byte) (bd c x k : Nat) : Nat :=
  if bd < 8 then rowByte row (x * bd / 8) / 2 ^ (bd * (8 / bd - 1 - x % (8 / bd))) % 2 ^ bd
  else if bd = 8 then rowByte row (x * c + k)
  else 256 * rowByte row (2 * (x * c + k)) + rowByte row (2 * (x * c + k) + 1)

/-- The four fields of the pixel record (R308 to R310). -/
def pixelFields (row : List Byte) (ct bd c x : Nat) : List Nat :=
  match ct with
  | 0 | 3 => [sampleAt row bd c x 0, 0, 0, 0]
  | 2 => [sampleAt row bd c x 0, sampleAt row bd c x 1, sampleAt row bd c x 2, 2 ^ bd - 1]
  | 4 => [sampleAt row bd c x 0, sampleAt row bd c x 0, sampleAt row bd c x 0, sampleAt row bd c x 1]
  | _ => [sampleAt row bd c x 0, sampleAt row bd c x 1, sampleAt row bd c x 2, sampleAt row bd c x 3]

/-- `out` is w pixel records of 8 bytes, each of four little-endian u16 (R310). -/
def unpacksTo (row out : List Byte) (ct bd c w : Nat) : Prop :=
  out.length = 8 * w ∧
  ∀ x k, x < w → k < 4 →
    rowByte out (8 * x + 2 * k) + 256 * rowByte out (8 * x + 2 * k + 1) = (pixelFields row ct bd c x).getD k 0

/-! ### Checks in order -/

/-- One check of a rule: whether it fails, and the error it raises. -/
abbrev Check := Bool × ErrorKind × Nat

/-- The first check that fails decides (60_exceptions.md R453). -/
def firstError (checks : List Check) : Option (ErrorKind × Nat) := (checks.find? fun c => c.1).map fun c => c.2

/-- The rows of 42_unpack.md R301 by color type: code, channels, PIX_KIND, bit depths. -/
def colorModels : List (Nat × Nat × Nat × List Nat) :=
  [(0, 1, 0, [1, 2, 4, 8, 16]), (2, 3, 1, [8, 16]), (3, 1, 2, [1, 2, 4, 8]), (4, 2, 1, [8, 16]), (6, 4, 1, [8, 16])]

/-- ceil(W × channels × bit depth / 8). -/
def rowBytes (w c bd : Nat) : Nat := (w * (c * bd) + 7) / 8

/-- The checks of the header check in their order (43_decode_pipeline.md R331). -/
def headerChecks (h : Header) : List Check :=
  let w := h.width.toNat
  let ht := h.height.toNat
  let bd := h.bitDepth.toNat
  let ct := h.colorType.toNat
  let c := ((colorModels.find? fun m => m.1 = ct).map fun m => m.2.1).getD 0
  [(h.compMethod ≠ 0 || h.filtMethod ≠ 0, .unsupportedMethod, h.compMethod.toNat + 256 * h.filtMethod.toNat),
   (colorModels.all fun m => m.1 ≠ ct, .invalidColorType, ct),
   (colorModels.all fun m => m.1 ≠ ct || bd ∉ m.2.2.2, .invalidBitDepth, bd),
   (h.interlace ≠ 0 && h.interlace ≠ 1, .invalidInterlace, h.interlace.toNat),
   (decide (w = 0), .invalidDimensions, 0),
   (decide (ht = 0), .invalidDimensions, 1),
   (decide (ht * (1 + rowBytes w c bd) > 0xFFFFFFFF), .tooLarge, 0x100),
   (decide (8 * w * ht > 0xFFFFFFFF), .tooLarge, 0x101)]

/-- `RequireConfig()` (R337). -/
def State.configChecks (s : State) : List Check :=
  [(!s.ctl.cfgValid, .notConfigured, 0), (s.hdr.interlace = 1, .unsupportedInterlace, 1)]

/-- `RequireInflated()` (R339). -/
def State.inflatedChecks (s : State) : List Check :=
  [(!s.ctl.infOk, .notConfigured, 1), (s.inf.len ≠ s.der.expectedLen, .scanlineSizeMismatch, s.inf.len.toNat)]

/-- The row index check (41_unfilter.md R285, 42_unpack.md R312). -/
def State.rowCheck (s : State) : List Check :=
  [(decide (s.hdr.height.toNat ≤ s.args.a0.toNat), .rowOutOfRange, s.args.a0.toNat)]

/-- The checks of PF_START in their order, before its region check (45_pathfinder.md R410). -/
def State.startChecks (s : State) : List Check :=
  let w := s.pf.w.toNat
  let h := s.pf.h.toNat
  [(w = 0 || decide (w > 32768), .invalidDimensions, 2),
   (h = 0 || decide (h > 32768), .invalidDimensions, 3),
   (decide (w * h > s.par.nodeCap.toNat), .tooLarge, 0x102),
   (decide (s.pf.startX.toNat ≥ w) || decide (s.pf.startY.toNat ≥ h), .invalidCoordinate, 0),
   (decide (s.pf.goalX.toNat ≥ w) || decide (s.pf.goalY.toNat ≥ h), .invalidCoordinate, 1)]

/-! ### Searches, as the rules give them -/

/-- `Passable(x, y)` (45_pathfinder.md R403). -/
abbrev State.passable (s : State) (c : Coord) : Prop :=
  s.onGrid c = true ∧ s.mem.readByte (s.latch.grid.toNat + c.y.toNat * s.latch.w.toNat + c.x.toNat) ≠ 0

/-- The cells around a cell in the order N, S, E, W (R404). Beyond the upper and the left edge a coordinate wraps to
one that no grid has, whose sides are at most 32768 (R410). -/
def Coord.around (c : Coord) : List Coord := [⟨c.x, c.y - 1⟩, ⟨c.x, c.y + 1⟩, ⟨c.x + 1, c.y⟩, ⟨c.x - 1, c.y⟩]

/-- v is a passable cell without a node: a relaxation makes one, which needs room in the frontier (R413). -/
def State.makes (s : State) (v : Coord) : Bool := decide (s.passable v) && (s.nodeAt v).isNone

/-- A relaxation from the cell of entry e improves v: it is passable, and it has no node or one whose cost is above
the cost of e plus one (R403, R413, R414). -/
def State.lowers (s : State) (e : Entry) (v : Coord) : Bool :=
  decide (s.passable v) && (s.nodeAt v).all fun n => decide (e.cost.toNat + 1 < n.cost.toNat)

/-- The entry v gets from that relaxation: the cost of e plus one, and the d of its node or its heuristic (R413). -/
def State.loweredEntry (s : State) (e : Entry) (v : Coord) : Entry :=
  ⟨v.x, v.y, e.cost + 1, ((s.nodeAt v).map Node.d).getD (s.heuristic v)⟩

/-- The frontier with an entry inserted in place of its cell's old one: behind every entry of smaller or equal key
and before every other (44_frontier.md R375, R376). -/
def placed (f : List Entry) (e : Entry) : List Entry :=
  let others := f.filter fun g => !(g.x = e.x && g.y = e.y)
  (others.filter fun g => decide (g.cmp e ≤ 0)) ++ e :: others.filter fun g => decide (0 < g.cmp e)

/-- The frontier after the relaxations of some cells, one after another, from the cell of entry e (R412, R413). -/
def State.relaxedFrontier (s : State) (e : Entry) (cells : List Coord) (f : List Entry) : List Entry :=
  ((cells.filter (s.lowers e)).map (s.loweredEntry e)).foldl placed f

/-- A walk over the latched grid from the start to the goal: each cell is 4-adjacent to the one before it, and each
but the start is passable (R400, R411, R431). -/
def State.isWalk (s : State) (cells : List Coord) : Prop :=
  cells.head? = some s.latch.start ∧ cells.getLast? = some s.latch.goal ∧
  cells.IsChain Coord.adjacent ∧ ∀ c ∈ cells.tail, s.passable c

/-- The bytes of path entries: x, then y, each a little-endian u16 (R430). -/
def holdsPath (m : Memory) (a : Nat) (cells : List Coord) : Prop :=
  ∀ k c, cells[k]? = some c →
    le16 (m.readByte (a + 4 * k)).toNat (m.readByte (a + 4 * k + 1)).toNat = c.x.toNat ∧
    le16 (m.readByte (a + 4 * k + 2)).toNat (m.readByte (a + 4 * k + 3)).toNat = c.y.toNat

/-! ### The whole invariant -/

/-- What holds after reset and after every step, as long as no data encoding is latched by itself. -/
def State.Inv (s : State) : Prop :=
  s.par.wf ∧ s.mem.wf ∧ s.settled ∧ s.completionInv ∧ s.configInv ∧
  frontierWf s.par.frontierCap.toNat s.frontier ∧ s.searchInv

end Sys2Proof.Machine
end

