-- ==== Sys2Proof/Certificates/Slice0/Obligations.lean ====
section
/-! DEFINITION. The statements for the provers: encoding, the step and reset, the host's accesses, whole-machine rules,
the image commands, the frontier and the pathfinder, and the data encodings.

`finish` and `takeError` are the completion of a command (CommandCompletion says what they leave); `{ s with ... }` names
everything a form changes, so an equation with a next state is also its frame. Bytes of memory are said through
`Memory.readByte`: `storesAt` and `keepsOutside` of Safety.lean. -/

open Sys2Proof Sys2Proof.Machine

/-! ### Encoding -/

/-- Decoding an encoded item gives it back, with every operand the encoding admits (30_encoding.md R141, R145 to
R150). -/
def Obligations.DecodeOfEncode : Prop :=
  ∀ i : Instr, i.wellFormed = true → decode (encode i).fmt (encode i).bits = .ok i

/-- Each value of a format has one meaning: what decodes is well formed and encodes to that value (R150). -/
def Obligations.EncodeOfDecode : Prop :=
  ∀ (f : Format) (v : Nat) (i : Instr), decode f v = .ok i → i.wellFormed = true ∧ encode i = ⟨f, v⟩

/-- Words written out from the tables of the spec decode to the items they stand for. -/
def Obligations.SampleWordsDecode : Prop :=
  decode .cmd 0b00000000000000000000000000000110 = .ok .decode ∧
  decode .cmd 0b00000000000000000000000000011100 = .ok .pqDecrease ∧
  decode .fsel 0b00000100 = .ok .filterPaeth ∧
  decode .hdrKey 0b0001000000000110 = .ok .rgba16 ∧
  decode .interlace 0b00000001 = .ok .interlaceAdam7 ∧
  decode .pfMode 0b1 = .ok .pfAstar ∧
  decode .btype 0b10 = .ok .btypeDynamic ∧
  decode .litLen 0b100011101 = .ok .len285 ∧
  decode .litLen 0b001100001 = .ok (.lit 0x61) ∧
  decode .dist 0b11101 = .ok .dist29 ∧
  decode .cl 0b10010 = .ok .clRep18 ∧
  decode .cl 0b00111 = .ok (.clLen 7)

/-- R142: a word is illegal exactly when its OPC is unassigned or a bit of [31:8] is set; the engine step of an
illegal word is the completion with IllegalCommand(w) and changes nothing else. -/
def Obligations.IllegalCommandCompletes : Prop :=
  ∀ (s : State) (w : Word), s.pending = some w →
    ((∃ r, decode .cmd w.toNat = .error r) ↔
      (w.toNat / 256 ≠ 0 ∨ (0x07 ≤ w.toNat % 256 ∧ w.toNat % 256 ≤ 0x0F) ∨
        (0x14 ≤ w.toNat % 256 ∧ w.toNat % 256 ≤ 0x17) ∨ 0x1E ≤ w.toNat % 256)) ∧
    ((∃ r, decode .cmd w.toNat = .error r) →
      engineStep s = .next { s with
        pending := none
        unit := .idle
        ctl := { s.ctl with done := true, err := true, errCode := 0x20, errInfo := w, errCmd := w.setWidth 8 } })

/-! ### The step and reset -/

/-- A step runs the decoded instruction. When the engine's turn has come (nothing on the host's agenda, a turn left to
it, or a poll while BUSY = 1), the step is exec of what `pending` decodes to (60_exceptions.md R454); a latched data
encoding is run first, in the state without the latch (log 5). With no latch, a step is the engine step of R454 when the
engine's turn has come, and else the host access at the head of the agenda, in the state with the rest of the agenda
(R14); a poll is a read of STATUS, and is over when BUSY = 0 (R156). That the agenda orders the turns is the model's
choice (log 4). -/
def Obligations.StepRunsDecodedInstruction : Prop :=
  (∀ (s : State) (w : Word) (i : Instr), s.item = none → s.pending = some w → decode .cmd w.toNat = .ok i →
      (s.agenda = [] → step s = exec i s) ∧
      (∀ rest, s.agenda = .engineTurn :: rest → step s = exec i { s with agenda := rest }) ∧
      (∀ rest, s.agenda = .wait :: rest → step s = exec i s)) ∧
  (∀ (s : State) (f : Format) (v : Nat) (i : Instr), s.item = some (f, v) → decode f v = .ok i →
    step s = exec i { s with item := none }) ∧
  ∀ (s : State), s.item = none → (s.agenda = [] → step s = engineStep s) ∧
    ∀ rest, let s' := { s with agenda := rest }
      (s.agenda = .engineTurn :: rest → step s = engineStep s') ∧
      (s.agenda = .wait :: rest → s.busy = true → step s = engineStep s) ∧
      (s.agenda = .wait :: rest → s.busy = false → step s = .next { s' with reply := some (Reg.status.value s) }) ∧
      (∀ size offset, s.agenda = .rd size offset :: rest → step s = hostRead size offset s') ∧
      (∀ size offset v, s.agenda = .wr size offset v :: rest → step s = hostWrite size offset v s') ∧
      (∀ a, s.agenda = .memRd a :: rest → step s = .next (hostMemRead a s')) ∧
      (∀ a v, s.agenda = .memWr a v :: rest → step s = hostMemWrite a v s') ∧
      (s.agenda = .hardReset :: rest → step s = .next (hardReset s'))

/-- R490: every register reads 0 after hardware reset but ID and the two parameter registers, IRQ is 0, `pending`,
the latch, the node table and the frontier are empty, no command runs, and memory is as it was. R493: nothing executes
at reset, and an idle engine waits. -/
def Obligations.ResetLeaves : Prop :=
  (∀ (s : State), (∀ r : Reg, r.value (hardReset s) =
        (if r = .id then 0x4D5A0007 else if r = .paramFrontierCap then s.par.frontierCap
         else if r = .paramNodeCap then s.par.nodeCap else 0)) ∧
      (hardReset s).irq = false ∧ (hardReset s).pending = none ∧ (hardReset s).unit = .idle ∧
      (hardReset s).latch = ⟨0, 0, 0, 0, 0, 0, 0, 0⟩ ∧ (hardReset s).node = [] ∧ (hardReset s).frontier = [] ∧
      (hardReset s).mem = s.mem ∧ State.reset = State.resetWith Params.vectors [] ∧
      (∀ r : Reg, r.value State.reset = r.value (hardReset State.reset))) ∧
  ((∀ (p : Params) (m : Memory), step (State.resetWith p m) = .next (State.resetWith p m)) ∧
    ∀ s : State, s.item = none → s.agenda = [] → s.pending = none → step s = .next s)

/-- R491, R492: a write of CTRL with SRST = 1 leaves what hardware reset leaves, whatever the other bits and whether
a command runs or not; a running command is dropped without completing, and only bytes of its write regions
change (of a PF_TRACE or PF_SEARCH the path region counts only for a path that fits, which is the model's choice, log
10; past 2^32 there is no byte to change, log 9). The block then accepts a command at once. -/
def Obligations.SoftResetDropsCommand : Prop :=
  ∀ (s : State) (v : Word), v.getLsbD 1 = true → s.mem.wf →
    ∃ m k, hostWrite 4 0x004 v s = .next { hardReset s with mem := m, draws := k } ∧
      s.mem.keepsOutside m s.runningRegions ∧
      (s.pending = none → m = s.mem) ∧
      ∀ w : Word, ({ hardReset s with mem := m, draws := k } : State).busy = false ∧
        (accept w { hardReset s with mem := m, draws := k }).pending = some w

/-! ### The host's accesses -/

/-- The assigned registers of R38 in its order: name, offset and access type. -/
def registerTable : List (Reg × Nat × AccessType) :=
  [(.id, 0x000, .ro), (.ctrl, 0x004, .rw), (.status, 0x008, .mixed), (.cmd, 0x00C, .wo),
   (.errCode, 0x010, .ro), (.errInfo, 0x014, .ro), (.errCmd, 0x018, .ro), (.paramFrontierCap, 0x01C, .ro),
   (.arg0, 0x020, .rw), (.arg1, 0x024, .rw), (.arg2, 0x028, .rw), (.arg3, 0x02C, .rw), (.res0, 0x030, .ro),
   (.res1, 0x034, .ro),
   (.res2, 0x038, .ro), (.res3, 0x03C, .ro), (.width, 0x040, .rw), (.height, 0x044, .rw),
   (.bitDepth, 0x048, .rw), (.colorType, 0x04C, .rw), (.compMethod, 0x050, .rw), (.filtMethod, 0x054, .rw),
   (.interlace, 0x058, .rw), (.paramNodeCap, 0x05C, .ro), (.srcAddr, 0x060, .rw), (.srcLen, 0x064, .rw),
   (.infAddr, 0x068, .rw), (.infCap, 0x06C, .rw),
   (.rawAddr, 0x070, .rw), (.pixAddr, 0x074, .rw), (.channels, 0x080, .ro), (.pixelBits, 0x084, .ro),
   (.bpp, 0x088, .ro), (.scanlineBytes, 0x08C, .ro), (.expectedLen, 0x090, .ro), (.pixKind, 0x094, .ro),
   (.infLen, 0x098, .ro), (.infSrcUsed, 0x09C, .ro), (.infAdler, 0x0A0, .ro), (.rowsDone, 0x0A4, .ro),
   (.pfW, 0x0C0, .rw), (.pfH, 0x0C4, .rw),
   (.gridAddr, 0x0C8, .rw), (.startX, 0x0CC, .rw), (.startY, 0x0D0, .rw), (.goalX, 0x0D4, .rw),
   (.goalY, 0x0D8, .rw), (.pfMode, 0x0DC, .rw), (.pathAddr, 0x0E0, .rw), (.pathCap, 0x0E4, .rw),
   (.pathLen, 0x0E8, .ro), (.pqCount, 0x0EC, .ro), (.pfSteps, 0x0F0, .ro)]

/-- R32: an access to the block that is not 32 bits at a multiple of 4 is refused. R33: a reserved offset reads 0
and ignores writes. The registers, their offsets and their access types are those of R38's table. -/
def Obligations.RegisterBlockAccesses : Prop :=
  (∀ (s : State) (size offset : Nat) (v : Word), size ≠ 4 ∨ offset % 4 ≠ 0 →
    hostRead size offset s = .refused (.hostAccess size offset) ∧
    hostWrite size offset v s = .refused (.hostAccess size offset)) ∧
  (∀ (s : State) (offset : Nat) (v : Word),
    offset ∈ [0x078, 0x07C, 0x0A8, 0x0AC, 0x0B0, 0x0B4, 0x0B8, 0x0BC, 0x0F4, 0x0F8, 0x0FC] →
    hostRead 4 offset s = .next { s with reply := some 0 } ∧ hostWrite 4 offset v s = .next s) ∧
  (∀ r : Reg, regAt r.offset = some r ∧ r.offset % 4 = 0 ∧ r.offset < 256) ∧
  ∀ r : Reg, (r, r.offset, r.access) ∈ registerTable

/-- What each register but STATUS holds (R31, R38 to R51): the piece of state it names, PQ_COUNT the length of the frontier. -/
def registerHolds (s : State) : List (Reg × Nat) :=
  [(.id, 0x4D5A0007), (.ctrl, if s.ctl.ie then 1 else 0), (.cmd, 0), (.errCode, s.ctl.errCode.toNat),
   (.errInfo, s.ctl.errInfo.toNat), (.errCmd, s.ctl.errCmd.toNat),
   (.paramFrontierCap, s.par.frontierCap.toNat), (.arg0, s.args.a0.toNat), (.arg1, s.args.a1.toNat),
   (.arg2, s.args.a2.toNat), (.arg3, s.args.a3.toNat), (.res0, s.res.r0.toNat), (.res1, s.res.r1.toNat),
   (.res2, s.res.r2.toNat), (.res3, s.res.r3.toNat), (.width, s.hdr.width.toNat),
   (.height, s.hdr.height.toNat), (.bitDepth, s.hdr.bitDepth.toNat), (.colorType, s.hdr.colorType.toNat),
   (.compMethod, s.hdr.compMethod.toNat), (.filtMethod, s.hdr.filtMethod.toNat),
   (.interlace, s.hdr.interlace.toNat), (.paramNodeCap, s.par.nodeCap.toNat), (.srcAddr, s.buf.srcAddr.toNat),
   (.srcLen, s.buf.srcLen.toNat), (.infAddr, s.buf.infAddr.toNat),
   (.infCap, s.buf.infCap.toNat), (.rawAddr, s.buf.rawAddr.toNat), (.pixAddr, s.buf.pixAddr.toNat),
   (.channels, s.der.channels.toNat), (.pixelBits, s.der.pixelBits.toNat), (.bpp, s.der.bpp.toNat),
   (.scanlineBytes, s.der.scanlineBytes.toNat), (.expectedLen, s.der.expectedLen.toNat),
   (.pixKind, s.der.pixKind.toNat), (.infLen, s.inf.len.toNat), (.infSrcUsed, s.inf.srcUsed.toNat),
   (.infAdler, s.inf.adler.toNat), (.rowsDone, s.rowsDone.toNat),
   (.pfW, s.pf.w.toNat), (.pfH, s.pf.h.toNat), (.gridAddr, s.pf.gridAddr.toNat), (.startX, s.pf.startX.toNat),
   (.startY, s.pf.startY.toNat), (.goalX, s.pf.goalX.toNat), (.goalY, s.pf.goalY.toNat),
   (.pfMode, s.pf.mode.toNat), (.pathAddr, s.pf.pathAddr.toNat), (.pathCap, s.pf.pathCap.toNat),
   (.pathLen, s.pathLen.toNat), (.pqCount, s.frontier.length % 2 ^ 32), (.pfSteps, s.pfSteps.toNat)]

/-- R37: a host read changes nothing but what the bus returns. It returns the register's current value; for the
result registers while BUSY = 1 some value that is not specified. That R37's INF_* registers are the three results and
not INF_ADDR and INF_CAP, so that a read of these two while BUSY = 1 returns their current value, is the model's choice
(log 11). The current value is that of the piece of state the register names. -/
def Obligations.RegisterReads : Prop :=
  ∀ (s : State) (r : Reg),
    (s.busy = false ∨ r ∉ [.res0, .res1, .res2, .res3, .infLen, .infSrcUsed, .infAdler, .rowsDone, .pathLen,
        .pqCount, .pfSteps] →
      hostRead 4 r.offset s = .next { s with reply := some (r.value s) }) ∧
    (∃ v k, hostRead 4 r.offset s = .next { s with reply := some v, draws := k }) ∧
    (Reg.id.value s = 0x4D5A0007 ∧ Reg.cmd.value s = 0) ∧
    ∀ n, (r, n) ∈ registerHolds s → (r.value s).toNat = n

/-- R34 and the access types of R38: while idle, a write to a read-write register other than CTRL is read back as
the low bits its field holds, and changes no other register, but for CFG_VALID and INF_OK in STATUS. -/
def Obligations.WriteReadsBackLowBits : Prop :=
  ∀ (s : State) (r : Reg) (v : Word), r.access = .rw → r ≠ .ctrl → s.busy = false →
    ∃ t, hostWrite 4 r.offset v s = .next t ∧
      (r.value t).toNat = v.toNat % 2 ^ r.fieldWidth ∧
      (∀ q : Reg, q ≠ r → q ≠ .status → q.value t = q.value s) ∧
      t.mem = s.mem ∧ t.node = s.node ∧ t.frontier = s.frontier ∧ t.latch = s.latch ∧ t.pending = s.pending ∧
      t.ctl = { s.ctl with
        cfgValid := if r ∈ [.width, .height, .bitDepth, .colorType, .compMethod, .filtMethod, .interlace] then false
          else s.ctl.cfgValid
        infOk := if r ∈ [.infAddr, .infCap] then false else s.ctl.infOk }

/-- R35 and R36: a write to a read-only register is ignored always, to a read-write register other than CTRL while
BUSY = 1; a write of CTRL without SRST sets IE from bit 0, BUSY or not. -/
def Obligations.IgnoredWrites : Prop :=
  ∀ (s : State) (r : Reg) (v : Word),
    (r.access = .ro → hostWrite 4 r.offset v s = .next s) ∧
    (r.access = .rw → r ≠ .ctrl → s.busy = true → hostWrite 4 r.offset v s = .next s) ∧
    (v.getLsbD 1 = false →
      hostWrite 4 0x004 v s = .next { s with ctl := { s.ctl with ie := v.getLsbD 0 } })

/-- R40: a word written to CMD while BUSY = 1 is dropped and sets OVR; otherwise it becomes `pending`, BUSY rises,
DONE and ERR fall and the error registers are zeroed; OVR stays. INF_OK falls too for INFLATE and DECODE (R48). -/
def Obligations.CommandAcceptance : Prop :=
  ∀ (s : State) (w : Word),
    (s.busy = true → hostWrite 4 0x00C w s = .next { s with ctl := { s.ctl with ovr := true } }) ∧
    (s.busy = false → ∃ t, hostWrite 4 0x00C w s = .next t ∧ t.busy = true ∧
      t = { s with
        pending := some w
        ctl := { s.ctl with
          done := false
          err := false
          errCode := 0
          errInfo := 0
          errCmd := 0
          infOk := s.ctl.infOk && decide (w.toNat ≠ 2) && decide (w.toNat ≠ 6) } })

/-- R41's write-one-to-clear bits: a 1 clears DONE, ERR or OVR, a 0 leaves it, and the read-only fields ignore the
write. STATUS reads its bits where R38 puts them. -/
def Obligations.StatusBits : Prop :=
  ∀ (s : State) (v : Word),
    (hostWrite 4 0x008 v s = .next { s with
      ctl := { s.ctl with
        done := s.ctl.done && !(v.toNat / 2 % 2 = 1)
        err := s.ctl.err && !(v.toNat / 4 % 2 = 1)
        ovr := s.ctl.ovr && !(v.toNat / 8 % 2 = 1) } }) ∧
    (Reg.status.value s).getLsbD 0 = s.busy ∧ (Reg.status.value s).getLsbD 1 = s.ctl.done ∧
    (Reg.status.value s).getLsbD 2 = s.ctl.err ∧ (Reg.status.value s).getLsbD 3 = s.ctl.ovr ∧
    (Reg.status.value s).getLsbD 4 = s.ctl.cfgValid ∧ (Reg.status.value s).getLsbD 5 = s.ctl.infOk ∧
    ((Reg.status.value s).toNat / 256 = match s.ctl.pfState with
      | .idle => 0
      | .active => 1
      | .found => 2
      | .noPath => 3
      | .failed => 4) ∧
    (Reg.status.value s).getLsbD 6 = false ∧ (Reg.status.value s).getLsbD 7 = false

/-- R460: IRQ is CTRL.IE AND STATUS.DONE; it is up after the completion of any pending word, a success or a failure,
exactly when IE = 1, and down after an acceptance, a reset, a write clearing DONE or a write clearing IE. A dropped
CMD write leaves it (R461). -/
def Obligations.InterruptLine : Prop :=
  ∀ (s : State),
    (s.irq = (s.ctl.ie && s.ctl.done)) ∧
    (∀ t, s.pending.isSome = true → engineStep s = .next t → t.irq = s.ctl.ie) ∧
    (∀ w t, s.busy = false → hostWrite 4 0x00C w s = .next t → t.irq = false) ∧
    (∀ w t, s.busy = true → hostWrite 4 0x00C w s = .next t → t.irq = s.irq) ∧
    (∀ v t, v.getLsbD 1 = true → hostWrite 4 0x008 v s = .next t → t.irq = false) ∧
    (∀ v t, v.getLsbD 0 = false ∨ v.getLsbD 1 = true → hostWrite 4 0x004 v s = .next t → t.irq = false) ∧
    (hardReset s).irq = false

/-- n PF_STEPs lead from s to t, each of an active search and each leaving it active or found: the loop of R422. -/
def searchRuns (n : Nat) (s t : State) : Prop :=
  match n with
  | 0 => t = s
  | k + 1 => s.ctl.pfState = .active ∧
      ∃ u, exec .pfStep s = .next u ∧ (u.ctl.pfState = .active ∨ u.ctl.pfState = .found) ∧ searchRuns k u t

/-- The regions of the running command (R104, R110, R120, R492), from the register values, which are stable while it
runs: those its rule checks, if the checks before its region check pass, else none. The model's choice (log 10): a
PF_STEP, which checks none, has the latched grid, and a PF_SEARCH has, beside the grid, the path region its trace
checks. -/
def runningCommandRegions : Prop :=
  ∀ (s : State) (w : Word), s.pending = some w →
    let y := s.args.a0.toNat
    let sb := s.der.scanlineBytes.toNat
    let width := s.hdr.width.toNat
    let inf := s.buf.infAddr.toNat
    let raw := s.buf.rawAddr.toNat
    let pix := s.buf.pixAddr.toNat
    let src : Region := ⟨s.buf.srcAddr.toNat, s.buf.srcLen.toNat, .R⟩
    let infAll : Region := ⟨inf, s.buf.infCap.toNat, .W⟩
    let grid : Region := ⟨s.pf.gridAddr.toNat, s.pf.w.toNat * s.pf.h.toNat, .R⟩
    let path := fun n : Nat => if n ≤ s.pf.pathCap.toNat then [(⟨s.pf.pathAddr.toNat, 4 * n, .W⟩ : Region)] else []
    (w = 0x02 → s.runningRegions = [src, infAll]) ∧
    (w = 0x04 → s.runningRegions =
      if firstError (s.configChecks ++ s.inflatedChecks ++ s.rowCheck) = none then
        [⟨inf + y * (1 + sb), 1 + sb, .R⟩, if 0 < y then ⟨raw + (y - 1) * sb, sb, .R⟩ else ⟨raw, 0, .R⟩,
          ⟨raw + y * sb, sb, .W⟩]
      else []) ∧
    (w = 0x05 → s.runningRegions =
      if firstError (s.configChecks ++ s.rowCheck) = none then
        [⟨raw + y * sb, sb, .R⟩, ⟨pix + 8 * y * width, 8 * width, .W⟩]
      else []) ∧
    (w = 0x06 → s.runningRegions =
      if firstError (headerChecks s.hdr) = none ∧ s.hdr.interlace ≠ 1 then
        [src, infAll, ⟨raw, s.hdr.height.toNat * s.hdr.derived.scanlineBytes.toNat, .W⟩,
          ⟨pix, 8 * width * s.hdr.height.toNat, .W⟩]
      else []) ∧
    (w = 0x10 → s.runningRegions = if firstError s.startChecks = none then [grid] else []) ∧
    (w = 0x11 → s.runningRegions =
      if s.ctl.pfState = .active then [⟨s.latch.grid.toNat, s.latch.w.toNat * s.latch.h.toNat, .R⟩] else []) ∧
    (w = 0x12 → s.Inv →
      (s.ctl.pfState ≠ .found → s.runningRegions = []) ∧
      (s.ctl.pfState = .found → ∃ goal, s.nodeAt s.latch.goal = some goal ∧
        s.runningRegions = path (goal.cost.toNat + 1))) ∧
    (w = 0x13 → s.Inv →
      (firstError s.startChecks ≠ none → s.runningRegions = []) ∧
      (firstError s.startChecks = none → ∀ e n, checkRegions [grid] s = .raised e n s → s.runningRegions = [grid]) ∧
      (firstError s.startChecks = none → regionsPass s.par [grid] →
        ∃ t0 k t, exec .pfStart s = .next t0 ∧ searchRuns k t0 t ∧
          ((∃ u, t.ctl.pfState = .active ∧ exec .pfStep t = .next u ∧
              (u.ctl.pfState = .noPath ∨ u.ctl.pfState = .failed) ∧ s.runningRegions = [grid]) ∨
            ∃ goal, t.ctl.pfState = .found ∧ t.nodeAt t.latch.goal = some goal ∧
              s.runningRegions = grid :: path (goal.cost.toNat + 1)))) ∧
    (w ∉ [0x02, 0x04, 0x05, 0x06, 0x10, 0x11, 0x12, 0x13] → s.runningRegions = [])

/-- R120: while a command runs, a host read of a byte of its write regions returns a value that is not specified,
of any other byte the byte; a host write to a byte of any of its regions is a race, to any other byte it is
performed. While no command runs every access is performed. That `admit` (R106) does not bound the host's own accesses,
so that these clauses hold of every byte, is the model's choice (log 23). Which regions the running
command has, command by command, is the last clause, runningCommandRegions; that PF_STEP has the latched grid, and
PF_SEARCH the path region only of a path that is found and fits, is the model's choice (log 10). -/
def Obligations.HostMemoryAccesses : Prop :=
  (∀ (s : State) (a : Word) (v : Byte), s.mem.wf →
    ((∀ r ∈ s.runningRegions, r.kind = .W → r.holds a.toNat = false) →
      hostMemRead a s = { s with reply := some ((s.mem.readByte a.toNat).setWidth 32) }) ∧
    ((∃ r ∈ s.runningRegions, r.kind = .W ∧ r.holds a.toNat = true) →
      ∃ b : Byte, hostMemRead a s = { s with reply := some (b.setWidth 32), draws := s.draws + 1 }) ∧
    ((∃ r ∈ s.runningRegions, r.holds a.toNat = true) → hostMemWrite a v s = .fault (.hostRace a)) ∧
    ((∀ r ∈ s.runningRegions, r.holds a.toNat = false) →
      ∃ m, hostMemWrite a v s = .next { s with mem := m } ∧ s.mem.storesAt m a.toNat [v]) ∧
    (s.pending = none → s.runningRegions = [])) ∧
  runningCommandRegions

/-! ### Whole-machine rules -/

/-- The error table (R451): each kind and its code. -/
def errorTable : List (ErrorKind × Nat) :=
  [(.none, 0x00), (.invalidSignature, 0x01), (.checksumMismatch, 0x02), (.insufficientBytes, 0x03),
   (.missingHeader, 0x04), (.missingTerminator, 0x05), (.missingImageData, 0x06), (.missingPalette, 0x07),
   (.invalidColorType, 0x08), (.invalidBitDepth, 0x09), (.invalidInterlace, 0x0A), (.unsupportedMethod, 0x0B),
   (.unsupportedInterlace, 0x0C), (.decompressionFailed, 0x0D), (.unknownFilter, 0x0E),
   (.scanlineSizeMismatch, 0x0F),
   (.noPath, 0x10), (.illegalCommand, 0x20), (.notConfigured, 0x21), (.invalidDimensions, 0x22), (.tooLarge, 0x23),
   (.outputOverflow, 0x24), (.rowOutOfRange, 0x25), (.busError, 0x26), (.invalidCoordinate, 0x27),
   (.frontierOverflow, 0x28), (.frontierEmpty, 0x29), (.nodeNotFound, 0x2A), (.searchStateError, 0x2B),
   (.regionOverlap, 0x2C)]

/-- R455, R464: whatever a command does, its completion empties `pending`, sets DONE and leaves no transient state;
after a success ERR and the error registers are as acceptance left them, after a failure ERR is set and they hold a
code the block produces (R451, R452) and the OPC of the command. What `finish` and `takeError` of the other statements
leave: after an error of a kind ERR_CODE is its code of R451's table, ERR_INFO the info and ERR_CMD the OPC; nothing else
changes. -/
def Obligations.CommandCompletion : Prop :=
  (∀ s : State, finish s = { s with pending := none, unit := .idle, ctl := { s.ctl with done := true } }) ∧
  (∀ e : ErrorKind, ∃ code, (e, code) ∈ errorTable ∧ ∀ (s : State) (opc : Byte) (info : Word),
    takeError opc e info s = { s with
      pending := none
      unit := .idle
      ctl := { s.ctl with done := true, err := true, errCode := BitVec.ofNat 8 code, errInfo := info, errCmd := opc } }) ∧
  ∀ (s t : State) (w : Word) (i : Instr), decode .cmd w.toNat = .ok i → exec i s = .next t →
    t.pending = none ∧ t.busy = false ∧ t.unit = .idle ∧ t.ctl.done = true ∧ t.ctl.ovr = s.ctl.ovr ∧
    ((t.ctl.err = s.ctl.err ∧ t.ctl.errCode = s.ctl.errCode ∧ t.ctl.errInfo = s.ctl.errInfo ∧
        t.ctl.errCmd = s.ctl.errCmd) ∨
      (t.ctl.err = true ∧ t.ctl.errCmd = w.setWidth 8 ∧ t.ctl.errCode ≠ 0 ∧ producedCode t.ctl.errCode))

/-- Who writes what (R44, R46, R47, R49, R52, R56, R383 and "Written by" of R38): no command writes the registers
of the host, the parameters, IE or OVR; every other piece of state is written by the commands named for it only. -/
def Obligations.CommandsWriteOnlyTheirState : Prop :=
  ∀ (s t : State) (i : Instr), (encode i).fmt = .cmd → exec i s = .next t →
    t.par = s.par ∧ t.args = s.args ∧ t.hdr = s.hdr ∧ t.buf = s.buf ∧ t.pf = s.pf ∧ t.ctl.ie = s.ctl.ie ∧
    t.ctl.ovr = s.ctl.ovr ∧ t.agenda = s.agenda ∧ t.reply = s.reply ∧ t.item = s.item ∧
    (i ∉ [.pqExtract, .pqPeek, .pfStep, .pfSearch, .nodeRead] → t.res = s.res) ∧
    (i ∉ [.hdrCheck, .decode] → t.der = s.der ∧ t.ctl.cfgValid = s.ctl.cfgValid) ∧
    (i ∉ [.inflate, .decode] → t.inf = s.inf ∧ t.ctl.infOk = s.ctl.infOk ∧ t.draws = s.draws) ∧
    (i ≠ .decode → t.rowsDone = s.rowsDone) ∧
    (i ∉ [.pfStart, .pfStep, .pfSearch] →
      t.ctl.pfState = s.ctl.pfState ∧ t.pfSteps = s.pfSteps ∧ t.node = s.node) ∧
    (i ∉ [.pfStart, .pfSearch] → t.latch = s.latch) ∧
    (i ∉ [.pfStart, .pfTrace, .pfSearch] → t.pathLen = s.pathLen) ∧
    (i ∉ [.pfStart, .pfStep, .pfSearch, .pqClear, .pqInsert, .pqExtract, .pqDecrease] → t.frontier = s.frontier) ∧
    (i ∉ [.inflate, .unfilterRow, .unpackRow, .decode, .pfTrace, .pfSearch] → t.mem = s.mem)

/-- R101, R458: a command changes no byte of memory outside the write regions its rule names, computed from the
state it starts in. -/
def Obligations.CommandsWriteOnlyTheirRegions : Prop :=
  ∀ (s t : State) (w : Word) (i : Instr), s.mem.wf → decode .cmd w.toNat = .ok i → exec i s = .next t →
    s.mem.keepsOutside t.mem (commandRegions w s)

/-- R110, R111: the region check passes exactly when nothing is wrong, and otherwise reports, of the first pass that
fails, the first region past 2^32, the first pair that may not overlap and does, or the first byte that is not
admitted; it changes nothing. -/
def Obligations.RegionCheckOrder : Prop :=
  ∀ (rs : List Region) (s : State),
    (regionsPass s.par rs → checkRegions rs s = .ok s) ∧
    (∀ i r, rs[i]? = some r → 2 ^ 32 < r.base + r.len → (∀ q ∈ rs.take i, q.base + q.len ≤ 2 ^ 32) →
      checkRegions rs s = .raised .tooLarge (BitVec.ofNat 32 i) s) ∧
    ((∀ q ∈ rs, q.base + q.len ≤ 2 ^ 32) →
      ∀ i j r q, i < j → rs[i]? = some r → rs[j]? = some q → (r.kind = .W ∨ q.kind = .W) →
        (∃ x, r.holds x = true ∧ q.holds x = true) →
        (∀ i' j' r' q', i' < j' → (i' < i ∨ (i' = i ∧ j' < j)) → rs[i']? = some r' → rs[j']? = some q' →
          (r'.kind = .W ∨ q'.kind = .W) → ∀ x, ¬ (r'.holds x = true ∧ q'.holds x = true)) →
        checkRegions rs s = .raised .regionOverlap (BitVec.ofNat 32 (i * 256 + j)) s) ∧
    ((∀ q ∈ rs, q.base + q.len ≤ 2 ^ 32) →
      rs.Pairwise (fun r q => (r.kind = .W ∨ q.kind = .W) → ∀ x, ¬ (r.holds x = true ∧ q.holds x = true)) →
      ∀ i r a, rs[i]? = some r → r.holds a = true → admits s.par a r.kind = false →
        (∀ b, r.holds b = true → b < a → admits s.par b r.kind = true) →
        (∀ q ∈ rs.take i, ∀ b, q.holds b = true → admits s.par b q.kind = true) →
        checkRegions rs s = .raised .busError (BitVec.ofNat 32 a) s)

/-- The state after reset meets the invariant. -/
def Obligations.ResetMeetsInvariant : Prop :=
  State.reset.Inv ∧ ∀ (p : Params) (m : Memory), p.wf → m.wf → (State.resetWith p m).Inv

/-- Every step keeps the invariant: memory keeps its canonical form, CFG_VALID and INF_OK say what R45 and R339 say
they say, the error registers stay consistent (R40, R42, R451), the frontier stays sorted with one entry per cell
(R58, R374) and the node table stays a tree of predecessors with exact costs (R419). -/
def Obligations.StepKeepsInvariant : Prop :=
  ∀ (s t : State), s.Inv → step s = .next t → t.Inv

/-- R15, R457: no command hangs and no error leaves the block unable to accept a command: from every state that meets
the invariant, the engine step of whatever word is pending answers a next state, idle, with DONE set. -/
def Obligations.EveryCommandCompletes : Prop :=
  ∀ (s : State) (w : Word), s.Inv → s.pending = some w →
    ∃ t, engineStep s = .next t ∧ t.busy = false ∧ t.ctl.done = true ∧
      (t.ctl.err = true → t.ctl.errCmd = w.setWidth 8 ∧ t.ctl.errCode ≠ 0)

/-! ### NOP, the header check, SIZE_CHECK -/

/-- NOP (R330): word 0x00000000; it completes with success and changes nothing else. SIZE_CHECK (R336, R337, R339): it
succeeds exactly when its four checks pass, and otherwise reports the first that fails; nothing else changes. -/
def Obligations.NopAndSizeCheck : Prop :=
  (decode .cmd 0x00000000 = .ok .nop ∧
    ∀ s : State, exec .nop s =
      .next { s with pending := none, unit := .idle, ctl := { s.ctl with done := true } }) ∧
  decode .cmd 0x00000003 = .ok .sizeCheck ∧
  ∀ s : State,
    (∀ e n, firstError (s.configChecks ++ s.inflatedChecks) = some (e, n) →
      exec .sizeCheck s = .next (takeError 0x03 e (BitVec.ofNat 32 n) s)) ∧
    (firstError (s.configChecks ++ s.inflatedChecks) = none → exec .sizeCheck s = .next (finish s))

/-- HDR_CHECK (R331 to R333): the first check that fails is reported, with CFG_VALID = 0 and the derived registers as
they were; if none fails the six derived registers take the values of R332 (of the table of R301) and CFG_VALID
rises. Nothing else changes. -/
def Obligations.HeaderCheckResult : Prop :=
  decode .cmd 0x00000001 = .ok .hdrCheck ∧
  ∀ s : State,
    (∀ e n, firstError (headerChecks s.hdr) = some (e, n) →
      exec .hdrCheck s = .next (takeError 0x01 e (BitVec.ofNat 32 n)
        { s with ctl := { s.ctl with cfgValid := false } })) ∧
    (firstError (headerChecks s.hdr) = none →
      ∃ d c k, exec .hdrCheck s = .next (finish { s with der := d, ctl := { s.ctl with cfgValid := true } }) ∧
        (∃ depths, (s.hdr.colorType.toNat, c, k, depths) ∈ colorModels ∧ s.hdr.bitDepth.toNat ∈ depths) ∧
        d.channels.toNat = c ∧ d.pixelBits.toNat = c * s.hdr.bitDepth.toNat ∧
        d.bpp.toNat = max 1 ((c * s.hdr.bitDepth.toNat + 7) / 8) ∧
        d.scanlineBytes.toNat = rowBytes s.hdr.width.toNat c s.hdr.bitDepth.toNat ∧
        d.expectedLen.toNat =
          s.hdr.height.toNat * (1 + rowBytes s.hdr.width.toNat c s.hdr.bitDepth.toNat) ∧
        d.pixKind.toNat = k)

/-! ### INFLATE -/

/-- INFLATE on a stream that inflates to bytes that fit (R252, R245): INF_LEN, INF_SRC_USED and INF_ADLER are
written, INF_OK rises, the bytes stand at INF_ADDR, and nothing else changes. -/
def Obligations.InflateSucceeds : Prop :=
  decode .cmd 0x00000002 = .ok .inflate ∧
  ∀ (s : State) (c : Inflater), s.mem.wf →
    regionsPass s.par [⟨s.buf.srcAddr.toNat, s.buf.srcLen.toNat, .R⟩, ⟨s.buf.infAddr.toNat, s.buf.infCap.toNat, .W⟩] →
    inflateStream (s.mem.read s.buf.srcAddr.toNat s.buf.srcLen.toNat) = .ok c →
    c.hist.length ≤ s.buf.infCap.toNat →
    ∃ m r, exec .inflate s = .next (finish { s with
        mem := m
        inf := r
        ctl := { s.ctl with infOk := true } }) ∧
      s.mem.storesAt m s.buf.infAddr.toNat c.hist.reverse ∧
      r.len.toNat = c.hist.length ∧ r.srcUsed = BitVec.ofNat 32 (c.pos / 8) ∧
      r.adler = BitVec.ofNat 32 (adler32 c.hist.reverse)

/-- INFLATE's errors (R252, R253, R458): INF_OK is 0 in every case; a region error changes nothing else; a stream
error reports its subcode and leaves the INF registers and region unspecified; an output that does not fit reports
its length, keeps the results and leaves the region unspecified. No other byte changes. The subcodes are those of R247's
table. -/
def Obligations.InflateFails : Prop :=
  ([InfFail.truncated, .badCm, .badCinfo, .badFcheck, .fdict, .badBtype, .badStoredLen, .badCodeCounts, .badCodeLengths,
      .badSymbol, .badDistance, .badAdler].map InfFail.code = [1, 2, 3, 4, 5, 6, 7, 8, 9, 10, 11, 12] ∧
    ∀ x : InfFail, 1 ≤ x.code ∧ x.code ≤ 12) ∧
  ∀ (s : State), s.mem.wf →
    let lowered := { s with ctl := { s.ctl with infOk := false } }
    let rs : List Region :=
      [⟨s.buf.srcAddr.toNat, s.buf.srcLen.toNat, .R⟩, ⟨s.buf.infAddr.toNat, s.buf.infCap.toNat, .W⟩]
    let src := s.mem.read s.buf.srcAddr.toNat s.buf.srcLen.toNat
    (∀ e n, checkRegions rs s = .raised e n s → exec .inflate s = .next (takeError 0x02 e n lowered)) ∧
    (regionsPass s.par rs → ∀ x, inflateStream src = .error x →
      ∃ m r k, exec .inflate s = .next (takeError 0x02 .decompressionFailed (BitVec.ofNat 32 x.code)
          { lowered with mem := m, inf := r, draws := k }) ∧ s.mem.keepsOutside m rs) ∧
    (regionsPass s.par rs → ∀ c, inflateStream src = .ok c → s.buf.infCap.toNat < c.hist.length →
      ∃ m r k, exec .inflate s = .next (takeError 0x02 .outputOverflow (saturate c.hist.length)
          { lowered with mem := m, inf := r, draws := k }) ∧ s.mem.keepsOutside m rs ∧
        r = ⟨saturate c.hist.length, BitVec.ofNat 32 (c.pos / 8), BitVec.ofNat 32 (adler32 c.hist.reverse)⟩)

/-- The zlib header (R203, R204, R246): the first failing check decides the subcode. The Adler-32 of the trailer
(R241) as two sums over the whole sequence: of n bytes x_0 .. x_(n-1), a is 1 + Σ x_i and b is n + Σ (n - i) x_i,
each modulo 65521. The trailer's turn (R240, R246) skips to the next byte and fails TRUNCATED if four bytes are not
there, BAD_ADLER if they are not, big-endian, the value of the running sums; and a stream that inflates ends with the
Adler-32 of its output. -/
def Obligations.ZlibWrapper : Prop :=
  (∀ (src : List Byte),
      (src.length < 2 → inflateStream src = .error .truncated) ∧
      ∀ cmf flg rest, src = cmf :: flg :: rest →
        ((cmf.toNat * 256 + flg.toNat) % 31 ≠ 0 → inflateStream src = .error .badFcheck) ∧
        ((cmf.toNat * 256 + flg.toNat) % 31 = 0 → cmf.toNat % 16 ≠ 8 → inflateStream src = .error .badCm) ∧
        ((cmf.toNat * 256 + flg.toNat) % 31 = 0 → cmf.toNat % 16 = 8 → 7 < cmf.toNat / 16 →
          inflateStream src = .error .badCinfo) ∧
        ((cmf.toNat * 256 + flg.toNat) % 31 = 0 → cmf.toNat % 16 = 8 → cmf.toNat / 16 ≤ 7 →
          flg.toNat / 32 % 2 = 1 → inflateStream src = .error .fdict)) ∧
  (∀ c : Inflater, c.phase = .trailer →
      let n := (c.pos + 7) / 8
      (c.src.length < n + 4 → turn c = .error .truncated) ∧
      (n + 4 ≤ c.src.length → trailerAt c.src n ≠ adlerValue c.sums → turn c = .error .badAdler) ∧
      (n + 4 ≤ c.src.length → trailerAt c.src n = adlerValue c.sums →
        turn c = .ok ((), { c with pos := 8 * (n + 4), phase := .done }))) ∧
  (∀ (src : List Byte) (c : Inflater), inflateStream src = .ok c →
      ∃ n, c.pos = 8 * (n + 4) ∧ n + 4 ≤ src.length ∧ trailerAt src n = adler32 c.hist.reverse) ∧
  ∀ (bytes : List Byte),
    adler32 bytes =
      ((bytes.length + ((List.range bytes.length).map fun i => (bytes.length - i) * rowByte bytes i).sum) % 65521)
        * 65536 +
      (1 + ((List.range bytes.length).map fun i => rowByte bytes i).sum) % 65521

/-- The trailer's four bytes, big-endian (R240). -/
def trailerBytes (a : Nat) : List Byte :=
  [BitVec.ofNat 8 (a / 2 ^ 24), BitVec.ofNat 8 (a / 2 ^ 16), BitVec.ofNat 8 (a / 2 ^ 8), BitVec.ofNat 8 a]

/-- A zlib header and one stored block for each chunk, as R203, R205 and R210 lay them out. -/
def storedBlocks (chunks : List (List Byte)) : List Byte :=
  let block := fun (final : Byte) (bytes : List Byte) =>
    final :: (le16bytes bytes.length ++ le16bytes (65535 - bytes.length) ++ bytes)
  [0x78, 0x01] ++ chunks.dropLast.flatMap (block 0) ++ block 1 (chunks.getLastD [])

/-- The stored-block form of a byte sequence: the header, the blocks, the Adler-32 of all bytes (R240). -/
def storedStream (chunks : List (List Byte)) : List Byte :=
  storedBlocks chunks ++ trailerBytes (adler32 chunks.flatten)

/-- Stored streams inflate to the bytes they hold (R200, R205, R210, R240, R242): any number of blocks of at most
65535 bytes each, with any bytes after the trailer ignored. With four other bytes for a trailer they fail BAD_ADLER
(R240), and cut off anywhere before their end they fail TRUNCATED (R246). -/
def Obligations.StoredStreamsInflate : Prop :=
  ∀ (chunks : List (List Byte)) (rest : List Byte), chunks ≠ [] → (∀ b ∈ chunks, b.length ≤ 65535) →
    (∃ c, inflateStream (storedStream chunks ++ rest) = .ok c ∧ c.hist.reverse = chunks.flatten ∧
      c.pos = 8 * (storedStream chunks).length) ∧
    (∀ wrong : List Byte, wrong.length = 4 → wrong ≠ trailerBytes (adler32 chunks.flatten) →
      inflateStream (storedBlocks chunks ++ wrong ++ rest) = .error .badAdler) ∧
    ∀ n, n < (storedStream chunks).length → inflateStream ((storedStream chunks).take n) = .error .truncated

/-- The code bits of a literal in the fixed code, most significant first (R209). -/
def fixedCodeBits (b : Byte) : List Bool :=
  if b.toNat < 144 then (List.range 8).map fun k => (0x30 + b.toNat).testBit (7 - k)
  else (List.range 9).map fun k => (0x190 + (b.toNat - 144)).testBit (8 - k)

/-- Stream bits packed into bytes, the first bit least significant (R202, R206); the last byte is filled with 0. -/
def packBits (bits : List Bool) : List Byte :=
  (List.range ((bits.length + 7) / 8)).map fun i =>
    BitVec.ofNat 8 (((List.range 8).map fun j => if bits.getD (8 * i + j) false then 2 ^ j else 0).sum)

/-- Literals in a fixed-code block inflate to themselves (R205, R207, R209, R217, R220 to R222, R240): BFINAL = 1,
BTYPE = 1, the codes of the bytes, the end-of-block code 0000000, the trailer. -/
def Obligations.FixedLiteralsInflate : Prop :=
  ∀ (bytes : List Byte),
    let body := packBits ([true, true, false] ++ bytes.flatMap fixedCodeBits ++ List.replicate 7 false)
    let src := [0x78, 0x9C] ++ body ++ trailerBytes (adler32 bytes)
    ∃ c, inflateStream src = .ok c ∧ c.hist.reverse = bytes ∧ c.pos = 8 * src.length

/-! ### UNFILTER_ROW -/

/-- The Paeth predictor (R275): of a, b, c one that is nearest to p = a + b - c, and of several nearest ones the
first in the order a, b, c. For bytes p lies in -255..510 and the distances in 0..510. -/
def Obligations.PaethPicksNearest : Prop :=
  ∀ (a b c : Nat),
    let p : Int := (a : Int) + b - c
    let near := fun (v w : Nat) => (p - v).natAbs ≤ (p - w).natAbs
    (near a b ∧ near a c → paethPredictor a b c = a) ∧
    (¬ (near a b ∧ near a c) → near b c → paethPredictor a b c = b) ∧
    (¬ (near a b ∧ near a c) → ¬ near b c → paethPredictor a b c = c) ∧
    (∀ v ∈ [a, b, c], near (paethPredictor a b c) v) ∧ paethPredictor a b c ∈ [a, b, c] ∧
    (a ≤ 255 → b ≤ 255 → c ≤ 255 → -255 ≤ p ∧ p ≤ 510 ∧ ∀ v ∈ [a, b, c], (p - v).natAbs ≤ 510)

/-- Unfiltering inverts filtering (R286): for the five filters, any row, any row above of the same length and every
bpp that occurs (R272), the FSM run on the forward-filtered row ends in DONE with the row. -/
def Obligations.UnfilterInvertsFilter : Prop :=
  ∀ (f bpp y : Nat) (raw prev : List Byte), f ≤ 4 → bpp ∈ [1, 2, 3, 4, 6, 8] → prev.length = raw.length →
    let m : FilterFsm := ⟨.select, 0, 0, [], y, bpp, forwardFilter f bpp raw prev, prev⟩
    (m.filtered f).phase = .done ∧ (m.filtered f).raw = raw

/-- UNFILTER_ROW on a row whose checks pass and whose selector is a filter (R284, R285): the RAW row holds the
reconstruction of the scanline under its filter above RAW row y - 1 (zeros for y = 0), as relation between the
rows; nothing else changes. -/
def Obligations.UnfilterRowSucceeds : Prop :=
  decode .cmd 0x00000004 = .ok .unfilterRow ∧
  ∀ s : State,
    let y := s.args.a0.toNat
    let sb := s.der.scanlineBytes.toNat
    let scan := s.buf.infAddr.toNat + y * (1 + sb)
    let prev := if y = 0 then List.replicate sb 0 else s.mem.read (s.buf.rawAddr.toNat + (y - 1) * sb) sb
    let f := (s.mem.readByte scan).toNat
    s.mem.wf → 1 ≤ s.der.bpp.toNat → firstError (s.configChecks ++ s.inflatedChecks ++ s.rowCheck) = none →
    regionsPass s.par [⟨scan, 1 + sb, .R⟩,
      if 0 < y then ⟨s.buf.rawAddr.toNat + (y - 1) * sb, sb, .R⟩ else ⟨s.buf.rawAddr.toNat, 0, .R⟩,
      ⟨s.buf.rawAddr.toNat + y * sb, sb, .W⟩] →
    f ≤ 4 →
    ∃ m raw, exec .unfilterRow s = .next (finish { s with mem := m }) ∧
      reconstructs f s.der.bpp.toNat (s.mem.read (scan + 1) sb) prev raw ∧
      s.mem.storesAt m (s.buf.rawAddr.toNat + y * sb) raw

/-- The errors of UNFILTER_ROW and UNPACK_ROW in their order (R281, R285, R312, R467): the configuration, inflation
(UNFILTER_ROW only) and row checks, the region check, the selector. None changes memory or anything but the completion
state. -/
def Obligations.RowCommandsFail : Prop :=
  (∀ s : State,
      let y := s.args.a0.toNat
      (∀ e n, firstError (s.configChecks ++ s.inflatedChecks ++ s.rowCheck) = some (e, n) →
        exec .unfilterRow s = .next (takeError 0x04 e (BitVec.ofNat 32 n) s)) ∧
      (firstError (s.configChecks ++ s.inflatedChecks ++ s.rowCheck) = none →
        (∀ e n, checkRegions (unfilterRegionList s) s = .raised e n s →
          exec .unfilterRow s = .next (takeError 0x04 e n s)) ∧
        (regionsPass s.par (unfilterRegionList s) → 4 < (s.mem.readByte (s.infRow y)).toNat →
          exec .unfilterRow s = .next (takeError 0x04 .unknownFilter s.args.a0 s)))) ∧
  ∀ s : State,
    (∀ e n, firstError (s.configChecks ++ s.rowCheck) = some (e, n) →
      exec .unpackRow s = .next (takeError 0x05 e (BitVec.ofNat 32 n) s)) ∧
    (firstError (s.configChecks ++ s.rowCheck) = none →
      ∀ e n, checkRegions (unpackRegionList s) s = .raised e n s →
        exec .unpackRow s = .next (takeError 0x05 e n s))

/-! ### UNPACK_ROW -/

/-- UNPACK_ROW on a row whose checks pass (R303 to R305, R308 to R310, R312, R313): PIX row y holds exactly WIDTH
records with the samples of the RAW row; nothing else changes. -/
def Obligations.UnpackRowSucceeds : Prop :=
  decode .cmd 0x00000005 = .ok .unpackRow ∧
  ∀ (s : State) (ct c k bd : Nat) (depths : List Nat),
    let y := s.args.a0.toNat
    let sb := s.der.scanlineBytes.toNat
    let w := s.hdr.width.toNat
    s.mem.wf → (ct, c, k, depths) ∈ colorModels → bd ∈ depths →
    s.hdr.colorType.toNat = ct → s.hdr.bitDepth.toNat = bd → s.der.channels.toNat = c →
    firstError (s.configChecks ++ s.rowCheck) = none →
    regionsPass s.par [⟨s.buf.rawAddr.toNat + y * sb, sb, .R⟩, ⟨s.buf.pixAddr.toNat + 8 * y * w, 8 * w, .W⟩] →
    ∃ m out, exec .unpackRow s = .next (finish { s with mem := m }) ∧
      unpacksTo (s.mem.read (s.buf.rawAddr.toNat + y * sb) sb) out ct bd c w ∧
      s.mem.storesAt m (s.buf.pixAddr.toNat + 8 * y * w) out

/-- Padding bits change no output (R311): two rows that agree on the first WIDTH × PIXEL_BITS bits, counted from the
most significant bit of byte 0, unpack to the same records. -/
def Obligations.PaddingBitsIgnored : Prop :=
  ∀ (ct c k bd w : Nat) (depths : List Nat) (row row' : List Byte),
    (ct, c, k, depths) ∈ colorModels → bd ∈ depths →
    (∀ j, j < w * (c * bd) → rowByte row (j / 8) / 2 ^ (7 - j % 8) % 2 = rowByte row' (j / 8) / 2 ^ (7 - j % 8) % 2) →
    rowRecords row ct bd c 0 w = rowRecords row' ct bd c 0 w

/-! ### DECODE -/

/-- DECODE of an accepted image (R342, R345): the derived registers, the INF results and ROWS_DONE = HEIGHT are
written, CFG_VALID and INF_OK rise; the INF buffer holds the inflated bytes, every RAW row the reconstruction of its
scanline above the row before it, and every PIX row its records; no other byte changes, those of the INF buffer behind
the inflated ones included, and no other register. -/
def Obligations.DecodeSucceeds : Prop :=
  decode .cmd 0x00000006 = .ok .decode ∧
  ∀ (s : State) (out : Inflater) (ct c k bd : Nat) (depths : List Nat),
    let w := s.hdr.width.toNat
    let h := s.hdr.height.toNat
    let sb := rowBytes w c bd
    let inf := s.buf.infAddr.toNat
    let raw := s.buf.rawAddr.toNat
    let pix := s.buf.pixAddr.toNat
    let rs : List Region := [⟨s.buf.srcAddr.toNat, s.buf.srcLen.toNat, .R⟩, ⟨inf, s.buf.infCap.toNat, .W⟩,
      ⟨raw, h * sb, .W⟩, ⟨pix, 8 * w * h, .W⟩]
    s.mem.wf → (ct, c, k, depths) ∈ colorModels → bd ∈ depths →
    s.hdr.colorType.toNat = ct → s.hdr.bitDepth.toNat = bd →
    firstError (headerChecks s.hdr) = none → s.hdr.interlace = 0 → regionsPass s.par rs →
    inflateStream (s.mem.read s.buf.srcAddr.toNat s.buf.srcLen.toNat) = .ok out →
    out.hist.length = h * (1 + sb) → out.hist.length ≤ s.buf.infCap.toNat →
    (∀ y, y < h → rowByte out.hist.reverse (y * (1 + sb)) ≤ 4) →
    ∃ m d r, exec .decode s = .next (finish { s with
        mem := m
        der := d
        inf := r
        rowsDone := s.hdr.height
        ctl := { s.ctl with cfgValid := true, infOk := true } }) ∧
      d = s.hdr.derived ∧ r.len.toNat = out.hist.length ∧ r.srcUsed = BitVec.ofNat 32 (out.pos / 8) ∧
      r.adler = BitVec.ofNat 32 (adler32 out.hist.reverse) ∧
      (∀ i, i < out.hist.length → m.readByte (inf + i) = out.hist.reverse.getD i 0) ∧
      (∀ y, y < h →
        reconstructs (rowByte out.hist.reverse (y * (1 + sb))) (max 1 ((c * bd + 7) / 8))
          (m.read (inf + y * (1 + sb) + 1) sb)
          (if y = 0 then List.replicate sb 0 else m.read (raw + (y - 1) * sb) sb) (m.read (raw + y * sb) sb) ∧
        unpacksTo (m.read (raw + y * sb) sb) (m.read (pix + 8 * y * w) (8 * w)) ct bd c w) ∧
      s.mem.keepsOutside m [⟨inf, out.hist.length, .W⟩, ⟨raw, h * sb, .W⟩, ⟨pix, 8 * w * h, .W⟩]

/-- DECODE's errors up to the inflate phase (R342, R343, R456): INF_OK and ROWS_DONE are cleared whatever happens; a
header error leaves CFG_VALID = 0 and the derived registers; an interlaced image and a region error come after the
header check has written them; none of these changes memory or the INF registers. -/
def Obligations.DecodeRejects : Prop :=
  ∀ s : State,
    let head := { s with rowsDone := 0, ctl := { s.ctl with infOk := false, cfgValid := false } }
    let checked := { head with der := s.hdr.derived, ctl := { head.ctl with cfgValid := true } }
    (∀ e n, firstError (headerChecks s.hdr) = some (e, n) →
      exec .decode s = .next (takeError 0x06 e (BitVec.ofNat 32 n) head)) ∧
    (firstError (headerChecks s.hdr) = none → s.hdr.interlace = 1 →
      exec .decode s = .next (takeError 0x06 .unsupportedInterlace 1 checked)) ∧
    (firstError (headerChecks s.hdr) = none → s.hdr.interlace = 0 →
      ∀ e n, checkRegions (decodeRegionList checked) checked = .raised e n checked →
        exec .decode s = .next (takeError 0x06 e n checked))

/-- DECODE's errors from the inflate phase on (R341, R342, R346, R347, R458): a stream error, a length other than
EXPECTED_LEN, a length that does not fit, the lowest row with an unknown selector, in this order; ROWS_DONE is then
that row; no byte outside the INF, RAW and PIX regions changes. -/
def Obligations.DecodeBodyFails : Prop :=
  ∀ s : State,
    let checked := { s with
      rowsDone := 0
      der := s.hdr.derived
      ctl := { s.ctl with infOk := false, cfgValid := true } }
    let src := s.mem.read s.buf.srcAddr.toNat s.buf.srcLen.toNat
    let rs := decodeRegionList checked
    let expected := s.hdr.derived.expectedLen.toNat
    s.mem.wf → firstError (headerChecks s.hdr) = none → s.hdr.interlace = 0 → regionsPass s.par rs →
    (∀ x, inflateStream src = .error x →
      ∃ m r k, exec .decode s = .next (takeError 0x06 .decompressionFailed (BitVec.ofNat 32 x.code)
        { checked with mem := m, inf := r, draws := k }) ∧ s.mem.keepsOutside m rs) ∧
    (∀ c, inflateStream src = .ok c →
      let r : InfResults :=
        ⟨saturate c.hist.length, BitVec.ofNat 32 (c.pos / 8), BitVec.ofNat 32 (adler32 c.hist.reverse)⟩
      (c.hist.length ≠ expected →
        ∃ m k, exec .decode s = .next (takeError 0x06 .scanlineSizeMismatch (saturate c.hist.length)
          { checked with mem := m, inf := r, draws := k }) ∧ s.mem.keepsOutside m rs) ∧
      (c.hist.length = expected → s.buf.infCap.toNat < c.hist.length →
        ∃ m k, exec .decode s = .next (takeError 0x06 .outputOverflow (saturate c.hist.length)
          { checked with mem := m, inf := r, draws := k }) ∧ s.mem.keepsOutside m rs) ∧
      (c.hist.length = expected → c.hist.length ≤ s.buf.infCap.toNat →
        ∀ y, y < s.hdr.height.toNat →
          4 < rowByte c.hist.reverse (y * (1 + s.hdr.derived.scanlineBytes.toNat)) →
          (∀ z, z < y → rowByte c.hist.reverse (z * (1 + s.hdr.derived.scanlineBytes.toNat)) ≤ 4) →
          ∃ m k, exec .decode s = .next (takeError 0x06 .unknownFilter (BitVec.ofNat 32 y)
            { checked with
              mem := m
              inf := r
              rowsDone := BitVec.ofNat 32 y
              ctl := { checked.ctl with infOk := true }
              draws := k }) ∧ s.mem.keepsOutside m rs))

/-! ### The frontier -/

/-- The key order (R370, R372): KeyCmp decides the order of the real numbers cost + √d, exactly. -/
def Obligations.KeyOrderIsExact : Prop :=
  ∀ (c1 d1 c2 d2 : Nat),
    (keyCmp c1 d1 c2 d2 = -1 ↔ (c1 : ℝ) + Real.sqrt d1 < (c2 : ℝ) + Real.sqrt d2) ∧
    (keyCmp c1 d1 c2 d2 = 0 ↔ (c1 : ℝ) + Real.sqrt d1 = (c2 : ℝ) + Real.sqrt d2) ∧
    (keyCmp c1 d1 c2 d2 = 1 ↔ (c2 : ℝ) + Real.sqrt d2 < (c1 : ℝ) + Real.sqrt d1)

/-- PQ_INSERT (R143, R375, R376, R379, R383): refused with SearchStateError while a search is active; a new cell does
not fit in a full frontier; otherwise the cell's old entry goes and the new one stands behind every entry of smaller
or equal key and before every other, so that equal keys stay first-in, first-out. Nothing else changes. -/
def Obligations.PqInsertResult : Prop :=
  decode .cmd 0x00000019 = .ok .pqInsert ∧
  ∀ s : State, frontierWf s.par.frontierCap.toNat s.frontier →
    let e : Entry := ⟨s.args.a0.setWidth 16, s.args.a1.setWidth 16, s.args.a2, s.args.a3⟩
    let others := s.frontier.filter fun g => !(g.x = e.x && g.y = e.y)
    (s.ctl.pfState = .active → exec .pqInsert s = .next (takeError 0x19 .searchStateError 1 s)) ∧
    (s.ctl.pfState ≠ .active → others.length = s.frontier.length → s.par.frontierCap.toNat ≤ s.frontier.length →
      exec .pqInsert s = .next (takeError 0x19 .frontierOverflow s.par.frontierCap s)) ∧
    (s.ctl.pfState ≠ .active →
      others.length < s.frontier.length ∨ s.frontier.length < s.par.frontierCap.toNat →
      exec .pqInsert s = .next (finish { s with frontier :=
        (others.filter fun g => decide (g.cmp e ≤ 0)) ++ e :: (others.filter fun g => decide (0 < g.cmp e)) }))

/-- PQ_EXTRACT and PQ_PEEK (R377, R380, R381, R383, R144): the first entry, which has the smallest key, goes to RES;
PQ_EXTRACT takes it out and is refused while a search is active; an empty frontier gives FrontierEmpty(0) and leaves
RES. PQ_CLEAR (R378) empties the frontier. Nothing else changes. -/
def Obligations.PqExtractPeekClear : Prop :=
  decode .cmd 0x0000001A = .ok .pqExtract ∧ decode .cmd 0x0000001B = .ok .pqPeek ∧
  decode .cmd 0x00000018 = .ok .pqClear ∧
  ∀ s : State,
    (∀ e rest, s.frontier = e :: rest →
      let r : Results := ⟨e.x.setWidth 32, e.y.setWidth 32, e.cost, e.d⟩
      (s.ctl.pfState ≠ .active → exec .pqExtract s = .next (finish { s with frontier := rest, res := r })) ∧
      exec .pqPeek s = .next (finish { s with res := r }) ∧
      (frontierWf s.par.frontierCap.toNat s.frontier → ∀ g ∈ rest, e.cmp g ≤ 0)) ∧
    (s.frontier = [] →
      (s.ctl.pfState ≠ .active → exec .pqExtract s = .next (takeError 0x1A .frontierEmpty 0 s)) ∧
      exec .pqPeek s = .next (takeError 0x1B .frontierEmpty 0 s)) ∧
    (s.ctl.pfState ≠ .active → exec .pqClear s = .next (finish { s with frontier := [] })) ∧
    (s.ctl.pfState = .active →
      exec .pqExtract s = .next (takeError 0x1A .searchStateError 1 s) ∧
      exec .pqClear s = .next (takeError 0x18 .searchStateError 1 s))

/-- PQ_DECREASE (R382, R383): refused while a search is active; NodeNotFound for a cell without entry; a cost that is
not lower changes nothing; a lower one moves the entry to its new place with its d. -/
def Obligations.PqDecreaseResult : Prop :=
  decode .cmd 0x0000001C = .ok .pqDecrease ∧
  ∀ s : State, frontierWf s.par.frontierCap.toNat s.frontier →
    let x := s.args.a0.toNat % 65536
    let y := s.args.a1.toNat % 65536
    let here := fun g : Entry => g.x.toNat = x ∧ g.y.toNat = y
    let others := s.frontier.filter fun g => !decide (here g)
    (s.ctl.pfState = .active → exec .pqDecrease s = .next (takeError 0x1C .searchStateError 1 s)) ∧
    (s.ctl.pfState ≠ .active → (∀ g ∈ s.frontier, ¬ here g) →
      exec .pqDecrease s = .next (takeError 0x1C .nodeNotFound (BitVec.ofNat 32 (x + 65536 * y)) s)) ∧
    (s.ctl.pfState ≠ .active → ∀ g ∈ s.frontier, here g → g.cost.toNat ≤ s.args.a2.toNat →
      exec .pqDecrease s = .next (finish s)) ∧
    (s.ctl.pfState ≠ .active → ∀ g ∈ s.frontier, here g → s.args.a2.toNat < g.cost.toNat →
      let e : Entry := ⟨g.x, g.y, s.args.a2, g.d⟩
      exec .pqDecrease s = .next (finish { s with frontier :=
        (others.filter fun q => decide (q.cmp e ≤ 0)) ++ e :: (others.filter fun q => decide (0 < q.cmp e)) }))

/-! ### The pathfinder -/

/-- PF_START (R402, R406, R410, R411): the checks in their order and the region check change nothing when they fail;
otherwise the configuration is latched, the node table holds the start alone with cost 0, no predecessor and its d,
the frontier its entry, PF_STEPS and PATH_LEN are 0 and the search is ACTIVE. Nothing else changes. -/
def Obligations.PfStartResult : Prop :=
  decode .cmd 0x00000010 = .ok .pfStart ∧
  ∀ s : State, 1 ≤ s.par.frontierCap.toNat →
    let rs : List Region := [⟨s.pf.gridAddr.toNat, s.pf.w.toNat * s.pf.h.toNat, .R⟩]
    let dx : Int := (s.pf.startX.toNat : Int) - s.pf.goalX.toNat
    let dy : Int := (s.pf.startY.toNat : Int) - s.pf.goalY.toNat
    (∀ e n, firstError s.startChecks = some (e, n) →
      exec .pfStart s = .next (takeError 0x10 e (BitVec.ofNat 32 n) s)) ∧
    (firstError s.startChecks = none → ∀ e n, checkRegions rs s = .raised e n s →
      exec .pfStart s = .next (takeError 0x10 e n s)) ∧
    (firstError s.startChecks = none → regionsPass s.par rs →
      ∃ d : Word, (d.toNat : Int) = (if s.pf.mode = 1 then dx * dx + dy * dy else 0) ∧
        exec .pfStart s = .next (finish { s with
          latch := ⟨s.pf.w, s.pf.h, s.pf.gridAddr, s.pf.startX, s.pf.startY, s.pf.goalX, s.pf.goalY, s.pf.mode⟩
          node := [(s.pf.startY.toNat * s.pf.w.toNat + s.pf.startX.toNat, ⟨0, none, d⟩)]
          frontier := [⟨s.pf.startX, s.pf.startY, 0, d⟩]
          pfSteps := 0
          pathLen := 0
          ctl := { s.ctl with pfState := .active } }))

/-- How PF_STEP ends a search or does not run one (R412, R413, R416, R417): SearchStateError unless ACTIVE;
NoPath(PF_STEPS) and NOPATH on an empty frontier; FOUND when the goal is extracted. In a search that PF_START seeded,
FrontierOverflow and FAILED at the first neighbour v, in the order N, S, E, W, that needs a new entry when the frontier
is full: the neighbours relaxed before v keep their nodes and entries, every other cell its node, and v gets none (R413,
R456). Nothing else changes. -/
def Obligations.PfStepEnds : Prop :=
  (decode .cmd 0x00000011 = .ok .pfStep ∧
    ∀ s : State,
      (s.ctl.pfState ≠ .active → exec .pfStep s =
        .next (takeError 0x11 .searchStateError ((Reg.status.value s >>> 8) &&& 7) s)) ∧
      (s.ctl.pfState = .active → s.frontier = [] → exec .pfStep s =
        .next (takeError 0x11 .noPath s.pfSteps { s with ctl := { s.ctl with pfState := .noPath } })) ∧
      (s.ctl.pfState = .active → ∀ e rest, s.frontier = e :: rest → e.x = s.latch.gx → e.y = s.latch.gy →
        exec .pfStep s = .next (finish { s with
          frontier := rest
          res := ⟨e.x.setWidth 32, e.y.setWidth 32, e.cost, e.d⟩
          pfSteps := s.pfSteps + 1
          ctl := { s.ctl with pfState := .found } }))) ∧
  ∀ (s : State) (e : Entry) (rest : List Entry) (done : List Coord) (v : Coord) (later : List Coord),
    s.Inv → s.ctl.pfState = .active → s.frontier = e :: rest → ¬ (e.x = s.latch.gx ∧ e.y = s.latch.gy) →
    (⟨e.x, e.y⟩ : Coord).around = done ++ v :: later → s.makes v = true →
    rest.length + (done.filter s.makes).length = s.par.frontierCap.toNat →
    ∃ node, exec .pfStep s = .next (takeError 0x11 .frontierOverflow s.par.frontierCap { s with
        node := node
        frontier := s.relaxedFrontier e done rest
        res := ⟨e.x.setWidth 32, e.y.setWidth 32, e.cost, e.d⟩
        pfSteps := s.pfSteps + 1
        ctl := { s.ctl with pfState := .failed } }) ∧
      (∀ u ∈ done, s.lowers e u = true →
        Sparse.get node (s.cellIndex u) = some ⟨e.cost + 1, some ⟨e.x, e.y⟩, (s.loweredEntry e u).d⟩) ∧
      (∀ u, s.onGrid u = true → u ∉ done ∨ s.lowers e u = false → Sparse.get node (s.cellIndex u) = s.nodeAt u) ∧
      (s.relaxedFrontier e done rest).length = s.par.frontierCap.toNat

/-- PF_STEP's relaxations (R403 to R406, R412 to R414) in a search that PF_START seeded, with room in the frontier for
the entries of the passable neighbours that have no node: the first entry u is taken out and written to RES; each
passable neighbour of u without a node, or with a node of higher cost, gets cost NODE[u].cost + 1 and predecessor u,
keeps its d or gets its heuristic, and stands in the frontier with them; every other node and entry stays. The new
entries are inserted one after another in the order N, S, E, W, each behind every entry of smaller or equal key (R375,
R404), so that of equal keys the earlier neighbour stands first. Nothing else changes. -/
def Obligations.PfStepRelaxes : Prop :=
  ∀ (s : State) (e : Entry) (rest : List Entry), s.Inv → s.ctl.pfState = .active → s.frontier = e :: rest →
    ¬ (e.x = s.latch.gx ∧ e.y = s.latch.gy) →
    let u : Coord := ⟨e.x, e.y⟩
    rest.length + (u.around.filter s.makes).length ≤ s.par.frontierCap.toNat →
    let lowered := fun v : Coord => u.adjacent v ∧ s.passable v ∧ ∀ n, s.nodeAt v = some n → e.cost.toNat + 1 < n.cost.toNat
    ∃ node frontier, exec .pfStep s = .next (finish { s with
        node := node
        frontier := frontier
        res := ⟨e.x.setWidth 32, e.y.setWidth 32, e.cost, e.d⟩
        pfSteps := s.pfSteps + 1 }) ∧
      (∀ v, s.onGrid v = true → lowered v →
        ∃ d, Sparse.get node (s.cellIndex v) = some ⟨e.cost + 1, some u, d⟩ ∧
          ⟨v.x, v.y, e.cost + 1, d⟩ ∈ frontier ∧
          (∀ n, s.nodeAt v = some n → d = n.d) ∧ (s.nodeAt v = none → d = s.heuristic v)) ∧
      (∀ v, s.onGrid v = true → ¬ lowered v → Sparse.get node (s.cellIndex v) = s.nodeAt v) ∧
      (∀ g : Entry, ¬ lowered ⟨g.x, g.y⟩ → (g ∈ frontier ↔ g ∈ rest)) ∧
      frontierWf s.par.frontierCap.toNat frontier ∧
      frontier = s.relaxedFrontier e u.around rest

/-- PF_TRACE (R418, R419, R430, R431): of a found search with a path of n cells, n one more than the goal's cost, it
writes a walk of n different cells from the start to the goal, each the predecessor in the node table of the next, at
PATH_ADDR and sets PATH_LEN = n; a path longer than PATH_CAP gives OutputOverflow(n), a region error is reported, and SearchStateError unless FOUND. Nothing else
changes. -/
def Obligations.PfTraceResult : Prop :=
  decode .cmd 0x00000012 = .ok .pfTrace ∧
  ∀ s : State, s.Inv →
    (s.ctl.pfState ≠ .found → exec .pfTrace s =
      .next (takeError 0x12 .searchStateError ((Reg.status.value s >>> 8) &&& 7) s)) ∧
    (s.ctl.pfState = .found → ∀ goal, s.nodeAt s.latch.goal = some goal →
      let n := goal.cost.toNat + 1
      let rs : List Region := [⟨s.pf.pathAddr.toNat, 4 * n, .W⟩]
      (s.pf.pathCap.toNat < n → exec .pfTrace s = .next (takeError 0x12 .outputOverflow (BitVec.ofNat 32 n) s)) ∧
      (n ≤ s.pf.pathCap.toNat → ∀ e i, checkRegions rs s = .raised e i s →
        exec .pfTrace s = .next (takeError 0x12 e i s)) ∧
      (n ≤ s.pf.pathCap.toNat → regionsPass s.par rs →
        ∃ m cells, exec .pfTrace s = .next (finish { s with mem := m, pathLen := BitVec.ofNat 32 n }) ∧
          cells.length = n ∧ cells.Nodup ∧ cells.head? = some s.latch.start ∧
          cells.getLast? = some s.latch.goal ∧ cells.IsChain Coord.adjacent ∧
          (∀ k c d, cells[k]? = some c → cells[k + 1]? = some d → ∃ q, s.nodeAt d = some q ∧ q.pred = some c) ∧
          holdsPath m s.pf.pathAddr.toNat cells ∧ s.mem.keepsOutside m rs))

/-- PF_SEARCH (R400, R407, R416, R417, R422, R431), the headline: with room in the frontier for every cell, on a
configuration that passes PF_START's checks, it finds a shortest walk from the start to the goal when there is a
walk, and writes it when it fits and its region passes; when there is none it reports NoPath. -/
def Obligations.PfSearchFindsShortestWalk : Prop :=
  decode .cmd 0x00000013 = .ok .pfSearch ∧
  ∀ s : State, s.par.wf → s.mem.wf → firstError s.startChecks = none →
    regionsPass s.par [⟨s.pf.gridAddr.toNat, s.pf.w.toNat * s.pf.h.toNat, .R⟩] →
    s.pf.w.toNat * s.pf.h.toNat ≤ s.par.frontierCap.toNat →
    let s1 := { s with
      latch := ⟨s.pf.w, s.pf.h, s.pf.gridAddr, s.pf.startX, s.pf.startY, s.pf.goalX, s.pf.goalY, s.pf.mode⟩ }
    ((¬ ∃ cells, s1.isWalk cells) →
      ∃ t, exec .pfSearch s = .next t ∧ t.ctl.pfState = .noPath ∧ t.ctl.err = true ∧ t.ctl.errCode = 0x10 ∧
        t.ctl.errInfo = t.pfSteps ∧ t.ctl.errCmd = 0x13 ∧ t.pathLen = 0 ∧ t.mem = s.mem) ∧
    (∀ best, s1.isWalk best → (∀ cells, s1.isWalk cells → best.length ≤ cells.length) →
      best.length ≤ s.pf.pathCap.toNat →
      regionsPass s.par [⟨s.pf.gridAddr.toNat, s.pf.w.toNat * s.pf.h.toNat, .R⟩,
        ⟨s.pf.pathAddr.toNat, 4 * best.length, .W⟩] →
      ∃ t cells, exec .pfSearch s = .next t ∧ t.ctl.pfState = .found ∧ t.ctl.done = true ∧ t.ctl.err = s.ctl.err ∧
        s1.isWalk cells ∧ cells.length = best.length ∧ cells.Nodup ∧ t.pathLen = BitVec.ofNat 32 best.length ∧
        holdsPath t.mem s.pf.pathAddr.toNat cells ∧
        t.res.r0 = s.pf.goalX.setWidth 32 ∧ t.res.r1 = s.pf.goalY.setWidth 32 ∧
        t.res.r2.toNat + 1 = best.length)

/-- PF_SEARCH is its phases (R422, R420, R467), whatever the capacities and regions: PF_START's errors are its errors;
else PF_START, then at most PF_W × PF_H PF_STEPs that keep the search active or find the goal. If the next PF_STEP ends
the search with NOPATH or FAILED, its completion is PF_SEARCH's, but for ERR_CMD. If the goal is found, PF_SEARCH
completes as PF_TRACE does, but for the region check, which takes the grid first: OutputOverflow(n) for a path of n
cells longer than PATH_CAP, a region error (RegionOverlap(1) where path and grid overlap), or the path. -/
def Obligations.PfSearchRunsItsPhases : Prop :=
  ∀ s : State, s.Inv →
    let grid : Region := ⟨s.pf.gridAddr.toNat, s.pf.w.toNat * s.pf.h.toNat, .R⟩
    (∀ e n, firstError s.startChecks = some (e, n) →
      exec .pfSearch s = .next (takeError 0x13 e (BitVec.ofNat 32 n) s)) ∧
    (firstError s.startChecks = none → ∀ e n, checkRegions [grid] s = .raised e n s →
      exec .pfSearch s = .next (takeError 0x13 e n s)) ∧
    (firstError s.startChecks = none → regionsPass s.par [grid] →
      ∃ t0 k t, exec .pfStart s = .next t0 ∧ k ≤ s.pf.w.toNat * s.pf.h.toNat ∧ searchRuns k t0 t ∧
        ((∃ u, t.ctl.pfState = .active ∧ exec .pfStep t = .next u ∧
            (u.ctl.pfState = .noPath ∨ u.ctl.pfState = .failed) ∧
            exec .pfSearch s = .next { u with ctl := { u.ctl with errCmd := 0x13 } }) ∨
          ∃ goal, t.ctl.pfState = .found ∧ t.nodeAt t.latch.goal = some goal ∧
            let n := goal.cost.toNat + 1
            let path : Region := ⟨s.pf.pathAddr.toNat, 4 * n, .W⟩
            (s.pf.pathCap.toNat < n →
              exec .pfSearch s = .next (takeError 0x13 .outputOverflow (BitVec.ofNat 32 n) t)) ∧
            (n ≤ s.pf.pathCap.toNat → ∀ e i, checkRegions [grid, path] t = .raised e i t →
              exec .pfSearch s = .next (takeError 0x13 e i t)) ∧
            (n ≤ s.pf.pathCap.toNat → path.base + path.len ≤ 2 ^ 32 →
              (∃ x, grid.holds x = true ∧ path.holds x = true) →
              exec .pfSearch s = .next (takeError 0x13 .regionOverlap 1 t)) ∧
            (n ≤ s.pf.pathCap.toNat → regionsPass s.par [grid, path] → exec .pfSearch s = exec .pfTrace t)))

/-- NODE_READ (R424): InvalidCoordinate(2) outside the latched grid; zeros for an EMPTY cell; otherwise validity,
presence in the frontier and of a predecessor, the cost, the predecessor and d. Nothing else changes. -/
def Obligations.NodeReadResult : Prop :=
  decode .cmd 0x0000001D = .ok .nodeRead ∧
  ∀ s : State,
    let x := s.args.a0.toNat % 65536
    let y := s.args.a1.toNat % 65536
    (s.latch.w.toNat ≤ x ∨ s.latch.h.toNat ≤ y →
      exec .nodeRead s = .next (takeError 0x1D .invalidCoordinate 2 s)) ∧
    (x < s.latch.w.toNat → y < s.latch.h.toNat →
      (Sparse.get s.node (y * s.latch.w.toNat + x) = none →
        exec .nodeRead s = .next (finish { s with res := ⟨0, 0, 0, 0⟩ })) ∧
      (∀ n, Sparse.get s.node (y * s.latch.w.toNat + x) = some n →
        ∃ r, exec .nodeRead s = .next (finish { s with res := r }) ∧
          r.r1 = n.cost ∧ r.r3 = n.d ∧ r.r0.toNat < 8 ∧ r.r0.getLsbD 0 = true ∧
          (r.r0.getLsbD 1 = true ↔ ∃ g ∈ s.frontier, g.x.toNat = x ∧ g.y.toNat = y) ∧
          (r.r0.getLsbD 2 = true ↔ n.pred ≠ none) ∧
          r.r2.toNat = match n.pred with
            | none => 0
            | some p => p.x.toNat + 65536 * p.y.toNat))

/-! ### The data encodings, each run by its unit while a command runs (log 5) -/

/-- The filter selectors (R145, R271, R274, R276 to R281, R284): from SELECT the FSM reconstructs the whole row under
the selected filter, writes it to RAW row y in one write and stands in DONE; nothing else changes. A selector above 4
ends the command with UnknownFilter(y), and no byte of RAW is written. -/
def Obligations.FilterSelectorsRun : Prop :=
  (∀ i f, (i, f) ∈ [(Instr.filterNone, 0), (.filterSub, 1), (.filterUp, 2), (.filterAverage, 3), (.filterPaeth, 4)] →
      decode .fsel f = .ok i ∧
      ∀ (s : State) (w : Word) (m : FilterFsm), s.pending = some w → s.unit = .unfiltering m → m.phase = .select →
        s.mem.wf → 1 ≤ m.bpp → s.rawRow m.y + m.flt.length ≤ 2 ^ 32 →
        ∃ mem raw, exec i s = .next { s with
            mem := mem
            unit := .unfiltering { m with phase := .done, f := f, i := m.flt.length, raw := raw } } ∧
          reconstructs f m.bpp m.flt m.prev raw ∧ s.mem.storesAt mem (s.rawRow m.y) raw) ∧
  ∀ (s : State) (w : Word) (m : FilterFsm) (f : Nat), s.pending = some w → s.unit = .unfiltering m →
    m.phase = .select → s.rawRow m.y + m.flt.length ≤ 2 ^ 32 → s.item = some (.fsel, f) → 4 < f → f < 256 →
    step s = .next (takeError (w.setWidth 8) .unknownFilter (BitVec.ofNat 32 m.y) { s with item := none })

/-- The header pairs (R146, R301, R302, R331, R313): in the header check the pair is accepted and INTERLACE comes next;
in the unpacker it selects the operation that writes the WIDTH records of the row bytes the unpacker holds, of which it
then holds nothing. -/
def Obligations.HeaderPairsRun : Prop :=
  ∀ i ct bd c, (i, ct, bd, c) ∈
      [(Instr.gray1, 0, 1, 1), (.gray2, 0, 2, 1), (.gray4, 0, 4, 1), (.gray8, 0, 8, 1), (.gray16, 0, 16, 1),
       (.rgb8, 2, 8, 3), (.rgb16, 2, 16, 3), (.pal1, 3, 1, 1), (.pal2, 3, 2, 1), (.pal4, 3, 4, 1), (.pal8, 3, 8, 1),
       (.graya8, 4, 8, 2), (.graya16, 4, 16, 2), (.rgba8, 6, 8, 4), (.rgba16, 6, 16, 4)] →
    decode .hdrKey (bd * 256 + ct) = .ok i ∧
    (∀ (s : State) (w : Word), s.pending = some w → s.unit = .headerKey →
      exec i s = .next { s with unit := .headerInterlace ct bd }) ∧
    ∀ (s : State) (w : Word) (u : Unpacker), s.pending = some w → s.unit = .unpacking u → s.mem.wf →
      s.der.channels.toNat = c → s.pixRow u.y + 8 * s.hdr.width.toNat ≤ 2 ^ 32 →
      ∃ mem out, exec i s = .next { s with mem := mem, unit := .idle } ∧
        unpacksTo u.row out ct bd c s.hdr.width.toNat ∧ s.mem.storesAt mem (s.pixRow u.y) out

/-- The interlace codes (R147, R334, R338): in the header check both pass and, if the sizes pass too, the derived
registers are written and CFG_VALID rises; before an image body None passes and Adam7 ends the command with
UnsupportedInterlace(1). -/
def Obligations.InterlaceCodesRun : Prop :=
  (decode .interlace 0 = .ok .interlaceNone ∧ decode .interlace 1 = .ok .interlaceAdam7) ∧
  ∀ (s : State) (w : Word), s.pending = some w →
    (∀ i ct c k depths bd, i = .interlaceNone ∨ i = .interlaceAdam7 → s.unit = .headerInterlace ct bd →
      (ct, c, k, depths) ∈ colorModels → bd ∈ depths → s.hdr.width ≠ 0 → s.hdr.height ≠ 0 →
      s.hdr.height.toNat * (1 + rowBytes s.hdr.width.toNat c bd) ≤ 0xFFFFFFFF →
      8 * s.hdr.width.toNat * s.hdr.height.toNat ≤ 0xFFFFFFFF →
      ∃ d, exec i s = .next { s with unit := .idle, der := d, ctl := { s.ctl with cfgValid := true } } ∧
        d.channels.toNat = c ∧ d.pixelBits.toNat = c * bd ∧
        d.bpp.toNat = max 1 ((c * bd + 7) / 8) ∧
        d.scanlineBytes.toNat = rowBytes s.hdr.width.toNat c bd ∧
        d.expectedLen.toNat = s.hdr.height.toNat * (1 + rowBytes s.hdr.width.toNat c bd) ∧ d.pixKind.toNat = k) ∧
    (s.unit = .bodyCheck → exec .interlaceNone s = .next { s with unit := .idle }) ∧
    (s.unit = .bodyCheck →
      exec .interlaceAdam7 s = .next (takeError (w.setWidth 8) .unsupportedInterlace 1 { s with unit := .idle }))

/-- The mode bits (R148, R402, R406, R410): when PF_START latches the mode, the search is seeded with d the squared
distance to the goal under A*, 0 under Dijkstra. -/
def Obligations.ModeBitsRun : Prop :=
  ∀ i (b : BitVec 1), (i, b) ∈ [(Instr.pfDijkstra, 0), (.pfAstar, 1)] →
    decode .pfMode b.toNat = .ok i ∧
    ∀ (s : State) (w : Word), s.pending = some w → s.unit = .starting → 1 ≤ s.par.frontierCap.toNat →
      s.pf.startX.toNat < 32768 → s.pf.startY.toNat < 32768 → s.pf.goalX.toNat < 32768 → s.pf.goalY.toNat < 32768 →
      let dx : Int := (s.pf.startX.toNat : Int) - s.pf.goalX.toNat
      let dy : Int := (s.pf.startY.toNat : Int) - s.pf.goalY.toNat
      ∃ d : Word, (d.toNat : Int) = (if b = 1 then dx * dx + dy * dy else 0) ∧
        exec i s = .next { s with
          latch := ⟨s.pf.w, s.pf.h, s.pf.gridAddr, s.pf.startX, s.pf.startY, s.pf.goalX, s.pf.goalY, b⟩
          node := [(s.pf.startY.toNat * s.pf.w.toNat + s.pf.startX.toNat, ⟨0, none, d⟩)]
          frontier := [⟨s.pf.startX, s.pf.startY, 0, d⟩]
          pfSteps := 0
          pathLen := 0
          unit := .idle
          ctl := { s.ctl with pfState := .active } }

/-- A running inflater about to read an item in a phase, inside a command, with its INF region in range. -/
def inflaterAt (s : State) (c : Inflater) (p : InfPhase) : Prop :=
  s.pending.isSome = true ∧ s.unit = .inflating c ∧ c.phase = p ∧ s.mem.wf ∧
  s.buf.infAddr.toNat + s.buf.infCap.toNat ≤ 2 ^ 32

/-- After an item the inflater is c' and the bytes it emitted, those of c'.hist above c.hist, are added to the running
sums and stand in the INF buffer below its capacity (R245); nothing else changed. -/
def inflatesTo (i : Instr) (s : State) (c c' : Inflater) (emitted : List Byte) : Prop :=
  c'.hist = emitted.reverse ++ c.hist ∧ c'.sums = emitted.foldl adlerByte c.sums ∧
  ∃ mem, exec i s = .next { s with mem := mem, unit := .inflating c' } ∧
    s.mem.storesAt mem (s.buf.infAddr.toNat + c.hist.length) (emitted.take (s.buf.infCap.toNat - c.hist.length))

/-- The item ends the command with DecompressionFailed(x) (R247, R253): the INF registers and the bytes of the write
regions are left unspecified (R458), and nothing else changes but the completion state. -/
def failsWith (i : Instr) (s : State) (x : Nat) : Prop :=
  ∃ mem inf k, exec i s = .next (takeError ((s.pending.getD 0).setWidth 8) .decompressionFailed (BitVec.ofNat 32 x)
      { s with mem := mem, inf := inf, draws := k }) ∧
    s.mem.keepsOutside mem (s.inflateRegions s.decoding)

/-- Block types 0 and 1 (R205, R207, R209, R210): a stored block skips to the next byte, reads LEN and NLEN and emits
LEN bytes; it fails BAD_STORED_LEN if the two do not agree, TRUNCATED if they or the bytes are not all there (R246). A
fixed block brings the fixed codes, which are the ones of R209's table. -/
def Obligations.StoredAndFixedBlocksRun : Prop :=
  (fixedLit = (List.range 288).map (fun k =>
      if k < 144 then ⟨k, 8, 0b00110000 + k⟩
      else if k < 256 then ⟨k, 9, 0b110010000 + (k - 144)⟩
      else if k < 280 then ⟨k, 7, k - 256⟩
      else ⟨k, 8, 0b11000000 + (k - 280)⟩) ∧
    fixedDist = (List.range 32).map (fun k => ⟨k, 5, k⟩)) ∧
  decode .btype 0 = .ok .btypeStored ∧ decode .btype 1 = .ok .btypeFixed ∧
  ∀ (s : State) (c : Inflater), inflaterAt s c .block →
    inflatesTo .btypeFixed s c { c with lit := fixedLit, dist := fixedDist, phase := .litLen } [] ∧
    (let p := 8 * ((c.pos + 7) / 8)
     let len := streamBits c.src p 16
     let agree := streamBits c.src (p + 16) 16 = 65535 - len
     let bytes := (c.src.drop (p / 8 + 4)).take len
     (¬ hasBits c.src p 32 → failsWith .btypeStored s 1) ∧
     (hasBits c.src p 32 → ¬ agree → failsWith .btypeStored s 7) ∧
     (hasBits c.src p 32 → agree → ¬ hasBits c.src p (32 + 8 * len) → failsWith .btypeStored s 1) ∧
     (hasBits c.src p (32 + 8 * len) → agree →
       inflatesTo .btypeStored s c { c with
         pos := p + 32 + 8 * len
         hist := bytes.reverse ++ c.hist
         sums := bytes.foldl adlerByte c.sums
         phase := if c.final then .trailer else .block } bytes))

/-- Codes (R215, R216, R217). BuildCode fails exactly when a symbol is used and the lengths cover more than the code
space, or less, but for the single code of length 1 of LENS and DISTS. The code it makes has the used symbols in
ascending order, within one length consecutive codes from next[l]. Decode reads bits as long as a longer code begins with
them: it answers the symbol whose code they are; it fails BAD_SYMBOL when no code begins with them, or there is no code,
and TRUNCATED when the stream is over. -/
def huffmanCodes : Prop :=
  (∀ (lengths : List Nat) (kind : CodeKind), (∀ n ∈ lengths, n ≤ 15) →
    (buildCode lengths kind = none ↔
      (∃ n ∈ lengths, n ≠ 0) ∧ (2 ^ 15 < codeCover lengths ∨
        (codeCover lengths < 2 ^ 15 ∧ ¬ (kind ≠ .codes ∧ lengths.filter (· ≠ 0) = [1])))) ∧
    ∀ code, buildCode lengths kind = some code →
      code = ((List.range lengths.length).filter fun k => lengths.getD k 0 ≠ 0).map fun k =>
        ⟨k, lengths.getD k 0,
          firstCode lengths (lengths.getD k 0) + (lengths.take k).countP fun n => n = lengths.getD k 0⟩) ∧
  (∀ c : Inflater, decodeSymbol [] c = .error .badSymbol) ∧
  ∀ (code : List HuffEntry) (c : Inflater) (n : Nat), n < 15 → code ≠ [] →
    let isCode := fun l (e : HuffEntry) => e.len = l ∧ e.code = codeBits c.src c.pos l
    let begins := fun l => ∃ e ∈ code, l < e.len ∧ e.code / 2 ^ (e.len - l) = codeBits c.src c.pos l
    hasBits c.src c.pos n → (∀ l, 1 ≤ l → l ≤ n → (∀ e ∈ code, ¬ isCode l e) ∧ begins l) →
    (¬ hasBits c.src c.pos (n + 1) → decodeSymbol code c = .error .truncated) ∧
    (hasBits c.src c.pos (n + 1) →
      (∀ e ∈ code, isCode (n + 1) e → (∀ q ∈ code, isCode (n + 1) q → q = e) →
        decodeSymbol code c = .ok (e.sym, { c with pos := c.pos + (n + 1) })) ∧
      ((∀ e ∈ code, ¬ isCode (n + 1) e) → ¬ begins (n + 1) → decodeSymbol code c = .error .badSymbol))

/-- A turn of the inflater inside a command reads an item (R205, R214, R220, R225) and does what the item does by
itself: it goes on to the same inflater, or fails with the same subcode. So what is said of the items is said of the
stream of an INFLATE or a DECODE. -/
def turnsRunItems : Prop :=
  ∀ (c c1 : Inflater) (f : Format) (v : Nat) (i : Instr) (s : State),
    (f = .btype ∧ c.phase = .block ∧ hasBits c.src c.pos 3 ∧ v = streamBits c.src (c.pos + 1) 2 ∧
        c1 = { c with pos := c.pos + 3, final := decide (streamBits c.src c.pos 1 = 1) }) ∨
      (f = .cl ∧ c.phase = .codeLen ∧ decodeSymbol c.cl c = .ok (v, c1)) ∨
      (f = .litLen ∧ c.phase = .litLen ∧ decodeSymbol c.lit c = .ok (v, c1)) ∨
      (f = .dist ∧ (∃ n, c.phase = .dist n) ∧ decodeSymbol c.dist c = .ok (v, c1)) →
    decode f v = .ok i → inflaterAt s c1 c.phase →
    (∀ c', turn c = .ok ((), c') ↔ ∃ mem, exec i s = .next { s with mem := mem, unit := .inflating c' }) ∧
    ∀ x, turn c = .error x ↔ failsWith i s x.code

/-- Block type 2 (R207, R211 to R213): HLIT, HDIST, HCLEN and the code-length-code lengths are read, in the order of
R212, and the code lengths come next, with the code they give. It fails BAD_CODE_COUNTS for HLIT or HDIST above 29,
BAD_CODE_LENGTHS if the lengths give no code, TRUNCATED if the bits of either part are not there (R246). -/
def Obligations.DynamicBlockRuns : Prop :=
  decode .btype 2 = .ok .btypeDynamic ∧ huffmanCodes ∧ turnsRunItems ∧
  ∀ (s : State) (c : Inflater), inflaterAt s c .block →
    let hlit := streamBits c.src c.pos 5
    let hdist := streamBits c.src (c.pos + 5) 5
    let nclen := streamBits c.src (c.pos + 10) 4 + 4
    (¬ hasBits c.src c.pos 14 → failsWith .btypeDynamic s 1) ∧
    (hasBits c.src c.pos 14 → 29 < hlit ∨ 29 < hdist → failsWith .btypeDynamic s 8) ∧
    (hasBits c.src c.pos 14 → hlit ≤ 29 → hdist ≤ 29 →
      (¬ hasBits c.src c.pos (14 + 3 * nclen) → failsWith .btypeDynamic s 1) ∧
      (hasBits c.src c.pos (14 + 3 * nclen) →
        ∃ clen : List Nat, clen.length = 19 ∧
          (∀ k sym, [16, 17, 18, 0, 8, 7, 9, 6, 10, 5, 11, 4, 12, 3, 13, 2, 14, 1, 15][k]? = some sym →
            clen.getD sym 0 = if k < nclen then streamBits c.src (c.pos + 14 + 3 * k) 3 else 0) ∧
          (buildCode clen .codes = none → failsWith .btypeDynamic s 9) ∧
          ∀ cl, buildCode clen .codes = some cl →
            inflatesTo .btypeDynamic s c { c with
              pos := c.pos + 14 + 3 * nclen
              cl := cl
              lens := []
              nlit := hlit + 257
              total := hlit + 257 + (hdist + 1)
              phase := .codeLen } []))

/-- The extra bits of a symbol are there; no extra bits always are. -/
abbrev hasExtra (c : Inflater) (extra : Nat) : Prop := extra = 0 ∨ hasBits c.src c.pos extra

/-- Literals and end of block (R221, R222): a literal emits its byte; symbol 256 ends the block, and the last block
is followed by the trailer. -/
def Obligations.LiteralsAndEndOfBlockRun : Prop :=
  decode .litLen 256 = .ok .eob ∧
  ∀ (s : State) (c : Inflater), inflaterAt s c .litLen →
    (∀ v : Byte, decode .litLen v.toNat = .ok (.lit v.toNat) ∧
      inflatesTo (.lit v.toNat) s c { c with hist := v :: c.hist, sums := adlerByte c.sums v } [v]) ∧
    inflatesTo .eob s c { c with phase := if c.final then .trailer else .block } []

/-- The length symbols (R223): base plus the extra bits that follow, and a distance symbol comes next. If the extra bits
are not there they fail TRUNCATED (R246). -/
def Obligations.LengthSymbolsRun : Prop :=
  ∀ i base extra, (i, base, extra) ∈
      [(Instr.len257, 3, 0), (.len258, 4, 0), (.len259, 5, 0), (.len260, 6, 0), (.len261, 7, 0), (.len262, 8, 0),
       (.len263, 9, 0), (.len264, 10, 0), (.len265, 11, 1), (.len266, 13, 1), (.len267, 15, 1), (.len268, 17, 1),
       (.len269, 19, 2), (.len270, 23, 2), (.len271, 27, 2), (.len272, 31, 2), (.len273, 35, 3), (.len274, 43, 3),
       (.len275, 51, 3), (.len276, 59, 3), (.len277, 67, 4), (.len278, 83, 4), (.len279, 99, 4), (.len280, 115, 4),
       (.len281, 131, 5), (.len282, 163, 5), (.len283, 195, 5), (.len284, 227, 5), (.len285, 258, 0)] →
    ∀ (s : State) (c : Inflater), inflaterAt s c .litLen →
      (¬ hasExtra c extra → failsWith i s 1) ∧
      (hasExtra c extra →
        inflatesTo i s c { c with
          pos := c.pos + extra
          phase := .dist (base + streamBits c.src c.pos extra) } [])

/-- The distance symbols (R226, R228): base plus the extra bits that follow give the distance; the copy appends as
many bytes as the length before it says, each equal to the byte that distance back, those it has just appended
included; a literal/length symbol comes next. A distance beyond the output fails BAD_DISTANCE; if the extra bits are not
there they fail TRUNCATED (R246). -/
def Obligations.DistanceSymbolsRun : Prop :=
  ∀ i base extra, (i, base, extra) ∈
      [(Instr.dist0, 1, 0), (.dist1, 2, 0), (.dist2, 3, 0), (.dist3, 4, 0), (.dist4, 5, 1), (.dist5, 7, 1),
       (.dist6, 9, 2), (.dist7, 13, 2), (.dist8, 17, 3), (.dist9, 25, 3), (.dist10, 33, 4), (.dist11, 49, 4),
       (.dist12, 65, 5), (.dist13, 97, 5), (.dist14, 129, 6), (.dist15, 193, 6), (.dist16, 257, 7),
       (.dist17, 385, 7), (.dist18, 513, 8), (.dist19, 769, 8), (.dist20, 1025, 9), (.dist21, 1537, 9),
       (.dist22, 2049, 10), (.dist23, 3073, 10), (.dist24, 4097, 11), (.dist25, 6145, 11), (.dist26, 8193, 12),
       (.dist27, 12289, 12), (.dist28, 16385, 13), (.dist29, 24577, 13)] →
    ∀ (s : State) (c : Inflater) (n : Nat), inflaterAt s c (.dist n) →
      let dist := base + streamBits c.src c.pos extra
      (¬ hasExtra c extra → failsWith i s 1) ∧
      (hasExtra c extra → dist ≤ c.hist.length → ∃ copied, copied.length = n ∧
        (∀ j, j < n → copied[j]? = (c.hist.reverse ++ copied)[c.hist.length + j - dist]?) ∧
        inflatesTo i s c { c with
          pos := c.pos + extra
          hist := copied.reverse ++ c.hist
          sums := copied.foldl adlerByte c.sums
          phase := .litLen } copied) ∧
      (hasExtra c extra → c.hist.length < dist → failsWith i s 11)

/-- The code-length symbols (R214, R211, R216): one length, 3 to 6 copies of the last, 3 to 10 or 11 to 138 zeros are
appended; a sequence that is then whole gives the two codes and the block's symbols come next. BAD_CODE_LENGTHS: a
repeat with no length before it, which is found before its extra bits are read; more lengths than the total; a whole
sequence without an end-of-block code, or whose first or second part gives no code. TRUNCATED: the extra bits are not
there (R246). -/
def Obligations.CodeLengthSymbolsRun : Prop :=
  ∀ (s : State) (c : Inflater), inflaterAt s c .codeLen →
    (c.lens = [] → failsWith .clRep16 s 9) ∧
    ∀ (i : Instr) (base extra v : Nat),
      (i = .clLen v ∧ v ≤ 15 ∧ base = 1 ∧ extra = 0) ∨
        (i = .clRep16 ∧ c.lens.getLast? = some v ∧ base = 3 ∧ extra = 2) ∨
        (i = .clRep17 ∧ v = 0 ∧ base = 3 ∧ extra = 3) ∨ (i = .clRep18 ∧ v = 0 ∧ base = 11 ∧ extra = 7) →
      (¬ hasExtra c extra → failsWith i s 1) ∧
      (hasExtra c extra →
        let lens := c.lens ++ List.replicate (base + streamBits c.src c.pos extra) v
        let c' := { c with pos := c.pos + extra, lens := lens }
        let litlens := lens.take c.nlit
        let distlens := lens.drop c.nlit
        (lens.length < c.total → inflatesTo i s c c' []) ∧
        (c.total < lens.length → failsWith i s 9) ∧
        (lens.length = c.total →
          (litlens.getD 256 0 = 0 ∨ buildCode litlens .lens = none ∨ buildCode distlens .dists = none →
            failsWith i s 9) ∧
          ∀ lit dist, litlens.getD 256 0 ≠ 0 → buildCode litlens .lens = some lit →
            buildCode distlens .dists = some dist →
            inflatesTo i s c { c' with lit := lit, dist := dist, phase := .litLen } []))

/-- The reserved block type, literal/length and distance symbols (R224, R227, R229, R247, R253, R458): the command
ends with DecompressionFailed and the subcode BAD_BTYPE or BAD_SYMBOL, the INF registers and the write regions are
left unspecified, and nothing else changes but the completion state. -/
def Obligations.ReservedSymbolsFail : Prop :=
  ∀ (s : State) (c : Inflater) (i : Instr) (n x : Nat),
    (i = .btypeReserved ∧ x = 6 ∧ inflaterAt s c .block) ∨
      (i = .litlenReserved286 ∧ x = 10 ∧ inflaterAt s c .litLen) ∨
      (i = .litlenReserved287 ∧ x = 10 ∧ inflaterAt s c .litLen) ∨
      (i = .distReserved30 ∧ x = 10 ∧ inflaterAt s c (.dist n)) ∨
      (i = .distReserved31 ∧ x = 10 ∧ inflaterAt s c (.dist n)) →
    failsWith i s x
end

