-- ==== Sys2Proof/Laws/Memory.lean ====
section
/-! SUPPORT. The laws of sparse data and of system memory: a read after a write, what a write leaves alone, and
that every memory operation keeps the canonical form. -/

namespace Sys2Proof.Machine

/-! ### Sparse data -/

variable {α : Type}

/-- Keys strictly rise. -/
abbrev Sparse.sorted (m : List (Nat × α)) : Prop := m.Pairwise (fun c d => c.1 < d.1)

@[simp] theorem Sparse.get_nil (a : Nat) : Sparse.get ([] : List (Nat × α)) a = none := rfl

theorem Sparse.get_cons (k : Nat) (v : α) (m : List (Nat × α)) (a : Nat) :
    Sparse.get ((k, v) :: m) a = if k = a then some v else Sparse.get m a := rfl

/-- Below every key nothing is listed. -/
theorem Sparse.get_of_lt {m : List (Nat × α)} {a : Nat} (h : ∀ c ∈ m, a < c.1) : Sparse.get m a = none := by
  induction m with
  | nil => rfl
  | cons c m ih =>
    obtain ⟨k, v⟩ := c
    have hk : a < k := h (k, v) (by simp)
    rw [Sparse.get_cons, if_neg (by omega)]
    exact ih fun d hd => h d (by simp [hd])

/-- A listed value has its entry. -/
theorem Sparse.mem_of_get {m : List (Nat × α)} {a : Nat} {v : α} (h : Sparse.get m a = some v) : (a, v) ∈ m := by
  induction m with
  | nil => simp at h
  | cons c m ih =>
    obtain ⟨k, w⟩ := c
    rw [Sparse.get_cons] at h
    split at h
    · next hk => simp_all
    · simp [ih h]

/-- An entry of a sorted list is what is read there. -/
theorem Sparse.get_of_mem {m : List (Nat × α)} (hs : Sparse.sorted m) {a : Nat} {v : α} (h : (a, v) ∈ m) :
    Sparse.get m a = some v := by
  induction m with
  | nil => simp at h
  | cons c m ih =>
    obtain ⟨k, w⟩ := c
    rw [Sparse.sorted, List.pairwise_cons] at hs
    rw [Sparse.get_cons]
    rcases List.mem_cons.1 h with h | h
    · simp_all
    · have := hs.1 (a, v) h
      rw [if_neg (by simp at this; omega)]
      exact ih hs.2 h

/-- Every key of the result of a set is the set key or was there before. -/
theorem Sparse.mem_set {m : List (Nat × α)} {a : Nat} {o : Option α} {c : Nat × α} (h : c ∈ Sparse.set m a o) :
    (c.1 = a ∧ o = some c.2) ∨ c ∈ m := by
  induction m with
  | nil => cases o <;> simp_all [Sparse.set]
  | cons d m ih =>
    obtain ⟨k, b⟩ := d
    simp only [Sparse.set] at h
    split at h
    · cases o <;> simp_all [or_comm, or_left_comm]
      rcases h with h | h | h <;> simp_all
    · split at h
      · cases o <;> simp_all
        rcases h with h | h <;> simp_all
      · rcases List.mem_cons.1 h with h | h
        · simp_all
        · rcases ih h with h | h <;> simp_all

/-- A set keeps the keys strictly rising. -/
theorem Sparse.sorted_set {m : List (Nat × α)} (hs : Sparse.sorted m) (a : Nat) (o : Option α) :
    Sparse.sorted (Sparse.set m a o) := by
  induction m with
  | nil => cases o <;> simp [Sparse.set, Sparse.sorted]
  | cons d m ih =>
    obtain ⟨k, b⟩ := d
    have hc := hs
    rw [Sparse.sorted, List.pairwise_cons] at hs
    simp only [Sparse.set]
    split
    · next hlt =>
      cases o with
      | none => exact hc
      | some v =>
        refine List.pairwise_cons.2 ⟨fun c hm => ?_, hc⟩
        rcases List.mem_cons.1 hm with rfl | hm
        · exact hlt
        · exact Nat.lt_trans hlt (hs.1 c hm)
    · split
      · next heq =>
        subst heq
        cases o with
        | none => exact hs.2
        | some v => exact List.pairwise_cons.2 ⟨hs.1, hs.2⟩
      · refine List.pairwise_cons.2 ⟨fun c hm => ?_, ih hs.2⟩
        rcases Sparse.mem_set hm with ⟨h, -⟩ | hm
        · simp only [h]; omega
        · exact hs.1 c hm

/-- A read after a set: the set value at its key, elsewhere what was there. -/
theorem Sparse.get_set {m : List (Nat × α)} (hs : Sparse.sorted m) (a b : Nat) (o : Option α) :
    Sparse.get (Sparse.set m a o) b = if b = a then o else Sparse.get m b := by
  induction m with
  | nil => cases o <;> simp [Sparse.set, Sparse.get_cons, eq_comm]
  | cons d m ih =>
    obtain ⟨k, v⟩ := d
    rw [Sparse.sorted, List.pairwise_cons] at hs
    simp only [Sparse.set]
    split
    · next hlt =>
      have hn : Sparse.get ((k, v) :: m) a = none := Sparse.get_of_lt fun c hm => by
        rcases List.mem_cons.1 hm with rfl | hm
        · exact hlt
        · exact Nat.lt_trans hlt (hs.1 c hm)
      cases o with
      | none => split <;> simp_all
      | some w => rw [Sparse.get_cons]; simp only [eq_comm]
    · split
      · next heq =>
        subst heq
        have hn : Sparse.get m a = none := Sparse.get_of_lt fun c hm => hs.1 c hm
        cases o with
        | none =>
          by_cases h : b = a
          · simp [h, hn]
          · have h' : ¬ a = b := fun e => h e.symm
            simp [Sparse.get_cons, h, h']
        | some w =>
          by_cases h : b = a
          · simp [Sparse.get_cons, h]
          · have h' : ¬ a = b := fun e => h e.symm
            simp [Sparse.get_cons, h, h']
      · rw [Sparse.get_cons, Sparse.get_cons, ih hs.2]
        by_cases h : b = a
        · subst h; rw [if_neg (by omega)]
          simp
        · simp [h]

/-- Two sorted lists that read alike everywhere are equal. -/
theorem Sparse.ext {m n : List (Nat × α)} (hm : Sparse.sorted m) (hn : Sparse.sorted n)
    (h : ∀ a, Sparse.get m a = Sparse.get n a) : m = n := by
  induction m generalizing n with
  | nil =>
    cases n with
    | nil => rfl
    | cons c n => obtain ⟨k, v⟩ := c; have := h k; simp [Sparse.get_cons] at this
  | cons c m ih =>
    obtain ⟨k, v⟩ := c
    cases n with
    | nil => have := h k; simp [Sparse.get_cons] at this
    | cons d n =>
      obtain ⟨l, w⟩ := d
      rw [Sparse.sorted, List.pairwise_cons] at hm hn
      have hk : k = l := by
        rcases Nat.lt_trichotomy k l with hlt | heq | hgt
        · have h1 := h k
          rw [Sparse.get_cons, if_pos rfl, Sparse.get_cons, if_neg (by omega),
            Sparse.get_of_lt fun c hc => Nat.lt_trans hlt (hn.1 c hc)] at h1
          simp at h1
        · exact heq
        · have h1 := h l
          rw [Sparse.get_cons, if_neg (by omega), Sparse.get_of_lt fun c hc => Nat.lt_trans hgt (hm.1 c hc),
            Sparse.get_cons, if_pos rfl] at h1
          simp at h1
      subst hk
      have hv : v = w := by have := h k; simpa [Sparse.get_cons] using this
      subst hv
      rw [ih hm.2 hn.2]
      intro a
      by_cases ha : k = a
      · subst ha
        rw [Sparse.get_of_lt fun c hc => hm.1 c hc, Sparse.get_of_lt fun c hc => hn.1 c hc]
      · have := h a
        simpa [Sparse.get_cons, ha] using this

/-! ### Single bytes -/

theorem Memory.wf_nil : Memory.wf [] := by simp [Memory.wf]

/-- A byte write below 2^32 keeps the canonical form. -/
theorem Memory.wf_writeByte {m : Memory} (hm : m.wf) {a : Nat} (ha : a < 2 ^ 32) (v : Byte) :
    (m.writeByte a v).wf := by
  refine ⟨Sparse.sorted_set hm.1 _ _, fun c hc => ?_⟩
  rcases Sparse.mem_set hc with ⟨h1, h2⟩ | hc
  · refine ⟨by omega, fun h => ?_⟩
    split at h2 <;> simp_all
  · exact hm.2 c hc

/-- A read after a byte write. -/
theorem Memory.readByte_writeByte {m : Memory} (hm : Sparse.sorted m) (a b : Nat) (v : Byte) :
    (m.writeByte a v).readByte b = if b = a then v else m.readByte b := by
  unfold Memory.readByte Memory.writeByte
  rw [Sparse.get_set hm]
  by_cases h : b = a
  · by_cases hv : v = Memory.blank <;> simp [h, hv]
  · simp [h]

theorem Memory.sorted_writeByte {m : Memory} (hm : Sparse.sorted m) (a : Nat) (v : Byte) :
    Sparse.sorted (m.writeByte a v) := Sparse.sorted_set hm _ _

/-- Memories in canonical form that read alike are equal data. -/
theorem Memory.ext {m n : Memory} (hm : m.wf) (hn : n.wf) (h : ∀ a, m.readByte a = n.readByte a) : m = n := by
  refine Sparse.ext hm.1 hn.1 fun a => ?_
  have := h a
  unfold Memory.readByte at this
  cases h1 : Sparse.get m a with
  | none =>
    cases h2 : Sparse.get n a with
    | none => rfl
    | some w =>
      rw [h1, h2] at this
      exact absurd this.symm (hn.2 _ (Sparse.mem_of_get h2)).2
  | some v =>
    cases h2 : Sparse.get n a with
    | none =>
      rw [h1, h2] at this
      exact absurd this (hm.2 _ (Sparse.mem_of_get h1)).2
    | some w => rw [h1, h2] at this; simpa using this

/-! ### Byte sequences -/

@[simp] theorem Memory.length_read (m : Memory) (a n : Nat) : (m.read a n).length = n := by
  induction n generalizing a with
  | zero => rfl
  | succ n ih => simp [Memory.read, ih]

/-- Byte i of a read is the byte at a + i. -/
theorem Memory.getElem_read (m : Memory) (a n i : Nat) (h : i < (m.read a n).length) :
    (m.read a n)[i] = m.readByte (a + i) := by
  induction n generalizing a i with
  | zero => simp [Memory.read] at h
  | succ n ih =>
    cases i with
    | zero => simp [Memory.read]
    | succ i =>
      simp only [Memory.read, List.getElem_cons_succ]
      rw [ih]; congr 1; omega

theorem Memory.sorted_write {m : Memory} (hm : Sparse.sorted m) (a : Nat) (bytes : List Byte) :
    Sparse.sorted (m.write a bytes) := by
  induction bytes generalizing m a with
  | nil => exact hm
  | cons b rest ih => exact ih (Memory.sorted_writeByte hm a b) (a + 1)

/-- A write below 2^32 keeps the canonical form. -/
theorem Memory.wf_write {m : Memory} (hm : m.wf) {a : Nat} {bytes : List Byte} (h : a + bytes.length ≤ 2 ^ 32) :
    (m.write a bytes).wf := by
  induction bytes generalizing m a with
  | nil => exact hm
  | cons b rest ih =>
    simp only [List.length_cons] at h
    exact ih (Memory.wf_writeByte hm (by omega) b) (by omega)

/-- A read of one byte after a write: the written byte inside, what was there outside. -/
theorem Memory.readByte_write {m : Memory} (hm : Sparse.sorted m) (a : Nat) (bytes : List Byte) (x : Nat) :
    (m.write a bytes).readByte x =
      if a ≤ x ∧ x < a + bytes.length then bytes.getD (x - a) 0 else m.readByte x := by
  induction bytes generalizing m a with
  | nil => simp [Memory.write]
  | cons b rest ih =>
    simp only [Memory.write, List.length_cons]
    rw [ih (Memory.sorted_writeByte hm a b), Memory.readByte_writeByte hm]
    by_cases h0 : x = a
    · subst h0; simp
    · by_cases h1 : a + 1 ≤ x ∧ x < a + 1 + rest.length
      · rw [if_pos h1, if_pos (by omega)]
        have : x - a = (x - (a + 1)) + 1 := by omega
        rw [this]; simp
      · rw [if_neg h1, if_neg h0, if_neg (by omega)]

/-- What a write does, as claims say it. -/
theorem Memory.storesAt_write {m : Memory} (hm : Sparse.sorted m) (a : Nat) (bytes : List Byte) :
    m.storesAt (m.write a bytes) a bytes := by
  constructor
  · intro i hi
    rw [Memory.readByte_write hm, if_pos (by omega)]
    simp
  · intro x hx
    rw [Memory.readByte_write hm, if_neg (by omega)]

/-! ### Unspecified bytes -/

theorem Memory.sorted_draw {m : Memory} (hm : Sparse.sorted m) (a n k : Nat) : Sparse.sorted (m.draw a n k) := by
  induction n generalizing m a k with
  | zero => exact hm
  | succ n ih => exact ih (Memory.sorted_writeByte hm a _) (a + 1) (k + 1)

/-- Drawing bytes below 2^32 keeps the canonical form. -/
theorem Memory.wf_draw {m : Memory} (hm : m.wf) {a n : Nat} (k : Nat) (h : a + n ≤ 2 ^ 32) : (m.draw a n k).wf := by
  induction n generalizing m a k with
  | zero => exact hm
  | succ n ih => exact ih (Memory.wf_writeByte hm (by omega) _) (k + 1) (by omega)

/-- A read after a draw: the next free values inside, what was there outside. -/
theorem Memory.readByte_draw {m : Memory} (hm : Sparse.sorted m) (a n k x : Nat) :
    (m.draw a n k).readByte x =
      if a ≤ x ∧ x < a + n then Config.freeByte (k + (x - a)) else m.readByte x := by
  induction n generalizing m a k with
  | zero => simp [Memory.draw]
  | succ n ih =>
    simp only [Memory.draw]
    rw [ih (Memory.sorted_writeByte hm a _), Memory.readByte_writeByte hm]
    by_cases h0 : x = a
    · subst h0; simp
    · by_cases h1 : a + 1 ≤ x ∧ x < a + 1 + n
      · rw [if_pos h1, if_pos (by omega)]
        congr 1; omega
      · rw [if_neg h1, if_neg h0, if_neg (by omega)]

/-- The memory of the state after reset is in canonical form. -/
theorem reset_mem_wf : State.reset.mem.wf := Memory.wf_nil

end Sys2Proof.Machine
end

