-- ==== Sys2Proof/Laws/State.lean ====
section
/-! SUPPORT. One lemma for each field of State and each named update of it, so that no proof unfolds a record
update. -/

namespace Sys2Proof.Machine

/-! ### finish -/

@[simp] theorem finish_par (s : State) : (finish s).par = s.par := rfl
@[simp] theorem finish_ctl (s : State) : (finish s).ctl = { s.ctl with done := true } := rfl
@[simp] theorem finish_args (s : State) : (finish s).args = s.args := rfl
@[simp] theorem finish_res (s : State) : (finish s).res = s.res := rfl
@[simp] theorem finish_hdr (s : State) : (finish s).hdr = s.hdr := rfl
@[simp] theorem finish_buf (s : State) : (finish s).buf = s.buf := rfl
@[simp] theorem finish_der (s : State) : (finish s).der = s.der := rfl
@[simp] theorem finish_inf (s : State) : (finish s).inf = s.inf := rfl
@[simp] theorem finish_rowsDone (s : State) : (finish s).rowsDone = s.rowsDone := rfl
@[simp] theorem finish_pf (s : State) : (finish s).pf = s.pf := rfl
@[simp] theorem finish_pathLen (s : State) : (finish s).pathLen = s.pathLen := rfl
@[simp] theorem finish_pfSteps (s : State) : (finish s).pfSteps = s.pfSteps := rfl
@[simp] theorem finish_pending (s : State) : (finish s).pending = none := rfl
@[simp] theorem finish_latch (s : State) : (finish s).latch = s.latch := rfl
@[simp] theorem finish_node (s : State) : (finish s).node = s.node := rfl
@[simp] theorem finish_frontier (s : State) : (finish s).frontier = s.frontier := rfl
@[simp] theorem finish_unit (s : State) : (finish s).unit = .idle := rfl
@[simp] theorem finish_mem (s : State) : (finish s).mem = s.mem := rfl
@[simp] theorem finish_item (s : State) : (finish s).item = s.item := rfl
@[simp] theorem finish_agenda (s : State) : (finish s).agenda = s.agenda := rfl
@[simp] theorem finish_reply (s : State) : (finish s).reply = s.reply := rfl
@[simp] theorem finish_draws (s : State) : (finish s).draws = s.draws := rfl

/-! ### takeError -/

@[simp] theorem takeError_par (opc : Byte) (e : ErrorKind) (n : Word) (s : State) :
    (takeError opc e n s).par = s.par := rfl
@[simp] theorem takeError_ctl (opc : Byte) (e : ErrorKind) (n : Word) (s : State) :
    (takeError opc e n s).ctl = { s.ctl with done := true, err := true, errCode := e.code, errInfo := n, errCmd := opc } := rfl
@[simp] theorem takeError_args (opc : Byte) (e : ErrorKind) (n : Word) (s : State) :
    (takeError opc e n s).args = s.args := rfl
@[simp] theorem takeError_res (opc : Byte) (e : ErrorKind) (n : Word) (s : State) :
    (takeError opc e n s).res = s.res := rfl
@[simp] theorem takeError_hdr (opc : Byte) (e : ErrorKind) (n : Word) (s : State) :
    (takeError opc e n s).hdr = s.hdr := rfl
@[simp] theorem takeError_buf (opc : Byte) (e : ErrorKind) (n : Word) (s : State) :
    (takeError opc e n s).buf = s.buf := rfl
@[simp] theorem takeError_der (opc : Byte) (e : ErrorKind) (n : Word) (s : State) :
    (takeError opc e n s).der = s.der := rfl
@[simp] theorem takeError_inf (opc : Byte) (e : ErrorKind) (n : Word) (s : State) :
    (takeError opc e n s).inf = s.inf := rfl
@[simp] theorem takeError_rowsDone (opc : Byte) (e : ErrorKind) (n : Word) (s : State) :
    (takeError opc e n s).rowsDone = s.rowsDone := rfl
@[simp] theorem takeError_pf (opc : Byte) (e : ErrorKind) (n : Word) (s : State) :
    (takeError opc e n s).pf = s.pf := rfl
@[simp] theorem takeError_pathLen (opc : Byte) (e : ErrorKind) (n : Word) (s : State) :
    (takeError opc e n s).pathLen = s.pathLen := rfl
@[simp] theorem takeError_pfSteps (opc : Byte) (e : ErrorKind) (n : Word) (s : State) :
    (takeError opc e n s).pfSteps = s.pfSteps := rfl
@[simp] theorem takeError_pending (opc : Byte) (e : ErrorKind) (n : Word) (s : State) :
    (takeError opc e n s).pending = none := rfl
@[simp] theorem takeError_latch (opc : Byte) (e : ErrorKind) (n : Word) (s : State) :
    (takeError opc e n s).latch = s.latch := rfl
@[simp] theorem takeError_node (opc : Byte) (e : ErrorKind) (n : Word) (s : State) :
    (takeError opc e n s).node = s.node := rfl
@[simp] theorem takeError_frontier (opc : Byte) (e : ErrorKind) (n : Word) (s : State) :
    (takeError opc e n s).frontier = s.frontier := rfl
@[simp] theorem takeError_unit (opc : Byte) (e : ErrorKind) (n : Word) (s : State) :
    (takeError opc e n s).unit = .idle := rfl
@[simp] theorem takeError_mem (opc : Byte) (e : ErrorKind) (n : Word) (s : State) :
    (takeError opc e n s).mem = s.mem := rfl
@[simp] theorem takeError_item (opc : Byte) (e : ErrorKind) (n : Word) (s : State) :
    (takeError opc e n s).item = s.item := rfl
@[simp] theorem takeError_agenda (opc : Byte) (e : ErrorKind) (n : Word) (s : State) :
    (takeError opc e n s).agenda = s.agenda := rfl
@[simp] theorem takeError_reply (opc : Byte) (e : ErrorKind) (n : Word) (s : State) :
    (takeError opc e n s).reply = s.reply := rfl
@[simp] theorem takeError_draws (opc : Byte) (e : ErrorKind) (n : Word) (s : State) :
    (takeError opc e n s).draws = s.draws := rfl

/-! ### clearCfgValid -/

@[simp] theorem clearCfgValid_par (s : State) : (clearCfgValid s).par = s.par := rfl
@[simp] theorem clearCfgValid_ctl (s : State) : (clearCfgValid s).ctl = { s.ctl with cfgValid := false } := rfl
@[simp] theorem clearCfgValid_args (s : State) : (clearCfgValid s).args = s.args := rfl
@[simp] theorem clearCfgValid_res (s : State) : (clearCfgValid s).res = s.res := rfl
@[simp] theorem clearCfgValid_hdr (s : State) : (clearCfgValid s).hdr = s.hdr := rfl
@[simp] theorem clearCfgValid_buf (s : State) : (clearCfgValid s).buf = s.buf := rfl
@[simp] theorem clearCfgValid_der (s : State) : (clearCfgValid s).der = s.der := rfl
@[simp] theorem clearCfgValid_inf (s : State) : (clearCfgValid s).inf = s.inf := rfl
@[simp] theorem clearCfgValid_rowsDone (s : State) : (clearCfgValid s).rowsDone = s.rowsDone := rfl
@[simp] theorem clearCfgValid_pf (s : State) : (clearCfgValid s).pf = s.pf := rfl
@[simp] theorem clearCfgValid_pathLen (s : State) : (clearCfgValid s).pathLen = s.pathLen := rfl
@[simp] theorem clearCfgValid_pfSteps (s : State) : (clearCfgValid s).pfSteps = s.pfSteps := rfl
@[simp] theorem clearCfgValid_pending (s : State) : (clearCfgValid s).pending = s.pending := rfl
@[simp] theorem clearCfgValid_latch (s : State) : (clearCfgValid s).latch = s.latch := rfl
@[simp] theorem clearCfgValid_node (s : State) : (clearCfgValid s).node = s.node := rfl
@[simp] theorem clearCfgValid_frontier (s : State) : (clearCfgValid s).frontier = s.frontier := rfl
@[simp] theorem clearCfgValid_unit (s : State) : (clearCfgValid s).unit = s.unit := rfl
@[simp] theorem clearCfgValid_mem (s : State) : (clearCfgValid s).mem = s.mem := rfl
@[simp] theorem clearCfgValid_item (s : State) : (clearCfgValid s).item = s.item := rfl
@[simp] theorem clearCfgValid_agenda (s : State) : (clearCfgValid s).agenda = s.agenda := rfl
@[simp] theorem clearCfgValid_reply (s : State) : (clearCfgValid s).reply = s.reply := rfl
@[simp] theorem clearCfgValid_draws (s : State) : (clearCfgValid s).draws = s.draws := rfl

/-! ### clearInfOk -/

@[simp] theorem clearInfOk_par (s : State) : (clearInfOk s).par = s.par := rfl
@[simp] theorem clearInfOk_ctl (s : State) : (clearInfOk s).ctl = { s.ctl with infOk := false } := rfl
@[simp] theorem clearInfOk_args (s : State) : (clearInfOk s).args = s.args := rfl
@[simp] theorem clearInfOk_res (s : State) : (clearInfOk s).res = s.res := rfl
@[simp] theorem clearInfOk_hdr (s : State) : (clearInfOk s).hdr = s.hdr := rfl
@[simp] theorem clearInfOk_buf (s : State) : (clearInfOk s).buf = s.buf := rfl
@[simp] theorem clearInfOk_der (s : State) : (clearInfOk s).der = s.der := rfl
@[simp] theorem clearInfOk_inf (s : State) : (clearInfOk s).inf = s.inf := rfl
@[simp] theorem clearInfOk_rowsDone (s : State) : (clearInfOk s).rowsDone = s.rowsDone := rfl
@[simp] theorem clearInfOk_pf (s : State) : (clearInfOk s).pf = s.pf := rfl
@[simp] theorem clearInfOk_pathLen (s : State) : (clearInfOk s).pathLen = s.pathLen := rfl
@[simp] theorem clearInfOk_pfSteps (s : State) : (clearInfOk s).pfSteps = s.pfSteps := rfl
@[simp] theorem clearInfOk_pending (s : State) : (clearInfOk s).pending = s.pending := rfl
@[simp] theorem clearInfOk_latch (s : State) : (clearInfOk s).latch = s.latch := rfl
@[simp] theorem clearInfOk_node (s : State) : (clearInfOk s).node = s.node := rfl
@[simp] theorem clearInfOk_frontier (s : State) : (clearInfOk s).frontier = s.frontier := rfl
@[simp] theorem clearInfOk_unit (s : State) : (clearInfOk s).unit = s.unit := rfl
@[simp] theorem clearInfOk_mem (s : State) : (clearInfOk s).mem = s.mem := rfl
@[simp] theorem clearInfOk_item (s : State) : (clearInfOk s).item = s.item := rfl
@[simp] theorem clearInfOk_agenda (s : State) : (clearInfOk s).agenda = s.agenda := rfl
@[simp] theorem clearInfOk_reply (s : State) : (clearInfOk s).reply = s.reply := rfl
@[simp] theorem clearInfOk_draws (s : State) : (clearInfOk s).draws = s.draws := rfl

/-! ### setInfOk -/

@[simp] theorem setInfOk_par (s : State) : (setInfOk s).par = s.par := rfl
@[simp] theorem setInfOk_ctl (s : State) : (setInfOk s).ctl = { s.ctl with infOk := true } := rfl
@[simp] theorem setInfOk_args (s : State) : (setInfOk s).args = s.args := rfl
@[simp] theorem setInfOk_res (s : State) : (setInfOk s).res = s.res := rfl
@[simp] theorem setInfOk_hdr (s : State) : (setInfOk s).hdr = s.hdr := rfl
@[simp] theorem setInfOk_buf (s : State) : (setInfOk s).buf = s.buf := rfl
@[simp] theorem setInfOk_der (s : State) : (setInfOk s).der = s.der := rfl
@[simp] theorem setInfOk_inf (s : State) : (setInfOk s).inf = s.inf := rfl
@[simp] theorem setInfOk_rowsDone (s : State) : (setInfOk s).rowsDone = s.rowsDone := rfl
@[simp] theorem setInfOk_pf (s : State) : (setInfOk s).pf = s.pf := rfl
@[simp] theorem setInfOk_pathLen (s : State) : (setInfOk s).pathLen = s.pathLen := rfl
@[simp] theorem setInfOk_pfSteps (s : State) : (setInfOk s).pfSteps = s.pfSteps := rfl
@[simp] theorem setInfOk_pending (s : State) : (setInfOk s).pending = s.pending := rfl
@[simp] theorem setInfOk_latch (s : State) : (setInfOk s).latch = s.latch := rfl
@[simp] theorem setInfOk_node (s : State) : (setInfOk s).node = s.node := rfl
@[simp] theorem setInfOk_frontier (s : State) : (setInfOk s).frontier = s.frontier := rfl
@[simp] theorem setInfOk_unit (s : State) : (setInfOk s).unit = s.unit := rfl
@[simp] theorem setInfOk_mem (s : State) : (setInfOk s).mem = s.mem := rfl
@[simp] theorem setInfOk_item (s : State) : (setInfOk s).item = s.item := rfl
@[simp] theorem setInfOk_agenda (s : State) : (setInfOk s).agenda = s.agenda := rfl
@[simp] theorem setInfOk_reply (s : State) : (setInfOk s).reply = s.reply := rfl
@[simp] theorem setInfOk_draws (s : State) : (setInfOk s).draws = s.draws := rfl

/-! ### setHeader -/

@[simp] theorem setHeader_par (h : Header) (s : State) : (setHeader h s).par = s.par := rfl
@[simp] theorem setHeader_ctl (h : Header) (s : State) : (setHeader h s).ctl = { s.ctl with cfgValid := false } := rfl
@[simp] theorem setHeader_args (h : Header) (s : State) : (setHeader h s).args = s.args := rfl
@[simp] theorem setHeader_res (h : Header) (s : State) : (setHeader h s).res = s.res := rfl
@[simp] theorem setHeader_hdr (h : Header) (s : State) : (setHeader h s).hdr = h := rfl
@[simp] theorem setHeader_buf (h : Header) (s : State) : (setHeader h s).buf = s.buf := rfl
@[simp] theorem setHeader_der (h : Header) (s : State) : (setHeader h s).der = s.der := rfl
@[simp] theorem setHeader_inf (h : Header) (s : State) : (setHeader h s).inf = s.inf := rfl
@[simp] theorem setHeader_rowsDone (h : Header) (s : State) : (setHeader h s).rowsDone = s.rowsDone := rfl
@[simp] theorem setHeader_pf (h : Header) (s : State) : (setHeader h s).pf = s.pf := rfl
@[simp] theorem setHeader_pathLen (h : Header) (s : State) : (setHeader h s).pathLen = s.pathLen := rfl
@[simp] theorem setHeader_pfSteps (h : Header) (s : State) : (setHeader h s).pfSteps = s.pfSteps := rfl
@[simp] theorem setHeader_pending (h : Header) (s : State) : (setHeader h s).pending = s.pending := rfl
@[simp] theorem setHeader_latch (h : Header) (s : State) : (setHeader h s).latch = s.latch := rfl
@[simp] theorem setHeader_node (h : Header) (s : State) : (setHeader h s).node = s.node := rfl
@[simp] theorem setHeader_frontier (h : Header) (s : State) : (setHeader h s).frontier = s.frontier := rfl
@[simp] theorem setHeader_unit (h : Header) (s : State) : (setHeader h s).unit = s.unit := rfl
@[simp] theorem setHeader_mem (h : Header) (s : State) : (setHeader h s).mem = s.mem := rfl
@[simp] theorem setHeader_item (h : Header) (s : State) : (setHeader h s).item = s.item := rfl
@[simp] theorem setHeader_agenda (h : Header) (s : State) : (setHeader h s).agenda = s.agenda := rfl
@[simp] theorem setHeader_reply (h : Header) (s : State) : (setHeader h s).reply = s.reply := rfl
@[simp] theorem setHeader_draws (h : Header) (s : State) : (setHeader h s).draws = s.draws := rfl

/-! ### drawRegion -/

@[simp] theorem drawRegion_par (r : Region) (s : State) : (drawRegion r s).par = s.par := rfl
@[simp] theorem drawRegion_ctl (r : Region) (s : State) : (drawRegion r s).ctl = s.ctl := rfl
@[simp] theorem drawRegion_args (r : Region) (s : State) : (drawRegion r s).args = s.args := rfl
@[simp] theorem drawRegion_res (r : Region) (s : State) : (drawRegion r s).res = s.res := rfl
@[simp] theorem drawRegion_hdr (r : Region) (s : State) : (drawRegion r s).hdr = s.hdr := rfl
@[simp] theorem drawRegion_buf (r : Region) (s : State) : (drawRegion r s).buf = s.buf := rfl
@[simp] theorem drawRegion_der (r : Region) (s : State) : (drawRegion r s).der = s.der := rfl
@[simp] theorem drawRegion_inf (r : Region) (s : State) : (drawRegion r s).inf = s.inf := rfl
@[simp] theorem drawRegion_rowsDone (r : Region) (s : State) : (drawRegion r s).rowsDone = s.rowsDone := rfl
@[simp] theorem drawRegion_pf (r : Region) (s : State) : (drawRegion r s).pf = s.pf := rfl
@[simp] theorem drawRegion_pathLen (r : Region) (s : State) : (drawRegion r s).pathLen = s.pathLen := rfl
@[simp] theorem drawRegion_pfSteps (r : Region) (s : State) : (drawRegion r s).pfSteps = s.pfSteps := rfl
@[simp] theorem drawRegion_pending (r : Region) (s : State) : (drawRegion r s).pending = s.pending := rfl
@[simp] theorem drawRegion_latch (r : Region) (s : State) : (drawRegion r s).latch = s.latch := rfl
@[simp] theorem drawRegion_node (r : Region) (s : State) : (drawRegion r s).node = s.node := rfl
@[simp] theorem drawRegion_frontier (r : Region) (s : State) : (drawRegion r s).frontier = s.frontier := rfl
@[simp] theorem drawRegion_unit (r : Region) (s : State) : (drawRegion r s).unit = s.unit := rfl
@[simp] theorem drawRegion_mem (r : Region) (s : State) :
    (drawRegion r s).mem = s.mem.draw r.base r.len s.draws := rfl
@[simp] theorem drawRegion_item (r : Region) (s : State) : (drawRegion r s).item = s.item := rfl
@[simp] theorem drawRegion_agenda (r : Region) (s : State) : (drawRegion r s).agenda = s.agenda := rfl
@[simp] theorem drawRegion_reply (r : Region) (s : State) : (drawRegion r s).reply = s.reply := rfl
@[simp] theorem drawRegion_draws (r : Region) (s : State) : (drawRegion r s).draws = s.draws + r.len := rfl

/-! ### drawInfResults -/

@[simp] theorem drawInfResults_par (s : State) : (drawInfResults s).par = s.par := rfl
@[simp] theorem drawInfResults_ctl (s : State) : (drawInfResults s).ctl = s.ctl := rfl
@[simp] theorem drawInfResults_args (s : State) : (drawInfResults s).args = s.args := rfl
@[simp] theorem drawInfResults_res (s : State) : (drawInfResults s).res = s.res := rfl
@[simp] theorem drawInfResults_hdr (s : State) : (drawInfResults s).hdr = s.hdr := rfl
@[simp] theorem drawInfResults_buf (s : State) : (drawInfResults s).buf = s.buf := rfl
@[simp] theorem drawInfResults_der (s : State) : (drawInfResults s).der = s.der := rfl
@[simp] theorem drawInfResults_inf (s : State) :
    (drawInfResults s).inf = ⟨Config.freeWord s.draws, Config.freeWord (s.draws + 1), Config.freeWord (s.draws + 2)⟩ := rfl
@[simp] theorem drawInfResults_rowsDone (s : State) : (drawInfResults s).rowsDone = s.rowsDone := rfl
@[simp] theorem drawInfResults_pf (s : State) : (drawInfResults s).pf = s.pf := rfl
@[simp] theorem drawInfResults_pathLen (s : State) : (drawInfResults s).pathLen = s.pathLen := rfl
@[simp] theorem drawInfResults_pfSteps (s : State) : (drawInfResults s).pfSteps = s.pfSteps := rfl
@[simp] theorem drawInfResults_pending (s : State) : (drawInfResults s).pending = s.pending := rfl
@[simp] theorem drawInfResults_latch (s : State) : (drawInfResults s).latch = s.latch := rfl
@[simp] theorem drawInfResults_node (s : State) : (drawInfResults s).node = s.node := rfl
@[simp] theorem drawInfResults_frontier (s : State) : (drawInfResults s).frontier = s.frontier := rfl
@[simp] theorem drawInfResults_unit (s : State) : (drawInfResults s).unit = s.unit := rfl
@[simp] theorem drawInfResults_mem (s : State) : (drawInfResults s).mem = s.mem := rfl
@[simp] theorem drawInfResults_item (s : State) : (drawInfResults s).item = s.item := rfl
@[simp] theorem drawInfResults_agenda (s : State) : (drawInfResults s).agenda = s.agenda := rfl
@[simp] theorem drawInfResults_reply (s : State) : (drawInfResults s).reply = s.reply := rfl
@[simp] theorem drawInfResults_draws (s : State) : (drawInfResults s).draws = s.draws + 3 := rfl

/-! ### sink -/

@[simp] theorem sink_par (k : Nat) (c : Inflater) (s : State) : (sink k c s).par = s.par := rfl
@[simp] theorem sink_ctl (k : Nat) (c : Inflater) (s : State) : (sink k c s).ctl = s.ctl := rfl
@[simp] theorem sink_args (k : Nat) (c : Inflater) (s : State) : (sink k c s).args = s.args := rfl
@[simp] theorem sink_res (k : Nat) (c : Inflater) (s : State) : (sink k c s).res = s.res := rfl
@[simp] theorem sink_hdr (k : Nat) (c : Inflater) (s : State) : (sink k c s).hdr = s.hdr := rfl
@[simp] theorem sink_buf (k : Nat) (c : Inflater) (s : State) : (sink k c s).buf = s.buf := rfl
@[simp] theorem sink_der (k : Nat) (c : Inflater) (s : State) : (sink k c s).der = s.der := rfl
@[simp] theorem sink_inf (k : Nat) (c : Inflater) (s : State) : (sink k c s).inf = s.inf := rfl
@[simp] theorem sink_rowsDone (k : Nat) (c : Inflater) (s : State) : (sink k c s).rowsDone = s.rowsDone := rfl
@[simp] theorem sink_pf (k : Nat) (c : Inflater) (s : State) : (sink k c s).pf = s.pf := rfl
@[simp] theorem sink_pathLen (k : Nat) (c : Inflater) (s : State) : (sink k c s).pathLen = s.pathLen := rfl
@[simp] theorem sink_pfSteps (k : Nat) (c : Inflater) (s : State) : (sink k c s).pfSteps = s.pfSteps := rfl
@[simp] theorem sink_pending (k : Nat) (c : Inflater) (s : State) : (sink k c s).pending = s.pending := rfl
@[simp] theorem sink_latch (k : Nat) (c : Inflater) (s : State) : (sink k c s).latch = s.latch := rfl
@[simp] theorem sink_node (k : Nat) (c : Inflater) (s : State) : (sink k c s).node = s.node := rfl
@[simp] theorem sink_frontier (k : Nat) (c : Inflater) (s : State) : (sink k c s).frontier = s.frontier := rfl
@[simp] theorem sink_unit (k : Nat) (c : Inflater) (s : State) : (sink k c s).unit = s.unit := rfl
@[simp] theorem sink_mem (k : Nat) (c : Inflater) (s : State) :
    (sink k c s).mem = s.mem.write (s.buf.infAddr.toNat + k) ((c.hist.reverse.take s.buf.infCap.toNat).drop k) := rfl
@[simp] theorem sink_item (k : Nat) (c : Inflater) (s : State) : (sink k c s).item = s.item := rfl
@[simp] theorem sink_agenda (k : Nat) (c : Inflater) (s : State) : (sink k c s).agenda = s.agenda := rfl
@[simp] theorem sink_reply (k : Nat) (c : Inflater) (s : State) : (sink k c s).reply = s.reply := rfl
@[simp] theorem sink_draws (k : Nat) (c : Inflater) (s : State) : (sink k c s).draws = s.draws := rfl

/-! ### The unpacker -/

@[simp] theorem advance_y (ct bd c : Nat) (u : Unpacker) : (u.advance ct bd c).y = u.y := rfl
@[simp] theorem advance_row (ct bd c : Nat) (u : Unpacker) : (u.advance ct bd c).row = u.row := rfl
@[simp] theorem advance_x (ct bd c : Nat) (u : Unpacker) : (u.advance ct bd c).x = u.x + 1 := rfl
@[simp] theorem advance_place (ct bd c : Nat) (u : Unpacker) : (u.advance ct bd c).place = bitPlace bd (u.x + 1) := rfl
@[simp] theorem advance_out (ct bd c : Nat) (u : Unpacker) :
    (u.advance ct bd c).out = u.out ++ recordBytes (u.record ct bd c) := rfl
@[simp] theorem startAt_y (bd x : Nat) (u : Unpacker) : (u.startAt bd x).y = u.y := rfl
@[simp] theorem startAt_row (bd x : Nat) (u : Unpacker) : (u.startAt bd x).row = u.row := rfl
@[simp] theorem startAt_x (bd x : Nat) (u : Unpacker) : (u.startAt bd x).x = x := rfl
@[simp] theorem startAt_place (bd x : Nat) (u : Unpacker) : (u.startAt bd x).place = bitPlace bd x := rfl
@[simp] theorem startAt_out (bd x : Nat) (u : Unpacker) : (u.startAt bd x).out = [] := rfl

/-- The record of a column is the same however the unpacker came to it. -/
theorem Unpacker.record_startAt {u : Unpacker} {bd : Nat} (h : u.place = bitPlace bd u.x) (ct c : Nat) :
    (Unpacker.startAt bd u.x ⟨0, u.row, 0, none, []⟩).record ct bd c = u.record ct bd c := by
  unfold Unpacker.record Unpacker.sample
  rw [h]
  rfl

/-- What n pixels append (42_unpack.md R313). -/
theorem Unpacker.runAll_out {u : Unpacker} {bd : Nat} (h : u.place = bitPlace bd u.x) (ct c n : Nat) :
    (u.runAll ct bd c n).out = u.out ++ rowRecords u.row ct bd c u.x n := by
  induction n generalizing u with
  | zero => simp [Unpacker.runAll, rowRecords]
  | succ n ih =>
    rw [rowRecords, Unpacker.runAll, Unpacker.runAll, ih rfl, ih rfl]
    simp [Unpacker.record_startAt h, List.append_assoc]

/-- The bytes a header pair's operation makes of a row. -/
theorem Unpacker.unpacked_out (ct bd : Nat) (s : State) (u : Unpacker) :
    (u.unpacked ct bd s).out = rowRecords u.row ct bd s.der.channels.toNat 0 s.hdr.width.toNat := by
  unfold Unpacker.unpacked
  rw [Unpacker.runAll_out rfl]
  rfl

@[simp] theorem writeRecords_mem (y : Nat) (u : Unpacker) (s : State) :
    (writeRecords y u s).mem = s.mem.write (s.pixRow y) u.out := rfl

/-! ### unpackWith -/

@[simp] theorem unpackWith_par (ct bd y : Nat) (s : State) : (unpackWith ct bd y s).par = s.par := rfl
@[simp] theorem unpackWith_ctl (ct bd y : Nat) (s : State) : (unpackWith ct bd y s).ctl = s.ctl := rfl
@[simp] theorem unpackWith_args (ct bd y : Nat) (s : State) : (unpackWith ct bd y s).args = s.args := rfl
@[simp] theorem unpackWith_res (ct bd y : Nat) (s : State) : (unpackWith ct bd y s).res = s.res := rfl
@[simp] theorem unpackWith_hdr (ct bd y : Nat) (s : State) : (unpackWith ct bd y s).hdr = s.hdr := rfl
@[simp] theorem unpackWith_buf (ct bd y : Nat) (s : State) : (unpackWith ct bd y s).buf = s.buf := rfl
@[simp] theorem unpackWith_der (ct bd y : Nat) (s : State) : (unpackWith ct bd y s).der = s.der := rfl
@[simp] theorem unpackWith_inf (ct bd y : Nat) (s : State) : (unpackWith ct bd y s).inf = s.inf := rfl
@[simp] theorem unpackWith_rowsDone (ct bd y : Nat) (s : State) : (unpackWith ct bd y s).rowsDone = s.rowsDone := rfl
@[simp] theorem unpackWith_pf (ct bd y : Nat) (s : State) : (unpackWith ct bd y s).pf = s.pf := rfl
@[simp] theorem unpackWith_pathLen (ct bd y : Nat) (s : State) : (unpackWith ct bd y s).pathLen = s.pathLen := rfl
@[simp] theorem unpackWith_pfSteps (ct bd y : Nat) (s : State) : (unpackWith ct bd y s).pfSteps = s.pfSteps := rfl
@[simp] theorem unpackWith_pending (ct bd y : Nat) (s : State) : (unpackWith ct bd y s).pending = s.pending := rfl
@[simp] theorem unpackWith_latch (ct bd y : Nat) (s : State) : (unpackWith ct bd y s).latch = s.latch := rfl
@[simp] theorem unpackWith_node (ct bd y : Nat) (s : State) : (unpackWith ct bd y s).node = s.node := rfl
@[simp] theorem unpackWith_frontier (ct bd y : Nat) (s : State) : (unpackWith ct bd y s).frontier = s.frontier := rfl
@[simp] theorem unpackWith_unit (ct bd y : Nat) (s : State) : (unpackWith ct bd y s).unit = s.unit := rfl
@[simp] theorem unpackWith_mem (ct bd y : Nat) (s : State) :
    (unpackWith ct bd y s).mem = s.mem.write (s.pixRow y) (rowRecords (s.mem.read (s.rawRow y) s.der.scanlineBytes.toNat) ct bd
      s.der.channels.toNat 0 s.hdr.width.toNat) := by
  simp only [unpackWith, writeRecords_mem, Unpacker.unpacked_out]
  rfl
@[simp] theorem unpackWith_item (ct bd y : Nat) (s : State) : (unpackWith ct bd y s).item = s.item := rfl
@[simp] theorem unpackWith_agenda (ct bd y : Nat) (s : State) : (unpackWith ct bd y s).agenda = s.agenda := rfl
@[simp] theorem unpackWith_reply (ct bd y : Nat) (s : State) : (unpackWith ct bd y s).reply = s.reply := rfl
@[simp] theorem unpackWith_draws (ct bd y : Nat) (s : State) : (unpackWith ct bd y s).draws = s.draws := rfl

/-! ### putNode -/

@[simp] theorem putNode_par (s : State) (c : Coord) (n : Node) : (s.putNode c n).par = s.par := rfl
@[simp] theorem putNode_ctl (s : State) (c : Coord) (n : Node) : (s.putNode c n).ctl = s.ctl := rfl
@[simp] theorem putNode_args (s : State) (c : Coord) (n : Node) : (s.putNode c n).args = s.args := rfl
@[simp] theorem putNode_res (s : State) (c : Coord) (n : Node) : (s.putNode c n).res = s.res := rfl
@[simp] theorem putNode_hdr (s : State) (c : Coord) (n : Node) : (s.putNode c n).hdr = s.hdr := rfl
@[simp] theorem putNode_buf (s : State) (c : Coord) (n : Node) : (s.putNode c n).buf = s.buf := rfl
@[simp] theorem putNode_der (s : State) (c : Coord) (n : Node) : (s.putNode c n).der = s.der := rfl
@[simp] theorem putNode_inf (s : State) (c : Coord) (n : Node) : (s.putNode c n).inf = s.inf := rfl
@[simp] theorem putNode_rowsDone (s : State) (c : Coord) (n : Node) : (s.putNode c n).rowsDone = s.rowsDone := rfl
@[simp] theorem putNode_pf (s : State) (c : Coord) (n : Node) : (s.putNode c n).pf = s.pf := rfl
@[simp] theorem putNode_pathLen (s : State) (c : Coord) (n : Node) : (s.putNode c n).pathLen = s.pathLen := rfl
@[simp] theorem putNode_pfSteps (s : State) (c : Coord) (n : Node) : (s.putNode c n).pfSteps = s.pfSteps := rfl
@[simp] theorem putNode_pending (s : State) (c : Coord) (n : Node) : (s.putNode c n).pending = s.pending := rfl
@[simp] theorem putNode_latch (s : State) (c : Coord) (n : Node) : (s.putNode c n).latch = s.latch := rfl
@[simp] theorem putNode_node (s : State) (c : Coord) (n : Node) :
    (s.putNode c n).node = Sparse.set s.node (s.cellIndex c) (some n) := rfl
@[simp] theorem putNode_frontier (s : State) (c : Coord) (n : Node) : (s.putNode c n).frontier = s.frontier := rfl
@[simp] theorem putNode_unit (s : State) (c : Coord) (n : Node) : (s.putNode c n).unit = s.unit := rfl
@[simp] theorem putNode_mem (s : State) (c : Coord) (n : Node) : (s.putNode c n).mem = s.mem := rfl
@[simp] theorem putNode_item (s : State) (c : Coord) (n : Node) : (s.putNode c n).item = s.item := rfl
@[simp] theorem putNode_agenda (s : State) (c : Coord) (n : Node) : (s.putNode c n).agenda = s.agenda := rfl
@[simp] theorem putNode_reply (s : State) (c : Coord) (n : Node) : (s.putNode c n).reply = s.reply := rfl
@[simp] theorem putNode_draws (s : State) (c : Coord) (n : Node) : (s.putNode c n).draws = s.draws := rfl

/-! ### writeStatus -/

@[simp] theorem writeStatus_par (v : Word) (s : State) : (s.writeStatus v).par = s.par := rfl
@[simp] theorem writeStatus_ctl (v : Word) (s : State) :
    (s.writeStatus v).ctl = { s.ctl with
      done := s.ctl.done && !v.getLsbD 1
      err := s.ctl.err && !v.getLsbD 2
      ovr := s.ctl.ovr && !v.getLsbD 3 } := rfl
@[simp] theorem writeStatus_args (v : Word) (s : State) : (s.writeStatus v).args = s.args := rfl
@[simp] theorem writeStatus_res (v : Word) (s : State) : (s.writeStatus v).res = s.res := rfl
@[simp] theorem writeStatus_hdr (v : Word) (s : State) : (s.writeStatus v).hdr = s.hdr := rfl
@[simp] theorem writeStatus_buf (v : Word) (s : State) : (s.writeStatus v).buf = s.buf := rfl
@[simp] theorem writeStatus_der (v : Word) (s : State) : (s.writeStatus v).der = s.der := rfl
@[simp] theorem writeStatus_inf (v : Word) (s : State) : (s.writeStatus v).inf = s.inf := rfl
@[simp] theorem writeStatus_rowsDone (v : Word) (s : State) : (s.writeStatus v).rowsDone = s.rowsDone := rfl
@[simp] theorem writeStatus_pf (v : Word) (s : State) : (s.writeStatus v).pf = s.pf := rfl
@[simp] theorem writeStatus_pathLen (v : Word) (s : State) : (s.writeStatus v).pathLen = s.pathLen := rfl
@[simp] theorem writeStatus_pfSteps (v : Word) (s : State) : (s.writeStatus v).pfSteps = s.pfSteps := rfl
@[simp] theorem writeStatus_pending (v : Word) (s : State) : (s.writeStatus v).pending = s.pending := rfl
@[simp] theorem writeStatus_latch (v : Word) (s : State) : (s.writeStatus v).latch = s.latch := rfl
@[simp] theorem writeStatus_node (v : Word) (s : State) : (s.writeStatus v).node = s.node := rfl
@[simp] theorem writeStatus_frontier (v : Word) (s : State) : (s.writeStatus v).frontier = s.frontier := rfl
@[simp] theorem writeStatus_unit (v : Word) (s : State) : (s.writeStatus v).unit = s.unit := rfl
@[simp] theorem writeStatus_mem (v : Word) (s : State) : (s.writeStatus v).mem = s.mem := rfl
@[simp] theorem writeStatus_item (v : Word) (s : State) : (s.writeStatus v).item = s.item := rfl
@[simp] theorem writeStatus_agenda (v : Word) (s : State) : (s.writeStatus v).agenda = s.agenda := rfl
@[simp] theorem writeStatus_reply (v : Word) (s : State) : (s.writeStatus v).reply = s.reply := rfl
@[simp] theorem writeStatus_draws (v : Word) (s : State) : (s.writeStatus v).draws = s.draws := rfl

end Sys2Proof.Machine
end

