-- ==== Sys2Proof/Laws/Ops.lean ====
section
/-! SUPPORT. What each shared operation can do: how rules are sequenced and completed, the region check
(20_memory.md R110), unspecified regions, acceptance, and the ends of items. -/

namespace Sys2Proof.Machine

/-! ### Sequencing -/

@[simp] theorem Ended.andThen_ok (s : State) (f : State → Ended) : (Ended.ok s).andThen f = f s := rfl

@[simp] theorem Ended.andThen_raised (e : ErrorKind) (n : Word) (s : State) (f : State → Ended) :
    (Ended.raised e n s).andThen f = .raised e n s := rfl

@[simp] theorem Ended.andThen_stuck (x : Fault) (f : State → Ended) : (Ended.stuck x).andThen f = .stuck x := rfl

@[simp] theorem Ended.onRaise_ok (s : State) (f : State → State) : (Ended.ok s).onRaise f = .ok s := rfl

@[simp] theorem Ended.onRaise_raised (e : ErrorKind) (n : Word) (s : State) (f : State → State) :
    (Ended.raised e n s).onRaise f = .raised e n (f s) := rfl

@[simp] theorem Ended.onRaise_stuck (x : Fault) (f : State → State) : (Ended.stuck x).onRaise f = .stuck x := rfl

/-- A sequence that runs to its end has run both parts to their ends. -/
theorem Ended.andThen_eq_ok {r : Ended} {f : State → Ended} {t : State} :
    r.andThen f = .ok t ↔ ∃ s, r = .ok s ∧ f s = .ok t := by
  cases r <;> simp

/-- A sequence that raises has raised in its first part, or in its second after the first ran to its end. -/
theorem Ended.andThen_eq_raised {r : Ended} {f : State → Ended} {e : ErrorKind} {n : Word} {t : State} :
    r.andThen f = .raised e n t ↔ r = .raised e n t ∨ ∃ s, r = .ok s ∧ f s = .raised e n t := by
  cases r <;> simp

/-- A sequence that is stuck is stuck in its first part, or in its second after the first ran to its end. -/
theorem Ended.andThen_eq_stuck {r : Ended} {f : State → Ended} {x : Fault} :
    r.andThen f = .stuck x ↔ r = .stuck x ∨ ∃ s, r = .ok s ∧ f s = .stuck x := by
  cases r <;> simp

@[simp] theorem raiseError_eq (e : ErrorKind) (n : Nat) (s : State) :
    raiseError e n s = .raised e (BitVec.ofNat 32 n) s := rfl

/-! ### Completion -/

@[simp] theorem complete_ok (opc : Byte) (s : State) : complete opc (.ok s) = .next (finish s) := rfl

@[simp] theorem complete_raised (opc : Byte) (e : ErrorKind) (n : Word) (s : State) :
    complete opc (.raised e n s) = .next (takeError opc e n s) := rfl

@[simp] theorem complete_stuck (opc : Byte) (x : Fault) : complete opc (.stuck x) = .fault x := rfl

/-- Everything completion can do: a success, an error, or a fault where the rule is stuck (R455). -/
theorem complete_eq_next {opc : Byte} {r : Ended} {t : State} :
    complete opc r = .next t ↔
      (∃ s, r = .ok s ∧ t = finish s) ∨ ∃ e n s, r = .raised e n s ∧ t = takeError opc e n s := by
  cases r <;> simp [eq_comm]

theorem complete_eq_fault {opc : Byte} {r : Ended} {x : Fault} : complete opc r = .fault x ↔ r = .stuck x := by
  cases r <;> simp

theorem complete_ne_refused (opc : Byte) (r : Ended) (x : Refusal) : complete opc r ≠ .refused x := by
  cases r <;> simp

@[simp] theorem busy_finish (s : State) : (finish s).busy = false := rfl

@[simp] theorem busy_takeError (opc : Byte) (e : ErrorKind) (n : Word) (s : State) :
    (takeError opc e n s).busy = false := rfl

/-- No error kind but NONE has the code 0. -/
theorem ErrorKind.code_eq_zero {e : ErrorKind} : e.code = 0 ↔ e = .none := by
  cases e <;> decide

/-! ### The region check (R110) -/

theorem firstTooLarge_eq_none {i : Nat} {rs : List Region} :
    firstTooLarge i rs = none ↔ ∀ r ∈ rs, r.base + r.len ≤ 2 ^ 32 := by
  induction rs generalizing i with
  | nil => simp [firstTooLarge]
  | cons r rs ih =>
    simp only [firstTooLarge]
    split
    · next h => simp; intro h'; omega
    · next h => simp only [ih, List.forall_mem_cons]; simp; omega

/-- Pass 1 reports the first region that passes 2^32. -/
theorem firstTooLarge_eq_some {i k : Nat} {rs : List Region} :
    firstTooLarge i rs = some k ↔
      ∃ j r, k = i + j ∧ rs[j]? = some r ∧ 2 ^ 32 < r.base + r.len ∧
        ∀ q ∈ rs.take j, q.base + q.len ≤ 2 ^ 32 := by
  induction rs generalizing i with
  | nil => simp [firstTooLarge]
  | cons r rs ih =>
    simp only [firstTooLarge]
    split
    · next h =>
      constructor
      · rintro ⟨⟩
        exact ⟨0, r, by omega, by simp, h, by simp⟩
      · rintro ⟨j, q, rfl, hq, h2, h3⟩
        cases j with
        | zero => simp
        | succ j => have := h3 r (by simp); omega
    · next h =>
      rw [ih]
      constructor
      · rintro ⟨j, q, rfl, hq, h2, h3⟩
        refine ⟨j + 1, q, by omega, by simpa using hq, h2, ?_⟩
        intro p hp
        rcases List.mem_cons.1 (by simpa using hp) with rfl | hp
        · omega
        · exact h3 p hp
      · rintro ⟨j, q, rfl, hq, h2, h3⟩
        cases j with
        | zero => simp at hq; subst hq; exact absurd h2 h
        | succ j =>
          exact ⟨j, q, by omega, by simpa using hq, h2, fun p hp => h3 p (by simp [hp])⟩

theorem Region.holds_iff (r : Region) (a : Nat) : r.holds a = true ↔ r.base ≤ a ∧ a < r.base + r.len := by
  simp [Region.holds]

/-- `overlap` says that some byte lies in both regions (R111). -/
theorem Region.overlaps_iff (r s : Region) : r.overlaps s = true ↔ ∃ a, r.holds a = true ∧ s.holds a = true := by
  simp only [Region.overlaps, decide_eq_true_eq, Region.holds_iff]
  constructor
  · rintro ⟨h1, h2, h3, h4⟩
    exact ⟨max r.base s.base, by omega, by omega⟩
  · rintro ⟨a, h1, h2⟩
    omega

theorem firstClash_eq_none {r : Region} {j : Nat} {rs : List Region} :
    firstClash r j rs = none ↔ ∀ s ∈ rs, (r.kind = .W ∨ s.kind = .W) → r.overlaps s = false := by
  induction rs generalizing j with
  | nil => simp [firstClash]
  | cons s rs ih =>
    simp only [firstClash]
    split
    · next h => simp only [reduceCtorEq, List.forall_mem_cons, false_iff, not_and]; intro h'; simp [h.2, h.1] at h'
    · next h =>
      rw [ih, List.forall_mem_cons]
      constructor
      · intro h'
        refine ⟨fun hk => ?_, h'⟩
        cases ho : r.overlaps s
        · rfl
        · exact absurd ⟨hk, ho⟩ h
      · exact fun h' => h'.2

theorem firstOverlap_eq_none {i : Nat} {rs : List Region} :
    firstOverlap i rs = none ↔
      rs.Pairwise (fun r s => (r.kind = .W ∨ s.kind = .W) → r.overlaps s = false) := by
  induction rs generalizing i with
  | nil => simp [firstOverlap]
  | cons r rs ih =>
    simp only [firstOverlap, List.pairwise_cons]
    split
    · next h =>
      simp only [reduceCtorEq, false_iff, not_and]
      intro h'
      rw [firstClash_eq_none.2 h'] at h
      simp at h
    · next h => rw [ih]; simp only [iff_and_self]; exact fun _ => firstClash_eq_none.1 h

/-- Where a window and a region of one kind first meet. -/
theorem Window.meets_eq_some {w : Window} {r : Region} {a : Nat} :
    Window.meets w r = some a ↔ w.kind = r.kind ∧ a = max w.base r.base ∧
      a < w.base + w.len ∧ r.holds a = true := by
  simp only [Window.meets, Region.holds_iff]
  split
  · next h =>
    obtain ⟨hk, h⟩ := h
    simp only [Option.some.injEq, hk, true_and]
    omega
  · next h =>
    simp only [reduceCtorEq, false_iff]
    rintro ⟨h1, rfl, h2, h3⟩
    exact h ⟨h1, by omega⟩

theorem admits_eq_false {p : Params} {a : Nat} {k : Access} :
    admits p a k = false ↔ ∃ w ∈ p.closed, w.kind = k ∧ w.base ≤ a ∧ a < w.base + w.len := by
  simp [admits]

/-- Every byte of a region is admitted exactly if none is reported. -/
theorem firstUnadmitted_eq_none {p : Params} {r : Region} :
    firstUnadmitted p r = none ↔ ∀ a, r.holds a = true → admits p a r.kind = true := by
  simp only [firstUnadmitted, List.min?_eq_none_iff, List.filterMap_eq_nil_iff]
  constructor
  · intro h a ha
    by_contra hn
    obtain ⟨w, hw, h1, h2, h3⟩ := admits_eq_false.1 (by simpa using hn)
    have := h w hw
    rw [Region.holds_iff] at ha
    have hm : Window.meets w r = some (max w.base r.base) :=
      Window.meets_eq_some.2 ⟨h1, rfl, by omega, by rw [Region.holds_iff]; omega⟩
    simp [hm] at this
  · intro h w hw
    by_contra hn
    obtain ⟨a, ha⟩ := Option.ne_none_iff_exists'.1 hn
    obtain ⟨h1, h2, h3, h4⟩ := Window.meets_eq_some.1 ha
    have := h a h4
    rw [← Bool.not_eq_false, admits_eq_false] at this
    exact this ⟨w, hw, h1, by omega, h3⟩

/-- The byte reported is the lowest of the region that is not admitted (R110 pass 3). -/
theorem firstUnadmitted_eq_some {p : Params} {r : Region} {a : Nat} (h : firstUnadmitted p r = some a) :
    r.holds a = true ∧ admits p a r.kind = false ∧ ∀ b, r.holds b = true → b < a → admits p b r.kind = true := by
  rw [firstUnadmitted, List.min?_eq_some_iff] at h
  obtain ⟨hm, hmin⟩ := h
  obtain ⟨w, hw, hwa⟩ := List.mem_filterMap.1 hm
  obtain ⟨h1, h2, h3, h4⟩ := Window.meets_eq_some.1 hwa
  refine ⟨h4, admits_eq_false.2 ⟨w, hw, h1, by omega, h3⟩, fun b hb hlt => ?_⟩
  by_contra hn
  obtain ⟨v, hv, g1, g2, g3⟩ := admits_eq_false.1 (by simpa using hn)
  rw [Region.holds_iff] at hb
  have hv' : Window.meets v r = some (max v.base r.base) :=
    Window.meets_eq_some.2 ⟨g1, rfl, by omega, by rw [Region.holds_iff]; omega⟩
  have := hmin _ (List.mem_filterMap.2 ⟨v, hv, hv'⟩)
  omega

theorem firstBusError_eq_none {p : Params} {rs : List Region} :
    firstBusError p rs = none ↔ ∀ r ∈ rs, ∀ a, r.holds a = true → admits p a r.kind = true := by
  induction rs with
  | nil => simp [firstBusError]
  | cons r rs ih =>
    simp only [firstBusError, List.forall_mem_cons]
    split
    · next h =>
      simp only [reduceCtorEq, false_iff, not_and]
      intro h'
      rw [firstUnadmitted_eq_none.2 h'] at h
      simp at h
    · next h => rw [ih]; simp only [iff_and_self]; exact fun _ => firstUnadmitted_eq_none.1 h

/-- Everything the region check can do: nothing, or one of three errors, with the state as it was. -/
theorem checkRegions_cases (rs : List Region) (s : State) :
    checkRegions rs s = .ok s ∨ ∃ e n, (e = .tooLarge ∨ e = .regionOverlap ∨ e = .busError) ∧
      checkRegions rs s = .raised e n s := by
  unfold checkRegions
  split
  · exact .inr ⟨_, _, .inl rfl, rfl⟩
  · split
    · exact .inr ⟨_, _, .inr (.inl rfl), rfl⟩
    · split
      · exact .inr ⟨_, _, .inr (.inr rfl), rfl⟩
      · exact .inl rfl

/-- The region check passes exactly when every region is in range, no written one shares a byte with another,
and every byte is admitted. -/
theorem checkRegions_ok_iff {rs : List Region} {s : State} :
    checkRegions rs s = .ok s ↔ regionsPass s.par rs := by
  have hp : rs.Pairwise (fun r s => (r.kind = .W ∨ s.kind = .W) → r.overlaps s = false) ↔
      rs.Pairwise (fun r s => (r.kind = .W ∨ s.kind = .W) → ∀ x, ¬ (r.holds x = true ∧ s.holds x = true)) := by
    have : ∀ r s : Region, r.overlaps s = false ↔ ∀ x, ¬ (r.holds x = true ∧ s.holds x = true) := by
      intro r s
      rw [← not_exists, ← Region.overlaps_iff]; simp
    simp only [this]
  unfold checkRegions regionsPass
  rw [← hp, ← firstTooLarge_eq_none (i := 0), ← firstOverlap_eq_none (i := 0), ← firstBusError_eq_none]
  split
  · next h => simp [h]
  · next h =>
    split
    · next h2 => simp [h2]
    · next h2 =>
      split
      · next h3 => simp [h3]
      · next h3 => simp [h, h2, h3]

/-- If the region check lets a rule go on, the state is as it was and the regions pass. -/
theorem checkRegions_ok {rs : List Region} {s t : State} (h : checkRegions rs s = .ok t) :
    t = s ∧ regionsPass s.par rs := by
  rcases checkRegions_cases rs s with h' | ⟨e, n, -, h'⟩
  · rw [h'] at h
    cases h
    exact ⟨rfl, checkRegions_ok_iff.1 h'⟩
  · rw [h'] at h; simp at h

/-! ### Unspecified regions -/

/-- A clipped region is in range or empty. -/
theorem Region.clipped_le (r : Region) : r.clipped.len = 0 ∨ r.clipped.base + r.clipped.len ≤ 2 ^ 32 := by
  simp only [Region.clipped]; omega

/-- A region in range is not clipped. -/
theorem Region.clipped_eq {r : Region} (h : r.base + r.len ≤ 2 ^ 32) : r.clipped = r := by
  obtain ⟨b, n, k⟩ := r
  simp only [Region.clipped, Region.mk.injEq, true_and, and_true] at h ⊢
  omega

/-- Unspecified regions change memory and the count of drawn values, nothing else. -/
theorem drawWrites_eq (rs : List Region) (s : State) :
    ∃ m k, drawWrites rs s = { s with mem := m, draws := k } := by
  induction rs generalizing s with
  | nil => exact ⟨s.mem, s.draws, rfl⟩
  | cons r rs ih =>
    unfold drawWrites
    split
    · exact ih s
    · obtain ⟨m, k, h⟩ := ih (drawRegion r.clipped s)
      exact ⟨m, k, by rw [h]; rfl⟩

theorem sorted_drawWrites (rs : List Region) {s : State} (h : Sparse.sorted s.mem) :
    Sparse.sorted (drawWrites rs s).mem := by
  induction rs generalizing s with
  | nil => exact h
  | cons r rs ih =>
    unfold drawWrites
    split
    · exact ih h
    · exact ih (Memory.sorted_draw h _ _ _)

theorem wf_drawRegion_clipped (r : Region) {s : State} (hs : s.mem.wf) : (drawRegion r.clipped s).mem.wf := by
  rcases Region.clipped_le r with h | h
  · rw [drawRegion_mem, h]; exact hs
  · exact Memory.wf_draw hs _ h

/-- Unspecified regions keep the canonical form of memory. -/
theorem wf_drawWrites (rs : List Region) {s : State} (hs : s.mem.wf) : (drawWrites rs s).mem.wf := by
  induction rs generalizing s with
  | nil => exact hs
  | cons r rs ih =>
    unfold drawWrites
    split
    · exact ih hs
    · exact ih (wf_drawRegion_clipped r hs)

/-- Bytes outside the write regions are not drawn. -/
theorem keepsOutside_drawWrites (rs : List Region) {s : State} (hs : Sparse.sorted s.mem) :
    s.mem.keepsOutside (drawWrites rs s).mem rs := by
  induction rs generalizing s with
  | nil => intro x _; rfl
  | cons r rs ih =>
    intro x hx
    rw [List.forall_mem_cons] at hx
    unfold drawWrites
    split
    · exact ih hs x hx.2
    · next hk =>
      have h1 := hx.1 hk
      rw [ih (s := drawRegion r.clipped s) (Memory.sorted_draw hs _ _ _) x hx.2, drawRegion_mem,
        Memory.readByte_draw hs]
      have : ¬ (r.holds x = true) := by simp [h1]
      rw [Region.holds_iff] at this
      rw [if_neg]
      simp only [Region.clipped]
      omega

/-! ### Acceptance (10_state.md R40) -/

/-- A CMD write while a command runs is dropped and sets OVR. -/
theorem accept_busy {w : Word} {s : State} (h : s.busy = true) :
    accept w s = { s with ctl := { s.ctl with ovr := true } } := by simp [accept, h]

/-- A CMD write to an idle block is accepted. -/
theorem accept_idle {w : Word} {s : State} (h : s.busy = false) :
    accept w s = { s with
      pending := some w
      ctl := ⟨s.ctl.ie, false, false, s.ctl.ovr, s.ctl.cfgValid,
        if w = 0x02 ∨ w = 0x06 then false else s.ctl.infOk, s.ctl.pfState, 0, 0, 0⟩ } := by
  simp [accept, h]

/-! ### Items -/

/-- How an item ends when a command runs. -/
theorem endItem_pending {fmt : Format} {s : State} {w : Word} (h : s.pending = some w) (r : Ended) :
    endItem fmt s r = match r with
      | .ok t => .next t
      | .raised e n t => .next (takeError (w.setWidth 8) e n t)
      | .stuck f => .fault f := by
  unfold endItem
  rw [h]
  cases r <;> rfl

theorem onRegions_pass {rs : List Region} (h : ∀ r ∈ rs, r.base + r.len ≤ 2 ^ 32)
    (run : Host.Outcome State Fault Refusal) : onRegions rs run = run := by
  unfold onRegions
  rw [if_pos]
  simpa [Region.inRange] using h

end Sys2Proof.Machine
end

