-- ==== Sys2Proof/Laws/Frontier.lean ====
section
/-! SUPPORT. What the frontier's operations do (44_frontier.md R372 to R377): the key comparison as a sign, the
entry of a cell, and the frontier after an entry is placed. -/

namespace Sys2Proof.Machine

/-! ### The key comparison -/

/-- A key comparison with both sides exchanged changes its sign. -/
theorem keyCmp_swap (c1 d1 c2 d2 : Nat) : keyCmp c2 d2 c1 d1 = -keyCmp c1 d1 c2 d2 := by
  unfold keyCmp
  rcases lt_trichotomy (c1 : Int) c2 with h | h | h
  · simp only [if_pos (show (0 : Int) ≤ (c2 : Int) - c1 by omega), if_neg (show ¬ (0 : Int) ≤ (c1 : Int) - c2 by omega)]
    rw [neg_neg]
    congr 1
    omega
  · simp only [h, sub_self, le_refl, if_true]
    unfold keySign
    simp only [mul_zero, zero_mul, zero_add, and_true, zero_sub]
    rcases lt_trichotomy (d1 : Int) d2 with g | g | g
    · rw [if_pos (by omega), if_neg (by omega), if_neg (by omega), Int.sign_eq_neg_one_of_neg]
      · rfl
      · nlinarith
    · simp [g]
    · rw [if_neg (by omega), if_pos (by omega), if_neg (by omega), Int.sign_eq_neg_one_of_neg]
      nlinarith
  · simp only [if_neg (show ¬ (0 : Int) ≤ (c2 : Int) - c1 by omega), if_pos (show (0 : Int) ≤ (c1 : Int) - c2 by omega)]
    congr 2
    omega

/-- An entry has the key of itself. -/
theorem Entry.cmp_self (e : Entry) : e.cmp e = 0 := by
  have h := keyCmp_swap e.cost.toNat e.d.toNat e.cost.toNat e.d.toNat
  unfold Entry.cmp
  omega

/-! ### The entry of a cell -/

/-- An entry is for the cell of its coordinates. -/
theorem Entry.isAt_iff {c : Coord} {e : Entry} : e.isAt c = true ↔ e.x = c.x ∧ e.y = c.y := by
  simp [Entry.isAt]

/-- No entry is found for a cell exactly when none is for it. -/
theorem findCell_eq_none {f : List Entry} {c : Coord} : findCell f c = none ↔ ∀ e ∈ f, e.isAt c = false := by
  simp [findCell, List.findIdx?_eq_none_iff]

/-- In a frontier with one entry a cell, erasing the one found leaves exactly the others. -/
theorem eraseIdx_findCell {f : List Entry} {c : Coord} {j : Nat}
    (hf : f.Pairwise fun e g => ¬ (e.x = g.x ∧ e.y = g.y)) (h : findCell f c = some j) :
    f.eraseIdx j = f.filter fun g => !g.isAt c := by
  induction f generalizing j with
  | nil => simp [findCell] at h
  | cons e f ih =>
    rw [List.pairwise_cons] at hf
    unfold findCell at h
    rw [List.findIdx?_cons] at h
    by_cases he : e.isAt c = true
    · simp only [he, if_true, Option.some.injEq] at h
      subst h
      simp only [List.eraseIdx_cons_zero, List.filter_cons, he, Bool.not_true, Bool.false_eq_true, if_false]
      rw [List.filter_eq_self.2]
      intro g hg
      have h1 := hf.1 g hg
      have h2 := Entry.isAt_iff.1 he
      simp only [Bool.not_eq_true', Bool.eq_false_iff, ne_eq, Entry.isAt_iff]
      rw [h2.1, h2.2] at h1
      exact fun h3 => h1 ⟨h3.1.symm, h3.2.symm⟩
    · simp only [he, Bool.false_eq_true, if_false] at h
      obtain ⟨i, hi, rfl⟩ := Option.map_eq_some_iff.1 h
      simp only [List.eraseIdx_cons_succ, List.filter_cons, he, Bool.not_false, if_true]
      rw [ih hf.2 hi]

/-- The entry found for a cell is the one whose index is found. -/
theorem find?_isAt {f : List Entry} {c : Coord} {e : Entry} (hf : f.Pairwise fun e g => ¬ (e.x = g.x ∧ e.y = g.y))
    (he : e ∈ f) (hc : e.isAt c = true) : f.find? (Entry.isAt c) = some e := by
  induction f with
  | nil => simp at he
  | cons g f ih =>
    rw [List.pairwise_cons] at hf
    rcases List.mem_cons.1 he with rfl | he
    · simp [hc]
    · have hg : g.isAt c = false := by
        have h2 := Entry.isAt_iff.1 hc
        rw [Bool.eq_false_iff, ne_eq, Entry.isAt_iff]
        exact fun h3 => hf.1 e he ⟨h3.1.trans h2.1.symm, h3.2.trans h2.2.symm⟩
      rw [List.find?_cons, hg]
      exact ih hf.2 he

/-! ### Placing an entry -/

/-- A placed entry stands at its insertion position among the entries of other cells (R375, R376). -/
theorem placeEntry_eq {f : List Entry} (hf : f.Pairwise fun e g => ¬ (e.x = g.x ∧ e.y = g.y)) (e : Entry) :
    placeEntry f e =
      let g := f.filter fun g => !g.isAt ⟨e.x, e.y⟩
      insertAt g (insertPos g e) e := by
  unfold placeEntry
  cases h : findCell f ⟨e.x, e.y⟩ with
  | none =>
    simp only
    rw [List.filter_eq_self.2]
    intro g hg
    simp [findCell_eq_none.1 h g hg]
  | some j => simp only [eraseIdx_findCell hf h]

/-- An inserted entry is the only new one. -/
theorem mem_insertAt {f : List Entry} {p : Nat} {e g : Entry} : g ∈ insertAt f p e ↔ g = e ∨ g ∈ f := by
  unfold insertAt
  rw [List.mem_append, List.mem_cons]
  conv_rhs => rw [← List.take_append_drop p f, List.mem_append]
  exact or_left_comm

/-- The entries after an entry is placed: it, and those of other cells. -/
theorem mem_placeEntry {f : List Entry} (hf : f.Pairwise fun e g => ¬ (e.x = g.x ∧ e.y = g.y)) {e g : Entry} :
    g ∈ placeEntry f e ↔ g = e ∨ (g ∈ f ∧ ¬ (g.x = e.x ∧ g.y = e.y)) := by
  rw [placeEntry_eq hf]
  simp only [mem_insertAt, List.mem_filter, Bool.not_eq_true', Bool.eq_false_iff, ne_eq, Entry.isAt_iff]

/-- Placing an entry keeps one entry a cell. -/
theorem pairwise_placeEntry {f : List Entry} (hf : f.Pairwise fun e g => ¬ (e.x = g.x ∧ e.y = g.y)) (e : Entry) :
    (placeEntry f e).Pairwise fun e g => ¬ (e.x = g.x ∧ e.y = g.y) := by
  rw [placeEntry_eq hf]
  simp only [insertAt]
  have hg := hf.filter (fun g => !g.isAt ⟨e.x, e.y⟩)
  have hn : ∀ g ∈ f.filter (fun g => !g.isAt ⟨e.x, e.y⟩), ¬ (e.x = g.x ∧ e.y = g.y) := by
    intro g hm h
    simp only [List.mem_filter, Bool.not_eq_true', Bool.eq_false_iff, ne_eq, Entry.isAt_iff] at hm
    exact hm.2 ⟨h.1.symm, h.2.symm⟩
  generalize f.filter (fun g => !g.isAt ⟨e.x, e.y⟩) = l at hg hn
  generalize insertPos l e = p
  rw [← List.take_append_drop p l, List.pairwise_append] at hg
  rw [List.pairwise_append, List.pairwise_cons]
  refine ⟨hg.1, ⟨fun g h => hn g (List.mem_of_mem_drop h), hg.2.1⟩, fun g h k hk => ?_⟩
  rcases List.mem_cons.1 hk with rfl | hk
  · exact fun h' => hn g (List.mem_of_mem_take h) ⟨h'.1.symm, h'.2.symm⟩
  · exact hg.2.2 g h k hk

/-- A placed entry adds one to the length, unless it takes the place of the cell's old one. -/
theorem length_placeEntry (f : List Entry) (e : Entry) :
    (placeEntry f e).length = if (findCell f ⟨e.x, e.y⟩).isNone then f.length + 1 else f.length := by
  unfold placeEntry insertAt
  cases h : findCell f ⟨e.x, e.y⟩ with
  | none => simp; omega
  | some j =>
    obtain ⟨hj, -⟩ := List.findIdx?_eq_some_iff_getElem.1 h
    simp [List.length_eraseIdx, hj]
    omega

/-- Everything an insertion can do (R376): overflow with nothing changed, or the entry at its place. -/
theorem frontierInsert_cases (e : Entry) (s : State) :
    (s.frontierFull ⟨e.x, e.y⟩ = true ∧ frontierInsert e s = .raised .frontierOverflow s.par.frontierCap s) ∨
      (s.frontierFull ⟨e.x, e.y⟩ = false ∧ frontierInsert e s = .ok { s with frontier := placeEntry s.frontier e }) := by
  unfold frontierInsert
  cases s.frontierFull ⟨e.x, e.y⟩ <;> simp

/-- A frontier within its capacity stays within it (R376). -/
theorem length_frontierInsert {e : Entry} {s t : State} (h : frontierInsert e s = .ok t)
    (hs : s.frontier.length ≤ s.par.frontierCap.toNat) : t.frontier.length ≤ t.par.frontierCap.toNat := by
  rcases frontierInsert_cases e s with ⟨-, h'⟩ | ⟨hf, h'⟩
  · rw [h'] at h; simp at h
  · rw [h'] at h
    cases h
    simp only [length_placeEntry]
    unfold State.frontierFull at hf
    cases hn : (findCell s.frontier ⟨e.x, e.y⟩).isNone with
    | true => simp [hn] at hf; simp; omega
    | false => simpa using hs

/-- Everything the refusal of a direct command can do (R383). -/
theorem requireNoSearch_cases (s : State) :
    (s.ctl.pfState ≠ .active ∧ requireNoSearch s = .ok s) ∨
      (s.ctl.pfState = .active ∧ requireNoSearch s = .raised .searchStateError 1 s) := by
  unfold requireNoSearch
  by_cases h : s.ctl.pfState = .active
  · exact .inr ⟨h, by rw [if_pos h, h]; rfl⟩
  · exact .inl ⟨h, by rw [if_neg h]⟩

end Sys2Proof.Machine
end

