-- ==== Sys2Proof/Laws/Header.lean ====
section
/-! SUPPORT. What the header check and the checks the row commands share can do (43_decode_pipeline.md R331 to
R339): each answers the state it is given, or that state with the derived registers and CFG_VALID, or raises in it. -/

namespace Sys2Proof.Machine

/-- A color type has channels exactly when it is one of the five. -/
theorem channelsOf_eq_none {ct : Nat} : channelsOf ct = none ↔ depthsOf ct = [] := by
  unfold channelsOf depthsOf
  split <;> simp

/-- The header check answers exactly the headers that are valid, with the derived registers of R332 and CFG_VALID. -/
theorem headerCheck_eq_ok {s t : State} :
    headerCheck s = .ok t ↔
      s.hdr.valid ∧ t = { s with der := s.hdr.derived, ctl := { s.ctl with cfgValid := true } } := by
  unfold headerCheck headerPair headerInterlace headerFinish Header.valid
  by_cases h1 : s.hdr.compMethod ≠ 0 ∨ s.hdr.filtMethod ≠ 0
  · rw [if_pos h1]
    simp only [raiseError_eq, reduceCtorEq, false_iff]
    rintro ⟨⟨h2, h3, -⟩, -⟩
    exact h1.elim (· h2) (· h3)
  · rw [if_neg h1]
    simp only [ne_eq, not_or, not_not] at h1
    simp only [h1.1, h1.2, true_and]
    cases hc : channelsOf s.hdr.colorType.toNat with
    | none => simp [channelsOf_eq_none.1 hc]
    | some c =>
      simp only
      by_cases hd : s.hdr.bitDepth.toNat ∈ depthsOf s.hdr.colorType.toNat
      · simp only [hd, if_true, Ended.andThen_ok, true_and]
        by_cases hi : 1 < s.hdr.interlace.toNat
        · simp [hi, Nat.not_le.2 hi]
        · simp only [hi, if_false, Nat.not_lt.1 hi, true_and, raiseError_eq]
          have hw : s.hdr.width.toNat = 0 ↔ s.hdr.width = 0 := by
            rw [← BitVec.toNat_inj]; rfl
          have hh : s.hdr.height.toNat = 0 ↔ s.hdr.height = 0 := by
            rw [← BitVec.toNat_inj]; rfl
          simp only [hw, hh, ne_eq]
          split
          · next h => simp [h]
          · next h =>
            split
            · next h' => simp [h']
            · next h' =>
              split
              · next h2 => simp [Nat.not_le.2 h2]
              · next h2 =>
                split
                · next h3 => simp [Nat.not_lt.1 h2, Nat.not_le.2 h3]
                · next h3 =>
                  simp only [h, h', not_false_eq_true, Nat.not_lt.1 h2, Nat.not_lt.1 h3, true_and, Ended.ok.injEq]
                  exact eq_comm
      · simp [hd]

/-- A header check that fails raises in the state it is given. -/
theorem headerCheck_raised {s t : State} {e : ErrorKind} {n : Word} (h : headerCheck s = .raised e n t) : t = s := by
  unfold headerCheck headerPair headerInterlace headerFinish at h
  simp only [raiseError_eq] at h
  split at h
  · simp_all
  · split at h
    · simp_all
    · split at h
      · simp only [Ended.andThen_ok] at h
        split_ifs at h <;> simp_all
      · simp_all

/-- The header check never meets a state no run reaches. -/
theorem headerCheck_ne_stuck (s : State) (x : Fault) : headerCheck s ≠ .stuck x := by
  unfold headerCheck headerPair headerInterlace headerFinish
  simp only [raiseError_eq]
  split
  · simp
  · split
    · simp
    · split
      · simp only [Ended.andThen_ok]
        split_ifs <;> simp
      · simp

/-- `RequireConfig` (R337): it passes with the state as it was, or raises one of its two errors in it. -/
theorem requireConfig_cases (s : State) :
    (s.ctl.cfgValid = true ∧ s.hdr.interlace ≠ 1 ∧ requireConfig s = .ok s) ∨
      (s.ctl.cfgValid = false ∧ requireConfig s = .raised .notConfigured 0 s) ∨
      (s.ctl.cfgValid = true ∧ s.hdr.interlace = 1 ∧ requireConfig s = .raised .unsupportedInterlace 1 s) := by
  have hi : s.hdr.interlace.toNat = 1 ↔ s.hdr.interlace = 1 := by rw [← BitVec.toNat_inj]; rfl
  unfold requireConfig bodyInterlace
  cases hc : s.ctl.cfgValid <;> by_cases h : s.hdr.interlace = 1 <;> simp_all

/-- `RequireInflated` (R339): it passes with the state as it was, or raises one of its two errors in it. -/
theorem requireInflated_cases (s : State) :
    (s.ctl.infOk = true ∧ s.inf.len = s.der.expectedLen ∧ requireInflated s = .ok s) ∨
      (s.ctl.infOk = false ∧ requireInflated s = .raised .notConfigured 1 s) ∨
      (s.ctl.infOk = true ∧ s.inf.len ≠ s.der.expectedLen ∧
        requireInflated s = .raised .scanlineSizeMismatch s.inf.len s) := by
  unfold requireInflated
  cases hc : s.ctl.infOk <;> by_cases h : s.inf.len = s.der.expectedLen <;> simp_all

end Sys2Proof.Machine
end

