-- ==== Sys2Proof/Laws/Inflate.lean ====
section
/-! SUPPORT. What the inflater's actions do: the bit reader against the stream as a number (40_inflate.md R202), the
copy (R228), and that every action keeps the stream and only appends to the output. -/

namespace Sys2Proof.Machine

/-! ### Sequencing -/

theorem Inf.bind_eq {α β : Type} (a : Inf α) (f : α → Inf β) (c : Inflater) :
    (a >>= f) c = match a c with
      | .error x => .error x
      | .ok (v, c') => f v c' := by
  show (StateT.bind a f) c = _
  unfold StateT.bind
  show Except.bind (a c) _ = _
  cases a c <;> rfl

theorem Inf.pure_eq {α : Type} (v : α) (c : Inflater) : (pure v : Inf α) c = .ok (v, c) := rfl

@[simp] theorem Inf.fail_eq {α : Type} (x : InfFail) (c : Inflater) : (Inf.fail x : Inf α) c = .error x := rfl

/-- A sequence that succeeds has run both parts. -/
theorem Inf.bind_eq_ok {α β : Type} {a : Inf α} {f : α → Inf β} {c d : Inflater} {w : β} :
    (a >>= f) c = .ok (w, d) ↔ ∃ v e, a c = .ok (v, e) ∧ f v e = .ok (w, d) := by
  rw [Inf.bind_eq]
  cases h : a c with
  | error x => simp
  | ok p => obtain ⟨v, e⟩ := p; simp

/-! ### The stream as a number -/

theorem leNat_lt (bytes : List Byte) : leNat bytes < 2 ^ (8 * bytes.length) := by
  induction bytes with
  | nil => simp [leNat]
  | cons b rest ih =>
    simp only [leNat, List.length_cons]
    have hb : b.toNat < 256 := b.isLt
    have : 2 ^ (8 * (rest.length + 1)) = 256 * 2 ^ (8 * rest.length) := by rw [Nat.mul_add, Nat.pow_add]; omega
    omega

/-- Dropping whole bytes divides the number. -/
theorem leNat_drop (bytes : List Byte) (i : Nat) : leNat (bytes.drop i) = leNat bytes / 2 ^ (8 * i) := by
  induction i generalizing bytes with
  | zero => simp
  | succ i ih =>
    cases bytes with
    | nil => simp [leNat]
    | cons b rest =>
      simp only [List.drop_succ_cons, ih, leNat]
      have hb : b.toNat < 256 := b.isLt
      have : 2 ^ (8 * (i + 1)) = 256 * 2 ^ (8 * i) := by rw [Nat.mul_add, Nat.pow_add]; omega
      rw [this, ← Nat.div_div_eq_div_mul]
      congr 1
      omega

/-- A stream bit is a bit of its byte. -/
theorem streamBits_one (src : List Byte) (p : Nat) (h : p / 8 < src.length) :
    streamBits src p 1 = src[p / 8].toNat / 2 ^ (p % 8) % 2 := by
  have h1 : leNat src / 2 ^ p = leNat (src.drop (p / 8)) / 2 ^ (p % 8) := by
    rw [leNat_drop, Nat.div_div_eq_div_mul, ← Nat.pow_add]
    congr 2; omega
  unfold streamBits
  rw [h1, List.drop_eq_getElem_cons h, leNat]
  have hm : p % 8 < 8 := Nat.mod_lt _ (by omega)
  generalize leNat (src.drop (p / 8 + 1)) = n
  generalize src[p / 8].toNat = b
  generalize p % 8 = k at *
  interval_cases k <;> omega

/-- Bits read in two parts. -/
theorem streamBits_add (src : List Byte) (p m n : Nat) :
    streamBits src p (m + n) = streamBits src p m + 2 ^ m * streamBits src (p + m) n := by
  unfold streamBits
  rw [Nat.pow_add 2 p m, ← Nat.div_div_eq_div_mul, Nat.pow_add 2 m n, Nat.mod_mul]

theorem streamBits_lt (src : List Byte) (p n : Nat) : streamBits src p n < 2 ^ n := Nat.mod_lt _ (by positivity)

@[simp] theorem streamBits_zero (src : List Byte) (p : Nat) : streamBits src p 0 = 0 := by simp [streamBits, Nat.mod_one]

/-! ### The bit reader (R202, R246) -/

theorem getbit_eq {c : Inflater} (h : hasBits c.src c.pos 1) :
    getbit c = .ok (streamBits c.src c.pos 1, { c with pos := c.pos + 1 }) := by
  have h' : c.pos / 8 < c.src.length := by simp only [hasBits] at h; omega
  rw [streamBits_one _ _ h']
  simp [getbit, List.getElem?_eq_getElem h']

theorem getbit_truncated {c : Inflater} (h : ¬ hasBits c.src c.pos 1) : getbit c = .error .truncated := by
  have h' : c.src.length ≤ c.pos / 8 := by simp only [hasBits] at h; omega
  simp [getbit, List.getElem?_eq_none h']

/-- `bits(m)` reads m stream bits, the first one least significant. -/
theorem bits_eq {m : Nat} {c : Inflater} (h : hasBits c.src c.pos m) :
    bits m c = .ok (streamBits c.src c.pos m, { c with pos := c.pos + m }) := by
  induction m with
  | zero => simp [bits, Inf.pure_eq]
  | succ m ih =>
    have h1 : hasBits c.src c.pos m := by simp only [hasBits] at *; omega
    have h2 : hasBits c.src (c.pos + m) 1 := by simp only [hasBits] at *; omega
    simp only [bits]
    rw [Inf.bind_eq, ih h1]
    simp only
    rw [Inf.bind_eq, getbit_eq (c := { c with pos := c.pos + m }) h2]
    simp only [Inf.pure_eq]
    rw [streamBits_add c.src c.pos m 1, Nat.mul_comm (2 ^ m), Nat.add_assoc]

/-- Too few bits left: TRUNCATED. -/
theorem bits_truncated {m : Nat} {c : Inflater} (h : ¬ hasBits c.src c.pos m) : bits m c = .error .truncated ∨ m = 0 := by
  induction m with
  | zero => exact .inr rfl
  | succ m ih =>
    left
    simp only [bits]
    rw [Inf.bind_eq]
    by_cases h1 : hasBits c.src c.pos m
    · rw [bits_eq h1]
      simp only
      rw [Inf.bind_eq, getbit_truncated (c := { c with pos := c.pos + m })]
      simp only [hasBits] at *; omega
    · rcases ih h1 with h2 | rfl
      · rw [h2]
      · simp only [bits, Inf.pure_eq]
        rw [Inf.bind_eq, getbit_truncated]
        simp only [hasBits] at *; omega

theorem bits_fails {m : Nat} {c : Inflater} (hm : m ≠ 0) (h : ¬ hasBits c.src c.pos m) :
    bits m c = .error .truncated := (bits_truncated h).resolve_right hm

/-- What a successful read of m bits gave. -/
theorem bits_ok {m v : Nat} {c d : Inflater} (h : bits m c = .ok (v, d)) :
    v = streamBits c.src c.pos m ∧ d = { c with pos := c.pos + m } := by
  by_cases hb : hasBits c.src c.pos m
  · rw [bits_eq hb] at h
    simp only [Except.ok.injEq, Prod.mk.injEq] at h
    exact ⟨h.1.symm, h.2.symm⟩
  · rcases bits_truncated hb with h1 | rfl
    · rw [h1] at h; simp at h
    · simp only [bits, Inf.pure_eq, Except.ok.injEq, Prod.mk.injEq] at h
      exact ⟨by simp [h.1.symm], by rw [← h.2]; rfl⟩

/-- A byte of the stream at a byte boundary. -/
theorem getByte_aligned {c : Inflater} {b : Byte} {i : Nat} (hp : c.pos = 8 * i) (hb : c.src[i]? = some b) :
    getByte c = .ok (b.toNat, { c with pos := c.pos + 8 }) := by
  obtain ⟨hi, hb⟩ := List.getElem?_eq_some_iff.1 hb
  have h8 : hasBits c.src c.pos 8 := by simp only [hasBits]; omega
  rw [getByte, bits_eq h8]
  have : streamBits c.src c.pos 8 = b.toNat := by
    unfold streamBits
    rw [hp, ← leNat_drop, List.drop_eq_getElem_cons hi, leNat, hb]
    have := b.isLt
    omega
  rw [this]

/-- A byte of the stream at a byte boundary, or TRUNCATED. -/
theorem getByte_eq {c : Inflater} {i : Nat} (hp : c.pos = 8 * i) (h : i < c.src.length) :
    getByte c = .ok (rowByte c.src i, { c with pos := 8 * (i + 1) }) := by
  have : rowByte c.src i = c.src[i].toNat := by simp [rowByte, h]
  rw [getByte_aligned hp (List.getElem?_eq_getElem h), hp, this]
  rfl

theorem getByte_truncated {c : Inflater} {i : Nat} (hp : c.pos = 8 * i) (h : c.src.length ≤ i) :
    getByte c = .error .truncated := by
  rw [getByte, bits_fails (by omega) (by simp only [hasBits]; omega)]

/-! ### Output -/

@[simp] theorem Inflater.push_hist (v : Byte) (c : Inflater) : (c.push v).hist = v :: c.hist := rfl
@[simp] theorem Inflater.push_sums (v : Byte) (c : Inflater) : (c.push v).sums = adlerByte c.sums v := rfl
@[simp] theorem Inflater.push_src (v : Byte) (c : Inflater) : (c.push v).src = c.src := rfl
@[simp] theorem Inflater.push_pos (v : Byte) (c : Inflater) : (c.push v).pos = c.pos := rfl
@[simp] theorem Inflater.push_phase (v : Byte) (c : Inflater) : (c.push v).phase = c.phase := rfl

/-- The inflater with some bytes, oldest first, appended to its output and added to its sums. -/
def Inflater.pushAll (bytes : List Byte) (c : Inflater) : Inflater :=
  { c with hist := bytes.reverse ++ c.hist, sums := bytes.foldl adlerByte c.sums }

theorem Inflater.push_eq (v : Byte) (c : Inflater) : c.push v = c.pushAll [v] := rfl

theorem Inflater.pushAll_pushAll (xs ys : List Byte) (c : Inflater) :
    (c.pushAll xs).pushAll ys = c.pushAll (xs ++ ys) := by
  simp [Inflater.pushAll, List.foldl_append]

@[simp] theorem Inflater.pushAll_hist (bytes : List Byte) (c : Inflater) :
    (c.pushAll bytes).hist = bytes.reverse ++ c.hist := rfl
@[simp] theorem Inflater.pushAll_sums (bytes : List Byte) (c : Inflater) :
    (c.pushAll bytes).sums = bytes.foldl adlerByte c.sums := rfl

/-- A copy appends: what was in the output stays. -/
theorem copyBytes_eq_pushAll (n dist : Nat) (c : Inflater) :
    ∃ new, new.length = n ∧ copyBytes n dist c = c.pushAll new := by
  induction n generalizing c with
  | zero => exact ⟨[], rfl, rfl⟩
  | succ n ih =>
    obtain ⟨new, hn, h⟩ := ih (c.push (c.hist.getD (dist - 1) 0))
    refine ⟨c.hist.getD (dist - 1) 0 :: new, by simp [hn], ?_⟩
    rw [copyBytes, h, Inflater.push_eq, Inflater.pushAll_pushAll]
    rfl

/-- Each copied byte is the byte `dist` before it, in the output so far, the copy's own bytes included (R228). -/
theorem copyBytes_getElem {n dist : Nat} {c : Inflater} (h0 : 0 < dist) (h : dist ≤ c.hist.length) {j : Nat}
    (hj : j < n) :
    (copyBytes n dist c).hist.reverse[c.hist.length + j]? =
      (copyBytes n dist c).hist.reverse[c.hist.length + j - dist]? := by
  induction n generalizing c j with
  | zero => omega
  | succ n ih =>
    simp only [copyBytes]
    set b := c.hist.getD (dist - 1) 0 with hb
    have hl : (c.push b).hist.length = c.hist.length + 1 := rfl
    cases j with
    | succ j =>
      have := ih (c := c.push b) (by rw [hl]; omega) (j := j) (by omega)
      rw [hl] at this
      have e : c.hist.length + (j + 1) = c.hist.length + 1 + j := by omega
      rw [e]
      exact this
    | zero =>
      obtain ⟨new, hn, h2⟩ := copyBytes_eq_pushAll n dist (c.push b)
      have e : (copyBytes n dist (c.push b)).hist = new.reverse ++ (b :: c.hist) := by rw [h2]; rfl
      rw [e, List.reverse_append, List.reverse_cons, Nat.add_zero]
      have hd : dist - 1 < c.hist.length := by omega
      rw [List.getElem?_append_left (by simp), List.getElem?_append_right (by simp),
        List.getElem?_append_left (by simp),
        List.getElem?_append_left (by simp only [List.length_reverse]; omega)]
      simp only [List.length_reverse, Nat.sub_self, List.getElem?_cons_zero]
      rw [List.getElem?_reverse (by omega)]
      have e2 : c.hist.length - 1 - (c.hist.length - dist) = dist - 1 := by omega
      rw [e2, hb, List.getD_eq_getElem?_getD, List.getElem?_eq_getElem hd]
      rfl

/-! ### Every action keeps the stream and only appends to the output -/

/-- What an action may do to the inflater: the stream stays, the position does not go back, the output grows and its
bytes are added to the sums. -/
def Inflater.extends (c d : Inflater) : Prop :=
  d.src = c.src ∧ c.pos ≤ d.pos ∧ ∃ new : List Byte, d.hist = new.reverse ++ c.hist ∧ d.sums = new.foldl adlerByte c.sums

theorem Inflater.extends_refl (c : Inflater) : c.extends c := ⟨rfl, Nat.le_refl _, [], rfl, rfl⟩

theorem Inflater.extends_trans {c d e : Inflater} (h : c.extends d) (g : d.extends e) : c.extends e := by
  obtain ⟨h1, h2, n, h3, h4⟩ := h
  obtain ⟨g1, g2, m, g3, g4⟩ := g
  exact ⟨g1.trans h1, Nat.le_trans h2 g2, n ++ m, by rw [g3, h3, List.reverse_append, List.append_assoc],
    by rw [g4, h4, List.foldl_append]⟩

theorem Inflater.extends_pushAll (bytes : List Byte) (c : Inflater) : c.extends (c.pushAll bytes) :=
  ⟨rfl, Nat.le_refl _, bytes, rfl, rfl⟩

/-- An action that extends whatever inflater it runs on. -/
def Inf.Extends {α : Type} (a : Inf α) : Prop := ∀ c v d, a c = .ok (v, d) → c.extends d

theorem Inf.Extends.bind {α β : Type} {a : Inf α} {f : α → Inf β} (ha : a.Extends) (hf : ∀ v, (f v).Extends) :
    (a >>= f).Extends := by
  intro c w d h
  obtain ⟨v, e, h1, h2⟩ := Inf.bind_eq_ok.1 h
  exact Inflater.extends_trans (ha c v e h1) (hf v e w d h2)

theorem Inf.Extends.pure {α : Type} (v : α) : (Pure.pure v : Inf α).Extends := by
  intro c w d h
  rw [Inf.pure_eq] at h
  cases h
  exact c.extends_refl

theorem Inf.Extends.fail {α : Type} (x : InfFail) : (Inf.fail x : Inf α).Extends := by
  intro c w d h; simp at h

theorem getbit_extends : getbit.Extends := by
  intro c v d h
  unfold getbit at h
  split at h
  · simp at h
  · cases h; exact ⟨rfl, Nat.le_succ _, [], rfl, rfl⟩

theorem bits_extends (m : Nat) : (bits m).Extends := by
  intro c v d h
  obtain ⟨-, rfl⟩ := bits_ok h
  exact ⟨rfl, Nat.le_add_right _ _, [], rfl, rfl⟩

theorem alignByte_extends : alignByte.Extends := by
  intro c v d h
  cases h
  exact ⟨rfl, by simp only; omega, [], rfl, rfl⟩

theorem emit_extends (v : Nat) : (emit v).Extends := by
  intro c w d h
  cases h
  exact c.extends_pushAll [BitVec.ofNat 8 v]

theorem copyBack_extends (length dist : Nat) : (copyBack length dist).Extends := by
  intro c w d h
  unfold copyBack at h
  split at h
  · simp at h
  · cases h
    obtain ⟨new, -, hn⟩ := copyBytes_eq_pushAll length dist c
    rw [hn]
    exact c.extends_pushAll new

theorem goTo_extends (p : InfPhase) : (goTo p).Extends := by
  intro c w d h; cases h; exact ⟨rfl, Nat.le_refl _, [], rfl, rfl⟩

theorem endBlock_extends : endBlock.Extends := by
  intro c w d h; cases h; exact ⟨rfl, Nat.le_refl _, [], rfl, rfl⟩

theorem litLenSymbol_extends (sym : Nat) : (litLenSymbol sym).Extends := by
  unfold litLenSymbol
  split
  · exact emit_extends sym
  · split
    · exact endBlock_extends
    · split
      · exact (bits_extends _).bind fun x => goTo_extends _
      · exact .fail _

theorem distSymbol_extends (sym length : Nat) : (distSymbol sym length).Extends := by
  unfold distSymbol
  split
  · exact (bits_extends _).bind fun x => (copyBack_extends _ _).bind fun _ => goTo_extends _
  · exact .fail _

theorem buildDynamic_extends : buildDynamic.Extends := by
  intro c w d h
  unfold buildDynamic at h
  simp only at h
  split at h
  · simp at h
  · split at h
    · simp at h
    · split at h
      · simp at h
      · cases h; exact ⟨rfl, Nat.le_refl _, [], rfl, rfl⟩

theorem pushLengths_extends (r v : Nat) : (pushLengths r v).Extends := by
  intro c w d h
  unfold pushLengths at h
  split at h
  · simp at h
  · simp only at h
    split at h
    · cases h; exact ⟨rfl, Nat.le_refl _, [], rfl, rfl⟩
    · exact buildDynamic_extends { c with lens := c.lens ++ List.replicate r v } w d h

theorem previousLength_extends : previousLength.Extends := by
  intro c w d h
  unfold previousLength at h
  split at h
  · simp at h
  · cases h; exact c.extends_refl

theorem clSymbol_extends (sym : Nat) : (clSymbol sym).Extends := by
  unfold clSymbol
  split
  · exact pushLengths_extends _ _
  · split
    · exact previousLength_extends.bind fun v => (bits_extends _).bind fun x => pushLengths_extends _ _
    · split
      · exact (bits_extends _).bind fun x => pushLengths_extends _ _
      · exact (bits_extends _).bind fun x => pushLengths_extends _ _

theorem storedBytes_extends (n : Nat) : (storedBytes n).Extends := by
  induction n with
  | zero => exact .pure ()
  | succ n ih => exact (bits_extends 8).bind fun b => (emit_extends b).bind fun _ => ih

theorem storedBlock_extends : storedBlock.Extends :=
  alignByte_extends.bind fun _ => (bits_extends 8).bind fun _ => (bits_extends 8).bind fun _ =>
    (bits_extends 8).bind fun _ => (bits_extends 8).bind fun _ => by
      split
      · exact .fail _
      · exact (storedBytes_extends _).bind fun _ => endBlock_extends

theorem readClLengths_extends (order clen : List Nat) : (readClLengths order clen).Extends := by
  induction order generalizing clen with
  | nil => exact .pure clen
  | cons k rest ih => exact (bits_extends 3).bind fun l => ih _

theorem dynamicHeader_extends : dynamicHeader.Extends :=
  (bits_extends 5).bind fun _ => (bits_extends 5).bind fun _ => (bits_extends 4).bind fun _ => by
    split
    · exact .fail _
    · refine (readClLengths_extends _ _).bind fun clen => ?_
      split
      · exact .fail _
      · intro c w d h; cases h; exact ⟨rfl, Nat.le_refl _, [], rfl, rfl⟩

theorem blockType_extends (t : Nat) : (blockType t).Extends := by
  unfold blockType
  split
  · exact storedBlock_extends
  · intro c w d h; cases h; exact ⟨rfl, Nat.le_refl _, [], rfl, rfl⟩
  · exact dynamicHeader_extends
  · exact .fail _

/-! ### Parts of blocks -/

/-- The bytes of a stored block (R210): they are emitted, or TRUNCATED. -/
theorem storedBytes_cases {n : Nat} {c : Inflater} {j : Nat} (hp : c.pos = 8 * j) :
    (¬ hasBits c.src c.pos (8 * n) → storedBytes n c = .error .truncated ∨ n = 0) ∧
    (hasBits c.src c.pos (8 * n) →
      storedBytes n c = .ok ((), { c.pushAll ((c.src.drop j).take n) with pos := c.pos + 8 * n })) := by
  induction n generalizing c j with
  | zero => exact ⟨fun _ => .inr rfl, fun _ => by simp [storedBytes, Inf.pure_eq, Inflater.pushAll]⟩
  | succ n ih =>
    unfold storedBytes
    rw [Inf.bind_eq]
    by_cases h8 : hasBits c.src c.pos 8
    · have hj : j < c.src.length := by simp only [hasBits] at h8; omega
      rw [getByte_aligned hp (List.getElem?_eq_getElem hj)]; simp only
      rw [Inf.bind_eq]; simp only [emit]
      have := ih (c := Inflater.push (BitVec.ofNat 8 c.src[j].toNat) { c with pos := c.pos + 8 }) (j := j + 1)
        (by show c.pos + 8 = _; omega)
      constructor
      · intro h; left
        rcases this.1 (by simp only [hasBits, Inflater.push] at *; omega) with h | rfl
        · exact h
        · simp only [hasBits] at *; omega
      · intro h
        rw [this.2 (by simp only [hasBits, Inflater.push] at *; omega)]
        rw [List.drop_eq_getElem_cons hj, List.take_succ_cons]
        simp only [Inflater.push, Inflater.pushAll, List.foldl_cons, List.reverse_cons, List.append_assoc,
          List.singleton_append]
        simp
        omega
    · constructor
      · intro _; left; rw [getByte, bits_fails (by omega) h8]
      · intro h; simp only [hasBits] at *; omega

/-- The code-length-code lengths (R211, R212): one of three bits for each symbol of the order, the others stay. -/
theorem readClLengths_cases {order clen : List Nat} {c : Inflater} :
    (¬ hasBits c.src c.pos (3 * order.length) → readClLengths order clen c = .error .truncated ∨ order = []) ∧
    (hasBits c.src c.pos (3 * order.length) → order.Nodup → (∀ k ∈ order, k < clen.length) →
      ∃ clen', readClLengths order clen c = .ok (clen', { c with pos := c.pos + 3 * order.length }) ∧
      clen'.length = clen.length ∧
      (∀ k sym, order[k]? = some sym → clen'.getD sym 0 = streamBits c.src (c.pos + 3 * k) 3) ∧
      ∀ sym, sym ∉ order → clen'.getD sym 0 = clen.getD sym 0) := by
  induction order generalizing clen c with
  | nil => exact ⟨fun _ => .inr rfl, fun _ _ _ => ⟨clen, rfl, rfl, by simp, by simp⟩⟩
  | cons a rest ih =>
    unfold readClLengths
    rw [Inf.bind_eq]
    constructor
    · intro h
      left
      by_cases h3 : hasBits c.src c.pos 3
      · rw [bits_eq h3]; simp only
        rcases (ih (clen := clen.set a (streamBits c.src c.pos 3)) (c := { c with pos := c.pos + 3 })).1
          (by simp only [hasBits, List.length_cons] at *; omega) with h | rfl
        · exact h
        · simp only [hasBits, List.length_cons, List.length_nil] at *; omega
      · rw [bits_fails (by omega) h3]
    · intro h hnd hlt
      have h3 : hasBits c.src c.pos 3 := by simp only [hasBits, List.length_cons] at *; omega
      rw [bits_eq h3]; simp only
      rw [List.nodup_cons] at hnd
      obtain ⟨cl', e, l1, l2, l3⟩ := (ih (clen := clen.set a (streamBits c.src c.pos 3)) (c := { c with pos := c.pos + 3 })).2
        (by simp only [hasBits, List.length_cons] at *; omega) hnd.2
        (fun k hk => by rw [List.length_set]; exact hlt k (List.mem_cons_of_mem _ hk))
      refine ⟨cl', ?_, by rw [l1, List.length_set], ?_, ?_⟩
      · rw [e]; simp only [List.length_cons]; congr 3; omega
      · intro k sym hk
        cases k with
        | zero =>
          simp only [List.getElem?_cons_zero, Option.some.injEq] at hk
          subst hk
          rw [l3 _ hnd.1, List.getD_eq_getElem?_getD, List.getElem?_set_self (hlt _ (List.mem_cons_self ..))]; rfl
        | succ k =>
          rw [List.getElem?_cons_succ] at hk
          have := l2 k sym hk
          rw [this]; simp only; congr 1; omega
      · intro sym hs
        rw [List.mem_cons, not_or] at hs
        rw [l3 _ hs.2, List.getD_eq_getElem?_getD, List.getElem?_set_ne (fun h => hs.1 h.symm), ← List.getD_eq_getElem?_getD]

/-- `pushLengths`, all its outcomes in one (R211, R214). -/
theorem pushLengths_eq {c : Inflater} {r v : Nat} : pushLengths r v c =
    (let lens := c.lens ++ List.replicate r v
     if c.total < lens.length then .error .badCodeLengths
     else if lens.length < c.total then .ok ((), { c with lens := lens })
     else if (lens.take c.nlit).getD 256 0 = 0 then .error .badCodeLengths
     else match buildCode (lens.take c.nlit) .lens, buildCode (lens.drop c.nlit) .dists with
      | some lit, some dist => .ok ((), { c with lens := lens, lit := lit, dist := dist, phase := .litLen })
      | _, _ => .error .badCodeLengths) := by
  unfold pushLengths buildDynamic
  simp only [List.length_append, List.length_replicate]
  split
  · rfl
  · split
    · rfl
    · split
      · rfl
      · cases h1 : buildCode ((c.lens ++ List.replicate r v).take c.nlit) .lens <;> simp only
        cases h2 : buildCode ((c.lens ++ List.replicate r v).drop c.nlit) .dists <;> simp only

/-- The trailer (R240): TRUNCATED if four bytes are not there, else they are compared with the running sums. -/
theorem trailer_truncated {c : Inflater} (h : c.src.length < (c.pos + 7) / 8 + 4) : trailer c = .error .truncated := by
  set n := (c.pos + 7) / 8 with hn
  have g := fun k : Nat => getByte_eq (c := { c with pos := 8 * (n + k) }) (i := n + k) rfl
  have t := fun k : Nat => getByte_truncated (c := { c with pos := 8 * (n + k) }) (i := n + k) rfl
  simp only at g t
  unfold trailer
  rw [Inf.bind_eq]
  simp only [alignByte, ← hn]
  rw [Inf.bind_eq]
  rcases Nat.lt_or_ge (n + 0) c.src.length with h0 | h0
  · rw [show n = n + 0 from rfl, g 0 h0]
    simp only
    rw [Inf.bind_eq]
    rcases Nat.lt_or_ge (n + 1) c.src.length with h1 | h1
    · rw [show n + 0 + 1 = n + 1 from rfl, g 1 h1]
      simp only
      rw [Inf.bind_eq]
      rcases Nat.lt_or_ge (n + 2) c.src.length with h2 | h2
      · rw [show n + 1 + 1 = n + 2 from rfl, g 2 h2]
        simp only
        rw [Inf.bind_eq, show n + 2 + 1 = n + 3 from rfl, t 3 (by omega)]
      · rw [show n + 1 + 1 = n + 2 from rfl, t 2 h2]
    · rw [show n + 0 + 1 = n + 1 from rfl, t 1 h1]
  · rw [show n = n + 0 from rfl, t 0 h0]

/-- With four bytes there, they are compared. -/
theorem trailer_eq {c : Inflater} (h : (c.pos + 7) / 8 + 4 ≤ c.src.length) :
    trailer c = checkAdler (trailerAt c.src ((c.pos + 7) / 8)) { c with pos := 8 * ((c.pos + 7) / 8 + 4) } := by
  set n := (c.pos + 7) / 8 with hn
  have g := fun k : Nat => getByte_eq (c := { c with pos := 8 * (n + k) }) (i := n + k) rfl
  simp only at g
  unfold trailer
  rw [Inf.bind_eq]
  simp only [alignByte, ← hn]
  rw [Inf.bind_eq, show n = n + 0 from rfl, g 0 (by omega)]
  simp only
  rw [Inf.bind_eq, show n + 0 + 1 = n + 1 from rfl, g 1 (by omega)]
  simp only
  rw [Inf.bind_eq, show n + 1 + 1 = n + 2 from rfl, g 2 (by omega)]
  simp only
  rw [Inf.bind_eq, show n + 2 + 1 = n + 3 from rfl, g 3 (by omega)]
  rfl

/-! ### The sink and the items -/

/-- The sink writes the bytes emitted above those already there, below the capacity (R245). -/
theorem storesAt_sink {c c' : Inflater} {emitted : List Byte} (h : c'.hist = emitted.reverse ++ c.hist) {s : State}
    (hs : Sparse.sorted s.mem) :
    s.mem.storesAt (sink c.hist.length c' s).mem (s.buf.infAddr.toNat + c.hist.length)
      (emitted.take (s.buf.infCap.toNat - c.hist.length)) := by
  have e : (c'.hist.reverse.take s.buf.infCap.toNat).drop c.hist.length =
      emitted.take (s.buf.infCap.toNat - c.hist.length) := by
    rw [h, List.reverse_append, List.reverse_reverse, List.drop_take, List.drop_left' (by simp)]
  rw [sink_mem, e]
  exact Memory.storesAt_write hs _ _

/-- An item that succeeds: its bytes are written, and the inflater stands where the item left it. -/
theorem inflaterItem_ok {fmt : Format} {act : Inf Unit} {c c' : Inflater} {s : State} {w : Word}
    (hp : s.pending = some w) (hr : s.buf.infAddr.toNat + s.buf.infCap.toNat ≤ 2 ^ 32) (h : act c = .ok ((), c')) :
    inflaterItem fmt act c s = .next { s with mem := (sink c.hist.length c' s).mem, unit := .inflating c' } := by
  unfold inflaterItem
  rw [onRegions_pass (by simpa [State.infRegion] using hr), h]
  simp only [endItem_pending hp]
  rfl

/-- An item that fails ends the command with DecompressionFailed and its subcode (R247). -/
theorem inflaterItem_error {fmt : Format} {act : Inf Unit} {c : Inflater} {s : State} {w : Word} {x : InfFail}
    (hp : s.pending = some w) (hr : s.buf.infAddr.toNat + s.buf.infCap.toNat ≤ 2 ^ 32) (h : act c = .error x) :
    inflaterItem fmt act c s = .next (takeError (w.setWidth 8) .decompressionFailed (BitVec.ofNat 32 x.code)
      (drawWrites (s.inflateRegions s.decoding) (drawInfResults s))) := by
  unfold inflaterItem
  rw [onRegions_pass (by simpa [State.infRegion] using hr), h]
  simp only [endItem_pending hp, inflateFailed, raiseError_eq]

/-! ### Turns -/

/-- A stream that is over within some turns is over, alike, within more. -/
theorem turns_mono {n : Nat} {c d : Inflater} (h : turns n c = .ok d) (k : Nat) : turns (n + k) c = .ok d := by
  induction n generalizing c with
  | zero => simp [turns] at h
  | succ n ih =>
    have e : n + 1 + k = (n + k) + 1 := by omega
    rw [e]
    simp only [turns] at h ⊢
    split at h
    · simp at h
    · next c' hc =>
      split at h
      · next hd => rw [if_pos hd]; exact h
      · next hd => rw [if_neg hd]; exact ih h

theorem trailer_extends : trailer.Extends :=
  alignByte_extends.bind fun _ => (bits_extends 8).bind fun _ => (bits_extends 8).bind fun _ =>
    (bits_extends 8).bind fun _ => (bits_extends 8).bind fun _ => by
      intro c w d h
      unfold checkAdler at h
      split at h
      · simp at h
      · cases h; exact ⟨rfl, Nat.le_refl _, [], rfl, rfl⟩

theorem nextBlock_extends : nextBlock.Extends :=
  (bits_extends 1).bind fun _ => (bits_extends 2).bind fun t =>
    Inf.Extends.bind (fun c w d h => by cases h; exact ⟨rfl, Nat.le_refl _, [], rfl, rfl⟩) fun _ => blockType_extends t

theorem decodeBits_extends (code : List HuffEntry) (n l c : Nat) : (decodeBits code n l c).Extends := by
  induction n generalizing l c with
  | zero => exact .fail _
  | succ n ih =>
    refine getbit_extends.bind fun b => ?_
    simp only
    split
    · exact .pure _
    · split
      · exact ih _ _
      · exact .fail _

theorem decodeSymbol_extends (code : List HuffEntry) : (decodeSymbol code).Extends := by
  cases code with
  | nil => exact .fail _
  | cons e rest => exact decodeBits_extends _ _ _ _

theorem readAndRun_extends (code : List HuffEntry) {run : Nat → Inf Unit} (h : ∀ sym, (run sym).Extends) :
    (readAndRun code run).Extends := (decodeSymbol_extends code).bind h

/-- A turn only appends. -/
theorem turn_extends : turn.Extends := by
  intro c w d h
  unfold turn at h
  split at h
  · exact nextBlock_extends c w d h
  · exact readAndRun_extends _ clSymbol_extends c w d h
  · exact readAndRun_extends _ litLenSymbol_extends c w d h
  · exact readAndRun_extends _ (fun sym => distSymbol_extends sym _) c w d h
  · exact trailer_extends c w d h
  · cases h; exact c.extends_refl

theorem turns_extends {n : Nat} {c d : Inflater} (h : turns n c = .ok d) : c.extends d := by
  induction n generalizing c with
  | zero => simp [turns] at h
  | succ n ih =>
    simp only [turns] at h
    split at h
    · simp at h
    · next c' hc =>
      have h1 := turn_extends c () c' hc
      split at h
      · cases h; exact h1
      · exact Inflater.extends_trans h1 (ih h)

/-- A stream that inflates: the stream is what it was, and the running sums are those of the whole output (R240). -/
theorem inflateStream_sums {src : List Byte} {c : Inflater} (h : inflateStream src = .ok c) :
    c.src = src ∧ c.sums = c.hist.reverse.foldl adlerByte adlerStart := by
  unfold inflateStream at h
  split at h
  · simp at h
  · next c0 h0 =>
    have hs : c0 = Inflater.start src := by
      unfold zlibHeader at h0
      split at h0
      · split_ifs at h0
        cases h0; rfl
      · simp at h0
    obtain ⟨h1, -, new, h2, h3⟩ := turns_extends h
    subst hs
    exact ⟨h1, by rw [h2, h3]; simp [Inflater.start]⟩

/-- The Adler-32 a stream's inflater reports is that of the output. -/
theorem inflateStream_adler {src : List Byte} {c : Inflater} (h : inflateStream src = .ok c) :
    adlerValue c.sums = adler32 c.hist.reverse := by
  rw [(inflateStream_sums h).2, adler32]

/-! ### A stream that inflates ends with its trailer -/

/-- An action that does not end the stream. -/
def Inf.GoesOn {α : Type} (a : Inf α) : Prop :=
  ∀ c v d, a c = .ok (v, d) → c.phase ≠ .done → d.phase ≠ .done

theorem Inf.GoesOn.bind {α β : Type} {a : Inf α} {f : α → Inf β} (ha : a.GoesOn) (hf : ∀ v, (f v).GoesOn) :
    (a >>= f).GoesOn := by
  intro c w d h hc
  obtain ⟨v, e, h1, h2⟩ := Inf.bind_eq_ok.1 h
  exact hf v e w d h2 (ha c v e h1 hc)

theorem Inf.GoesOn.fail {α : Type} (x : InfFail) : (Inf.fail x : Inf α).GoesOn := by
  intro c w d h
  simp at h

theorem Inf.GoesOn.pure {α : Type} (v : α) : (Pure.pure v : Inf α).GoesOn := by
  intro c w d h hc
  rw [Inf.pure_eq] at h
  cases h
  exact hc

theorem getbit_goesOn : getbit.GoesOn := by
  intro c v d h hc
  unfold getbit at h
  split at h
  · simp at h
  · cases h; exact hc

theorem bits_goesOn (m : Nat) : (bits m).GoesOn := by intro c v d h hc; obtain ⟨-, rfl⟩ := bits_ok h; exact hc

theorem alignByte_goesOn : alignByte.GoesOn := by intro c v d h hc; cases h; exact hc

theorem emit_goesOn (v : Nat) : (emit v).GoesOn := by intro c w d h hc; cases h; exact hc

theorem endBlock_goesOn : endBlock.GoesOn := by intro c w d h hc; cases h; simp only; split <;> simp

theorem goTo_goesOn {p : InfPhase} (hp : p ≠ .done) : (goTo p).GoesOn := by intro c w d h hc; cases h; exact hp

theorem storedBytes_goesOn (n : Nat) : (storedBytes n).GoesOn := by
  induction n with
  | zero => exact .pure ()
  | succ n ih => exact (bits_goesOn 8).bind fun b => (emit_goesOn b).bind fun _ => ih

theorem readClLengths_goesOn (o cl : List Nat) : (readClLengths o cl).GoesOn := by
  induction o generalizing cl with
  | nil => exact .pure _
  | cons k r ih => exact (bits_goesOn 3).bind fun l => ih _

theorem blockType_goesOn (t : Nat) : (blockType t).GoesOn := by
  unfold blockType; split
  · exact alignByte_goesOn.bind fun _ => (bits_goesOn 8).bind fun _ => (bits_goesOn 8).bind fun _ =>
      (bits_goesOn 8).bind fun _ => (bits_goesOn 8).bind fun _ => by
      split
      · exact .fail _
      · exact (storedBytes_goesOn _).bind fun _ => endBlock_goesOn
  · intro c w d h hc; cases h; simp
  · exact (bits_goesOn 5).bind fun _ => (bits_goesOn 5).bind fun _ => (bits_goesOn 4).bind fun _ => by
      split
      · exact .fail _
      · refine (readClLengths_goesOn _ _).bind fun clen => ?_
        split
        · exact .fail _
        · intro c w d h hc; cases h; simp
  · exact .fail _

theorem decodeBits_goesOn (code : List HuffEntry) (n l c : Nat) : (decodeBits code n l c).GoesOn := by
  induction n generalizing l c with
  | zero => exact .fail _
  | succ n ih =>
    refine getbit_goesOn.bind fun b => ?_
    simp only
    split
    · exact .pure _
    · split
      · exact ih _ _
      · exact .fail _

theorem decodeSymbol_goesOn (code : List HuffEntry) : (decodeSymbol code).GoesOn := by
  cases code with
  | nil => exact .fail _
  | cons a b => exact decodeBits_goesOn _ _ _ _

theorem pushLengths_goesOn (r v : Nat) : (pushLengths r v).GoesOn := by
  intro c w d h hc
  unfold pushLengths at h
  split at h
  · simp at h
  · simp only at h
    split at h
    · cases h; exact hc
    · unfold buildDynamic at h
      simp only at h
      split at h
      · simp at h
      · split at h
        · simp at h
        · split at h
          · simp at h
          · cases h; simp

theorem previousLength_goesOn : previousLength.GoesOn := by
  intro c w d h hc; unfold previousLength at h; split at h
  · simp at h
  · cases h; exact hc

theorem clSymbol_goesOn (s : Nat) : (clSymbol s).GoesOn := by
  unfold clSymbol; split
  · exact pushLengths_goesOn _ _
  · split
    · exact previousLength_goesOn.bind fun v => (bits_goesOn _).bind fun x => pushLengths_goesOn _ _
    · split
      · exact (bits_goesOn _).bind fun x => pushLengths_goesOn _ _
      · exact (bits_goesOn _).bind fun x => pushLengths_goesOn _ _

theorem litLenSymbol_goesOn (s : Nat) : (litLenSymbol s).GoesOn := by
  unfold litLenSymbol; split
  · exact emit_goesOn s
  · split
    · exact endBlock_goesOn
    · split
      · exact (bits_goesOn _).bind fun x => goTo_goesOn (by simp)
      · exact .fail _

theorem copyBack_goesOn (n d : Nat) : (copyBack n d).GoesOn := by
  intro c w e h hc
  unfold copyBack at h
  split at h
  · simp at h
  · cases h
    obtain ⟨new, -, hn⟩ := copyBytes_eq_pushAll n d c
    rw [hn]; exact hc

theorem distSymbol_goesOn (s n : Nat) : (distSymbol s n).GoesOn := by
  unfold distSymbol; split
  · exact (bits_goesOn _).bind fun x => (copyBack_goesOn _ _).bind fun _ => goTo_goesOn (by simp)
  · exact .fail _

/-- Only the trailer ends the stream. -/
theorem turn_done {c d : Inflater} (h : turn c = .ok ((), d)) (hc : c.phase ≠ .done) (hd : d.phase = .done) :
    c.phase = .trailer := by
  unfold turn at h
  split at h
  · exact absurd hd (((bits_goesOn 1).bind fun f => (bits_goesOn 2).bind fun t =>
      Inf.GoesOn.bind (a := setFinal f) (by intro c w d h hc; cases h; exact hc) fun _ => blockType_goesOn t) c () d h hc)
  · exact absurd hd (((decodeSymbol_goesOn _).bind clSymbol_goesOn) c () d h hc)
  · exact absurd hd (((decodeSymbol_goesOn _).bind litLenSymbol_goesOn) c () d h hc)
  · exact absurd hd (((decodeSymbol_goesOn _).bind fun s => distSymbol_goesOn s _) c () d h hc)
  · assumption
  · next hh => exact absurd hh hc

/-- Turns that end the stream end it with a trailer. -/
theorem turns_done {n : Nat} {c d : Inflater} (h : turns n c = .ok d) (hc : c.phase ≠ .done) :
    ∃ e, e.phase = .trailer ∧ turn e = .ok ((), d) ∧ c.extends e := by
  induction n generalizing c with
  | zero => simp [turns] at h
  | succ n ih =>
    simp only [turns] at h
    split at h
    · simp at h
    · next c' hc' =>
      split at h
      · next hd => cases h; exact ⟨c, turn_done hc' hc hd, hc', c.extends_refl⟩
      · next hd =>
        obtain ⟨e, h1, h2, h3⟩ := ih h hd
        exact ⟨e, h1, h2, Inflater.extends_trans (turn_extends c () c' hc') h3⟩

end Sys2Proof.Machine
end

