-- ==== Sys2Proof/Laws/Huffman.lean ====
section
/-! SUPPORT. Huffman codes (40_inflate.md R215 to R217): when `buildCode` makes a code and which, and what `decodeSymbol`
answers. -/

namespace Sys2Proof.Machine

/-! ### Decode (R217) -/

theorem codeBits_succ (src : List Byte) (p n : Nat) :
    codeBits src p (n + 1) = 2 * codeBits src p n + streamBits src (p + n) 1 := rfl

/-- Entry e is the code that the first l bits are. -/
abbrev HuffEntry.reads (e : HuffEntry) (src : List Byte) (p l : Nat) : Prop := e.len = l ∧ e.code = codeBits src p l

/-- A code longer than l begins with the first l bits. -/
abbrev codeBegins (code : List HuffEntry) (src : List Byte) (p l : Nat) : Prop :=
  ∃ e ∈ code, l < e.len ∧ e.code / 2 ^ (e.len - l) = codeBits src p l

theorem find_code_none {code : List HuffEntry} {src : List Byte} {p l : Nat}
    (h : ∀ e ∈ code, ¬ e.reads src p l) : (code.find? fun e => e.len = l && e.code = codeBits src p l) = none := by
  rw [List.find?_eq_none]
  intro e he
  simpa using h e he

theorem any_begins {code : List HuffEntry} {src : List Byte} {p l : Nat} :
    (code.any fun e => l < e.len && e.code / 2 ^ (e.len - l) = codeBits src p l) = true ↔
      codeBegins code src p l := by
  simp [List.any_eq_true]

/-- The loop of Decode after n bits that are no code and with which one begins. -/
theorem decodeBits_skip {code : List HuffEntry} {c : Inflater} {n : Nat} (hn : n ≤ 15)
    (hb : hasBits c.src c.pos n)
    (h : ∀ l, 1 ≤ l → l ≤ n → (∀ e ∈ code, ¬ e.reads c.src c.pos l) ∧ codeBegins code c.src c.pos l) :
    decodeBits code 15 1 0 c =
      decodeBits code (15 - n) (n + 1) (codeBits c.src c.pos n) { c with pos := c.pos + n } := by
  induction n with
  | zero => rfl
  | succ n ih =>
    rw [ih (by omega) (by simp only [hasBits] at *; omega) (fun l h1 h2 => h l h1 (by omega))]
    have e : 15 - n = (15 - (n + 1)) + 1 := by omega
    rw [e]
    conv => lhs; unfold decodeBits
    have h1 : hasBits c.src (c.pos + n) 1 := by simp only [hasBits] at *; omega
    rw [Inf.bind_eq, getbit_eq (c := { c with pos := c.pos + n }) h1]
    simp only
    obtain ⟨g1, g2⟩ := h (n + 1) (by omega) (Nat.le_refl _)
    rw [← codeBits_succ, find_code_none g1]
    simp only
    rw [if_pos (any_begins.2 g2)]
    rfl

/-- Decode after n bits that are no code and with which one begins: TRUNCATED if there is no further bit. -/
theorem decodeSymbol_truncated {code : List HuffEntry} {c : Inflater} {n : Nat} (hn : n < 15) (hne : code ≠ [])
    (hb : hasBits c.src c.pos n)
    (h : ∀ l, 1 ≤ l → l ≤ n → (∀ e ∈ code, ¬ e.reads c.src c.pos l) ∧ codeBegins code c.src c.pos l)
    (ht : ¬ hasBits c.src c.pos (n + 1)) : decodeSymbol code c = .error .truncated := by
  have hd : decodeSymbol code c = decodeBits code 15 1 0 c := by
    cases code with
    | nil => exact absurd rfl hne
    | cons a b => rfl
  have e : 15 - n = (15 - (n + 1)) + 1 := by omega
  rw [hd, decodeBits_skip (by omega) hb h, e]
  unfold decodeBits
  rw [Inf.bind_eq, getbit_truncated (c := { c with pos := c.pos + n }) (by simp only [hasBits] at *; omega)]

/-- Decode after n bits that are no code and with which one begins, and one bit more: the symbol whose code they are;
BAD_SYMBOL if they are none and none begins with them; else the loop goes on. -/
theorem decodeSymbol_next {code : List HuffEntry} {c : Inflater} {n : Nat} (hn : n < 15) (hne : code ≠ [])
    (hb : hasBits c.src c.pos (n + 1))
    (h : ∀ l, 1 ≤ l → l ≤ n → (∀ e ∈ code, ¬ e.reads c.src c.pos l) ∧ codeBegins code c.src c.pos l) :
    (∀ e ∈ code, e.reads c.src c.pos (n + 1) → (∀ q ∈ code, q.reads c.src c.pos (n + 1) → q = e) →
      decodeSymbol code c = .ok (e.sym, { c with pos := c.pos + (n + 1) })) ∧
    ((∀ e ∈ code, ¬ e.reads c.src c.pos (n + 1)) → ¬ codeBegins code c.src c.pos (n + 1) →
      decodeSymbol code c = .error .badSymbol) := by
  have hd : decodeSymbol code c = decodeBits code 15 1 0 c := by
    cases code with
    | nil => exact absurd rfl hne
    | cons a b => rfl
  have e : 15 - n = (15 - (n + 1)) + 1 := by omega
  rw [hd, decodeBits_skip (by omega) (by simp only [hasBits] at *; omega) h, e]
  unfold decodeBits
  have h1 : hasBits c.src (c.pos + n) 1 := by simp only [hasBits] at *; omega
  rw [Inf.bind_eq, getbit_eq (c := { c with pos := c.pos + n }) h1]
  simp only
  rw [← codeBits_succ]
  constructor
  · intro e he hc hu
    have hf : (code.find? fun q => q.len = n + 1 && q.code = codeBits c.src c.pos (n + 1)) = some e := by
      cases hf : code.find? fun q => q.len = n + 1 && q.code = codeBits c.src c.pos (n + 1) with
      | none => rw [List.find?_eq_none] at hf; exact absurd hc (by simpa using hf e he)
      | some q =>
        have h1 := List.find?_some hf
        rw [hu q (List.mem_of_find?_eq_some hf) (by simpa using h1)]
    rw [hf]
    rfl
  · intro h1 h2
    rw [find_code_none h1]
    simp only
    rw [if_neg (fun ha => h2 (any_begins.1 ha))]
    rfl

/-! ### BuildCode (R215, R216) -/

/-- The weight of some counts in a code space of as many bits. -/
def countsCover (counts : List Nat) : Nat :=
  ((List.range counts.length).map fun k => counts.getD k 0 * 2 ^ (counts.length - 1 - k)).sum

theorem countsCover_cons (n : Nat) (rest : List Nat) :
    countsCover (n :: rest) = n * 2 ^ rest.length + countsCover rest := by
  unfold countsCover
  rw [List.length_cons, List.range_succ_eq_map, List.map_cons, List.sum_cons, List.map_map]
  congr 2
  apply List.map_congr_left
  intro k hk
  simp only [List.mem_range] at hk
  simp only [Function.comp, List.getD_cons_succ]
  congr 2
  omega

/-- The code space is over-subscribed exactly when the counts cover more than it. -/
theorem codeSpace_eq_none {counts : List Nat} {left : Nat} :
    codeSpace counts left = none ↔ left * 2 ^ counts.length < countsCover counts := by
  induction counts generalizing left with
  | nil => simp [codeSpace, countsCover]
  | cons n rest ih =>
    rw [countsCover_cons]
    generalize countsCover rest = S at *
    unfold codeSpace
    have hp : left * 2 ^ (n :: rest).length = 2 * left * 2 ^ rest.length := by
      rw [List.length_cons, Nat.pow_succ]; ring
    rw [hp]
    split
    · next h =>
      simp only [true_iff]
      have : (2 * left + 1) * 2 ^ rest.length ≤ n * 2 ^ rest.length := Nat.mul_le_mul_right _ h
      have : 0 < 2 ^ rest.length := by positivity
      nlinarith
    · next h =>
      rw [ih, Nat.sub_mul]
      have : n * 2 ^ rest.length ≤ 2 * left * 2 ^ rest.length := Nat.mul_le_mul_right _ (by omega)
      omega

/-- Otherwise what is left is what they do not cover. -/
theorem codeSpace_eq_some {counts : List Nat} {left r : Nat} (h : codeSpace counts left = some r) :
    left * 2 ^ counts.length = r + countsCover counts := by
  induction counts generalizing left with
  | nil => simp [codeSpace] at h; simp [h, countsCover]
  | cons n rest ih =>
    rw [countsCover_cons]
    unfold codeSpace at h
    split at h
    · simp at h
    · next hh =>
      have := ih h
      rw [Nat.sub_mul] at this
      have h2 : n * 2 ^ rest.length ≤ 2 * left * 2 ^ rest.length := Nat.mul_le_mul_right _ (by omega)
      have hp : left * 2 ^ (n :: rest).length = 2 * left * 2 ^ rest.length := by
        rw [List.length_cons, Nat.pow_succ]; ring
      rw [hp]; omega

@[simp] theorem length_codeCounts (lengths : List Nat) : (codeCounts lengths).length = 15 := by simp [codeCounts]

/-- The counts of some lengths cover what the lengths do. -/
theorem countsCover_codeCounts (lengths : List Nat) : countsCover (codeCounts lengths) = codeCover lengths := by
  unfold countsCover
  rw [length_codeCounts]
  have hg : ∀ k, k < 15 → (codeCounts lengths).getD k 0 = lengths.countP fun n => n = k + 1 := by
    intro k hk; simp [codeCounts, List.getD, hk]
  unfold codeCover
  conv => rhs; rw [List.range_succ_eq_map, List.map_cons, List.sum_cons, List.map_map]
  simp only [lengthCount, if_true, Nat.zero_mul, Nat.zero_add]
  apply congrArg
  apply List.map_congr_left
  intro k hk
  simp only [List.mem_range] at hk
  rw [hg k hk]
  simp only [Function.comp, Nat.succ_eq_add_one, Nat.add_one_ne_zero, if_false]
  congr 2
  omega

/-- All counts are 0 exactly when no symbol is used. -/
theorem codeCounts_all_zero {lengths : List Nat} (h : ∀ n ∈ lengths, n ≤ 15) :
    (codeCounts lengths).all (· = 0) = true ↔ ¬ ∃ n ∈ lengths, n ≠ 0 := by
  simp only [codeCounts, List.all_map, List.all_eq_true, List.mem_range, Function.comp, decide_eq_true_eq,
    List.countP_eq_zero, not_exists, not_and, not_not]
  constructor
  · intro g n hn
    by_contra h0
    exact g (n - 1) (by have := h n hn; omega) n hn (by omega)
  · intro g k _ n hn e
    have := g n hn; omega

/-- The counts add up to the number of used symbols. -/
theorem sum_codeCounts {lengths : List Nat} (h : ∀ n ∈ lengths, n ≤ 15) :
    (codeCounts lengths).sum = (lengths.filter (· ≠ 0)).length := by
  induction lengths with
  | nil => simp [codeCounts]
  | cons x rest ih =>
    have ih := ih (fun n hn => h n (List.mem_cons_of_mem _ hn))
    have hx := h x (List.mem_cons_self ..)
    have : (codeCounts (x :: rest)).sum = (codeCounts rest).sum + (if x = 0 then 0 else 1) := by
      unfold codeCounts
      simp only [List.countP_cons, List.range_succ, List.range_zero, List.map_append, List.map_nil, List.map_cons,
        List.sum_append, List.sum_nil, List.sum_cons, List.nil_append]
      interval_cases x <;> simp <;> omega
    rw [this, ih]
    by_cases h0 : x = 0 <;> simp [h0]

/-- One code, of length 1. -/
theorem codeCounts_single {lengths : List Nat} (h : ∀ n ∈ lengths, n ≤ 15) :
    ((codeCounts lengths).getD 0 0 = 1 ∧ (codeCounts lengths).sum = 1) ↔ lengths.filter (· ≠ 0) = [1] := by
  rw [sum_codeCounts h]
  have e : (codeCounts lengths).getD 0 0 = (lengths.filter (· ≠ 0)).countP fun n => n = 1 := by
    simp only [codeCounts, List.getD]
    simp only [List.countP_filter]
    simp
    apply List.countP_congr
    intro x _; simp; omega
  rw [e]
  constructor
  · rintro ⟨h1, h2⟩
    obtain ⟨a, ha⟩ := List.length_eq_one_iff.1 h2
    rw [ha] at h1 ⊢
    simp at h1; rw [h1]
  · intro hh; rw [hh]; simp

/-- BuildCode fails exactly when a symbol is used and the lengths cover more than the code space, or less, but for the
single code of length 1 of LENS and DISTS (R216). -/
theorem buildCode_eq_none {lengths : List Nat} {kind : CodeKind} (h : ∀ n ∈ lengths, n ≤ 15) :
    buildCode lengths kind = none ↔
      (∃ n ∈ lengths, n ≠ 0) ∧ (2 ^ 15 < codeCover lengths ∨
        (codeCover lengths < 2 ^ 15 ∧ ¬ (kind ≠ .codes ∧ lengths.filter (· ≠ 0) = [1]))) := by
  unfold buildCode
  simp only
  split
  · next h0 => simp only [reduceCtorEq, false_iff, not_and]; intro hn; exact absurd hn ((codeCounts_all_zero h).1 h0)
  · next h0 =>
    have hex : ∃ n ∈ lengths, n ≠ 0 := by by_contra hh; exact h0 ((codeCounts_all_zero h).2 hh)
    simp only [hex, true_and]
    rw [← codeCounts_single h]
    have : codeValid (codeCounts lengths) kind = true ↔ ¬ (2 ^ 15 < codeCover lengths ∨
        (codeCover lengths < 2 ^ 15 ∧
          ¬ (kind ≠ .codes ∧ ((codeCounts lengths).getD 0 0 = 1 ∧ (codeCounts lengths).sum = 1)))) := by
      unfold codeValid
      cases hs : codeSpace (codeCounts lengths) 1 with
      | none =>
        have := codeSpace_eq_none.1 hs
        rw [countsCover_codeCounts, length_codeCounts] at this
        simp
        omega
      | some r =>
        have := codeSpace_eq_some hs
        rw [countsCover_codeCounts, length_codeCounts] at this
        simp
        constructor
        · rintro (rfl | ⟨⟨a, b⟩, d⟩)
          · omega
          · exact ⟨by omega, fun _ => ⟨a, b, d⟩⟩
        · rintro ⟨a, b⟩
          by_cases hr : r = 0
          · exact .inl hr
          · obtain ⟨u, v, w⟩ := b (by omega); exact .inr ⟨⟨u, v⟩, w⟩
    split
    · next hv => simp only [reduceCtorEq, false_iff]; exact this.1 hv
    · next hv => simp only [true_iff]; by_contra hh; exact hv (this.2 hh)

/-- `firstCodes` is next[l] of R215. -/
theorem firstCodes_getD (lengths : List Nat) : ∀ (n k : Nat), k < n → ∀ s,
    (firstCodes ((List.range n).map fun l => lengths.countP fun m => m = l + 1 + s)
      (firstCode lengths (s + 1))).getD k 0 = firstCode lengths (k + s + 1) := by
  intro n
  induction n with
  | zero => intro k hk; omega
  | succ n ih =>
    intro k hk s
    rw [List.range_succ_eq_map, List.map_cons, List.map_map]
    unfold firstCodes
    cases k with
    | zero => simp
    | succ k =>
      rw [List.getD_cons_succ]
      have := ih k (by omega) (s + 1)
      have e1 : ((fun l => lengths.countP fun m => decide (m = l + 1 + s)) ∘ Nat.succ) =
          fun l => lengths.countP fun m => decide (m = l + 1 + (s + 1)) := by
        funext l; simp only [Function.comp]; congr 1; funext m; simp only [decide_eq_decide]; omega
      rw [e1]
      have e2 : (firstCode lengths (s + 1) + lengths.countP fun m => decide (m = 0 + 1 + s)) * 2 =
          firstCode lengths (s + 1 + 1) := by
        conv => rhs; unfold firstCode
        congr 2
        unfold lengthCount
        rw [if_neg (by omega)]
        congr 1; funext m; simp only [decide_eq_decide]; omega
      rw [e2, this]
      congr 1; omega

/-- The entry of a used symbol: within one length the codes are consecutive from next[l] (R215). -/
def codeEntry (lengths : List Nat) (k : Nat) : HuffEntry :=
  ⟨k, lengths.getD k 0,
    firstCode lengths (lengths.getD k 0) + (lengths.take k).countP fun n => n = lengths.getD k 0⟩

/-- `assignCodes` from symbol s on, with next[l] counted up to s. -/
theorem assignCodes_eq (all : List Nat) (h : ∀ n ∈ all, n ≤ 15) : ∀ (s : Nat) (next : List Nat), s ≤ all.length →
    next.length = 15 →
    (∀ l, 1 ≤ l → l ≤ 15 → next.getD (l - 1) 0 = firstCode all l + (all.take s).countP fun n => n = l) →
    assignCodes s (all.drop s) next =
      ((List.range' s (all.length - s)).filter fun k => all.getD k 0 ≠ 0).map (codeEntry all) := by
  intro s
  generalize hm : all.length - s = m
  induction m generalizing s with
  | zero =>
    intro next hs hn hh
    have : all.drop s = [] := List.drop_eq_nil_of_le (by omega)
    rw [this]; rfl
  | succ m ih =>
    intro next hs hn hh
    have hlt : s < all.length := by omega
    rw [List.drop_eq_getElem_cons hlt, List.range'_succ]
    have hg : all.getD s 0 = all[s] := by simp [List.getD, hlt]
    have htk : all.take (s + 1) = all.take s ++ [all[s]] := by rw [List.take_add_one, List.getElem?_eq_getElem hlt]; rfl
    have h15 := h all[s] (List.getElem_mem hlt)
    rw [List.filter_cons]
    by_cases h0 : all[s] = 0
    · rw [if_neg (by rw [hg]; simp [h0]), h0]
      unfold assignCodes
      refine ih (s + 1) (by omega) next (by omega) hn ?_
      intro l h1 h2
      rw [hh l h1 h2, htk, List.countP_append]
      simp [h0]; omega
    · rw [if_pos (by rw [hg]; simp [h0]), List.map_cons]
      unfold assignCodes
      split
      · next e => simp at e; omega
      · next e => rw [List.cons.injEq] at e; exact absurd e.1 h0
      · next l rest hl e =>
        rw [List.cons.injEq] at e
        obtain ⟨rfl, rfl⟩ := e
        have hnx := hh all[s] (by omega) h15
        simp only
        rw [codeEntry, hg, hnx]
        congr 1
        refine ih (s + 1) (by omega) _ (by omega) (by simp [hn]) ?_
        intro l h1 h2
        rw [htk, List.countP_append]
        by_cases hl : l = all[s]
        · subst hl
          rw [List.getD_eq_getElem?_getD, List.getElem?_set_self (by omega)]
          simp; omega
        · rw [List.getD_eq_getElem?_getD, List.getElem?_set_ne (by omega), ← List.getD_eq_getElem?_getD, hh l h1 h2]
          have hl' : ¬ all[s] = l := fun q => hl q.symm
          simp [hl']

/-- The code BuildCode makes: the used symbols, ascending, with their codes (R215). -/
theorem buildCode_eq_some {lengths : List Nat} {kind : CodeKind} (h : ∀ n ∈ lengths, n ≤ 15) {code : List HuffEntry}
    (hc : buildCode lengths kind = some code) :
    code = ((List.range lengths.length).filter fun k => lengths.getD k 0 ≠ 0).map (codeEntry lengths) := by
  unfold buildCode at hc
  simp only at hc
  split at hc
  · next h0 =>
    have hz := (codeCounts_all_zero h).1 h0
    cases hc
    symm
    rw [List.map_eq_nil_iff, List.filter_eq_nil_iff]
    intro k hk
    simp only [List.mem_range] at hk
    simp only [decide_eq_true_eq, not_not]
    by_contra hne
    refine hz ⟨_, ?_, hne⟩
    simp [List.getD, hk]
  · split at hc
    · cases hc
      have := assignCodes_eq lengths h 0 (firstCodes (codeCounts lengths) 0) (by omega) ?_ ?_
      · simpa [List.range_eq_range'] using this
      · have : ∀ (l : List Nat) n, (firstCodes l n).length = l.length := by
          intro l; induction l with
          | nil => intro; rfl
          | cons a b ih => intro n; simp [firstCodes, ih]
        rw [this]; simp [codeCounts]
      · intro l h1 h2
        have := firstCodes_getD lengths 15 (l - 1) (by omega) 0
        simp only [Nat.add_zero] at this
        have e : firstCode lengths (0 + 1) = 0 := by simp [firstCode, lengthCount]
        rw [e] at this
        unfold codeCounts
        rw [this]
        simp
        congr 1; omega
    · simp at hc

end Sys2Proof.Machine
end

