-- ==== Sys2Proof/Laws/Pathfinder.lean ====
section
/-! SUPPORT. What the pathfinder's operations do (45_pathfinder.md R400 to R422): cells and their indices, the
neighbours of a cell, what a relaxation and a step may change, and what the trace changes. -/

namespace Sys2Proof.Machine

/-! ### Cells -/

/-- A cell is on the grid when both coordinates are below the grid's sizes (R401). -/
theorem State.onGrid_iff {s : State} {c : Coord} :
    s.onGrid c = true ↔ c.x.toNat < s.latch.w.toNat ∧ c.y.toNat < s.latch.h.toNat := by
  simp [State.onGrid]

/-- The index of a cell of the grid is below the number of cells (R57). -/
theorem State.cellIndex_lt {s : State} {c : Coord} (h : s.onGrid c = true) :
    s.cellIndex c < s.latch.w.toNat * s.latch.h.toNat := by
  obtain ⟨hx, hy⟩ := State.onGrid_iff.1 h
  unfold State.cellIndex
  calc c.y.toNat * s.latch.w.toNat + c.x.toNat
      < c.y.toNat * s.latch.w.toNat + s.latch.w.toNat := by omega
    _ = (c.y.toNat + 1) * s.latch.w.toNat := by ring
    _ ≤ s.latch.h.toNat * s.latch.w.toNat := Nat.mul_le_mul_right _ hy
    _ = s.latch.w.toNat * s.latch.h.toNat := Nat.mul_comm _ _

/-- Cells of the grid with one index are one cell. -/
theorem State.cellIndex_inj {s : State} {c d : Coord} (hc : s.onGrid c = true) (hd : s.onGrid d = true) :
    s.cellIndex c = s.cellIndex d ↔ c = d := by
  refine ⟨fun h => ?_, fun h => by rw [h]⟩
  obtain ⟨hcx, -⟩ := State.onGrid_iff.1 hc
  obtain ⟨hdx, -⟩ := State.onGrid_iff.1 hd
  unfold State.cellIndex at h
  have hx : c.x.toNat = d.x.toNat := by
    have := congrArg (· % s.latch.w.toNat) h
    simpa [Nat.add_comm, Nat.add_mul_mod_self_right, Nat.mod_eq_of_lt hcx, Nat.mod_eq_of_lt hdx] using this
  have hy : c.y.toNat = d.y.toNat := by
    rw [hx] at h
    exact Nat.eq_of_mul_eq_mul_right (by omega) (Nat.add_right_cancel h)
  obtain ⟨cx, cy⟩ := c
  obtain ⟨dx, dy⟩ := d
  simp only [Coord.mk.injEq]
  exact ⟨BitVec.eq_of_toNat_eq hx, BitVec.eq_of_toNat_eq hy⟩

/-- A node put for a cell is read there, and every other cell of the grid reads as before. -/
theorem State.nodeAt_putNode {s : State} {c d : Coord} {n : Node} (hs : Sparse.sorted s.node)
    (hc : s.onGrid c = true) (hd : s.onGrid d = true) :
    (s.putNode c n).nodeAt d = if d = c then some n else s.nodeAt d := by
  have hi : (s.putNode c n).cellIndex d = s.cellIndex d := rfl
  unfold State.nodeAt
  rw [hi]
  unfold State.putNode
  simp only [Sparse.get_set hs]
  by_cases h : d = c
  · simp [h]
  · rw [if_neg h, if_neg (fun h' => h ((State.cellIndex_inj hd hc).1 h'))]

/-- The neighbours of a cell of the grid are its 4-adjacent cells of the grid (R403, R404). -/
theorem State.mem_neighbours {s : State} {c v : Coord} (hc : s.onGrid c = true) :
    v ∈ s.neighbours c ↔ s.onGrid v = true ∧ c.adjacent v := by
  obtain ⟨hx, hy⟩ := State.onGrid_iff.1 hc
  obtain ⟨cx, cy⟩ := c
  obtain ⟨vx, vy⟩ := v
  simp only at hx hy
  have hw := s.latch.w.isLt
  have hh := s.latch.h.isLt
  have ofNat_eq : ∀ (a : Half) (n : Nat), n < 2 ^ 16 → (a = BitVec.ofNat 16 n ↔ a.toNat = n) := by
    intro a n hn
    rw [← BitVec.toNat_inj, BitVec.toNat_ofNat, Nat.mod_eq_of_lt hn]
  unfold State.neighbours
  simp only [List.mem_append, State.onGrid_iff, Coord.adjacent]
  have e1 := ofNat_eq vy (cy.toNat - 1) (by omega)
  have e2 := ofNat_eq vy (cy.toNat + 1)
  have e3 := ofNat_eq vx (cx.toNat + 1)
  have e4 := ofNat_eq vx (cx.toNat - 1) (by omega)
  have ex : vx = cx ↔ vx.toNat = cx.toNat := BitVec.toNat_inj.symm
  have ey : vy = cy ↔ vy.toNat = cy.toNat := BitVec.toNat_inj.symm
  have ex' : cx = vx ↔ cx.toNat = vx.toNat := BitVec.toNat_inj.symm
  have ey' : cy = vy ↔ cy.toNat = vy.toNat := BitVec.toNat_inj.symm
  rw [ex', ey']
  have m1 : (⟨vx, vy⟩ : Coord) ∈ (if 0 < cy.toNat then [⟨cx, BitVec.ofNat 16 (cy.toNat - 1)⟩] else []) ↔
      0 < cy.toNat ∧ vx.toNat = cx.toNat ∧ vy.toNat = cy.toNat - 1 := by
    split <;> simp_all
  have m2 : (⟨vx, vy⟩ : Coord) ∈ (if cy.toNat + 1 < s.latch.h.toNat then [⟨cx, BitVec.ofNat 16 (cy.toNat + 1)⟩] else []) ↔
      cy.toNat + 1 < s.latch.h.toNat ∧ vx.toNat = cx.toNat ∧ vy.toNat = cy.toNat + 1 := by
    split
    · next h => simp only [List.mem_singleton, Coord.mk.injEq, h, true_and, e2 (by omega), ex]
    · next h => simp [h]
  have m3 : (⟨vx, vy⟩ : Coord) ∈ (if cx.toNat + 1 < s.latch.w.toNat then [⟨BitVec.ofNat 16 (cx.toNat + 1), cy⟩] else []) ↔
      cx.toNat + 1 < s.latch.w.toNat ∧ vx.toNat = cx.toNat + 1 ∧ vy.toNat = cy.toNat := by
    split
    · next h => simp only [List.mem_singleton, Coord.mk.injEq, h, true_and, e3 (by omega), ey]
    · next h => simp [h]
  have m4 : (⟨vx, vy⟩ : Coord) ∈ (if 0 < cx.toNat then [⟨BitVec.ofNat 16 (cx.toNat - 1), cy⟩] else []) ↔
      0 < cx.toNat ∧ vx.toNat = cx.toNat - 1 ∧ vy.toNat = cy.toNat := by
    split <;> simp_all
  rw [m1, m2, m3, m4]
  omega

/-- The neighbours in their order are the cells around that are on the grid (R403, R404). -/
theorem State.neighbours_eq_around {s : State} {c : Coord} (hw : s.latch.w.toNat ≤ 32768)
    (hh : s.latch.h.toNat ≤ 32768) (hc : s.onGrid c = true) : s.neighbours c = c.around.filter s.onGrid := by
  obtain ⟨hx, hy⟩ := State.onGrid_iff.1 hc
  obtain ⟨x, y⟩ := c
  simp only at hx hy
  have hn : s.onGrid ⟨x, y - 1⟩ = decide (0 < y.toNat) := by
    rw [Bool.eq_iff_iff, State.onGrid_iff, decide_eq_true_eq]
    bv_omega
  have hs : s.onGrid ⟨x, y + 1⟩ = decide (y.toNat + 1 < s.latch.h.toNat) := by
    rw [Bool.eq_iff_iff, State.onGrid_iff, decide_eq_true_eq]
    bv_omega
  have he : s.onGrid ⟨x + 1, y⟩ = decide (x.toNat + 1 < s.latch.w.toNat) := by
    rw [Bool.eq_iff_iff, State.onGrid_iff, decide_eq_true_eq]
    bv_omega
  have hw' : s.onGrid ⟨x - 1, y⟩ = decide (0 < x.toNat) := by
    rw [Bool.eq_iff_iff, State.onGrid_iff, decide_eq_true_eq]
    bv_omega
  have pred : ∀ a : Half, 0 < a.toNat → BitVec.ofNat 16 (a.toNat - 1) = a - 1 := by
    intro a ha
    bv_omega
  have succ : ∀ a : Half, BitVec.ofNat 16 (a.toNat + 1) = a + 1 := by
    intro a
    bv_omega
  simp only [State.neighbours, Coord.around, List.filter_cons, List.filter_nil, hn, hs, he, hw', decide_eq_true_eq, succ]
  split_ifs <;> simp_all

/-! ### The search PF_START leaves -/

/-- In a table of one node, a cell with a node is the cell of that node. -/
theorem State.nodeAt_single {s : State} {c d : Coord} {m n : Node} (hs : s.node = [(s.cellIndex c, m)])
    (hc : s.onGrid c = true) (hd : s.onGrid d = true) (h : s.nodeAt d = some n) : d = c ∧ n = m := by
  unfold State.nodeAt at h
  rw [hs, Sparse.get_cons] at h
  split at h
  · next he => exact ⟨((State.cellIndex_inj hc hd).1 he).symm, (Option.some.inj h).symm⟩
  · simp at h

/-- A search that PF_START has seeded meets the invariant (R410, R411, R419). -/
theorem State.seeded_inv {s : State} (hp : s.par.wf) (hm : s.mem.wf) (hs : s.settled) (hc : s.completionInv)
    (hg : s.configInv) (hl : s.latchInv) (ha : s.ctl.pfState = .active)
    (hn : s.node = [(s.cellIndex s.latch.start, ⟨0, none, s.heuristic s.latch.start⟩)])
    (hf : s.frontier = [⟨s.latch.sx, s.latch.sy, 0, s.heuristic s.latch.start⟩])
    (hcap : 1 ≤ s.par.frontierCap.toNat) : s.Inv := by
  have ho : s.onGrid s.latch.start = true := hl.2.2.2.2.2.1
  have hstart : s.nodeAt s.latch.start = some ⟨0, none, s.heuristic s.latch.start⟩ := by
    unfold State.nodeAt
    rw [hn, Sparse.get_cons, if_pos rfl]
  refine ⟨hp, hm, hs, hc, hg, ?_, ?_, ?_, fun _ => ⟨hl, hstart, ?_⟩, fun _ => ⟨?_, ?_, ?_⟩, ?_⟩
  · rw [hf]
    exact ⟨List.pairwise_singleton _ _, List.pairwise_singleton _ _, hcap⟩
  · rw [hn]
    refine ⟨List.pairwise_singleton _ _, fun c hcm => ?_⟩
    rw [List.mem_singleton.1 hcm]
    exact State.cellIndex_lt ho
  · rw [ha]
    exact nofun
  · intro c n hgc hcn hne
    exact absurd (State.nodeAt_single hn ho hgc hcn).1 hne
  · intro e he
    rw [hf] at he
    obtain rfl := List.mem_singleton.1 he
    exact ⟨ho, _, hstart, rfl, rfl⟩
  · intro c n hgc hcn hfree
    rw [(State.nodeAt_single hn ho hgc hcn).1, hf] at hfree
    simp [findCell, Entry.isAt, PfLatch.start] at hfree
  · intro c n p hgc hcn hpr
    rw [(State.nodeAt_single hn ho hgc hcn).2] at hpr
    exact absurd hpr nofun
  · rw [ha]
    exact nofun

/-! ### What a relaxation may change -/

/-- State t is state s with another node table, frontier and PF_STATE: all that relaxations write (R412 to R415). -/
def State.searchesAs (s t : State) : Prop :=
  t = { s with node := t.node, frontier := t.frontier, ctl := { s.ctl with pfState := t.ctl.pfState } }

theorem State.searchesAs_refl (s : State) : s.searchesAs s := rfl

theorem State.searchesAs_trans {s t u : State} (h : s.searchesAs t) (g : t.searchesAs u) : s.searchesAs u := by
  unfold State.searchesAs at *
  rw [g, h]

/-- Relaxations that run to their end keep PF_STATE; one that overflows sets FAILED (R413). -/
def Ended.relaxes (r : Ended) (s : State) : Prop :=
  (∀ t, r = .ok t → s.searchesAs t ∧ t.ctl.pfState = s.ctl.pfState) ∧
  ∀ e n t, r = .raised e n t →
    s.searchesAs t ∧ t.ctl.pfState = .failed ∧ e = .frontierOverflow ∧ n = s.par.frontierCap

theorem Ended.relaxes_ok {s t : State} (h : s.searchesAs t) (hp : t.ctl.pfState = s.ctl.pfState) :
    (Ended.ok t).relaxes s :=
  ⟨fun u hu => by cases hu; exact ⟨h, hp⟩, fun _ _ _ hu => by cases hu⟩

theorem Ended.relaxes_overflow {s t : State} (h : s.searchesAs t) (hp : t.ctl.pfState = .failed) :
    (Ended.raised .frontierOverflow s.par.frontierCap t).relaxes s :=
  ⟨fun _ hu => (by cases hu), fun _ _ _ hu => by cases hu; exact ⟨h, hp, rfl, rfl⟩⟩

theorem Ended.relaxes_stuck (x : Fault) (s : State) : (Ended.stuck x).relaxes s :=
  ⟨fun _ hu => (by cases hu), fun _ _ _ hu => by cases hu⟩

theorem relax_relaxes (u v : Coord) (s : State) : (relax u v s).relaxes s := by
  unfold relax
  split
  · exact Ended.relaxes_stuck _ _
  · next nu _ =>
    simp only
    split
    · split
      · exact Ended.relaxes_overflow rfl rfl
      · next hf =>
        have hq : (s.putNode v (s.relaxedNode u v (nu.cost.toNat + 1))).frontierFull ⟨v.x, v.y⟩ = false := by
          rw [Bool.not_eq_true] at hf
          exact hf
        rcases frontierInsert_cases ⟨v.x, v.y, (s.relaxedNode u v (nu.cost.toNat + 1)).cost,
          (s.relaxedNode u v (nu.cost.toNat + 1)).d⟩ (s.putNode v (s.relaxedNode u v (nu.cost.toNat + 1)))
          with ⟨h, -⟩ | ⟨-, h⟩
        · exact absurd (h.symm.trans hq) (by decide)
        · rw [h]
          exact Ended.relaxes_ok rfl rfl
    · exact Ended.relaxes_ok rfl rfl

theorem relaxPassable_relaxes (u v : Coord) (s : State) : (relaxPassable u v s).relaxes s := by
  unfold relaxPassable
  split_ifs
  · exact Ended.relaxes_ok rfl rfl
  · exact Ended.relaxes_stuck _ _
  · exact Ended.relaxes_ok rfl rfl
  · exact relax_relaxes u v s

theorem relaxAll_relaxes (u : Coord) (vs : List Coord) (s : State) : (relaxAll u vs s).relaxes s := by
  induction vs generalizing s with
  | nil => exact Ended.relaxes_ok rfl rfl
  | cons v vs ih =>
    unfold relaxAll
    have hr := relaxPassable_relaxes u v s
    cases h : relaxPassable u v s with
    | ok a =>
      obtain ⟨ha, hp⟩ := hr.1 a h
      obtain ⟨g1, g2⟩ := ih a
      have hc : a.par = s.par := by rw [ha]
      refine ⟨fun t ht => ?_, fun e n t ht => ?_⟩
      · obtain ⟨g, gp⟩ := g1 t ht
        exact ⟨State.searchesAs_trans ha g, gp.trans hp⟩
      · obtain ⟨g, gp, ge, gn⟩ := g2 e n t ht
        exact ⟨State.searchesAs_trans ha g, gp, ge, by rw [gn, hc]⟩
    | raised e n a => rw [h] at hr; exact hr
    | stuck x => exact Ended.relaxes_stuck x s

/-! ### What a step and a search may change -/

/-- State t is state s with other RES, PF_STEPS, node table, frontier and PF_STATE: all that PF_STEP writes (R412). -/
def State.stepsAs (s t : State) : Prop :=
  t = { s with
    res := t.res
    pfSteps := t.pfSteps
    node := t.node
    frontier := t.frontier
    ctl := { s.ctl with pfState := t.ctl.pfState } }

theorem State.stepsAs_refl (s : State) : s.stepsAs s := rfl

theorem State.stepsAs_trans {s t u : State} (h : s.stepsAs t) (g : t.stepsAs u) : s.stepsAs u := by
  unfold State.stepsAs at *
  rw [g, h]

/-- However a rule ends, it changes no more than PF_STEP may. -/
def Ended.steps (r : Ended) (s : State) : Prop :=
  (∀ t, r = .ok t → s.stepsAs t) ∧ ∀ e n t, r = .raised e n t → s.stepsAs t

theorem Ended.steps_ok {s t : State} (h : s.stepsAs t) : (Ended.ok t).steps s :=
  ⟨fun u hu => by cases hu; exact h, fun _ _ _ hu => by cases hu⟩

theorem Ended.steps_raised {s t : State} (e : ErrorKind) (n : Word) (h : s.stepsAs t) : (Ended.raised e n t).steps s :=
  ⟨fun _ hu => (by cases hu), fun _ _ _ hu => by cases hu; exact h⟩

theorem Ended.steps_stuck (x : Fault) (s : State) : (Ended.stuck x).steps s :=
  ⟨fun _ hu => (by cases hu), fun _ _ _ hu => by cases hu⟩

/-- However PF_STEP ends, it changes no more than R412 lets it. -/
theorem pfStep_steps (s : State) : (pfStep s).steps s := by
  unfold pfStep
  split_ifs with h1 h2
  · exact Ended.steps_raised _ _ s.stepsAs_refl
  · exact Ended.steps_raised _ _ rfl
  · unfold frontierExtract
    split
    · exact Ended.steps_raised _ _ s.stepsAs_refl
    · next e rest _ =>
      unfold pfExpand
      simp only
      split_ifs
      · exact Ended.steps_ok rfl
      · have g := relaxAll_relaxes ⟨e.x, e.y⟩
          (State.neighbours { s with frontier := rest, res := e.results, pfSteps := s.pfSteps + 1 } ⟨e.x, e.y⟩)
          { s with frontier := rest, res := e.results, pfSteps := s.pfSteps + 1 }
        have hs : ∀ t, State.searchesAs { s with frontier := rest, res := e.results, pfSteps := s.pfSteps + 1 } t →
            s.stepsAs t := by
          intro t ht
          unfold State.searchesAs at ht
          unfold State.stepsAs
          rw [ht]
        exact ⟨fun t h => hs t (g.1 t h).1, fun e n t h => hs t (g.2 e n t h).1⟩

/-- However the loop of PF_SEARCH ends, it changes no more than its steps; it runs to its end only when the search is
over (R422). -/
theorem pfLoop_steps (n : Nat) (s : State) :
    (pfLoop n s).steps s ∧ ∀ t, pfLoop n s = .ok t → t.ctl.pfState ≠ .active := by
  induction n generalizing s with
  | zero =>
    unfold pfLoop
    split_ifs with h
    · exact ⟨Ended.steps_ok s.stepsAs_refl, fun t ht => by cases ht; exact h⟩
    · exact ⟨Ended.steps_stuck _ _, fun t ht => by cases ht⟩
  | succ n ih =>
    unfold pfLoop
    split_ifs with h
    · exact ⟨Ended.steps_ok s.stepsAs_refl, fun t ht => by cases ht; exact h⟩
    · have g := pfStep_steps s
      cases hs : pfStep s with
      | ok a =>
        obtain ⟨⟨h1, h2⟩, h3⟩ := ih a
        have ha := g.1 a hs
        exact ⟨⟨fun t ht => State.stepsAs_trans ha (h1 t ht), fun e m t ht => State.stepsAs_trans ha (h2 e m t ht)⟩, h3⟩
      | raised e m a => exact ⟨Ended.steps_raised e m (g.2 e m a hs), fun t ht => by cases ht⟩
      | stuck x => exact ⟨Ended.steps_stuck x s, fun t ht => by cases ht⟩

/-- However PF_START's checks end, they leave the state as it is (R410). -/
theorem pfStartChecks_state {s t : State} :
    (pfStartChecks s = .ok t → t = s) ∧ ∀ e n, pfStartChecks s = .raised e n t → t = s := by
  unfold pfStartChecks
  simp only [raiseError_eq]
  split_ifs <;> simp_all

/-- The trace changes memory and PATH_LEN only, and nothing when it raises (R418). -/
theorem pfTrace_frame (extra : List Region) (s : State) :
    (∀ t, pfTrace extra s = .ok t → t = { s with mem := t.mem, pathLen := t.pathLen }) ∧
      ∀ e n t, pfTrace extra s = .raised e n t → t = s := by
  have hr : ∀ (e : ErrorKind) (n : Word),
      (∀ t, Ended.raised e n s = .ok t → t = { s with mem := t.mem, pathLen := t.pathLen }) ∧
        ∀ e' n' t, Ended.raised e n s = .raised e' n' t → t = s :=
    fun _ _ => ⟨fun _ h => (by cases h), fun _ _ _ h => by cases h; rfl⟩
  unfold pfTrace
  split_ifs
  · exact hr _ _
  · split
    · exact ⟨fun _ h => (by cases h), fun _ _ _ h => by cases h⟩
    · next cells _ =>
      unfold tracePath
      simp only
      split_ifs
      · exact hr _ _
      · rcases checkRegions_cases (extra ++ [s.pathRegion cells.length]) s with h | ⟨e, n, -, h⟩
        · rw [h]
          exact ⟨fun t ht => by cases ht; rfl, fun _ _ _ h => by cases h⟩
        · rw [h]
          exact hr e n

/-- The bytes of a path are 4 for each cell (R430). -/
@[simp] theorem length_pathBytes (cells : List Coord) : (pathBytes cells).length = 4 * cells.length := by
  induction cells with
  | nil => rfl
  | cons c cells ih =>
    simp only [pathBytes, List.flatMap_cons, List.length_append, List.length_cons] at ih ⊢
    rw [ih]
    simp only [le16bytes, List.length_cons, List.length_nil]
    omega

end Sys2Proof.Machine
end

