-- ==== Sys2Proof/Laws/PerInstr.lean ====
section
/-! SUPPORT. The statements made for each item, one lemma a constructor. EncodedWidth: the bits an item is encoded
in fit its row format's width (30_encoding.md R150). -/

namespace Sys2Proof.Laws

/-- The encoding of a well-formed item fits the width of its format (30_encoding.md R150). -/
def EncodedWidth.Statement (i : Instr) : Prop :=
  i.wellFormed = true → (encode i).bits < 2 ^ (encode i).fmt.width

-- LIT and CL_LEN carry an operand, which well-formedness bounds; every other item is one number.
theorem EncodedWidth.nop : EncodedWidth.Statement .nop := fun _ => by decide
theorem EncodedWidth.hdrCheck : EncodedWidth.Statement .hdrCheck := fun _ => by decide
theorem EncodedWidth.inflate : EncodedWidth.Statement .inflate := fun _ => by decide
theorem EncodedWidth.sizeCheck : EncodedWidth.Statement .sizeCheck := fun _ => by decide
theorem EncodedWidth.unfilterRow : EncodedWidth.Statement .unfilterRow := fun _ => by decide
theorem EncodedWidth.unpackRow : EncodedWidth.Statement .unpackRow := fun _ => by decide
theorem EncodedWidth.decode : EncodedWidth.Statement .decode := fun _ => by decide
theorem EncodedWidth.pfStart : EncodedWidth.Statement .pfStart := fun _ => by decide
theorem EncodedWidth.pfStep : EncodedWidth.Statement .pfStep := fun _ => by decide
theorem EncodedWidth.pfTrace : EncodedWidth.Statement .pfTrace := fun _ => by decide
theorem EncodedWidth.pfSearch : EncodedWidth.Statement .pfSearch := fun _ => by decide
theorem EncodedWidth.pqClear : EncodedWidth.Statement .pqClear := fun _ => by decide
theorem EncodedWidth.pqInsert : EncodedWidth.Statement .pqInsert := fun _ => by decide
theorem EncodedWidth.pqExtract : EncodedWidth.Statement .pqExtract := fun _ => by decide
theorem EncodedWidth.pqPeek : EncodedWidth.Statement .pqPeek := fun _ => by decide
theorem EncodedWidth.pqDecrease : EncodedWidth.Statement .pqDecrease := fun _ => by decide
theorem EncodedWidth.nodeRead : EncodedWidth.Statement .nodeRead := fun _ => by decide
theorem EncodedWidth.filterNone : EncodedWidth.Statement .filterNone := fun _ => by decide
theorem EncodedWidth.filterSub : EncodedWidth.Statement .filterSub := fun _ => by decide
theorem EncodedWidth.filterUp : EncodedWidth.Statement .filterUp := fun _ => by decide
theorem EncodedWidth.filterAverage : EncodedWidth.Statement .filterAverage := fun _ => by decide
theorem EncodedWidth.filterPaeth : EncodedWidth.Statement .filterPaeth := fun _ => by decide
theorem EncodedWidth.gray1 : EncodedWidth.Statement .gray1 := fun _ => by decide
theorem EncodedWidth.gray2 : EncodedWidth.Statement .gray2 := fun _ => by decide
theorem EncodedWidth.gray4 : EncodedWidth.Statement .gray4 := fun _ => by decide
theorem EncodedWidth.gray8 : EncodedWidth.Statement .gray8 := fun _ => by decide
theorem EncodedWidth.gray16 : EncodedWidth.Statement .gray16 := fun _ => by decide
theorem EncodedWidth.rgb8 : EncodedWidth.Statement .rgb8 := fun _ => by decide
theorem EncodedWidth.rgb16 : EncodedWidth.Statement .rgb16 := fun _ => by decide
theorem EncodedWidth.pal1 : EncodedWidth.Statement .pal1 := fun _ => by decide
theorem EncodedWidth.pal2 : EncodedWidth.Statement .pal2 := fun _ => by decide
theorem EncodedWidth.pal4 : EncodedWidth.Statement .pal4 := fun _ => by decide
theorem EncodedWidth.pal8 : EncodedWidth.Statement .pal8 := fun _ => by decide
theorem EncodedWidth.graya8 : EncodedWidth.Statement .graya8 := fun _ => by decide
theorem EncodedWidth.graya16 : EncodedWidth.Statement .graya16 := fun _ => by decide
theorem EncodedWidth.rgba8 : EncodedWidth.Statement .rgba8 := fun _ => by decide
theorem EncodedWidth.rgba16 : EncodedWidth.Statement .rgba16 := fun _ => by decide
theorem EncodedWidth.interlaceNone : EncodedWidth.Statement .interlaceNone := fun _ => by decide
theorem EncodedWidth.interlaceAdam7 : EncodedWidth.Statement .interlaceAdam7 := fun _ => by decide
theorem EncodedWidth.pfDijkstra : EncodedWidth.Statement .pfDijkstra := fun _ => by decide
theorem EncodedWidth.pfAstar : EncodedWidth.Statement .pfAstar := fun _ => by decide
theorem EncodedWidth.btypeStored : EncodedWidth.Statement .btypeStored := fun _ => by decide
theorem EncodedWidth.btypeFixed : EncodedWidth.Statement .btypeFixed := fun _ => by decide
theorem EncodedWidth.btypeDynamic : EncodedWidth.Statement .btypeDynamic := fun _ => by decide
theorem EncodedWidth.btypeReserved : EncodedWidth.Statement .btypeReserved := fun _ => by decide
theorem EncodedWidth.lit (value : Nat) : EncodedWidth.Statement (.lit value) := by
  intro h
  have hv := of_decide_eq_true h
  simp only [encode, Format.width]
  omega
theorem EncodedWidth.eob : EncodedWidth.Statement .eob := fun _ => by decide
theorem EncodedWidth.len257 : EncodedWidth.Statement .len257 := fun _ => by decide
theorem EncodedWidth.len258 : EncodedWidth.Statement .len258 := fun _ => by decide
theorem EncodedWidth.len259 : EncodedWidth.Statement .len259 := fun _ => by decide
theorem EncodedWidth.len260 : EncodedWidth.Statement .len260 := fun _ => by decide
theorem EncodedWidth.len261 : EncodedWidth.Statement .len261 := fun _ => by decide
theorem EncodedWidth.len262 : EncodedWidth.Statement .len262 := fun _ => by decide
theorem EncodedWidth.len263 : EncodedWidth.Statement .len263 := fun _ => by decide
theorem EncodedWidth.len264 : EncodedWidth.Statement .len264 := fun _ => by decide
theorem EncodedWidth.len265 : EncodedWidth.Statement .len265 := fun _ => by decide
theorem EncodedWidth.len266 : EncodedWidth.Statement .len266 := fun _ => by decide
theorem EncodedWidth.len267 : EncodedWidth.Statement .len267 := fun _ => by decide
theorem EncodedWidth.len268 : EncodedWidth.Statement .len268 := fun _ => by decide
theorem EncodedWidth.len269 : EncodedWidth.Statement .len269 := fun _ => by decide
theorem EncodedWidth.len270 : EncodedWidth.Statement .len270 := fun _ => by decide
theorem EncodedWidth.len271 : EncodedWidth.Statement .len271 := fun _ => by decide
theorem EncodedWidth.len272 : EncodedWidth.Statement .len272 := fun _ => by decide
theorem EncodedWidth.len273 : EncodedWidth.Statement .len273 := fun _ => by decide
theorem EncodedWidth.len274 : EncodedWidth.Statement .len274 := fun _ => by decide
theorem EncodedWidth.len275 : EncodedWidth.Statement .len275 := fun _ => by decide
theorem EncodedWidth.len276 : EncodedWidth.Statement .len276 := fun _ => by decide
theorem EncodedWidth.len277 : EncodedWidth.Statement .len277 := fun _ => by decide
theorem EncodedWidth.len278 : EncodedWidth.Statement .len278 := fun _ => by decide
theorem EncodedWidth.len279 : EncodedWidth.Statement .len279 := fun _ => by decide
theorem EncodedWidth.len280 : EncodedWidth.Statement .len280 := fun _ => by decide
theorem EncodedWidth.len281 : EncodedWidth.Statement .len281 := fun _ => by decide
theorem EncodedWidth.len282 : EncodedWidth.Statement .len282 := fun _ => by decide
theorem EncodedWidth.len283 : EncodedWidth.Statement .len283 := fun _ => by decide
theorem EncodedWidth.len284 : EncodedWidth.Statement .len284 := fun _ => by decide
theorem EncodedWidth.len285 : EncodedWidth.Statement .len285 := fun _ => by decide
theorem EncodedWidth.litlenReserved286 : EncodedWidth.Statement .litlenReserved286 := fun _ => by decide
theorem EncodedWidth.litlenReserved287 : EncodedWidth.Statement .litlenReserved287 := fun _ => by decide
theorem EncodedWidth.dist0 : EncodedWidth.Statement .dist0 := fun _ => by decide
theorem EncodedWidth.dist1 : EncodedWidth.Statement .dist1 := fun _ => by decide
theorem EncodedWidth.dist2 : EncodedWidth.Statement .dist2 := fun _ => by decide
theorem EncodedWidth.dist3 : EncodedWidth.Statement .dist3 := fun _ => by decide
theorem EncodedWidth.dist4 : EncodedWidth.Statement .dist4 := fun _ => by decide
theorem EncodedWidth.dist5 : EncodedWidth.Statement .dist5 := fun _ => by decide
theorem EncodedWidth.dist6 : EncodedWidth.Statement .dist6 := fun _ => by decide
theorem EncodedWidth.dist7 : EncodedWidth.Statement .dist7 := fun _ => by decide
theorem EncodedWidth.dist8 : EncodedWidth.Statement .dist8 := fun _ => by decide
theorem EncodedWidth.dist9 : EncodedWidth.Statement .dist9 := fun _ => by decide
theorem EncodedWidth.dist10 : EncodedWidth.Statement .dist10 := fun _ => by decide
theorem EncodedWidth.dist11 : EncodedWidth.Statement .dist11 := fun _ => by decide
theorem EncodedWidth.dist12 : EncodedWidth.Statement .dist12 := fun _ => by decide
theorem EncodedWidth.dist13 : EncodedWidth.Statement .dist13 := fun _ => by decide
theorem EncodedWidth.dist14 : EncodedWidth.Statement .dist14 := fun _ => by decide
theorem EncodedWidth.dist15 : EncodedWidth.Statement .dist15 := fun _ => by decide
theorem EncodedWidth.dist16 : EncodedWidth.Statement .dist16 := fun _ => by decide
theorem EncodedWidth.dist17 : EncodedWidth.Statement .dist17 := fun _ => by decide
theorem EncodedWidth.dist18 : EncodedWidth.Statement .dist18 := fun _ => by decide
theorem EncodedWidth.dist19 : EncodedWidth.Statement .dist19 := fun _ => by decide
theorem EncodedWidth.dist20 : EncodedWidth.Statement .dist20 := fun _ => by decide
theorem EncodedWidth.dist21 : EncodedWidth.Statement .dist21 := fun _ => by decide
theorem EncodedWidth.dist22 : EncodedWidth.Statement .dist22 := fun _ => by decide
theorem EncodedWidth.dist23 : EncodedWidth.Statement .dist23 := fun _ => by decide
theorem EncodedWidth.dist24 : EncodedWidth.Statement .dist24 := fun _ => by decide
theorem EncodedWidth.dist25 : EncodedWidth.Statement .dist25 := fun _ => by decide
theorem EncodedWidth.dist26 : EncodedWidth.Statement .dist26 := fun _ => by decide
theorem EncodedWidth.dist27 : EncodedWidth.Statement .dist27 := fun _ => by decide
theorem EncodedWidth.dist28 : EncodedWidth.Statement .dist28 := fun _ => by decide
theorem EncodedWidth.dist29 : EncodedWidth.Statement .dist29 := fun _ => by decide
theorem EncodedWidth.distReserved30 : EncodedWidth.Statement .distReserved30 := fun _ => by decide
theorem EncodedWidth.distReserved31 : EncodedWidth.Statement .distReserved31 := fun _ => by decide
theorem EncodedWidth.clLen (length : Nat) : EncodedWidth.Statement (.clLen length) := by
  intro h
  have hv := of_decide_eq_true h
  simp only [encode, Format.width]
  omega
theorem EncodedWidth.clRep16 : EncodedWidth.Statement .clRep16 := fun _ => by decide
theorem EncodedWidth.clRep17 : EncodedWidth.Statement .clRep17 := fun _ => by decide
theorem EncodedWidth.clRep18 : EncodedWidth.Statement .clRep18 := fun _ => by decide

end Sys2Proof.Laws
end

