-- ==== Sys2Proof/Laws/Unfilter.lean ====
section
/-! SUPPORT. What the filter reversal FSM does with a whole row (41_unfilter.md R271, R274, R284): for a selector
above 4 it fails, otherwise it ends in DONE with the reconstruction of its row. -/

namespace Sys2Proof.Machine

/-- The two spellings of a filter's prediction agree. -/
theorem filterPrediction_eq (f a b c : Nat) : filterPrediction f a b c = predicted f a b c :=
  match f with
  | 0 => rfl
  | 1 => rfl
  | 2 => rfl
  | 3 => rfl
  | _ + 4 => rfl

/-- The neighbour bpp back, from a row and from a longer row that begins with it. -/
theorem leftOf_append (row rest : List Byte) {bpp i : Nat} (h0 : 1 ≤ bpp) (h : i ≤ row.length) :
    leftOf row bpp i = neighbour (row ++ rest) bpp i := by
  unfold leftOf neighbour rowByte
  by_cases hb : bpp ≤ i
  · rw [if_pos hb, if_neg (by omega), List.getD_append _ _ _ _ (by omega)]
  · rw [if_neg hb, if_pos (by omega)]

/-- RUN from a byte of the row to the end: the bytes made so far stay, and each further byte is the filter of its
neighbours in the finished row. -/
theorem FilterFsm.runAll_spec (n : Nat) (m : FilterFsm) (hp : m.phase = .run) (hb : 1 ≤ m.bpp)
    (hi : m.i = m.raw.length) (hn : m.i + n = m.flt.length + 1) (h1 : 1 ≤ n) :
    ∃ rest : List Byte, FilterFsm.runAll n m = { m with phase := .done, i := m.flt.length, raw := m.raw ++ rest } ∧
      m.raw.length + rest.length = m.flt.length ∧
      ∀ j, m.i ≤ j → j < m.flt.length → rowByte (m.raw ++ rest) j =
        (rowByte m.flt j + predicted m.f (neighbour (m.raw ++ rest) m.bpp j) (rowByte m.prev j)
          (neighbour m.prev m.bpp j)) % 256 := by
  induction n generalizing m with
  | zero => omega
  | succ n ih =>
    simp only [FilterFsm.runAll, hp]
    by_cases hl : m.i < m.flt.length
    · have hx : m.flt[m.i]? = some m.flt[m.i] := List.getElem?_eq_getElem hl
      let b := filterByte m.f m.flt[m.i] (leftOf m.raw m.bpp m.i) (m.prev.getD m.i 0).toNat (leftOf m.prev m.bpp m.i)
      have ha : m.advance = { m with raw := m.raw ++ [b], i := m.i + 1 } := by
        simp only [FilterFsm.advance, hx]
        rfl
      rw [ha]
      obtain ⟨rest, hr, hlen, hall⟩ :=
        ih { m with raw := m.raw ++ [b], i := m.i + 1 } hp hb (by simp [hi]) (by simp only; omega) (by omega)
      simp only [List.append_assoc, List.singleton_append, List.length_append, List.length_singleton] at hr hlen hall
      refine ⟨b :: rest, hr, by simp only [List.length_cons]; omega, fun j hj hjl => ?_⟩
      rcases Nat.lt_or_ge m.i j with h | h
      · exact hall j h hjl
      · obtain rfl : j = m.i := by omega
        have hb' : rowByte (m.raw ++ b :: rest) m.i = b.toNat := by simp [rowByte, hi]
        have hf : rowByte m.flt m.i = m.flt[m.i].toNat := by simp [rowByte, hx]
        have hprev : leftOf m.prev m.bpp m.i = neighbour m.prev m.bpp m.i := by
          unfold leftOf neighbour rowByte
          by_cases hc : m.bpp ≤ m.i
          · rw [if_pos hc, if_neg (by omega)]
          · rw [if_neg hc, if_pos (by omega)]
        rw [hb', hf, ← leftOf_append m.raw (b :: rest) hb (by omega), ← hprev, ← filterPrediction_eq]
        simp only [b, filterByte, rowByte, BitVec.toNat_ofNat]
        omega
    · have hx : m.flt[m.i]? = none := List.getElem?_eq_none (by omega)
      have hn0 : n = 0 := by omega
      subst hn0
      refine ⟨[], ?_, by simp; omega, fun j h h' => by omega⟩
      simp only [FilterFsm.advance, hx, FilterFsm.runAll, List.append_nil]
      have : m.i = m.flt.length := by omega
      rw [← this]

/-- A selector above 4 goes to FAIL and makes no byte (R271, R281). -/
theorem FilterFsm.filtered_fail {f : Nat} (m : FilterFsm) (h : 4 < f) :
    m.filtered f = { m with f := f, phase := .fail } := by
  simp only [FilterFsm.filtered, FilterFsm.select, if_pos h, FilterFsm.runAll]

/-- A filter ends in DONE with the reconstruction of the row (R271, R274, R284). -/
theorem FilterFsm.filtered_done {f : Nat} (m : FilterFsm) (h : f ≤ 4) (hb : 1 ≤ m.bpp) :
    ∃ raw, m.filtered f = { m with phase := .done, f := f, i := m.flt.length, raw := raw } ∧
      reconstructs f m.bpp m.flt m.prev raw := by
  have hs : m.select f = { m with f := f, i := 0, raw := [], phase := .run } := by
    simp only [FilterFsm.select, if_neg (Nat.not_lt.2 h)]
  obtain ⟨rest, hr, hlen, hall⟩ := FilterFsm.runAll_spec (m.flt.length + 1) { m with f := f, i := 0, raw := [], phase := .run }
    rfl hb rfl (by simp) (by omega)
  refine ⟨rest, ?_, ?_⟩
  · rw [FilterFsm.filtered, hs, hr]
    simp
  · simp only [List.nil_append, List.length_nil, Nat.zero_add] at hlen hall
    exact ⟨hlen, fun i hi => hall i (Nat.zero_le _) hi⟩

end Sys2Proof.Machine
end

