-- ==== Sys2Proof/Laws/Unpack.lean ====
section
/-! SUPPORT. What the pixel unpacker computes (42_unpack.md R303 to R310): the samples as divisions, and the records
of a row by position. -/

namespace Sys2Proof.Machine

/-- A field of k bits at bit n, taken by mask and shift or by division. -/
theorem and_mask_div (b k n : Nat) : (b &&& ((2 ^ k - 1) * 2 ^ n)) / 2 ^ n = b / 2 ^ n % 2 ^ k := by
  apply Nat.eq_of_testBit_eq
  intro i
  rw [Nat.testBit_div_two_pow, Nat.testBit_and, Nat.testBit_mod_two_pow, Nat.testBit_div_two_pow,
    Nat.testBit_mul_two_pow, Nat.testBit_two_pow_sub_one]
  by_cases h : i < k <;> simp [h, Nat.add_comm i n]

/-- The place of the current pixel is the one of its column, if its depth has one (R302). -/
def Unpacker.placed (u : Unpacker) (bd : Nat) : Prop := u.place = bitPlace bd u.x

@[simp] theorem Unpacker.startAt_placed (bd x : Nat) (u : Unpacker) : (u.startAt bd x).placed bd := rfl

@[simp] theorem Unpacker.advance_placed (ct bd c : Nat) (u : Unpacker) : (u.advance ct bd c).placed bd := rfl

/-- A sample, as R303 to R305 give it. -/
theorem Unpacker.sample_eq {u : Unpacker} {bd : Nat} (hu : u.placed bd) (k c : Nat) (hb : bd ∈ [1, 2, 4, 8, 16]) :
    u.sample bd c k = sampleAt u.row bd c u.x k := by
  unfold Unpacker.sample sampleAt
  rw [hu]
  unfold bitPlace
  by_cases h : bd < 8
  · rw [if_pos h, if_pos h]
    simp only [sampleSubByte, and_mask_div]
    simp only [List.mem_cons, List.not_mem_nil, or_false] at hb
    rcases hb with rfl | rfl | rfl | rfl | rfl <;> simp at h ⊢
  · rw [if_neg h, if_neg h]
    rfl

/-- The record of a pixel, as R308 to R310 give its fields. -/
theorem Unpacker.record_eq {u : Unpacker} {bd : Nat} (hu : u.placed bd) (ct c : Nat) (hb : bd ∈ [1, 2, 4, 8, 16]) :
    u.record ct bd c = pixelFields u.row ct bd c u.x := by
  unfold Unpacker.record pixelFields
  simp only [Unpacker.sample_eq hu _ _ hb]
  split <;> simp

/-- A record has four fields. -/
@[simp] theorem Unpacker.length_record (u : Unpacker) (ct bd c : Nat) : (u.record ct bd c).length = 4 := by
  unfold Unpacker.record
  split <;> rfl

/-- A record is 8 bytes. -/
@[simp] theorem length_recordBytes (u : Unpacker) (ct bd c : Nat) : (recordBytes (u.record ct bd c)).length = 8 := by
  have h := u.length_record ct bd c
  match u.record ct bd c, h with
  | [_, _, _, _], _ => rfl

/-- No records of no pixels. -/
@[simp] theorem rowRecords_zero (row : List Byte) (ct bd c x : Nat) : rowRecords row ct bd c x 0 = [] := rfl

/-- The records from column x on are the one of column x, then those from the next column on. -/
theorem rowRecords_succ (row : List Byte) (ct bd c x n : Nat) :
    rowRecords row ct bd c x (n + 1) =
      recordBytes ((Unpacker.startAt bd x ⟨0, row, 0, none, []⟩).record ct bd c) ++ rowRecords row ct bd c (x + 1) n := by
  rw [rowRecords, Unpacker.runAll, Unpacker.runAll_out rfl]
  rfl

/-- n records are 8 × n bytes. -/
@[simp] theorem length_rowRecords (row : List Byte) (ct bd c x n : Nat) :
    (rowRecords row ct bd c x n).length = 8 * n := by
  induction n generalizing x with
  | zero => rfl
  | succ n ih =>
    simp only [rowRecords_succ, List.length_append, length_recordBytes, ih]
    omega

/-- Record j of a row, by its position. -/
theorem rowRecords_drop (row : List Byte) (ct bd c x : Nat) {n j : Nat} (hb : bd ∈ [1, 2, 4, 8, 16]) (h : j < n) :
    ((rowRecords row ct bd c x n).drop (8 * j)).take 8 = recordBytes (pixelFields row ct bd c (x + j)) := by
  induction n generalizing x j with
  | zero => omega
  | succ n ih =>
    rw [rowRecords_succ]
    cases j with
    | zero =>
      rw [Nat.mul_zero, List.drop_zero, List.take_left' (length_recordBytes _ ct bd c),
        Unpacker.record_eq (Unpacker.startAt_placed bd x _) ct c hb]
      rfl
    | succ j =>
      rw [show 8 * (j + 1) = 8 + 8 * j by omega, ← List.drop_drop,
        List.drop_left' (length_recordBytes _ ct bd c), ih (x + 1) (by omega)]
      congr 2
      omega

end Sys2Proof.Machine
end

