-- ==== Sys2Proof/Laws/Pipeline.lean ====
section
/-! SUPPORT. What the rows of an image command do and may change (41_unfilter.md R284, 42_unpack.md R313,
43_decode_pipeline.md R345), and what the inflate phase leaves (40_inflate.md R252). -/

namespace Sys2Proof.Machine

/-- UnfilterRow (R284): the reconstruction of the row is written, or, for a selector above 4, nothing. -/
theorem unfilterRow_cases (y : Nat) (s : State) (hb : 1 ≤ s.der.bpp.toNat) :
    let f := (s.mem.readByte (s.infRow y)).toNat
    (4 < f ∧ unfilterRow y s = .raised .unknownFilter (BitVec.ofNat 32 y) s) ∨
      (f ≤ 4 ∧ ∃ raw, unfilterRow y s = .ok { s with mem := s.mem.write (s.rawRow y) raw } ∧
        reconstructs f s.der.bpp.toNat (FilterFsm.load y s).flt (FilterFsm.load y s).prev raw) := by
  simp only
  rcases Nat.lt_or_ge 4 (s.mem.readByte (s.infRow y)).toNat with h | h
  · refine .inl ⟨h, ?_⟩
    rw [unfilterRow, FilterFsm.filtered_fail _ h]
    rfl
  · obtain ⟨raw, hr, hc⟩ := FilterFsm.filtered_done (FilterFsm.load y s) h hb
    refine .inr ⟨h, raw, ?_, hc⟩
    rw [unfilterRow, hr]
    rfl

/-- UnfilterRow writes memory only, and nothing when it raises, which is with UnknownFilter(y). -/
theorem unfilterRow_frame (y : Nat) (s : State) :
    (∃ m, unfilterRow y s = .ok { s with mem := m }) ∨
      unfilterRow y s = .raised .unknownFilter (BitVec.ofNat 32 ((FilterFsm.load y s).filtered
        (s.mem.readByte (s.infRow y)).toNat).y) s := by
  unfold unfilterRow filterEnd
  split
  · exact .inr rfl
  · exact .inl ⟨_, rfl⟩
  · exact .inl ⟨_, rfl⟩
  · exact .inl ⟨_, rfl⟩

/-- UnpackRow writes memory only, if the header pair is a row of R301. -/
theorem unpackRow_ok (y : Nat) (s : State) (h : s.hdr.bitDepth.toNat ∈ depthsOf s.hdr.colorType.toNat) :
    unpackRow y s = .ok (unpackWith s.hdr.colorType.toNat s.hdr.bitDepth.toNat y s) := by
  simp only [unpackRow, if_pos h]

/-- State t is state s with another memory and ROWS_DONE: all that the rows of a DECODE write (R345). -/
def State.rowsAs (s t : State) : Prop := t = { s with mem := t.mem, rowsDone := t.rowsDone }

theorem State.rowsAs_refl (s : State) : s.rowsAs s := rfl

theorem State.rowsAs_trans {s t u : State} (h : s.rowsAs t) (g : t.rowsAs u) : s.rowsAs u := by
  unfold State.rowsAs at *
  rw [g, h]

/-- However a row of DECODE ends, it changes no more than R345 lets it, and it raises UnknownFilter only. -/
theorem decodeRow_frame (y : Nat) (s : State) :
    (∀ t, decodeRow y s = .ok t → s.rowsAs t ∧ t.rowsDone = BitVec.ofNat 32 (y + 1)) ∧
      ∀ e n t, decodeRow y s = .raised e n t → e = .unknownFilter ∧ t = s := by
  unfold decodeRow
  rcases unfilterRow_frame y s with ⟨m, h⟩ | h
  · rw [h]
    unfold unpackRow
    simp only [Ended.andThen_ok]
    split
    · exact ⟨fun t ht => by cases ht; exact ⟨rfl, rfl⟩, fun _ _ _ ht => by cases ht⟩
    · exact ⟨fun t ht => (by cases ht), fun _ _ _ ht => by cases ht⟩
  · rw [h]
    exact ⟨fun t ht => (by cases ht), fun _ _ _ ht => by cases ht; exact ⟨rfl, rfl⟩⟩

/-- However the rows of DECODE end, they change no more than R345 lets them, and they raise UnknownFilter only. -/
theorem decodeRows_frame (n y : Nat) (s : State) :
    (∀ t, decodeRows n y s = .ok t → s.rowsAs t) ∧
      ∀ e m t, decodeRows n y s = .raised e m t → e = .unknownFilter ∧ s.rowsAs t := by
  induction n generalizing y s with
  | zero => exact ⟨fun t ht => by cases ht; exact s.rowsAs_refl, fun _ _ _ ht => by cases ht⟩
  | succ n ih =>
    unfold decodeRows
    obtain ⟨h1, h2⟩ := decodeRow_frame y s
    cases h : decodeRow y s with
    | ok a =>
      obtain ⟨g1, g2⟩ := ih (y + 1) a
      have ha := (h1 a h).1
      exact ⟨fun t ht => State.rowsAs_trans ha (g1 t ht),
        fun e m t ht => ⟨(g2 e m t ht).1, State.rowsAs_trans ha (g2 e m t ht).2⟩⟩
    | raised e m a =>
      obtain ⟨he, ha⟩ := h2 e m a h
      exact ⟨fun t ht => (by cases ht), fun _ _ _ ht => by cases ht; exact ⟨he, by rw [ha]; exact s.rowsAs_refl⟩⟩
    | stuck x => exact ⟨fun t ht => (by cases ht), fun _ _ _ ht => by cases ht⟩

/-- The inflate phase (R252): a stream error, or the bytes in the buffer, the results, and the rule goes on. -/
theorem inflatePhase_cases (isDecode : Bool) (s : State) (next : Nat → State → Ended) :
    (∃ x, inflateStream (s.mem.read s.buf.srcAddr.toNat s.buf.srcLen.toNat) = .error x ∧
        inflatePhase isDecode s next = .raised .decompressionFailed (BitVec.ofNat 32 x.code)
          (drawWrites (s.inflateRegions isDecode) (drawInfResults s))) ∨
      ∃ c, inflateStream (s.mem.read s.buf.srcAddr.toNat s.buf.srcLen.toNat) = .ok c ∧
        inflatePhase isDecode s next = next c.hist.length
          { s with
            mem := s.mem.write s.buf.infAddr.toNat (c.hist.reverse.take s.buf.infCap.toNat)
            inf := ⟨saturate c.hist.length, BitVec.ofNat 32 (c.pos / 8), BitVec.ofNat 32 (adler32 c.hist.reverse)⟩ } := by
  unfold inflatePhase
  cases h : inflateStream (s.mem.read s.buf.srcAddr.toNat s.buf.srcLen.toNat) with
  | error x => exact .inl ⟨x, rfl, rfl⟩
  | ok c =>
    refine .inr ⟨c, rfl, ?_⟩
    simp only [inflateStream_adler h]
    rfl

end Sys2Proof.Machine
end

