-- ==== Sys2Proof/Tests/Slice0.lean ====
section
/-! SUPPORT. The model's own tests: ill-formed terms that are refused, every row of opcode_table.json decoded from
its bits, vectors of 95_test_vectors.md (each named in its test), and for each statement of
Certificates/Slice0/Obligations.lean a state and operands that meet its hypotheses. -/

namespace Sys2Proof.Tests

open Sys2Proof Sys2Proof.Machine

-- One theorem after another: their kernel checks at once need more threads than the check's memory limit allows.
set_option Elab.async false

/-! ### Well-formedness -/

theorem test_lit_256_refused : (Instr.lit 256).wellFormed = false := by decide

theorem test_lit_255_accepted : (Instr.lit 255).wellFormed = true := by decide

theorem test_clLen_16_refused : (Instr.clLen 16).wellFormed = false := by decide

theorem test_clLen_15_accepted : (Instr.clLen 15).wellFormed = true := by decide

/-! ### Decoding: each row's bits, written out from the encodings of 30_encoding.md R141, R145 to R150 -/

/-- Each value of a format decodes to the item beside it. -/
def decodesTo (f : Format) (ws : List (Nat × Instr)) : Bool := ws.all fun p => decide (decode f p.1 = .ok p.2)

/-- Each value decodes to no item. -/
def rejects (f : Format) (ws : List Nat) : Bool := ws.all fun v => !(decode f v).toBool

theorem test_decode_cmd : (
  decodesTo .cmd [(0b00000000000000000000000000000000, .nop), (0b00000000000000000000000000000001, .hdrCheck),
    (0b00000000000000000000000000000010, .inflate), (0b00000000000000000000000000000011, .sizeCheck),
    (0b00000000000000000000000000000100, .unfilterRow), (0b00000000000000000000000000000101, .unpackRow),
    (0b00000000000000000000000000000110, .decode), (0b00000000000000000000000000010000, .pfStart),
    (0b00000000000000000000000000010001, .pfStep), (0b00000000000000000000000000010010, .pfTrace),
    (0b00000000000000000000000000010011, .pfSearch), (0b00000000000000000000000000011000, .pqClear)] &&
  decodesTo .cmd [(0b00000000000000000000000000011001, .pqInsert),
    (0b00000000000000000000000000011010, .pqExtract), (0b00000000000000000000000000011011, .pqPeek),
    (0b00000000000000000000000000011100, .pqDecrease), (0b00000000000000000000000000011101, .nodeRead)]) = true := by decide +kernel

theorem test_decode_fsel : (
  decodesTo .fsel [(0b00000000, .filterNone), (0b00000001, .filterSub), (0b00000010, .filterUp),
    (0b00000011, .filterAverage), (0b00000100, .filterPaeth)]) = true := by decide +kernel

theorem test_decode_hdrKey : (
  decodesTo .hdrKey [(0b0000000100000000, .gray1), (0b0000001000000000, .gray2), (0b0000010000000000, .gray4),
    (0b0000100000000000, .gray8), (0b0001000000000000, .gray16), (0b0000100000000010, .rgb8),
    (0b0001000000000010, .rgb16), (0b0000000100000011, .pal1), (0b0000001000000011, .pal2),
    (0b0000010000000011, .pal4), (0b0000100000000011, .pal8), (0b0000100000000100, .graya8)] &&
  decodesTo .hdrKey [(0b0001000000000100, .graya16), (0b0000100000000110, .rgba8),
    (0b0001000000000110, .rgba16)]) = true := by decide +kernel

theorem test_decode_interlace : (
  decodesTo .interlace [(0b00000000, .interlaceNone), (0b00000001, .interlaceAdam7)]) = true := by decide +kernel

theorem test_decode_pfMode : (
  decodesTo .pfMode [(0b0, .pfDijkstra), (0b1, .pfAstar)]) = true := by decide +kernel

theorem test_decode_btype : (
  decodesTo .btype [(0b00, .btypeStored), (0b01, .btypeFixed), (0b10, .btypeDynamic), (0b11, .btypeReserved)]) = true := by decide +kernel

theorem test_decode_litLen : (
  decodesTo .litLen [(0b000000000, .lit 0), (0b001100001, .lit 97), (0b011111111, .lit 255),
    (0b100000000, .eob), (0b100000001, .len257), (0b100000010, .len258), (0b100000011, .len259),
    (0b100000100, .len260), (0b100000101, .len261), (0b100000110, .len262), (0b100000111, .len263),
    (0b100001000, .len264)] &&
  decodesTo .litLen [(0b100001001, .len265), (0b100001010, .len266), (0b100001011, .len267),
    (0b100001100, .len268), (0b100001101, .len269), (0b100001110, .len270), (0b100001111, .len271),
    (0b100010000, .len272), (0b100010001, .len273), (0b100010010, .len274), (0b100010011, .len275),
    (0b100010100, .len276)] &&
  decodesTo .litLen [(0b100010101, .len277), (0b100010110, .len278), (0b100010111, .len279),
    (0b100011000, .len280), (0b100011001, .len281), (0b100011010, .len282), (0b100011011, .len283),
    (0b100011100, .len284), (0b100011101, .len285), (0b100011110, .litlenReserved286),
    (0b100011111, .litlenReserved287)]) = true := by decide +kernel

theorem test_decode_dist : (
  decodesTo .dist [(0b00000, .dist0), (0b00001, .dist1), (0b00010, .dist2), (0b00011, .dist3),
    (0b00100, .dist4), (0b00101, .dist5), (0b00110, .dist6), (0b00111, .dist7), (0b01000, .dist8),
    (0b01001, .dist9), (0b01010, .dist10), (0b01011, .dist11)] &&
  decodesTo .dist [(0b01100, .dist12), (0b01101, .dist13), (0b01110, .dist14), (0b01111, .dist15),
    (0b10000, .dist16), (0b10001, .dist17), (0b10010, .dist18), (0b10011, .dist19), (0b10100, .dist20),
    (0b10101, .dist21), (0b10110, .dist22), (0b10111, .dist23)] &&
  decodesTo .dist [(0b11000, .dist24), (0b11001, .dist25), (0b11010, .dist26), (0b11011, .dist27),
    (0b11100, .dist28), (0b11101, .dist29), (0b11110, .distReserved30), (0b11111, .distReserved31)]) = true := by decide +kernel

theorem test_decode_cl : (
  decodesTo .cl [(0b00000, .clLen 0), (0b00111, .clLen 7), (0b01111, .clLen 15), (0b10000, .clRep16),
    (0b10001, .clRep17), (0b10010, .clRep18)]) = true := by decide +kernel
-- V-ENC-2 to V-ENC-5, and the reserved values of R145 to R147.
theorem test_reserved_values_rejected :
    (rejects .cmd [0x07, 0x0F, 0x14, 0x17, 0x1E, 0xFF, 0x100, 0x107, 0x80000000] &&
      rejects .fsel [5, 255] && rejects .hdrKey [0x0402, 0x1003, 0x0801, 0x0705] && rejects .interlace [2, 255] &&
      rejects .litLen [288, 511] && rejects .cl [19, 31] && rejects .dist [32] && rejects .pfMode [2]) = true := by
  decide

/-! ### Vectors of 95_test_vectors.md -/

/-- What a next state shows. -/
def shows {α : Type} (o : Host.Outcome State Fault Refusal) (f : State → α) : Option α :=
  match o with
  | .next t => some (f t)
  | .fault _ => none
  | .refused _ => none

/-- STATUS, ERR_CODE, ERR_INFO and ERR_CMD after a run. -/
def report (s : State) : Nat × Nat × Nat × Nat :=
  ((Reg.status.value s).toNat, (Reg.errCode.value s).toNat, (Reg.errInfo.value s).toNat, (Reg.errCmd.value s).toNat)

/-- Bytes of memory as numbers. -/
def bytesAt (a n : Nat) (s : State) : List Nat := (s.mem.read a n).map BitVec.toNat

/-- RES0 to RES3. -/
def resOf (s : State) : List Nat := [s.res.r0, s.res.r1, s.res.r2, s.res.r3].map BitVec.toNat

/-- The frontier as (x, y, cost, d). -/
def frontierOf (s : State) : List (List Nat) := s.frontier.map fun e => [e.x.toNat, e.y.toNat, e.cost.toNat, e.d.toNat]

-- V-ENC-1 and V-ENC-2.
theorem test_nop : shows (step (State.reset.withFetchWord 32 0)) report = some (0x2, 0, 0, 0) := by decide

theorem test_illegal_word :
    shows (step (State.reset.withFetchWord 32 0x107)) report = some (0x6, 0x20, 0x107, 0x07) := by decide

-- V-ENC-9: a narrow field keeps the low bits.
theorem test_narrow_field_keeps_low_bits :
    shows (hostWrite 4 0x048 0x110 State.reset) (fun t => (Reg.bitDepth.value t).toNat) = some 0x10 := by decide

-- V-ENC-11.
theorem test_byte_read_refused : hostRead 1 0x008 State.reset = .refused (.hostAccess 1 0x008) := by rfl

/-- A state with a header. -/
def imageState (w h : Word) (bd ct : Byte) : State := { State.reset with hdr := ⟨w, h, bd, ct, 0, 0, 0⟩ }

/-- The derived registers. -/
def derivedOf (s : State) : List Nat :=
  [s.der.channels.toNat, s.der.pixelBits.toNat, s.der.bpp.toNat, s.der.scanlineBytes.toNat, s.der.expectedLen.toNat,
   s.der.pixKind.toNat]

-- V-HDR-3 and V-HDR-16.
theorem test_hdrCheck_rgb16 :
    shows (exec .hdrCheck (imageState 3 7 16 2)) (fun t => ((report t).1, derivedOf t)) =
      some (0x12, [3, 48, 6, 18, 133, 1]) := by decide +kernel

theorem test_hdrCheck_too_large :
    shows (exec .hdrCheck (imageState 65536 65536 16 6)) report = some (0x6, 0x23, 0x100, 0x01) := by decide +kernel

/-- A state with a zlib stream at 0x1000 and the buffers of 2.4 and 2.8. -/
def streamState (s : State) (src : List Nat) (cap : Word) : State :=
  { s with
    mem := s.mem.write 0x1000 (src.map (BitVec.ofNat 8))
    buf := ⟨0x1000, BitVec.ofNat 32 src.length, 0x2000, cap, 0x3000, 0x4000⟩ }

/-- The INF results. -/
def infOf (s : State) : List Nat := [s.inf.len.toNat, s.inf.srcUsed.toNat, s.inf.adler.toNat]

/-- V-INF-4's stream: a literal, then an overlapping copy. -/
def copyStream : List Nat := [0x78, 0x01, 0x4B, 0x04, 0x02, 0x00, 0x03, 0xCE, 0x01, 0x85]

/-- V-INF-6's stream: a dynamic block. -/
def dynamicStream : List Nat :=
  [0x78, 0x01, 0x05, 0x80, 0x81, 0x08, 0x00, 0x00, 0x00, 0x80] ++
  [0x58, 0x7F, 0x7F, 0x87, 0xC3, 0x06, 0x02, 0x4D, 0x01, 0x27]

-- V-INF-4 and V-INF-6.
theorem test_inflate_copy :
    shows (exec .inflate (streamState State.reset copyStream 16)) (fun t => ((report t).1, infOf t, bytesAt 0x2000 5 t)) =
      some (0x22, [4, 10, 0x03CE0185], [0x61, 0x61, 0x61, 0x61, 0]) := by decide +kernel

theorem test_inflate_dynamic :
    shows (exec .inflate (streamState State.reset dynamicStream 16)) (fun t => (infOf t, bytesAt 0x2000 3 t)) =
      some ([3, 20, 0x024D0127], [0x61, 0x62, 0x63]) := by decide +kernel

-- V-SZ-1.
theorem test_sizeCheck_reset : shows (exec .sizeCheck State.reset) report = some (0x6, 0x21, 0, 0x03) := by decide

-- V-UNF-2d and V-UNF-2e: the filters on one row.
theorem test_filter_average : ((FilterFsm.mk .select 0 0 [] 0 1 [1, 2, 3, 0xFF, 0x80, 0x7F]
    [0x10, 0x20, 0x30, 0x40, 0x50, 0x60]).filtered 3).raw = [0x09, 0x16, 0x26, 0x32, 0xC1, 0x0F] := by decide

theorem test_filter_paeth : ((FilterFsm.mk .select 0 0 [] 0 1 [1, 2, 3, 0xFF, 0x80, 0x7F]
    [0x10, 0x20, 0x30, 0x40, 0x50, 0x60]).filtered 4).raw = [0x11, 0x22, 0x33, 0x3F, 0xD0, 0x4F] := by decide

/-- A checked and inflated Gray image of V-UNF-1, 3×2, with the INF bytes of its rows and row `y` in ARG0. -/
def rowState (inf : List Byte) (y : Word) : State :=
  { imageState 3 2 8 0 with
    ctl := { State.reset.ctl with cfgValid := true, infOk := true }
    der := ⟨1, 8, 1, 3, 8, 0⟩
    inf := ⟨8, 0, 0⟩
    args := ⟨y, 0, 0, 0⟩
    buf := ⟨0x1000, 0, 0x2000, 8, 0x3000, 0x4000⟩
    mem := Memory.write (Memory.write [] 0x2000 inf) 0x3000 [0x0A, 0x0F, 0x14] }

-- V-UNF-1 and V-UNF-11.
theorem test_unfilterRow_up :
    shows (exec .unfilterRow (rowState [1, 0x0A, 5, 5, 2, 1, 1, 1] 1)) (bytesAt 0x3000 6) =
      some [0x0A, 0x0F, 0x14, 0x0B, 0x10, 0x15] := by decide +kernel

theorem test_unfilterRow_unknown :
    shows (exec .unfilterRow (rowState [1, 0x0A, 5, 5, 5, 1, 1, 1] 1)) (fun t => (report t, bytesAt 0x3003 3 t)) =
      some ((0x36, 0x0E, 1, 0x04), [0, 0, 0]) := by decide +kernel

-- V-UNP-4 on row 0 of that image, and V-UNP-1, V-UNP-7 as rows.
theorem test_unpackRow_gray8 :
    shows (exec .unpackRow (rowState [] 0)) (bytesAt 0x4000 24) =
      some [0x0A, 0, 0, 0, 0, 0, 0, 0, 0x0F, 0, 0, 0, 0, 0, 0, 0, 0x14, 0, 0, 0, 0, 0, 0, 0] := by decide +kernel

theorem test_unpack_gray1 :
    rowRecords [0xA5, 0xC0] 0 1 1 0 10 =
      [1, 0, 1, 0, 0, 1, 0, 1, 1, 1].flatMap fun v => [v, 0, 0, 0, 0, 0, 0, 0] := by decide +kernel

theorem test_unpack_rgb16 :
    rowRecords [0x12, 0x34, 0x56, 0x78, 0x9A, 0xBC] 2 16 3 0 1 = [0x34, 0x12, 0x78, 0x56, 0xBC, 0x9A, 0xFF, 0xFF] := by
  decide +kernel

/-- V-DEC-1's stream. -/
def decodeStream : List Nat :=
  [0x78, 0x01, 0x01, 0x08, 0x00, 0xF7, 0xFF, 0x01, 0x0A, 0x05] ++
  [0x05, 0x02, 0x01, 0x01, 0x01, 0x00, 0x9B, 0x00, 0x1B]

-- V-DEC-1 and V-DEC-4.
theorem test_decode :
    shows (exec .decode (streamState (imageState 3 2 8 0) decodeStream 0x100))
      (fun t => ((report t).1, derivedOf t, t.rowsDone.toNat, bytesAt 0x3000 6 t, bytesAt 0x4028 3 t)) =
      some (0x32, [1, 8, 1, 3, 8, 0], 2, [0x0A, 0x0F, 0x14, 0x0B, 0x10, 0x15], [0x15, 0, 0]) := by decide +kernel

theorem test_decode_overflow :
    shows (exec .decode (streamState (imageState 3 2 8 0) decodeStream 7)) (fun t => (report t, infOf t)) =
      some ((0x16, 0x24, 8, 0x06), [8, 19, 0x009B001B]) := by decide +kernel

-- V-KEY-1 to V-KEY-6.
theorem test_keyCmp : [keyCmp 1 4 2 1, keyCmp 0 2 1 0, keyCmp 0 1 1 0, keyCmp 3 0 1 5, keyCmp 1 5 3 0, keyCmp 2 2 2 3] =
    [0, 1, 0, -1, 1, -1] := by decide

/-- V-PQ-1's frontier, with the operands of the next command. -/
def queueState (a : Args) : State :=
  { State.reset with frontier := [⟨1, 0, 3, 0⟩, ⟨0, 0, 5, 0⟩, ⟨2, 0, 5, 0⟩], args := a }

-- V-PQ-5 and V-PQ-10.
theorem test_pqInsert_moves :
    shows (exec .pqInsert (queueState ⟨1, 0, 5, 0⟩)) frontierOf = some [[0, 0, 5, 0], [2, 0, 5, 0], [1, 0, 5, 0]] := by
  decide +kernel

theorem test_pqInsert_low_half :
    shows (exec .pqInsert { State.reset with args := ⟨0x00010005, 0, 0, 0⟩ }) frontierOf = some [[5, 0, 0, 0]] := by
  decide +kernel

-- V-PQ-1, V-PQ-6, V-PQ-11.
theorem test_pqDecrease :
    shows (exec .pqDecrease (queueState ⟨2, 0, 1, 7⟩)) frontierOf = some [[2, 0, 1, 0], [1, 0, 3, 0], [0, 0, 5, 0]] := by
  decide +kernel

theorem test_pqDecrease_absent :
    shows (exec .pqDecrease (queueState ⟨9, 9, 1, 0⟩)) report = some (0x6, 0x2A, 0x00090009, 0x1C) := by decide +kernel

theorem test_pqExtract :
    shows (exec .pqExtract (queueState ⟨0, 0, 0, 0⟩)) (fun t => (resOf t, t.pqCount.toNat)) = some ([1, 0, 3, 0], 2) := by
  decide +kernel

theorem test_pqPeek_empty : shows (exec .pqPeek State.reset) report = some (0x6, 0x29, 0, 0x1B) := by decide

theorem test_pqClear : shows (exec .pqClear (queueState ⟨0, 0, 0, 0⟩)) frontierOf = some [] := by decide

/-- V-PF-1's registers and grid. -/
def gridState : State :=
  { State.reset with
    mem := Memory.write [] 0x8000 [0, 1, 0, 1, 1, 1, 0, 1, 0]
    pf := ⟨3, 3, 0x8000, 1, 0, 1, 2, 1, 0x9000, 16⟩ }

/-- V-PF-1 after PF_STEP 1. -/
def stepped : State :=
  { gridState with
    ctl := { State.reset.ctl with pfState := .active }
    latch := ⟨3, 3, 0x8000, 1, 0, 1, 2, 1⟩
    node := [(1, ⟨0, none, 4⟩), (4, ⟨1, some ⟨1, 0⟩, 1⟩)]
    frontier := [⟨1, 1, 1, 1⟩]
    pfSteps := 1
    args := ⟨1, 1, 0, 0⟩ }

-- V-PF-1.
theorem test_pfStart :
    shows (exec .pfStart gridState) (fun t => ((report t).1, frontierOf t)) = some (0x102, [[1, 0, 0, 4]]) := by
  decide +kernel

theorem test_pfStep :
    shows (exec .pfStep stepped) (fun t => (resOf t, frontierOf t, t.pfSteps.toNat)) =
      some ([1, 1, 1, 1], [[1, 2, 2, 0], [2, 1, 2, 2], [0, 1, 2, 2]], 2) := by decide +kernel

theorem test_nodeRead : shows (exec .nodeRead stepped) resOf = some [7, 1, 1, 1] := by decide +kernel

theorem test_pfTrace_active : shows (exec .pfTrace stepped) report = some (0x106, 0x2B, 1, 0x12) := by decide +kernel

theorem test_pfSearch :
    shows (exec .pfSearch gridState) (fun t => ((report t).1, resOf t, t.pfSteps.toNat, bytesAt 0x9000 12 t)) =
      some (0x202, [1, 2, 2, 0], 3, [1, 0, 0, 0, 1, 0, 1, 0, 1, 0, 2, 0]) := by decide +kernel

-- V-PF-10: the capacity check in the middle of a step.
theorem test_pfStep_overflow :
    shows (exec .pfStep
      { State.reset with
        par := { Params.vectors with frontierCap := 3 }
        mem := Memory.write [] 0x8000 (List.replicate 9 1)
        ctl := { State.reset.ctl with pfState := .active }
        latch := ⟨3, 3, 0x8000, 1, 1, 0, 0, 0⟩
        node := [(4, ⟨0, none, 0⟩)]
        frontier := [⟨1, 1, 0, 0⟩] }) (fun t => (report t, frontierOf t)) =
      some ((0x406, 0x28, 3, 0x11), [[1, 0, 1, 0], [1, 2, 1, 0], [2, 1, 1, 0]]) := by decide +kernel

-- V-RST-2: a soft reset clears IE even though bit 0 is written 1.
theorem test_soft_reset :
    shows (hostWrite 4 0x004 3 stepped) (fun t => ((report t).1, t.ctl.ie, t.pf.w.toNat, decide (t.mem = stepped.mem))) =
      some (0, false, 0, true) := by decide +kernel

/-! ### Data encodings -/

/-- An inflater in the middle of a command, in a place of the stream, with some output, newest byte first. -/
def inflaterOn (src : List Byte) (pos : Nat) (p : InfPhase) (hist : List Byte) : Inflater :=
  hist.foldr Inflater.push { Inflater.start src with pos := pos, phase := p }

/-- A state with that inflater running INFLATE into 16 bytes at 0x2000. -/
def inflating (c : Inflater) : State :=
  { State.reset with
    pending := some 0x02
    unit := .inflating c
    buf := ⟨0x1000, 0, 0x2000, 16, 0x3000, 0x4000⟩ }

/-- The inflater of a running unit. -/
def inflaterOf (s : State) : Option Inflater :=
  match s.unit with
  | .inflating c => some c
  | _ => none

/-- The place, the position and the output of a running inflater, oldest byte first. -/
def progress (s : State) : Option (InfPhase × Nat × List Nat) :=
  (inflaterOf s).map fun c => (c.phase, c.pos, c.hist.reverse.map BitVec.toNat)

-- R223: LEN284 with extra bits 31 is length 258 (V-INF-7); R226: DIST5 with extra bit 1 is distance 8.
theorem test_len284 :
    shows (exec .len284 (inflating (inflaterOn [0b11111] 0 .litLen []))) progress = some (some (.dist 258, 5, [])) := by
  decide +kernel

theorem test_dist5 :
    shows (exec .dist5 (inflating (inflaterOn [1] 0 (.dist 3) [8, 7, 6, 5, 4, 3, 2, 1])))
      (fun t => (progress t, bytesAt 0x2008 3 t)) =
      some (some (.litLen, 1, [1, 2, 3, 4, 5, 6, 7, 8, 1, 2, 3]), [1, 2, 3]) := by decide +kernel

theorem test_lit :
    shows (exec (.lit 0x61) (inflating (inflaterOn [] 0 .litLen []))) (fun t => (progress t, bytesAt 0x2000 1 t)) =
      some (some (.litLen, 0, [0x61]), [0x61]) := by decide +kernel

-- R241: the sums of "a" (V-INF-3's trailer 00 62 00 62).
theorem test_lit_sums :
    shows (exec (.lit 0x61) (inflating (inflaterOn [] 0 .litLen []))) (fun t => (inflaterOf t).map Inflater.sums) =
      some (some ⟨0x62, 0x62⟩) := by decide +kernel

-- V-INF-E15 and V-INF-E16: the trailer missing, and wrong.
theorem test_inflate_trailer :
    (shows (exec .inflate (streamState State.reset [0x78, 0x9C, 0x03, 0x00] 4)) report,
      shows (exec .inflate (streamState State.reset [0x78, 0x9C, 0x03, 0, 0, 0, 0, 2] 4)) report) =
      (some (0x6, 0x0D, 1, 0x02), some (0x6, 0x0D, 12, 0x02)) := by decide +kernel

theorem test_reserved_symbol :
    shows (exec .distReserved30 (inflating (inflaterOn [] 0 (.dist 3) []))) report = some (0x6, 0x0D, 10, 0x02) := by decide +kernel

-- V-INF-E9 and V-INF-E10: a dynamic block with 287 codes, and with an over-subscribed code-length code.
theorem test_btypeDynamic_counts :
    shows (exec .btypeDynamic (inflating (inflaterOn [0xF5, 0, 0, 0, 0] 3 .block []))) report =
      some (0x6, 0x0D, 8, 0x02) := by decide +kernel

theorem test_btypeDynamic_lengths :
    shows (exec .btypeDynamic (inflating (inflaterOn [0x05, 0x00, 0x92, 0, 0, 0, 0] 3 .block []))) report =
      some (0x6, 0x0D, 9, 0x02) := by decide +kernel

-- V-INF-E14: a distance before any byte is emitted.
theorem test_dist0_too_far :
    shows (exec .dist0 (inflating (inflaterOn [] 0 (.dist 3) []))) report = some (0x6, 0x0D, 11, 0x02) := by decide +kernel

-- R210: a stored block of 3 bytes (V-INF-2).
theorem test_btypeStored :
    shows (exec .btypeStored (inflating (inflaterOn [0x01, 0x03, 0x00, 0xFC, 0xFF, 0x00, 0x01, 0x02] 3 .block [])))
      progress = some (some (.block, 64, [0, 1, 2])) := by decide +kernel

-- R214: 18 with extra 86 is 97 zeros (V-INF-6).
theorem test_clRep18 :
    shows (exec .clRep18 (inflating { inflaterOn [86] 0 .codeLen [] with nlit := 257, total := 258 }))
      (fun t => (inflaterOf t).map fun c => (c.lens, c.pos)) = some (some (List.replicate 97 0, 7)) := by decide +kernel

-- R338 and R334: Adam7 before a body and in the header check.
theorem test_adam7_body :
    shows (exec .interlaceAdam7 { State.reset with pending := some 0x04, unit := .bodyCheck }) report =
      some (0x6, 0x0C, 1, 0x04) := by decide +kernel

theorem test_adam7_header :
    shows (exec .interlaceAdam7 { imageState 1 1 8 0 with pending := some 0x01, unit := .headerInterlace 0 8 }) derivedOf =
      some [1, 8, 1, 1, 2, 0] := by decide +kernel

-- R406: the seed's d under the two modes.
theorem test_modes :
    (shows (exec .pfAstar { gridState with pending := some 0x10, unit := .starting }) frontierOf,
      shows (exec .pfDijkstra { gridState with pending := some 0x10, unit := .starting }) frontierOf) =
      (some [[1, 0, 0, 4]], some [[1, 0, 0, 0]]) := by decide +kernel

-- V-UNF-2b as an item; a pair in the unpacker (V-UNP-9).
theorem test_filterSub_item :
    shows (exec .filterSub { rowState [] 0 with
      pending := some 0x04
      unit := .unfiltering ⟨.select, 0, 0, [], 0, 1, [1, 2, 3], [0x10, 0x20, 0x30]⟩ }) (bytesAt 0x3000 3) =
      some [1, 3, 6] := by decide +kernel

theorem test_pal2_item :
    shows (exec .pal2
      { State.reset with
        pending := some 0x05
        unit := .unpacking ⟨0, [0xD8], 0, none, []⟩
        hdr := ⟨3, 1, 2, 3, 0, 0, 0⟩
        der := ⟨1, 2, 1, 1, 2, 2⟩
        buf := ⟨0, 0, 0, 0, 0x3000, 0x4000⟩ }) (fun t => [0x4000, 0x4008, 0x4010].map fun a => (t.mem.readByte a).toNat) =
      some [3, 1, 2] := by decide +kernel

-- R302 and R304: after two pixels of bit depth 2 the current one is column 2, at byte 0 and shift 2.
theorem test_unpacker_place :
    let u := (Unpacker.startAt 2 0 ⟨0, [0xD8], 0, none, []⟩).runAll 3 2 1 2
    (u.x, u.place, u.sample 2 1 0) = (2, some ⟨0, 2⟩, 2) := by decide

/-! ### Witnesses: the hypotheses of each statement, and of each of its clauses, can be met -/

theorem test_witness_DecodeOfEncode :
    Instr.nop.wellFormed = true ∧ (Instr.lit 255).wellFormed = true ∧ (Instr.clLen 15).wellFormed = true := by decide

theorem test_witness_EncodeOfDecode :
    decode .cmd 0x1D = .ok .nodeRead ∧ decode .litLen 255 = .ok (.lit 255) ∧ decode .cl 15 = .ok (.clLen 15) ∧
      decode .hdrKey 0x0100 = .ok .gray1 := by decide

/-- A state with a command word accepted from reset. -/
def accepted (w : Word) : State := accept w State.reset

-- The first and last words of each unassigned range, and a word with a high bit.
theorem test_witness_IllegalCommandCompletes :
    ([0x07, 0x0F, 0x14, 0x17, 0x1E, 0xFF, 0x100, 0x80000000].all fun w =>
      (accepted w).pending == some w && !(decode .cmd w.toNat).toBool) = true := by decide +kernel

theorem test_witness_StepRunsDecodedInstruction :
    (accepted 0).item = none ∧ (accepted 0).pending = some 0 ∧ decode .cmd 0 = .ok .nop ∧ (accepted 0).agenda = [] ∧
      ({ accepted 0 with agenda := [.engineTurn] } : State).agenda = .engineTurn :: [] ∧
      ({ accepted 0 with agenda := [.wait] } : State).agenda = .wait :: [] ∧
      (State.reset.withItem .fsel 4).item = some (.fsel, 4) ∧ decode .fsel 4 = .ok .filterPaeth := by decide

-- Each host access at the head of the agenda, over a block at rest; a poll over a running command.
theorem test_witness_StepRunsDecodedInstruction_host :
    let next := fun op : HostOp => ({ State.reset with agenda := [op] } : State)
    (State.reset.item = none ∧ State.reset.agenda = []) ∧ (next .engineTurn).agenda = .engineTurn :: [] ∧
      ((next .wait).agenda = .wait :: [] ∧ (next .wait).busy = false) ∧
      (({ accepted 0 with agenda := [.wait] } : State).busy = true) ∧ (next (.rd 4 8)).agenda = .rd 4 8 :: [] ∧
      (next (.wr 4 8 0)).agenda = .wr 4 8 0 :: [] ∧ (next (.memRd 0)).agenda = .memRd 0 :: [] ∧
      (next (.memWr 0 1)).agenda = .memWr 0 1 :: [] ∧ (next .hardReset).agenda = .hardReset :: [] := by decide

theorem test_witness_ResetLeaves :
    State.reset.item = none ∧ State.reset.agenda = [] ∧ State.reset.pending = none := by decide

theorem test_witness_SoftResetDropsCommand :
    (2 : Word).getLsbD 1 = true ∧ (3 : Word).getLsbD 1 = true ∧ State.reset.mem.wf ∧ State.reset.pending = none ∧
      (accepted 6).mem.wf ∧ (accepted 6).pending = some 6 := by decide

theorem test_witness_RegisterBlockAccesses :
    ((1 ≠ 4 ∨ 8 % 4 ≠ 0) ∧ (4 ≠ 4 ∨ 0x00A % 4 ≠ 0)) ∧
      0x078 ∈ [0x078, 0x07C, 0x0A8, 0x0AC, 0x0B0, 0x0B4, 0x0B8, 0x0BC, 0x0F4, 0x0F8, 0x0FC] := by decide

theorem test_witness_RegisterReads :
    State.reset.busy = false ∧ (accepted 0).busy = true ∧
      Reg.arg0 ∉ ([.res0, .res1, .res2, .res3, .infLen, .infSrcUsed, .infAdler, .rowsDone, .pathLen, .pqCount,
        .pfSteps] : List Reg) ∧
      (Reg.id, 0x4D5A0007) ∈ registerHolds State.reset ∧ (Reg.pfSteps, 0) ∈ registerHolds State.reset := by decide

theorem test_witness_WriteReadsBackLowBits :
    Reg.bitDepth.access = .rw ∧ Reg.bitDepth ≠ .ctrl ∧ Reg.infCap.access = .rw ∧ Reg.infCap ≠ .ctrl ∧
      State.reset.busy = false := by decide

theorem test_witness_IgnoredWrites :
    Reg.id.access = .ro ∧ Reg.width.access = .rw ∧ Reg.width ≠ .ctrl ∧ (accepted 0).busy = true ∧
      (1 : Word).getLsbD 1 = false ∧ (0 : Word).getLsbD 1 = false := by decide

theorem test_witness_CommandAcceptance : State.reset.busy = false ∧ (accepted 6).busy = true := by decide

theorem test_witness_InterruptLine :
    (accepted 0).pending.isSome = true ∧ (shows (engineStep (accepted 0)) State.irq).isSome = true ∧
      (accepted 7).pending.isSome = true ∧ (shows (engineStep (accepted 7)) State.irq).isSome = true ∧
      State.reset.busy = false ∧ (shows (hostWrite 4 0x00C 0 State.reset) State.irq).isSome = true ∧
      (accepted 0).busy = true ∧ (shows (hostWrite 4 0x00C 0 (accepted 0)) State.irq).isSome = true ∧
      (2 : Word).getLsbD 1 = true ∧ (shows (hostWrite 4 0x008 2 State.reset) State.irq).isSome = true ∧
      (0 : Word).getLsbD 0 = false ∧ (shows (hostWrite 4 0x004 0 State.reset) State.irq).isSome = true ∧
      (shows (hostWrite 4 0x004 2 State.reset) State.irq).isSome = true := by decide

/-- INFLATE accepted, with SRC 0x1000 to 0x1003 and INF 0x2000 to 0x200F. -/
def inflateRunning : State := { accepted 2 with buf := ⟨0x1000, 4, 0x2000, 16, 0, 0⟩ }

-- The last byte of SRC, both ends of INF, the byte after INF.
theorem test_witness_HostMemoryAccesses :
    inflateRunning.mem.wf ∧
      (∀ r ∈ inflateRunning.runningRegions, r.kind = .W → r.holds (0x1003 : Word).toNat = false) ∧
      (∃ r ∈ inflateRunning.runningRegions, r.kind = .W ∧ r.holds (0x2000 : Word).toNat = true) ∧
      (∃ r ∈ inflateRunning.runningRegions, r.kind = .W ∧ r.holds (0x200F : Word).toNat = true) ∧
      (∃ r ∈ inflateRunning.runningRegions, r.holds (0x1000 : Word).toNat = true) ∧
      (∀ r ∈ inflateRunning.runningRegions, r.holds (0x2010 : Word).toNat = false) ∧
      State.reset.pending = none := by decide

-- CommandCompletion, CommandsWriteOnlyTheirState and CommandsWriteOnlyTheirRegions: a command that succeeds and one
-- that fails.
theorem test_witness_commands :
    decode .cmd (0x00 : Word).toNat = .ok .nop ∧ (encode .nop).fmt = .cmd ∧ State.reset.mem.wf ∧
      shows (exec .nop State.reset) (fun t => t.ctl.err) = some false ∧
      decode .cmd (0x1B : Word).toNat = .ok .pqPeek ∧ (encode .pqPeek).fmt = .cmd ∧
      shows (exec .pqPeek State.reset) (fun t => t.ctl.err) = some true := by decide

/-- A region list passes when the check answers its state. -/
theorem passes {rs : List Region} {s : State} (h : checkRegions rs s = .ok s) : regionsPass s.par rs :=
  checkRegions_ok_iff.1 h

/-- A block on a bus that does not complete writes to 0x2005. -/
def closedState : State :=
  { State.reset with par := { Params.vectors with closed := [⟨0x2005, 1, .W⟩] } }

theorem test_witness_RegionCheckOrder_pass :
    regionsPass State.reset.par [⟨0x1000, 8, .R⟩, ⟨0x1000, 8, .R⟩, ⟨0x1008, 0xFFFFEFF8, .W⟩] :=
  passes (s := State.reset) (by decide)

theorem test_witness_RegionCheckOrder_range :
    let rs : List Region := [⟨0, 1, .R⟩, ⟨0xFFFFFFFF, 2, .W⟩]
    rs[1]? = some ⟨0xFFFFFFFF, 2, .W⟩ ∧ 2 ^ 32 < 0xFFFFFFFF + 2 ∧ ∀ q ∈ rs.take 1, q.base + q.len ≤ 2 ^ 32 := by decide

theorem test_witness_RegionCheckOrder_overlap :
    let rs : List Region := [⟨0x1000, 8, .R⟩, ⟨0x1007, 1, .W⟩]
    (∀ q ∈ rs, q.base + q.len ≤ 2 ^ 32) ∧ rs[0]? = some ⟨0x1000, 8, .R⟩ ∧ rs[1]? = some ⟨0x1007, 1, .W⟩ ∧
      (∃ x, (⟨0x1000, 8, .R⟩ : Region).holds x = true ∧ (⟨0x1007, 1, .W⟩ : Region).holds x = true) ∧
      ∀ i' j', i' < j' → ¬ (i' < 0 ∨ (i' = 0 ∧ j' < 1)) :=
  ⟨by decide, rfl, rfl, ⟨0x1007, by decide⟩, by omega⟩

theorem test_witness_RegionCheckOrder_bus :
    let r : Region := ⟨0x2000, 16, .W⟩
    [r][0]? = some r ∧ r.holds 0x2005 = true ∧ admits closedState.par 0x2005 r.kind = false ∧
      ∀ b, r.holds b = true → b < 0x2005 → admits closedState.par b r.kind = true := by
  refine ⟨rfl, by decide, by decide, fun b _ hb => ?_⟩
  simp [admits, closedState]
  omega

theorem test_witness_ResetMeetsInvariant : Params.vectors.wf ∧ Memory.wf [(0x10, 5), (0xFFFFFFFF, 1)] := by decide

/-- An active search on the 2×1 grid 01 01 at 0x8000, from (0, 0) to (1, 0), with a PF_STEP accepted. -/
def activeState : State :=
  { State.reset with
    mem := [(0x8000, 1), (0x8001, 1)]
    pf := ⟨2, 1, 0x8000, 0, 0, 1, 0, 0, 0x9000, 2⟩
    ctl := { State.reset.ctl with pfState := .active }
    latch := ⟨2, 1, 0x8000, 0, 0, 1, 0, 0⟩
    node := [(0, ⟨0, none, 0⟩)]
    frontier := [⟨0, 0, 0, 0⟩]
    pending := some 0x11 }

/-- A cell of the 2×1 grid. -/
theorem cell_cases {c : Coord} {s : State} (hl : s.latch = ⟨2, 1, 0x8000, 0, 0, 1, 0, 0⟩) (h : s.onGrid c = true) :
    c = ⟨0, 0⟩ ∨ c = ⟨1, 0⟩ := by
  obtain ⟨x, y⟩ := c
  simp only [State.onGrid, hl, Bool.and_eq_true, decide_eq_true_eq] at h
  have hx : x = 0 ∨ x = 1 := by bv_omega
  have hy : y = 0 := by bv_omega
  subst hy
  rcases hx with rfl | rfl <;> simp

theorem test_active_inv : activeState.Inv :=
  State.seeded_inv (by decide) (by decide) (by decide) ⟨by decide, by decide, by decide⟩ (by decide) (by decide) rfl rfl rfl
    (by decide)

theorem test_witness_StepKeepsInvariant :
    activeState.Inv ∧ shows (step activeState) (fun t => t.ctl.done) = some true :=
  ⟨test_active_inv, by decide⟩

theorem test_witness_EveryCommandCompletes : activeState.Inv ∧ activeState.pending = some 0x11 := ⟨test_active_inv, rfl⟩

/-- A search on the 2×2 grid of ones at 0x8000, from (0, 1) to (1, 0), with a frontier capacity: north and east of the
start are cells without a node. -/
def squareState (cap : Word) : State :=
  { State.reset with
    par := { Params.vectors with frontierCap := cap }
    mem := Memory.write [] 0x8000 [1, 1, 1, 1]
    ctl := { State.reset.ctl with pfState := .active }
    latch := ⟨2, 2, 0x8000, 0, 1, 1, 0, 0⟩
    node := [(2, ⟨0, none, 0⟩)]
    frontier := [⟨0, 1, 0, 0⟩] }

-- PF_STEP's relaxations: not the goal, and the least capacity with room for the two new entries.
theorem test_witness_PfStepRelaxes :
    (squareState 2).Inv ∧ (squareState 2).ctl.pfState = .active ∧ (squareState 2).frontier = ⟨0, 1, 0, 0⟩ :: [] ∧
      ¬ ((0 : Half) = (squareState 2).latch.gx ∧ (1 : Half) = (squareState 2).latch.gy) ∧
      ([] : List Entry).length + ((⟨0, 1⟩ : Coord).around.filter (squareState 2).makes).length = 2 ∧
      2 ≤ (squareState 2).par.frontierCap.toNat :=
  ⟨State.seeded_inv (by decide) (by decide +kernel) (by decide) ⟨by decide, by decide, by decide⟩ (by decide) (by decide) rfl
    rfl rfl (by decide), by decide +kernel⟩

/-- The same search found, with a path capacity and address. -/
def foundState (cap addr : Word) : State :=
  { State.reset with
    mem := [(0x8000, 1), (0x8001, 1)]
    pf := ⟨2, 1, 0x8000, 0, 0, 1, 0, 0, addr, cap⟩
    ctl := { State.reset.ctl with pfState := .found }
    latch := ⟨2, 1, 0x8000, 0, 0, 1, 0, 0⟩
    node := [(0, ⟨0, none, 0⟩), (1, ⟨1, some ⟨0, 0⟩, 0⟩)] }

theorem found_inv (cap addr : Word) : (foundState cap addr).Inv := by
  refine ⟨?_, ?_, ⟨rfl, rfl⟩, ?_, ?_, ?_, ?_, nofun, fun _ => ⟨?_, rfl, ?_⟩, nofun, fun _ => rfl⟩
  · change Params.vectors.wf
    decide
  · change Memory.wf [(0x8000, 1), (0x8001, 1)]
    decide
  · exact ⟨nofun, .inl rfl, nofun⟩
  · exact ⟨nofun, nofun⟩
  · change frontierWf 64 []
    decide
  · change NodeTable.wf [(0, ⟨0, none, 0⟩), (1, ⟨1, some ⟨0, 0⟩, 0⟩)] (2 * 1)
    decide
  · simp [State.latchInv, foundState, State.onGrid, PfLatch.start, PfLatch.goal, Config.maxPfDim, State.reset,
      State.resetWith, Params.vectors]
  · intro c n hc hn hne
    rcases cell_cases rfl hc with rfl | rfl
    · exact absurd rfl hne
    · obtain rfl : (⟨1, some ⟨0, 0⟩, 0⟩ : Node) = n := Option.some.inj hn
      exact ⟨rfl, ⟨0, 0⟩, _, rfl, rfl, .inr ⟨rfl, .inl rfl⟩, rfl, rfl⟩

-- Not found; found with a path of 2 cells and a capacity of 1; of 2 with a region past 2^32, and with one that passes.
theorem test_witness_PfTraceResult :
    activeState.Inv ∧ activeState.ctl.pfState ≠ .found ∧
      (∀ cap addr, (foundState cap addr).Inv ∧ (foundState cap addr).ctl.pfState = .found ∧
        (foundState cap addr).nodeAt (foundState cap addr).latch.goal = some ⟨1, some ⟨0, 0⟩, 0⟩) ∧
      (foundState 1 0x9000).pf.pathCap.toNat < 2 ∧
      2 ≤ (foundState 2 0xFFFFFFFF).pf.pathCap.toNat ∧
      checkRegions [⟨0xFFFFFFFF, 8, .W⟩] (foundState 2 0xFFFFFFFF) = .raised .tooLarge 0 (foundState 2 0xFFFFFFFF) ∧
      regionsPass (foundState 2 0x9000).par [⟨0x9000, 8, .W⟩] :=
  ⟨test_active_inv, by decide, fun cap addr => ⟨found_inv cap addr, rfl, rfl⟩, by decide, by decide, by decide,
    passes (by decide)⟩

-- The four checks of SIZE_CHECK, each first to fail, and none.
theorem test_witness_NopAndSizeCheck :
    let s := rowState [] 0
    let first := fun t : State => firstError (t.configChecks ++ t.inflatedChecks)
    first State.reset = some (.notConfigured, 0) ∧
      first { s with hdr := { s.hdr with interlace := 1 } } = some (.unsupportedInterlace, 1) ∧
      first { s with ctl := { s.ctl with infOk := false } } = some (.notConfigured, 1) ∧
      first { s with inf := ⟨1, 0, 0⟩ } = some (.scanlineSizeMismatch, 1) ∧ first s = none := by decide

-- The eight checks of the header, each first to fail (V-HDR-7, -9, -10, -13 to -17), and none.
theorem test_witness_HeaderCheckResult :
    let first := fun (w h : Word) (bd ct cm il : Byte) => firstError (headerChecks ⟨w, h, bd, ct, cm, 0, il⟩)
    first 1 1 8 0 1 0 = some (.unsupportedMethod, 1) ∧ first 1 1 8 1 0 0 = some (.invalidColorType, 1) ∧
      first 1 1 7 0 0 0 = some (.invalidBitDepth, 7) ∧ first 1 1 8 0 0 2 = some (.invalidInterlace, 2) ∧
      first 0 1 8 0 0 0 = some (.invalidDimensions, 0) ∧ first 1 0 8 0 0 0 = some (.invalidDimensions, 1) ∧
      first 65536 65536 16 6 0 0 = some (.tooLarge, 0x100) ∧ first 32768 16384 1 0 0 0 = some (.tooLarge, 0x101) ∧
      first 32768 16383 1 0 0 0 = none := by decide +kernel

/-- A stream that inflates, with what holds of the inflater after its trailer. -/
def inflatesWith (src : List Byte) (p : Inflater → Bool) : Bool :=
  match inflateStream src with
  | .ok c => p c
  | .error _ => false

theorem inflates_of {src : List Byte} {p : Inflater → Bool} (h : inflatesWith src p = true) :
    ∃ c, inflateStream src = .ok c ∧ p c = true := by
  unfold inflatesWith at h
  split at h
  · exact ⟨_, ‹_›, h⟩
  · simp at h

/-- The bytes SRC_ADDR and SRC_LEN name. -/
def srcOf (s : State) : List Byte := s.mem.read s.buf.srcAddr.toNat s.buf.srcLen.toNat

-- V-INF-4, with a capacity that the output just fills.
theorem test_witness_InflateSucceeds :
    let s := streamState State.reset copyStream 4
    s.mem.wf ∧
      regionsPass s.par [⟨s.buf.srcAddr.toNat, s.buf.srcLen.toNat, .R⟩, ⟨s.buf.infAddr.toNat, s.buf.infCap.toNat, .W⟩] ∧
      ∃ c, inflateStream (srcOf s) = .ok c ∧ decide (c.hist.length ≤ s.buf.infCap.toNat) = true :=
  ⟨by decide +kernel, passes (by decide +kernel), inflates_of (by decide +kernel)⟩

-- V-INF-13, V-INF-E7 and V-INF-11.
theorem test_witness_InflateFails :
    let s := streamState State.reset copyStream 2
    let bad := streamState State.reset [0x78, 0x9C, 0x07] 2
    let rs := fun t : State =>
      [(⟨t.buf.srcAddr.toNat, t.buf.srcLen.toNat, .R⟩ : Region), ⟨t.buf.infAddr.toNat, t.buf.infCap.toNat, .W⟩]
    checkRegions [⟨0, 0, .R⟩, ⟨0xFFFFFFF8, 16, .W⟩] State.reset = .raised .tooLarge 1 State.reset ∧
      bad.mem.wf ∧ regionsPass bad.par (rs bad) ∧ inflateStream (srcOf bad) = .error .badBtype ∧
      s.mem.wf ∧ regionsPass s.par (rs s) ∧
      ∃ c, inflateStream (srcOf s) = .ok c ∧ decide (s.buf.infCap.toNat < c.hist.length) = true :=
  ⟨by decide, by decide +kernel, passes (by decide +kernel), by decide +kernel, by decide +kernel,
    passes (by decide +kernel), inflates_of (by decide +kernel)⟩

-- V-INF-E1 to V-INF-E6: each header check first to fail; CINFO = 7 and CINFO = 8.
theorem test_witness_ZlibWrapper :
    ([] : List Byte).length < 2 ∧ ([0x78] : List Byte).length < 2 ∧ (0x78 * 256 + 0x00) % 31 ≠ 0 ∧
      ((0x79 * 256 + 0x18) % 31 = 0 ∧ 0x79 % 16 ≠ 8) ∧ ((0x88 * 256 + 0x1C) % 31 = 0 ∧ 0x88 % 16 = 8 ∧ 7 < 0x88 / 16) ∧
      ((0x78 * 256 + 0xBB) % 31 = 0 ∧ 0x78 % 16 = 8 ∧ 0x78 / 16 ≤ 7 ∧ 0xBB / 32 % 2 = 1) := by decide

-- A trailer at the second byte, after output "a": a byte too few; a wrong first byte; the Adler-32 (V-INF-3). A stored
-- stream of no byte.
theorem test_witness_ZlibWrapper_trailer :
    let c := fun last : List Byte => inflaterOn ([0xFF, 0x01, 0x00, 0x62, 0x00] ++ last) 1 .trailer [0x61]
    (c []).phase = .trailer ∧ ((c [0x62]).pos + 7) / 8 = 1 ∧ ¬ (c []).src.length < 1 + 4 ∧
      (inflaterOn [0xFF, 0x00, 0x62, 0x00] 1 .trailer [0x61]).src.length < 1 + 4 ∧
      (1 + 4 ≤ (c []).src.length ∧ trailerAt (c []).src 1 ≠ adlerValue (c []).sums) ∧
      (let d := inflaterOn [0xFF, 0x00, 0x62, 0x00, 0x62] 1 .trailer [0x61]
       1 + 4 ≤ d.src.length ∧ trailerAt d.src 1 = adlerValue d.sums) ∧
      (inflateStream [0x78, 0x01, 0x01, 0x00, 0x00, 0xFF, 0xFF, 0x00, 0x00, 0x00, 0x01]).toBool = true := by
  decide +kernel

theorem test_witness_StoredStreamsInflate :
    let chunks : List (List Byte) := [[], List.replicate 65535 1]
    chunks ≠ [] ∧ ∀ b ∈ chunks, b.length ≤ 65535 := by
  refine ⟨List.cons_ne_nil _ _, fun b hb => ?_⟩
  rcases List.mem_cons.1 hb with rfl | hb
  · simp
  · rw [List.mem_singleton.1 hb, List.length_replicate]

-- The empty output: its trailer is 00 00 00 01; cut to nothing and by its last byte.
theorem test_witness_StoredStreamsInflate_fails :
    let chunks : List (List Byte) := [[]]
    chunks ≠ [] ∧ (∀ b ∈ chunks, b.length ≤ 65535) ∧
      (([0, 0, 0, 2] : List Byte).length = 4 ∧ [0, 0, 0, 2] ≠ trailerBytes (adler32 chunks.flatten)) ∧
      0 < (storedStream chunks).length ∧ 10 < (storedStream chunks).length ∧ ¬ 11 < (storedStream chunks).length := by
  decide

-- V-UNF-6: the predictor is a, b and c.
theorem test_witness_PaethPicksNearest :
    let near := fun (a b c v w : Nat) => ((a : Int) + b - c - v).natAbs ≤ ((a : Int) + b - c - w).natAbs
    (near 10 10 0 10 10 ∧ near 10 10 0 10 0) ∧ (¬ (near 10 20 10 10 20 ∧ near 10 20 10 10 10) ∧ near 10 20 10 20 10) ∧
      (¬ (near 10 20 15 10 20 ∧ near 10 20 15 10 15) ∧ ¬ near 10 20 15 20 15) := by decide

theorem test_witness_UnfilterInvertsFilter :
    4 ≤ 4 ∧ 8 ∈ [1, 2, 3, 4, 6, 8] ∧ ([1, 2, 3] : List Byte).length = ([4, 5, 6] : List Byte).length := by decide

-- V-UNF-1's rows 0 and 1, and row 1 with the selector 4.
theorem test_witness_UnfilterRowSucceeds : ∀ y ∈ [(0, 1), (1, 2)],
    let s := rowState [1, 0x0A, 5, 5, 2, 1, 1, 1] (BitVec.ofNat 32 y.1)
    s.mem.wf ∧ 1 ≤ s.der.bpp.toNat ∧ firstError (s.configChecks ++ s.inflatedChecks ++ s.rowCheck) = none ∧
      checkRegions (unfilterRegionList s) s = .ok s ∧ (s.mem.readByte (s.infRow y.1)).toNat = y.2 := by decide +kernel

-- Each check first to fail; a region past 2^32; the selector 5.
theorem test_witness_RowCommandsFail :
    let s := rowState [1, 0x0A, 5, 5, 5, 1, 1, 1] 1
    let first := fun t : State => firstError (t.configChecks ++ t.inflatedChecks ++ t.rowCheck)
    let firstUnpack := fun t : State => firstError (t.configChecks ++ t.rowCheck)
    let high := { s with buf := { s.buf with rawAddr := 0xFFFFFFFF, pixAddr := 0xFFFFFFFF } }
    first State.reset = some (.notConfigured, 0) ∧ first (rowState [] 2) = some (.rowOutOfRange, 2) ∧
      (first high = none ∧ checkRegions (unfilterRegionList high) high = .raised .tooLarge 1 high) ∧
      (first s = none ∧ regionsPass s.par (unfilterRegionList s) ∧ 4 < (s.mem.readByte (s.infRow 1)).toNat) ∧
      firstUnpack State.reset = some (.notConfigured, 0) ∧ firstUnpack (rowState [] 2) = some (.rowOutOfRange, 2) ∧
      (firstUnpack high = none ∧ checkRegions (unpackRegionList high) high = .raised .tooLarge 0 high) :=
  ⟨by decide +kernel, by decide +kernel, ⟨by decide +kernel, by decide +kernel⟩,
    ⟨by decide +kernel, passes (by decide +kernel), by decide +kernel⟩, by decide +kernel, by decide +kernel,
    by decide +kernel, by decide +kernel⟩

-- Rows 0 and 1 of V-UNF-1's image.
theorem test_witness_UnpackRowSucceeds : ∀ y ∈ [0, 1],
    let s := rowState [] (BitVec.ofNat 32 y)
    s.mem.wf ∧ (0, 1, 0, [1, 2, 4, 8, 16]) ∈ colorModels ∧ 8 ∈ [1, 2, 4, 8, 16] ∧ s.hdr.colorType.toNat = 0 ∧
      s.hdr.bitDepth.toNat = 8 ∧ s.der.channels.toNat = 1 ∧ firstError (s.configChecks ++ s.rowCheck) = none ∧
      checkRegions (unpackRegionList s) s = .ok s := by decide +kernel

-- V-UNP-16.
theorem test_witness_PaddingBitsIgnored :
    let row : List Byte := [0xA5, 0xC0]
    let row' : List Byte := [0xA5, 0xFF]
    row ≠ row' ∧ (0, 1, 0, [1, 2, 4, 8, 16]) ∈ colorModels ∧ 1 ∈ [1, 2, 4, 8, 16] ∧
      ∀ j, j < 10 * (1 * 1) →
        rowByte row (j / 8) / 2 ^ (7 - j % 8) % 2 = rowByte row' (j / 8) / 2 ^ (7 - j % 8) % 2 := by decide +kernel

/-- What DecodeSucceeds and DecodeBodyFails assume before the stream is read. -/
def decodable (s : State) : Prop :=
  s.mem.wf ∧ firstError (headerChecks s.hdr) = none ∧ s.hdr.interlace = 0 ∧
    let checked := { s with
      rowsDone := 0
      der := s.hdr.derived
      ctl := { s.ctl with infOk := false, cfgValid := true } }
    regionsPass s.par (decodeRegionList checked)

-- V-DEC-1.
theorem test_witness_DecodeSucceeds :
    let s := streamState (imageState 3 2 8 0) decodeStream 8
    decodable s ∧ (0, 1, 0, [1, 2, 4, 8, 16]) ∈ colorModels ∧ 8 ∈ [1, 2, 4, 8, 16] ∧ s.hdr.colorType.toNat = 0 ∧
      s.hdr.bitDepth.toNat = 8 ∧
      ∃ c, inflateStream (srcOf s) = .ok c ∧
        (decide (c.hist.length = s.hdr.height.toNat * (1 + rowBytes s.hdr.width.toNat 1 8)) &&
          decide (c.hist.length ≤ s.buf.infCap.toNat) &&
          (List.range 2).all fun y => rowByte c.hist.reverse (y * (1 + rowBytes s.hdr.width.toNat 1 8)) ≤ 4) = true :=
  ⟨⟨by decide +kernel, by decide +kernel, by decide +kernel, passes (s := streamState (imageState 3 2 8 0) decodeStream 8)
      (by decide +kernel)⟩, by decide, by decide, by decide, by decide, inflates_of (by decide +kernel)⟩

-- V-DEC-10, V-DEC-8, V-DEC-5.
theorem test_witness_DecodeRejects :
    let s := imageState 3 2 8 0
    let bad := { s with
      buf := ⟨0x1000, 0, 0x2000, 0x100, 0x2004, 0x4000⟩
      der := s.hdr.derived
      ctl := { s.ctl with cfgValid := true } }
    firstError (headerChecks (imageState 3 2 8 5).hdr) = some (.invalidColorType, 5) ∧
      (firstError (headerChecks { s.hdr with interlace := 1 }) = none) ∧
      firstError (headerChecks s.hdr) = none ∧ s.hdr.interlace = 0 ∧
      checkRegions (decodeRegionList bad) bad = .raised .regionOverlap 0x102 bad := by decide +kernel

/-- V-DEC-2's stream: rows 1 and 2 have unknown selectors. -/
def unknownStream : List Nat :=
  [0x78, 0x01, 0x01, 0x0C, 0x00, 0xF3, 0xFF, 0x01, 0x05, 0x06, 0x07, 0x05] ++
  [0x01, 0x01, 0x01, 0x09, 0x00, 0x00, 0x00, 0x01, 0x28, 0x00, 0x25]

/-- V-DEC-1's image with a stream and an INF capacity. -/
def bodyState (h : Word) (src : List Nat) (cap : Word) : State := streamState (imageState 3 h 8 0) src cap

-- V-DEC-9: the stream is cut; an image of one row more; V-DEC-4's capacity; V-DEC-2.
theorem test_witness_DecodeBodyFails :
    (decodable (bodyState 2 [0x78, 0x01, 0x01] 8) ∧
        inflateStream (srcOf (bodyState 2 [0x78, 0x01, 0x01] 8)) = .error .truncated) ∧
      (decodable (bodyState 3 decodeStream 8) ∧ ∃ c, inflateStream (srcOf (bodyState 3 decodeStream 8)) = .ok c ∧
        decide (c.hist.length ≠ (bodyState 3 decodeStream 8).hdr.derived.expectedLen.toNat) = true) ∧
      (decodable (bodyState 2 decodeStream 7) ∧ ∃ c, inflateStream (srcOf (bodyState 2 decodeStream 7)) = .ok c ∧
        decide (c.hist.length = 8 ∧ (bodyState 2 decodeStream 7).hdr.derived.expectedLen.toNat = 8 ∧
          7 < c.hist.length) = true) ∧
      (decodable (bodyState 3 unknownStream 12) ∧ ∃ c, inflateStream (srcOf (bodyState 3 unknownStream 12)) = .ok c ∧
        decide (c.hist.length = 12 ∧ (bodyState 3 unknownStream 12).hdr.derived.expectedLen.toNat = 12 ∧
          rowByte c.hist.reverse (0 * (1 + 3)) ≤ 4 ∧ 4 < rowByte c.hist.reverse (1 * (1 + 3))) = true) :=
  ⟨⟨⟨by decide +kernel, by decide +kernel, by decide +kernel,
      passes (s := bodyState 2 [0x78, 0x01, 0x01] 8) (by decide +kernel)⟩, by decide +kernel⟩,
    ⟨⟨by decide +kernel, by decide +kernel, by decide +kernel,
      passes (s := bodyState 3 decodeStream 8) (by decide +kernel)⟩, inflates_of (by decide +kernel)⟩,
    ⟨⟨by decide +kernel, by decide +kernel, by decide +kernel,
      passes (s := bodyState 2 decodeStream 7) (by decide +kernel)⟩, inflates_of (by decide +kernel)⟩,
    ⟨⟨by decide +kernel, by decide +kernel, by decide +kernel,
      passes (s := bodyState 3 unknownStream 12) (by decide +kernel)⟩, inflates_of (by decide +kernel)⟩⟩

/-- A state whose search is active. -/
def searching (s : State) : State := { s with ctl := { s.ctl with pfState := .active } }

-- A search is active; a new cell and a full frontier; an old cell in a full frontier, and a new one with room.
theorem test_witness_PqInsertResult :
    let s := queueState ⟨1, 0, 5, 0⟩
    let full := { queueState ⟨9, 0, 5, 0⟩ with par := { Params.vectors with frontierCap := 3 } }
    let others := fun (t : State) (x : Half) => t.frontier.filter fun g => !(g.x = x && g.y = 0)
    frontierWf s.par.frontierCap.toNat s.frontier ∧ (searching s).ctl.pfState = .active ∧ s.ctl.pfState ≠ .active ∧
      frontierWf full.par.frontierCap.toNat full.frontier ∧ (others full 9).length = full.frontier.length ∧
      full.par.frontierCap.toNat ≤ full.frontier.length ∧ (others full 1).length < full.frontier.length ∧
      s.frontier.length < s.par.frontierCap.toNat := by decide

theorem test_witness_PqExtractPeekClear :
    let s := queueState ⟨0, 0, 0, 0⟩
    s.frontier = ⟨1, 0, 3, 0⟩ :: [⟨0, 0, 5, 0⟩, ⟨2, 0, 5, 0⟩] ∧ s.ctl.pfState ≠ .active ∧
      frontierWf s.par.frontierCap.toNat s.frontier ∧ State.reset.frontier = [] ∧
      (searching s).ctl.pfState = .active := by decide

-- A search is active; no entry; an entry whose cost is not lowered (equal), and one whose cost is.
theorem test_witness_PqDecreaseResult :
    let s := queueState ⟨1, 0, 3, 0⟩
    frontierWf s.par.frontierCap.toNat s.frontier ∧ (searching s).ctl.pfState = .active ∧ s.ctl.pfState ≠ .active ∧
      (s.frontier.all fun g => !(decide (g.x.toNat = 9 ∧ g.y.toNat = 9))) = true ∧
      (⟨1, 0, 3, 0⟩ : Entry) ∈ s.frontier ∧ (3 : Word).toNat ≤ s.args.a2.toNat ∧
      (queueState ⟨1, 0, 2, 0⟩).args.a2.toNat < (3 : Word).toNat := by decide

/-- V-PF-1's registers on a grid of another shape. -/
def startOn (w h sx gy : Half) (addr : Word) : State := { gridState with pf := ⟨w, h, addr, sx, 0, 1, gy, 1, 0x9000, 16⟩ }

-- The checks of PF_START, each first to fail at a boundary; a grid that passes 2^32, and the last one that does not.
theorem test_witness_PfStartResult :
    let first := fun s : State => firstError s.startChecks
    1 ≤ gridState.par.frontierCap.toNat ∧ first (startOn 0 3 1 2 0x8000) = some (.invalidDimensions, 2) ∧
      first (startOn 32769 1 0 0 0) = some (.invalidDimensions, 2) ∧
      first (startOn 3 32769 1 2 0) = some (.invalidDimensions, 3) ∧ first (startOn 257 256 0 0 0) = some (.tooLarge, 0x102) ∧
      first (startOn 3 3 3 2 0) = some (.invalidCoordinate, 0) ∧ first (startOn 3 3 1 3 0) = some (.invalidCoordinate, 1) ∧
      (first (startOn 3 3 1 2 0xFFFFFFF8) = none ∧
        checkRegions (pfStartRegionList (startOn 3 3 1 2 0xFFFFFFF8)) (startOn 3 3 1 2 0xFFFFFFF8) =
          .raised .tooLarge 0 (startOn 3 3 1 2 0xFFFFFFF8)) ∧
      (first (startOn 3 3 1 2 0xFFFFFFF7) = none ∧
        checkRegions (pfStartRegionList (startOn 3 3 1 2 0xFFFFFFF7)) (startOn 3 3 1 2 0xFFFFFFF7) =
          .ok (startOn 3 3 1 2 0xFFFFFFF7)) := by decide +kernel

/-- activeState about to extract the goal. -/
def goalState : State := { activeState with frontier := [⟨1, 0, 1, 0⟩] }

theorem test_witness_PfStepEnds :
    State.reset.ctl.pfState ≠ .active ∧
      ((searching State.reset).ctl.pfState = .active ∧ (searching State.reset).frontier = []) ∧
      (goalState.ctl.pfState = .active ∧ goalState.frontier = ⟨1, 0, 1, 0⟩ :: [] ∧ (1 : Half) = goalState.latch.gx ∧
        (0 : Half) = goalState.latch.gy) ∧
      ((squareState 1).Inv ∧ (squareState 1).ctl.pfState = .active ∧ (squareState 1).frontier = ⟨0, 1, 0, 0⟩ :: [] ∧
        ¬ ((0 : Half) = (squareState 1).latch.gx ∧ (1 : Half) = (squareState 1).latch.gy) ∧
        (⟨0, 1⟩ : Coord).around = [⟨0, 0⟩, ⟨0, 2⟩] ++ ⟨1, 1⟩ :: [⟨0xFFFF, 1⟩] ∧ (squareState 1).makes ⟨1, 1⟩ = true ∧
        ([] : List Entry).length + (([⟨0, 0⟩, ⟨0, 2⟩] : List Coord).filter (squareState 1).makes).length =
          (squareState 1).par.frontierCap.toNat) :=
  ⟨by decide, by decide, by decide,
    State.seeded_inv (by decide) (by decide +kernel) (by decide) ⟨by decide, by decide, by decide⟩ (by decide) (by decide) rfl
      rfl rfl (by decide), by decide +kernel⟩

/-- The 2×1 grid of activeState before PF_START, with its two cells' bytes. -/
def lineState (b0 b1 : Byte) : State :=
  { State.reset with mem := Memory.write [] 0x8000 [b0, b1], pf := activeState.pf }

/-- lineState with the latch PF_START gives it. -/
def lineLatched (b0 b1 : Byte) : State := { lineState b0 b1 with latch := activeState.latch }

-- The grid 01 00 has no walk; the grid 01 01 has one of two cells, and none shorter.
theorem test_witness_PfSearchFindsShortestWalk_none :
    (lineState 1 0).par.wf ∧ (lineState 1 0).mem.wf ∧ firstError (lineState 1 0).startChecks = none ∧
      regionsPass (lineState 1 0).par (pfStartRegionList (lineState 1 0)) ∧
      (lineState 1 0).pf.w.toNat * (lineState 1 0).pf.h.toNat ≤ (lineState 1 0).par.frontierCap.toNat ∧
      ¬ ∃ cells, (lineLatched 1 0).isWalk cells := by
  refine ⟨by decide, by decide +kernel, by decide +kernel, passes (by decide +kernel), by decide, ?_⟩
  rintro ⟨cells, hh, hl, -, hp⟩
  match cells, hh, hl, hp with
  | [c], hh, hl, _ =>
    rw [Option.some.inj hh] at hl
    exact absurd hl (by decide)
  | c :: d :: rest, _, hl, hp =>
    have hm : (lineLatched 1 0).latch.goal ∈ (c :: d :: rest).tail := by
      rw [List.getLast?_cons_cons] at hl
      exact List.mem_of_getLast? hl
    exact absurd (hp _ hm).2 (by decide)

theorem test_witness_PfSearchFindsShortestWalk_some :
    let best : List Coord := [⟨0, 0⟩, ⟨1, 0⟩]
    (lineState 1 1).par.wf ∧ (lineState 1 1).mem.wf ∧ firstError (lineState 1 1).startChecks = none ∧
      regionsPass (lineState 1 1).par (pfStartRegionList (lineState 1 1)) ∧ (lineLatched 1 1).isWalk best ∧
      (∀ cells, (lineLatched 1 1).isWalk cells → best.length ≤ cells.length) ∧
      best.length ≤ (lineState 1 1).pf.pathCap.toNat ∧
      regionsPass (lineState 1 1).par (pfStartRegionList (lineState 1 1) ++ [⟨0x9000, 4 * best.length, .W⟩]) := by
  refine ⟨by decide, by decide +kernel, by decide +kernel, passes (by decide +kernel), ?_, ?_, by decide,
    passes (s := lineState 1 1) (by decide +kernel)⟩
  · refine ⟨rfl, rfl, by decide, fun c hc => ?_⟩
    rw [List.mem_singleton.1 hc]
    exact ⟨by decide, by decide⟩
  · rintro cells ⟨hh, hl, -, -⟩
    match cells, hh, hl with
    | [c], hh, hl =>
      rw [Option.some.inj hh] at hl
      exact absurd hl (by decide)
    | _ :: _ :: _, _, _ => simp

/-- A block that has run no search, with pathfinder registers and a command. -/
def beforeSearch (pf : PfRegs) (m : Memory) (w : Option Word) : State := { State.reset with mem := m, pf := pf, pending := w }

theorem before_inv (pf : PfRegs) (m : Memory) (w : Option Word) (hm : m.wf) : (beforeSearch pf m w).Inv :=
  ⟨by change Params.vectors.wf; decide, hm, ⟨rfl, rfl⟩, ⟨fun _ => ⟨rfl, rfl, rfl, rfl, rfl⟩, .inl rfl, nofun⟩, ⟨nofun, nofun⟩,
    by change frontierWf 64 []; decide, ⟨.nil, nofun⟩, fun _ => rfl, fun h => absurd rfl h, nofun, nofun⟩

/-- The line of lineState as one block: its two grid bytes, the path address and capacity. -/
def lineSearch (b0 b1 : Byte) (addr cap : Word) (w : Option Word) : State :=
  beforeSearch ⟨2, 1, 0x8000, 0, 0, 1, 0, 0, addr, cap⟩ (Memory.write [] 0x8000 [b0, b1]) w

-- A check and the region check fail; NoPath; found, with a path that is too long, overlaps the grid, passes 2^32, fits.
theorem test_witness_PfSearchRunsItsPhases :
    (∀ pf m w, m.wf → (beforeSearch pf m w).Inv) ∧ Memory.wf (Memory.write [] 0x8000 [1, 1]) ∧
      firstError (beforeSearch ⟨0, 1, 0, 0, 0, 0, 0, 0, 0, 0⟩ [] none).startChecks = some (.invalidDimensions, 2) ∧
      checkRegions [⟨0xFFFFFFFF, 2 * 1, .R⟩] (beforeSearch ⟨2, 1, 0xFFFFFFFF, 0, 0, 1, 0, 0, 0, 0⟩ [] none) =
        .raised .tooLarge 0 (beforeSearch ⟨2, 1, 0xFFFFFFFF, 0, 0, 1, 0, 0, 0, 0⟩ [] none) ∧
      firstError (lineSearch 1 1 0x9000 2 none).startChecks = none ∧
      regionsPass (lineSearch 1 1 0x9000 2 none).par [⟨0x8000, 2 * 1, .R⟩] ∧
      shows (exec .pfSearch (lineSearch 1 0 0x9000 2 none)) report = some (0x306, 0x10, 1, 0x13) ∧
      shows (exec .pfSearch (lineSearch 1 1 0x9000 1 none)) report = some (0x206, 0x24, 2, 0x13) ∧
      shows (exec .pfSearch (lineSearch 1 1 0x8001 2 none)) report = some (0x206, 0x2C, 1, 0x13) ∧
      shows (exec .pfSearch (lineSearch 1 1 0xFFFFFFF9 2 none)) report = some (0x206, 0x23, 1, 0x13) ∧
      shows (exec .pfSearch (lineSearch 1 1 0x9000 2 none)) report = some (0x202, 0, 0, 0) :=
  ⟨fun pf m w h => before_inv pf m w h, by decide +kernel, by decide, by decide, by decide,
    passes (s := lineSearch 1 1 0x9000 2 none) (by decide +kernel), by decide +kernel⟩

theorem found_running_inv (cap addr : Word) : ({ foundState cap addr with pending := some 0x12 } : State).Inv := by
  obtain ⟨h1, h2, h3, -, h5, h6, h7⟩ := found_inv cap addr
  exact ⟨h1, h2, h3, ⟨fun _ => ⟨rfl, rfl, rfl, rfl, rfl⟩, .inl rfl, nofun⟩, h5, h6, h7⟩

-- Each command pending: its checks fail, and pass; a search that ends without and with a path; the words next to them.
theorem test_witness_runningCommandRegions :
    let run := fun (s : State) (w : Word) => (({ s with pending := some w } : State).runningRegions).length
    let row := rowState [] 1
    (∀ cap addr, ({ foundState cap addr with pending := some 0x12 } : State).Inv) ∧
    (lineSearch 1 1 0x9000 2 (some 0x13)).Inv ∧ run State.reset 2 = 2 ∧ run State.reset 4 = 0 ∧ run row 4 = 3 ∧ run State.reset 5 = 0 ∧ run row 5 = 2 ∧
      run State.reset 6 = 0 ∧ run row 6 = 4 ∧ run State.reset 0x10 = 0 ∧ run gridState 0x10 = 1 ∧
      run State.reset 0x11 = 0 ∧ run stepped 0x11 = 1 ∧ run stepped 0x12 = 0 ∧ run (foundState 1 0x9000) 0x12 = 0 ∧
      run (foundState 2 0x9000) 0x12 = 1 ∧ run State.reset 0x13 = 0 ∧
      run (beforeSearch ⟨2, 1, 0xFFFFFFFF, 0, 0, 1, 0, 0, 0, 0⟩ [] none) 0x13 = 1 ∧
      run (lineSearch 1 0 0x9000 2 none) 0x13 = 1 ∧ run (lineSearch 1 1 0x9000 1 none) 0x13 = 1 ∧
      run (lineSearch 1 1 0x9000 2 none) 0x13 = 2 ∧ [0x03, 0x07, 0x14].all (fun w => run gridState w == 0) = true :=
  ⟨found_running_inv, before_inv _ _ _ (by decide +kernel), by decide +kernel⟩

-- Outside the grid on each side; an EMPTY cell; the start.
theorem test_witness_NodeReadResult :
    activeState.latch.w.toNat ≤ (2 : Word).toNat % 65536 ∧ activeState.latch.h.toNat ≤ (1 : Word).toNat % 65536 ∧
      ((1 : Word).toNat % 65536 < activeState.latch.w.toNat ∧ (0 : Word).toNat % 65536 < activeState.latch.h.toNat ∧
        Sparse.get activeState.node (0 * activeState.latch.w.toNat + 1) = none) ∧
      Sparse.get activeState.node (0 * activeState.latch.w.toNat + 0) = some ⟨0, none, 0⟩ := by decide

/-- A filter FSM at SELECT on a row of three bytes. -/
def selecting : FilterFsm := ⟨.select, 0, 0, [], 0, 1, [1, 2, 3], [0, 0, 0]⟩

-- Every selector up to 4; 5 and 255.
theorem test_witness_FilterSelectorsRun :
    let s := { State.reset with pending := some 0x04, unit := .unfiltering selecting }
    s.unit = .unfiltering selecting ∧ selecting.phase = .select ∧ s.mem.wf ∧ 1 ≤ selecting.bpp ∧
      s.rawRow selecting.y + selecting.flt.length ≤ 2 ^ 32 ∧ (4 < 5 ∧ 5 < 256) ∧ (4 < 255 ∧ 255 < 256) := by decide

theorem test_witness_HeaderPairsRun :
    let u : Unpacker := ⟨1, [0x0A, 0x0F, 0x14], 0, none, []⟩
    let s := { rowState [] 0 with pending := some 0x05, unit := .unpacking u }
    ({ State.reset with pending := some 0x01, unit := .headerKey } : State).unit = .headerKey ∧
      s.unit = .unpacking u ∧ s.mem.wf ∧ s.der.channels.toNat = 1 ∧
      s.pixRow u.y + 8 * s.hdr.width.toNat ≤ 2 ^ 32 := by decide +kernel

theorem test_witness_InterlaceCodesRun :
    let s := { imageState 3 2 8 0 with pending := some 0x01, unit := .headerInterlace 0 8 }
    s.unit = .headerInterlace 0 8 ∧ (0, 1, 0, [1, 2, 4, 8, 16]) ∈ colorModels ∧ 8 ∈ [1, 2, 4, 8, 16] ∧ s.hdr.width ≠ 0 ∧
      s.hdr.height ≠ 0 ∧ s.hdr.height.toNat * (1 + rowBytes s.hdr.width.toNat 1 8) ≤ 0xFFFFFFFF ∧
      8 * s.hdr.width.toNat * s.hdr.height.toNat ≤ 0xFFFFFFFF ∧
      ({ State.reset with pending := some 0x04, unit := .bodyCheck } : State).unit = .bodyCheck := by decide +kernel

theorem test_witness_ModeBitsRun :
    let s := { startOn 3 3 1 2 0x8000 with pending := some 0x10, unit := .starting }
    s.unit = .starting ∧ 1 ≤ s.par.frontierCap.toNat ∧ s.pf.startX.toNat < 32768 ∧ s.pf.startY.toNat < 32768 ∧
      s.pf.goalX.toNat < 32768 ∧ s.pf.goalY.toNat < 32768 := by decide

/-- The inflater of these tests is one about to read an item in its phase. -/
theorem test_witness_inflaterAt (c : Inflater) : inflaterAt (inflating c) c c.phase :=
  ⟨rfl, rfl, rfl, Memory.wf_nil, by change 0x2000 + 16 ≤ 2 ^ 32; decide⟩

-- V-INF-2's block after its type bits.
theorem test_witness_StoredAndFixedBlocksRun :
    let c := inflaterOn [0x01, 0x03, 0x00, 0xFC, 0xFF, 0x00, 0x01, 0x02] 3 .block []
    c.phase = .block ∧ hasBits c.src 8 (32 + 8 * streamBits c.src 8 16) ∧
      streamBits c.src (8 + 16) 16 = 65535 - streamBits c.src 8 16 := by decide +kernel

-- One byte of NLEN missing; NLEN off by one; one byte of the data missing.
theorem test_witness_StoredAndFixedBlocksRun_fails :
    let c := fun src : List Byte => inflaterOn src 3 .block []
    let short := c [0x01, 0x03, 0x00, 0xFC]
    let off := c [0x01, 0x03, 0x00, 0xFD, 0xFF]
    let cut := c [0x01, 0x03, 0x00, 0xFC, 0xFF, 0x00, 0x01]
    ¬ hasBits short.src 8 32 ∧ (hasBits off.src 8 32 ∧ streamBits off.src (8 + 16) 16 ≠ 65535 - streamBits off.src 8 16) ∧
      hasBits cut.src 8 32 ∧ streamBits cut.src (8 + 16) 16 = 65535 - streamBits cut.src 8 16 ∧
      ¬ hasBits cut.src 8 (32 + 8 * streamBits cut.src 8 16) := by decide +kernel

/-- The code-length-code lengths of V-INF-6: symbols 0 and 2 have length 2, 18 has length 1. -/
def dynamicLengths : List Nat := [2, 0, 2, 0, 0, 0, 0, 0, 0, 0, 0, 0, 0, 0, 0, 0, 0, 0, 1]

theorem test_witness_DynamicBlockRuns :
    let c := inflaterOn (dynamicStream.map (BitVec.ofNat 8)) 19 .block []
    c.phase = .block ∧ streamBits c.src (c.pos + 10) 4 + 4 = 16 ∧ hasBits c.src c.pos (14 + 3 * 16) ∧
      streamBits c.src c.pos 5 ≤ 29 ∧ streamBits c.src (c.pos + 5) 5 ≤ 29 ∧ dynamicLengths.length = 19 ∧
      ((List.range 19).all fun k =>
        dynamicLengths.getD ([16, 17, 18, 0, 8, 7, 9, 6, 10, 5, 11, 4, 12, 3, 13, 2, 14, 1, 15].getD k 0) 0 =
          if k < 16 then streamBits c.src (c.pos + 14 + 3 * k) 3 else 0) = true ∧
      buildCode dynamicLengths .codes = some [⟨0, 2, 2⟩, ⟨2, 2, 3⟩, ⟨18, 1, 0⟩] := by decide +kernel

-- 13 of 14 bits; HLIT = 30; HDIST = 30; the last bit of the code-length-code lengths missing; an incomplete code and one
-- that is over-subscribed.
theorem test_witness_DynamicBlockRuns_fails :
    let c := fun (src : List Byte) (pos : Nat) => inflaterOn src pos .block []
    let lit := c [0xF5, 0, 0] 3
    let dist := c [0x05, 30, 0] 3
    let cut := c [0x05, 0, 0, 0] 7
    ¬ hasBits (c [0, 0] 3).src (c [0, 0] 3).pos 14 ∧
      (hasBits lit.src lit.pos 14 ∧ 29 < streamBits lit.src lit.pos 5) ∧
      (hasBits dist.src dist.pos 14 ∧ 29 < streamBits dist.src (dist.pos + 5) 5) ∧
      (hasBits cut.src cut.pos 14 ∧ streamBits cut.src cut.pos 5 ≤ 29 ∧ streamBits cut.src (cut.pos + 5) 5 ≤ 29 ∧
        ¬ hasBits cut.src cut.pos (14 + 3 * (streamBits cut.src (cut.pos + 10) 4 + 4))) ∧
      buildCode (1 :: List.replicate 18 0) .codes = none ∧ buildCode (1 :: 1 :: 7 :: List.replicate 16 0) .codes = none := by
  decide +kernel

-- huffmanCodes: the single code of length 1 of LENS, not of CODES, and one of length 15; no code read, TRUNCATED, BAD_SYMBOL
-- and a symbol after no bit and after one bit.
theorem test_witness_huffmanCodes :
    let code : List HuffEntry := [⟨0, 2, 2⟩, ⟨2, 2, 3⟩, ⟨18, 1, 0⟩]
    (∀ n ∈ [0, 1], n ≤ 15) ∧ buildCode [0, 1] .lens = some [⟨1, 1, 0⟩] ∧ buildCode [0, 1] .codes = none ∧
      (∀ n ∈ [15], n ≤ 15) ∧ buildCode [15] .dists = none ∧ code ≠ [] ∧ hasBits [1] 0 1 ∧
      ((∀ e ∈ code, ¬ (e.len = 1 ∧ e.code = codeBits [1] 0 1)) ∧
        ∃ e ∈ code, 1 < e.len ∧ e.code / 2 ^ (e.len - 1) = codeBits [1] 0 1) ∧
      ¬ hasBits ([] : List Byte) 0 (0 + 1) ∧ ¬ hasBits [1] 7 (1 + 1) ∧ hasBits [1] 0 (1 + 1) ∧
      (⟨0, 2, 2⟩ ∈ code ∧ 2 = codeBits [1] 0 2 ∧ ∀ q ∈ code, q.len = 1 + 1 ∧ q.code = codeBits [1] 0 2 → q = ⟨0, 2, 2⟩) ∧
      (∀ e ∈ [(⟨1, 1, 0⟩ : HuffEntry)], ¬ (e.len = 0 + 1 ∧ e.code = codeBits [1] 0 1)) ∧
      ¬ ∃ e ∈ [(⟨1, 1, 0⟩ : HuffEntry)], 0 + 1 < e.len ∧ e.code / 2 ^ (e.len - (0 + 1)) = codeBits [1] 0 1 := by decide

-- turnsRunItems: a turn in each phase, whose item decodes (with test_witness_inflaterAt).
theorem test_witness_turnsRunItems :
    let one : List HuffEntry := [⟨1, 1, 0⟩]
    let b := inflaterOn [0x03] 0 .block []
    let c := fun p => { inflaterOn [0x00] 0 p [] with cl := one, lit := one, dist := one }
    let read := fun p => { c p with pos := 1 }
    (b.phase = .block ∧ hasBits b.src b.pos 3 ∧ decode .btype (streamBits b.src (b.pos + 1) 2) = .ok .btypeFixed) ∧
      (decodeSymbol (c .codeLen).cl (c .codeLen) = .ok (1, read .codeLen) ∧ decode .cl 1 = .ok (.clLen 1)) ∧
      (decodeSymbol (c .litLen).lit (c .litLen) = .ok (1, read .litLen) ∧ decode .litLen 1 = .ok (.lit 1)) ∧
      (decodeSymbol (c (.dist 3)).dist (c (.dist 3)) = .ok (1, read (.dist 3)) ∧ decode .dist 1 = .ok .dist1) := by
  decide +kernel

-- LengthSymbolsRun and DistanceSymbolsRun: the length symbol with the most extra bits, and a distance as long as the output, and one longer.
theorem test_witness_length_and_distance :
    let c := inflaterOn [0b11111] 0 .litLen []
    let d := inflaterOn [1] 0 (.dist 3) [8, 7, 6, 5, 4, 3, 2, 1]
    c.phase = .litLen ∧ (Instr.len284, 227, 5) ∈ [(Instr.len284, 227, 5)] ∧ hasBits c.src c.pos 5 ∧ d.phase = .dist 3 ∧
      hasBits d.src d.pos 1 ∧ 7 + streamBits d.src d.pos 1 ≤ d.hist.length ∧
      d.hist.length < 9 + streamBits d.src d.pos 2 := by decide +kernel

-- One extra bit too few: four of five for a length, twelve of thirteen for a distance.
theorem test_witness_length_and_distance_fails :
    ¬ hasExtra (inflaterOn [0xFF] 4 .litLen []) 5 ∧ hasExtra (inflaterOn [0xFF] 3 .litLen []) 5 ∧
      ¬ hasExtra (inflaterOn [0xFF, 0xFF] 4 (.dist 3) []) 13 ∧ hasExtra (inflaterOn [0xFF, 0xFF] 3 (.dist 3) []) 13 ∧
      hasExtra (inflaterOn [] 0 (.dist 3) []) 0 := by decide

/-- A dynamic block that lacks its last code length: 256 zeros, then length 1 for the end of block. -/
def lengthsState (lens : List Nat) : Inflater :=
  { inflaterOn [0xFF, 0xFF] 0 .codeLen [] with lens := lens, nlit := 257, total := 258 }

theorem test_witness_CodeLengthSymbolsRun :
    let c := lengthsState [0]
    let last := lengthsState (List.replicate 256 0 ++ [1])
    let lens := last.lens ++ List.replicate (1 + streamBits last.src last.pos 0) 0
    c.phase = .codeLen ∧ c.lens.getLast? = some 0 ∧ hasBits c.src c.pos 7 ∧
      (c.lens ++ List.replicate (11 + streamBits c.src c.pos 7) 0).length < c.total ∧ lens.length = last.total ∧
      (lens.take last.nlit).getD 256 0 ≠ 0 ∧ buildCode (lens.take last.nlit) .lens = some [⟨256, 1, 0⟩] ∧
      buildCode (lens.drop last.nlit) .dists = some [] := by decide +kernel

-- No length before a repeat; six of seven extra bits; one length too many; a whole sequence without an end of block; one
-- whose first part is over-subscribed; one whose second part is a single code of length 2.
theorem test_witness_CodeLengthSymbolsRun_fails :
    let c := lengthsState (List.replicate 257 0)
    let whole := fun (lens : List Nat) (v : Nat) => lens ++ List.replicate (1 + streamBits c.src c.pos 0) v
    let excess := whole (1 :: 1 :: List.replicate 254 0 ++ [1]) 0
    let lone := whole (List.replicate 256 0 ++ [1]) 2
    (lengthsState []).lens = [] ∧ ¬ hasExtra { c with pos := 10 } 7 ∧ hasExtra { c with pos := 9 } 7 ∧ hasExtra c 0 ∧
      c.total < (whole (List.replicate 258 0) 0).length ∧
      ((whole c.lens 0).length = c.total ∧ ((whole c.lens 0).take c.nlit).getD 256 0 = 0) ∧
      (excess.length = c.total ∧ buildCode (excess.take c.nlit) .lens = none) ∧
      lone.length = c.total ∧ buildCode (lone.drop c.nlit) .dists = none := by decide +kernel

-- LiteralsAndEndOfBlockRun and ReservedSymbolsFail: an inflater in each phase (with test_witness_inflaterAt).
theorem test_witness_items :
    (inflaterOn [] 0 .block []).phase = .block ∧ (inflaterOn [] 0 .litLen []).phase = .litLen ∧
      (inflaterOn [] 0 (.dist 3) []).phase = .dist 3 := by decide

end Sys2Proof.Tests
end

section
/-! SUPPORT. How a command's rule ends: in a state of a given kind, with success or with an error that has a code, and
never stuck. Completion turns such an end into an idle engine with DONE set (60_exceptions.md R455, R457). -/

namespace Sys2Proof.Machine

/-- A rule ends in a state with P, with success or with an error that has a code (R451); it is not stuck. -/
def Ended.endsIn (r : Ended) (P : State → Prop) : Prop :=
  match r with
  | .ok s => P s
  | .raised e _ s => e ≠ .none ∧ P s
  | .stuck _ => False

@[simp] theorem Ended.endsIn_ok {s : State} {P : State → Prop} : (Ended.ok s).endsIn P ↔ P s := Iff.rfl

@[simp] theorem Ended.endsIn_raised {e : ErrorKind} {n : Word} {s : State} {P : State → Prop} :
    (Ended.raised e n s).endsIn P ↔ e ≠ .none ∧ P s := Iff.rfl

@[simp] theorem Ended.endsIn_stuck {x : Fault} {P : State → Prop} : (Ended.stuck x).endsIn P ↔ False := Iff.rfl

theorem Ended.endsIn_mono {r : Ended} {P Q : State → Prop} (hr : r.endsIn P) (h : ∀ t, P t → Q t) : r.endsIn Q := by
  cases r with
  | ok t => exact h t hr
  | raised e n t => exact ⟨hr.1, h t hr.2⟩
  | stuck x => exact hr

/-- A sequence ends well when its first part does, and its second does from where the first ran to its end. -/
theorem Ended.endsIn_andThen {r : Ended} {f : State → Ended} {P Q : State → Prop} (hr : r.endsIn P)
    (hPQ : ∀ t, P t → Q t) (hf : ∀ t, r = .ok t → P t → (f t).endsIn Q) : (r.andThen f).endsIn Q := by
  cases r with
  | ok t => exact hf t rfl hr
  | raised e n t => exact ⟨hr.1, hPQ t hr.2⟩
  | stuck x => exact hr

/-- A sequence of which both parts end in states with P. -/
theorem Ended.endsIn_seq {r : Ended} {f : State → Ended} {P : State → Prop} (hr : r.endsIn P)
    (hf : ∀ t, r = .ok t → P t → (f t).endsIn P) : (r.andThen f).endsIn P :=
  Ended.endsIn_andThen hr (fun _ ht => ht) hf

/-- A rule that leaves the state as it is ends in a state with whatever holds of it. -/
theorem Ended.endsIn_of_eq {r : Ended} {s : State} {Q : State → Prop} (hr : r.endsIn (· = s)) (hs : Q s) : r.endsIn Q :=
  Ended.endsIn_mono hr fun t ht => by rwa [ht]

/-- A check that leaves the state as it is, then the rest of the rule. -/
theorem Ended.endsIn_check {r : Ended} {s : State} {f : State → Ended} {Q : State → Prop} (hr : r.endsIn (· = s))
    (hs : Q s) (hf : r = .ok s → (f s).endsIn Q) : (r.andThen f).endsIn Q :=
  Ended.endsIn_andThen hr (fun t ht => by rwa [ht]) fun t hrt ht => by subst ht; exact hf hrt

/-- A raise with its state changed. -/
theorem Ended.endsIn_onRaise {r : Ended} {f : State → State} {P : State → Prop} (hr : r.endsIn P)
    (hf : ∀ t, P t → P (f t)) : (r.onRaise f).endsIn P := by
  cases r with
  | ok t => exact hr
  | raised e n t => exact ⟨hr.1, hf t hr.2⟩
  | stuck x => exact hr

/-- ERR is 0. -/
def State.noError (s : State) : Prop := s.ctl.err = false

/-- The outcome of a completion: the engine is idle with DONE set, and ERR, if set, says this OPC and a code (R455). -/
def completesAs (opc : Byte) (o : Host.Outcome State Fault Refusal) : Prop :=
  ∃ t, o = .next t ∧ t.busy = false ∧ t.ctl.done = true ∧
    (t.ctl.err = true → t.ctl.errCmd = opc ∧ t.ctl.errCode ≠ 0)

/-- A rule that ends, and has not set ERR itself, is completed. -/
theorem complete_completesAs {opc : Byte} {r : Ended} (hr : r.endsIn State.noError) : completesAs opc (complete opc r) := by
  cases r with
  | ok t => exact ⟨finish t, rfl, rfl, rfl, fun h => absurd (hr.symm.trans h) (by decide)⟩
  | raised e n t =>
    exact ⟨takeError opc e n t, rfl, rfl, rfl, fun _ => ⟨rfl, fun h => hr.1 (ErrorKind.code_eq_zero.1 h)⟩⟩
  | stuck x => exact hr.elim

end Sys2Proof.Machine
end

section
/-! SUPPORT. Keys as real numbers and the frontier sorted by them (44_frontier.md R370 to R375), and the heuristic, whose
root a step of the search lowers by at most the step's cost (45_pathfinder.md R406, R407). -/

namespace Sys2Proof.Machine

/-! ### Keys -/

/-- The sign of a + b × √p for b ≥ 0: where a is negative it is told by the squares of both terms (R372). -/
theorem signOf_cases (a : Int) {b : Int} (hb : 0 ≤ b) (p : Nat) :
    let m := if 0 ≤ a then (if a = 0 ∧ b * b * p = 0 then 0 else 1) else Int.sign (b * b * p - a * a)
    (m = -1 ∧ (a : ℝ) + b * √(p : ℝ) < 0) ∨ (m = 0 ∧ (a : ℝ) + b * √(p : ℝ) = 0) ∨
      (m = 1 ∧ 0 < (a : ℝ) + b * √(p : ℝ)) := by
  have hbx : ((b * b * p : Int) : ℝ) = (b * √(p : ℝ)) ^ 2 := by
    rw [mul_pow, Real.sq_sqrt (Nat.cast_nonneg p)]; push_cast; ring
  have hx : (0 : ℝ) ≤ b * √(p : ℝ) := mul_nonneg (by exact_mod_cast hb) (Real.sqrt_nonneg _)
  generalize (b : ℝ) * √(p : ℝ) = x at *
  simp only
  split_ifs with ha h0
  · obtain ⟨rfl, hp⟩ := h0
    rw [hp, Int.cast_zero] at hbx
    exact .inr (.inl ⟨rfl, by rw [sq_eq_zero_iff.1 hbx.symm]; simp⟩)
  · have ha' : (0 : ℝ) ≤ a := by exact_mod_cast ha
    refine .inr (.inr ⟨rfl, (add_nonneg ha' hx).lt_of_ne' fun h => h0 ?_⟩)
    obtain ⟨h1, h2⟩ := (add_eq_zero_iff_of_nonneg ha' hx).1 h
    rw [h2, zero_pow two_ne_zero] at hbx
    exact ⟨by exact_mod_cast h1, by exact_mod_cast hbx⟩
  · have ha' : (0 : ℝ) ≤ -a := by exact_mod_cast (by omega : 0 ≤ -a)
    have hsq : ((b * b * p - a * a : Int) : ℝ) = x ^ 2 - (-a) ^ 2 := by
      rw [Int.cast_sub, hbx]; push_cast; ring
    rcases lt_trichotomy (b * b * p - a * a) 0 with h | h | h
    · have : x ^ 2 < (-a) ^ 2 := by rw [← sub_neg, ← hsq]; exact_mod_cast h
      exact .inl ⟨Int.sign_eq_neg_one_of_neg h, by linarith [lt_of_pow_lt_pow_left₀ 2 ha' this]⟩
    · have : x ^ 2 = (-a) ^ 2 := by rw [← sub_eq_zero, ← hsq, h, Int.cast_zero]
      exact .inr (.inl ⟨by rw [h]; rfl, by linarith [(sq_eq_sq₀ hx ha').1 this]⟩)
    · have : (-(a : ℝ)) ^ 2 < x ^ 2 := by rw [← sub_pos, ← hsq]; exact_mod_cast h
      exact .inr (.inr ⟨Int.sign_eq_one_of_pos h, by linarith [lt_of_pow_lt_pow_left₀ 2 hx this]⟩)

/-- `S(t, P, Q)` is the sign of t + √P − √Q: that of the difference of the squares, a + b × √P (R372). -/
theorem keySign_cases {t : Int} (ht : 0 ≤ t) (p q : Nat) :
    (keySign t p q = -1 ∧ (t : ℝ) + √(p : ℝ) < √(q : ℝ)) ∨ (keySign t p q = 0 ∧ (t : ℝ) + √(p : ℝ) = √(q : ℝ)) ∨
      (keySign t p q = 1 ∧ √(q : ℝ) < (t : ℝ) + √(p : ℝ)) := by
  have ht' : (0 : ℝ) ≤ t := by exact_mod_cast ht
  have hsum : 0 ≤ (t : ℝ) + √(p : ℝ) := add_nonneg ht' (Real.sqrt_nonneg _)
  have hy := Real.sqrt_nonneg (q : ℝ)
  have hd : ((t : ℝ) + √(p : ℝ)) ^ 2 - √(q : ℝ) ^ 2 =
      ((t * t + p - q : Int) : ℝ) + ((2 * t : Int) : ℝ) * √(p : ℝ) := by
    rw [add_sq, Real.sq_sqrt (Nat.cast_nonneg p), Real.sq_sqrt (Nat.cast_nonneg q)]; push_cast; ring
  rcases signOf_cases (t * t + p - q) (show 0 ≤ 2 * t by omega) p with ⟨h, g⟩ | ⟨h, g⟩ | ⟨h, g⟩ <;> rw [← hd] at g
  · exact .inl ⟨h, lt_of_pow_lt_pow_left₀ 2 hy (sub_neg.1 g)⟩
  · exact .inr (.inl ⟨h, (sq_eq_sq₀ hsum hy).1 (sub_eq_zero.1 g)⟩)
  · exact .inr (.inr ⟨h, lt_of_pow_lt_pow_left₀ 2 hsum (sub_pos.1 g)⟩)

/-- KeyCmp is the sign of the difference of two keys (R370, R372). -/
theorem keyCmp_cases (c1 d1 c2 d2 : Nat) :
    (keyCmp c1 d1 c2 d2 = -1 ∧ (c1 : ℝ) + √(d1 : ℝ) < c2 + √(d2 : ℝ)) ∨
      (keyCmp c1 d1 c2 d2 = 0 ∧ (c1 : ℝ) + √(d1 : ℝ) = c2 + √(d2 : ℝ)) ∨
      (keyCmp c1 d1 c2 d2 = 1 ∧ (c2 : ℝ) + √(d2 : ℝ) < c1 + √(d1 : ℝ)) := by
  unfold keyCmp
  simp only
  split_ifs with ht
  · have h := keySign_cases ht d1 d2
    push_cast at h
    rcases h with ⟨h, g⟩ | ⟨h, g⟩ | ⟨h, g⟩
    · exact .inl ⟨h, by linarith⟩
    · exact .inr (.inl ⟨h, by linarith⟩)
    · exact .inr (.inr ⟨h, by linarith⟩)
  · have h := keySign_cases (show 0 ≤ -((c1 : Int) - c2) by omega) d2 d1
    push_cast at h
    rcases h with ⟨h, g⟩ | ⟨h, g⟩ | ⟨h, g⟩
    · exact .inr (.inr ⟨by rw [h]; rfl, by linarith⟩)
    · exact .inr (.inl ⟨by rw [h]; rfl, by linarith⟩)
    · exact .inl ⟨by rw [h], by linarith⟩

/-- The key of a cost and a d: cost + √d (R370). -/
noncomputable def keyOf (cost d : Word) : ℝ := cost.toNat + √(d.toNat : ℝ)

/-- KeyCmp decides the order of keys. -/
theorem keyCmp_nonpos_iff (c1 d1 c2 d2 : Word) :
    keyCmp c1.toNat d1.toNat c2.toNat d2.toNat ≤ 0 ↔ keyOf c1 d1 ≤ keyOf c2 d2 := by
  unfold keyOf
  rcases keyCmp_cases c1.toNat d1.toNat c2.toNat d2.toNat with ⟨h, g⟩ | ⟨h, g⟩ | ⟨h, g⟩ <;> rw [h]
  · simp [g.le]
  · simp [g.le]
  · simp [g]

theorem Entry.cmp_nonpos_iff {e g : Entry} : e.cmp g ≤ 0 ↔ keyOf e.cost e.d ≤ keyOf g.cost g.d :=
  keyCmp_nonpos_iff _ _ _ _

/-! ### The sorted frontier -/

/-- Where no element with p stands behind one without, the elements with p come first. -/
theorem take_countP_drop_countP {α : Type} {p : α → Bool} {l : List α}
    (hl : l.Pairwise fun a b => p b = true → p a = true) :
    l.take (l.countP p) = l.filter p ∧ l.drop (l.countP p) = l.filter fun a => !p a := by
  induction l with
  | nil => simp
  | cons a l ih =>
    obtain ⟨ha, hl⟩ := List.pairwise_cons.1 hl
    cases hp : p a with
    | true => simpa [hp] using ih hl
    | false =>
      have hn : ∀ b ∈ l, p b = false := fun b hb => by
        by_contra h
        exact absurd (ha b hb (by simpa using h)) (by simp [hp])
      have h0 : l.countP p = 0 := List.countP_eq_zero.2 fun b hb => by simp [hn b hb]
      have hf : l.filter p = [] := List.filter_eq_nil_iff.2 fun b hb => by simp [hn b hb]
      have hg : (l.filter fun b => !p b) = l := List.filter_eq_self.2 fun b hb => by simp [hn b hb]
      simp [hp, h0, hf, hg]

/-- In a sorted frontier an inserted entry stands behind those of smaller or equal key and before the others (R375). -/
theorem insertAt_insertPos {f : List Entry} (hf : f.Pairwise fun e g => e.cmp g ≤ 0) (e : Entry) :
    insertAt f (insertPos f e) e =
      (f.filter fun g => decide (g.cmp e ≤ 0)) ++ e :: f.filter fun g => decide (0 < g.cmp e) := by
  have hp : f.Pairwise fun a b => decide (b.cmp e ≤ 0) = true → decide (a.cmp e ≤ 0) = true := by
    refine hf.imp fun {a b} hab => ?_
    simp only [decide_eq_true_eq, Entry.cmp_nonpos_iff] at hab ⊢
    exact hab.trans
  obtain ⟨ht, hd⟩ := take_countP_drop_countP hp
  unfold insertAt insertPos
  rw [ht, hd]
  simp only [← decide_not, not_le]

/-- Placing an entry keeps the frontier sorted (R374, R375). -/
theorem sorted_placeEntry {f : List Entry} (hd : f.Pairwise fun e g => ¬ (e.x = g.x ∧ e.y = g.y))
    (hf : f.Pairwise fun e g => e.cmp g ≤ 0) (e : Entry) : (placeEntry f e).Pairwise fun e g => e.cmp g ≤ 0 := by
  rw [placeEntry_eq hd]
  have hg := hf.filter (fun g => !g.isAt ⟨e.x, e.y⟩)
  simp only [insertAt_insertPos hg]
  generalize f.filter (fun g => !g.isAt ⟨e.x, e.y⟩) = l at hg
  have before : ∀ g ∈ l.filter (fun g => decide (g.cmp e ≤ 0)), g.cmp e ≤ 0 := fun g h => by
    simpa using (List.mem_filter.1 h).2
  have behind : ∀ g ∈ l.filter (fun g => decide (0 < g.cmp e)), e.cmp g ≤ 0 := fun g h => by
    have h0 : 0 < g.cmp e := by simpa using (List.mem_filter.1 h).2
    rw [← not_le, Entry.cmp_nonpos_iff, not_le] at h0
    exact Entry.cmp_nonpos_iff.2 h0.le
  refine List.pairwise_append.2 ⟨hg.filter _, List.pairwise_cons.2 ⟨behind, hg.filter _⟩, fun a ha b hb => ?_⟩
  rcases List.mem_cons.1 hb with rfl | hb
  · exact before a ha
  · exact Entry.cmp_nonpos_iff.2 ((Entry.cmp_nonpos_iff.1 (before a ha)).trans (Entry.cmp_nonpos_iff.1 (behind b hb)))

/-- An entry is not for the cells other than that of its coordinates. -/
theorem Entry.isAt_eq_false {c : Coord} {e : Entry} : e.isAt c = false ↔ c ≠ ⟨e.x, e.y⟩ := by
  obtain ⟨x, y⟩ := c
  rw [Bool.eq_false_iff, ne_eq, Entry.isAt_iff, ne_eq, Coord.mk.injEq, eq_comm (a := x), eq_comm (a := y)]

/-- A cell has no entry when it is not the first entry's and has none in the rest. -/
theorem findCell_cons_eq_none {e : Entry} {f : List Entry} {c : Coord} :
    findCell (e :: f) c = none ↔ c ≠ ⟨e.x, e.y⟩ ∧ findCell f c = none := by
  rw [findCell_eq_none, findCell_eq_none, List.forall_mem_cons, Entry.isAt_eq_false]

/-- Behind the first entry none is for its cell. -/
theorem findCell_rest {e : Entry} {f : List Entry} (hd : ∀ g ∈ f, ¬ (e.x = g.x ∧ e.y = g.y)) :
    findCell f ⟨e.x, e.y⟩ = none := by
  refine findCell_eq_none.2 fun g hg => Entry.isAt_eq_false.2 fun h => hd g hg ?_
  simpa using h

/-- After an entry is placed, the cells without an entry are those without one before, but for its own. -/
theorem findCell_placeEntry_eq_none {f : List Entry} (hf : f.Pairwise fun e g => ¬ (e.x = g.x ∧ e.y = g.y)) {e : Entry}
    {c : Coord} : findCell (placeEntry f e) c = none ↔ c ≠ ⟨e.x, e.y⟩ ∧ findCell f c = none := by
  simp only [findCell_eq_none, Entry.isAt_eq_false, mem_placeEntry hf, forall_eq_or_imp]
  refine and_congr_right fun hc => ⟨fun h g hg => ?_, fun h g hg => h g hg.1⟩
  by_cases hge : g.x = e.x ∧ g.y = e.y
  · rwa [hge.1, hge.2]
  · exact h g ⟨hg, hge⟩

/-! ### The heuristic -/

/-- A step of length 1 changes a distance by at most 1. -/
theorem sqrt_step_le {x y e : ℝ} (he : e = 1 ∨ e = -1) : √((x + e) ^ 2 + y ^ 2) ≤ 1 + √(x ^ 2 + y ^ 2) := by
  have hr := Real.sqrt_nonneg (x ^ 2 + y ^ 2)
  have hsq := Real.sq_sqrt (show 0 ≤ x ^ 2 + y ^ 2 by positivity)
  have hx : |x| ≤ √(x ^ 2 + y ^ 2) := Real.abs_le_sqrt (by nlinarith [sq_nonneg y])
  have hxe : x * e ≤ |x| := by
    rcases he with rfl | rfl
    · simpa using le_abs_self x
    · simpa using neg_le_abs x
  have hee : e ^ 2 = 1 := by rcases he with rfl | rfl <;> norm_num
  refine Real.sqrt_le_iff.2 ⟨by positivity, ?_⟩
  nlinarith

theorem squaredDiff_cast (a b : Nat) : ((squaredDiff a b : Nat) : ℝ) = ((a : ℝ) - b) ^ 2 := by
  have h : ((squaredDiff a b : Nat) : Int) = ((a : Int) - b) * ((a : Int) - b) :=
    Int.toNat_of_nonneg (mul_self_nonneg _)
  have h' := congrArg (Int.cast (R := ℝ)) h
  push_cast at h'
  rw [h', sq]

/-- Coordinates below 32768 have a square of their difference below 2^30. -/
theorem squaredDiff_lt {a b : Nat} (ha : a < 32768) (hb : b < 32768) : squaredDiff a b < 2 ^ 30 := by
  have h : ((a : Int) - b) ^ 2 < 32768 ^ 2 := sq_lt_sq' (by omega) (by omega)
  unfold squaredDiff
  rw [← sq]
  omega

/-- On a latched grid d is not cut to 32 bits (R406). -/
theorem State.heuristic_toNat {s : State} (hl : s.latchInv) {c : Coord} (hc : s.onGrid c = true) :
    (s.heuristic c).toNat = if s.latch.mode = 1 then
      squaredDiff c.x.toNat s.latch.gx.toNat + squaredDiff c.y.toNat s.latch.gy.toNat else 0 := by
  obtain ⟨-, hw, -, hh, -, -, hg, -⟩ := hl
  obtain ⟨hx, hy⟩ := State.onGrid_iff.1 hc
  obtain ⟨hgx, hgy⟩ := State.onGrid_iff.1 hg
  have h1 := squaredDiff_lt (a := c.x.toNat) (b := s.latch.gx.toNat) (hx.trans_le hw) (hgx.trans_le hw)
  have h2 := squaredDiff_lt (a := c.y.toNat) (b := s.latch.gy.toNat) (hy.trans_le hh) (hgy.trans_le hh)
  unfold State.heuristic
  split_ifs
  · exact Nat.mod_eq_of_lt (by omega)
  · rfl

/-- The root of d falls by at most 1 from a cell to an adjacent one (R404, R406). -/
theorem State.heuristic_step {s : State} (hl : s.latchInv) {u v : Coord} (hu : s.onGrid u = true)
    (hv : s.onGrid v = true) (h : u.adjacent v) :
    √((s.heuristic u).toNat : ℝ) ≤ 1 + √((s.heuristic v).toNat : ℝ) := by
  have side : ∀ {a b : Half}, a.toNat + 1 = b.toNat ∨ b.toNat + 1 = a.toNat →
      ∃ e : ℝ, (e = 1 ∨ e = -1) ∧ ∀ g : ℝ, (a.toNat : ℝ) - g = (b.toNat - g) + e := by
    rintro a b (h | h)
    · exact ⟨-1, .inr rfl, fun g => by rw [← h]; push_cast; ring⟩
    · exact ⟨1, .inl rfl, fun g => by rw [← h]; push_cast; ring⟩
  rw [State.heuristic_toNat hl hu, State.heuristic_toNat hl hv]
  split_ifs
  · push_cast [squaredDiff_cast]
    rcases h with ⟨hx, hy⟩ | ⟨hy, hx⟩
    · obtain ⟨e, he, hg⟩ := side hy
      rw [hx, hg, add_comm (_ ^ 2) ((_ + e) ^ 2), add_comm (_ ^ 2) ((_ - (s.latch.gy.toNat : ℝ)) ^ 2)]
      exact sqrt_step_le he
    · obtain ⟨e, he, hg⟩ := side hx
      rw [hy, hg]
      exact sqrt_step_le he
  · simp

end Sys2Proof.Machine
end

section
/-! SUPPORT. The invariants of a search while a cell is expanded (45_pathfinder.md R412 to R419): costs are below the number
of cells, chains of predecessors reach the start, and no relaxation touches a cell that has been extracted. -/

namespace Sys2Proof.Machine

/-! ### The node table -/

/-- The start's node is the one PF_START has put (R411, R419). -/
theorem State.nodeInv_start {s : State} (hs : s.nodeInv) {n : Node} (hn : s.nodeAt s.latch.start = some n) :
    n = ⟨0, none, s.heuristic s.latch.start⟩ := Option.some.inj (hn.symm.trans hs.1)

/-- A node's d is its cell's heuristic (R57, R419). -/
theorem State.nodeInv_d {s : State} (hs : s.nodeInv) {c : Coord} {n : Node} (hc : s.onGrid c = true)
    (hn : s.nodeAt c = some n) : n.d = s.heuristic c := by
  by_cases h : c = s.latch.start
  · subst h
    rw [State.nodeInv_start hs hn]
  · exact (hs.2 c n hc hn h).1

/-- A node that has a predecessor is not the start's, and its predecessor has a node (R419). -/
theorem State.nodeInv_pred {s : State} (hs : s.nodeInv) {c p : Coord} {n : Node} (hc : s.onGrid c = true)
    (hn : s.nodeAt c = some n) (hp : n.pred = some p) :
    s.onGrid p = true ∧ ∃ np, s.nodeAt p = some np ∧ n.cost.toNat = np.cost.toNat + 1 := by
  have hne : c ≠ s.latch.start := by
    rintro rfl
    rw [State.nodeInv_start hs hn] at hp
    cases hp
  obtain ⟨-, q, nq, hq, hgq, -, hnq, hcost⟩ := hs.2 c n hc hn hne
  rw [hp] at hq
  obtain rfl := Option.some.inj hq
  exact ⟨hgq, nq, hnq, hcost⟩

/-- Below a node's cost there is a node of every cost: its chain of predecessors (R419). -/
theorem State.exists_node_of_le_cost {s : State} (hs : s.nodeInv) {k : Nat} {c : Coord} {n : Node}
    (hc : s.onGrid c = true) (hn : s.nodeAt c = some n) (hk : n.cost.toNat = k) {j : Nat} (hj : j ≤ k) :
    ∃ d m, s.onGrid d = true ∧ s.nodeAt d = some m ∧ m.cost.toNat = j := by
  induction k generalizing c n with
  | zero => exact ⟨c, n, hc, hn, by omega⟩
  | succ k ih =>
    rcases Nat.lt_or_ge k j with h | h
    · exact ⟨c, n, hc, hn, by omega⟩
    · have hne : c ≠ s.latch.start := by
        rintro rfl
        rw [State.nodeInv_start hs hn] at hk
        cases hk
      obtain ⟨-, p, np, -, hgp, -, hnp, hcost⟩ := hs.2 c n hc hn hne
      exact ih hgp hnp (by omega) h

/-- The cost listed at an index of the node table, or 0. -/
def NodeTable.costAt (t : NodeTable) (i : Nat) : Nat := ((Sparse.get t i).map fun n => n.cost.toNat).getD 0

/-- A cost is below the number of cells: each cost up to it is the cost of a cell of its own (R418, R419). -/
theorem State.cost_lt {s : State} (hs : s.nodeInv) {c : Coord} {n : Node} (hc : s.onGrid c = true)
    (hn : s.nodeAt c = some n) : n.cost.toNat < s.latch.w.toNat * s.latch.h.toNat := by
  have hsub : Finset.range (n.cost.toNat + 1) ⊆
      (Finset.range (s.latch.w.toNat * s.latch.h.toNat)).image s.node.costAt := by
    intro j hj
    obtain ⟨d, m, hd, hm, hcost⟩ :=
      State.exists_node_of_le_cost hs hc hn rfl (Nat.lt_succ_iff.1 (Finset.mem_range.1 hj))
    refine Finset.mem_image.2 ⟨s.cellIndex d, Finset.mem_range.2 (State.cellIndex_lt hd), ?_⟩
    unfold State.nodeAt at hm
    simp [NodeTable.costAt, hm, hcost]
  simpa using (Finset.card_le_card hsub).trans Finset.card_image_le

/-! ### The trace -/

/-- The chain of predecessors of a node reaches the start in one turn more than its cost (R418, R419). -/
theorem traceChain_path {s : State} (hs : s.nodeInv) (fuel : Nat) {c : Coord} {n : Node} (hc : s.onGrid c = true)
    (hn : s.nodeAt c = some n) (hf : n.cost.toNat < fuel) (cells : List Coord) :
    ∃ p, traceChain s fuel c cells = .path p := by
  induction fuel generalizing c n cells with
  | zero => omega
  | succ k ih =>
    unfold traceChain
    simp only [hn]
    cases hp : n.pred with
    | none => exact ⟨_, rfl⟩
    | some p =>
      obtain ⟨hgp, np, hnp, hcost⟩ := State.nodeInv_pred hs hc hn hp
      exact ih hgp hnp (by omega) _

/-- A search that has found the goal has a path to it (R418, R419). -/
theorem State.foundPath_eq_path {s : State} (hl : s.latchInv) (hs : s.nodeInv)
    (hg : (s.nodeAt s.latch.goal).isSome = true) : ∃ p, s.foundPath = .path p := by
  obtain ⟨-, -, -, -, -, -, hgoal, -⟩ := hl
  obtain ⟨n, hn⟩ := Option.isSome_iff_exists.1 hg
  exact traceChain_path hs _ hgoal hn (State.cost_lt hs hgoal hn) []

/-! ### Expanding a cell (R412 to R415) -/

/-- The cell has been extracted: it has a node and no entry in the frontier. -/
def State.extracted (s : State) (c : Coord) : Prop :=
  s.onGrid c = true ∧ (s.nodeAt c).isSome = true ∧ findCell s.frontier c = none

/-- The key of a node. -/
noncomputable def Node.key (n : Node) : ℝ := keyOf n.cost n.d

/-- What holds between the relaxations from an extracted cell u with node nu (R412, R419): the invariants of the search,
no extracted cell has a key above that of u and no entry one below it, and the cells of `old` are still extracted. -/
structure State.Expanding (u : Coord) (nu : Node) (old : Coord → Prop) (s : State) : Prop where
  latched : s.latchInv
  cells : s.latch.w.toNat * s.latch.h.toNat ≤ 2 ^ 30
  table : s.node.wf (s.latch.w.toNat * s.latch.h.toNat)
  nodes : s.nodeInv
  entries : s.entriesInv
  queue : frontierWf s.par.frontierCap.toNat s.frontier
  preds : ∀ c n p, s.onGrid c = true → s.nodeAt c = some n → n.pred = some p → findCell s.frontier p = none
  extracted : s.extracted u
  node : s.nodeAt u = some nu
  below : ∀ c n, s.extracted c → s.nodeAt c = some n → n.key ≤ nu.key
  above : ∀ e ∈ s.frontier, nu.key ≤ keyOf e.cost e.d
  kept : ∀ c, old c → s.extracted c

variable {u v : Coord} {nu : Node} {old : Coord → Prop} {s : State}

/-- The cost of a relaxation fits in 32 bits. -/
theorem State.Expanding.cost_succ (h : s.Expanding u nu old) :
    (BitVec.ofNat 32 (nu.cost.toNat + 1)).toNat = nu.cost.toNat + 1 := by
  have := (State.cost_lt h.nodes h.extracted.1 h.node).trans_le h.cells
  exact Nat.mod_eq_of_lt (by omega)

/-- A neighbour's key at the cost of a relaxation is not below the key of u: the heuristic is consistent (R407). -/
theorem State.Expanding.key_le (h : s.Expanding u nu old) (hv : s.onGrid v = true) (ha : u.adjacent v) :
    nu.key ≤ keyOf (BitVec.ofNat 32 (nu.cost.toNat + 1)) (s.heuristic v) := by
  have hstep := State.heuristic_step h.latched h.extracted.1 hv ha
  unfold Node.key keyOf
  rw [h.cost_succ, State.nodeInv_d h.nodes h.extracted.1 h.node]
  push_cast
  linarith

/-- No relaxation improves a cell that has been extracted (R407, R415). -/
theorem State.Expanding.not_extracted (h : s.Expanding u nu old) (hv : s.onGrid v = true) (ha : u.adjacent v)
    (hi : s.improves v (nu.cost.toNat + 1) = true) : ¬ s.extracted v := by
  intro hx
  obtain ⟨n, hn⟩ := Option.isSome_iff_exists.1 hx.2.1
  have hlt : nu.cost.toNat + 1 < n.cost.toNat := by simpa [State.improves, hn] using hi
  have hlt' : (nu.cost.toNat : ℝ) + 1 < n.cost.toNat := by exact_mod_cast hlt
  have hkey := (h.below v n hx hn).trans (h.key_le hv ha)
  unfold Node.key keyOf at hkey
  rw [h.cost_succ, State.nodeInv_d h.nodes hv hn] at hkey
  push_cast at hkey
  linarith

/-- The node a relaxation from u, which has node nu, gives v (R413). -/
def State.loweredNode (s : State) (u v : Coord) (nu : Node) : Node :=
  ⟨BitVec.ofNat 32 (nu.cost.toNat + 1), some u, s.heuristic v⟩

theorem State.Expanding.relaxedNode_eq (h : s.Expanding u nu old) (hv : s.onGrid v = true) :
    s.relaxedNode u v (nu.cost.toNat + 1) = s.loweredNode u v nu := by
  unfold State.relaxedNode State.loweredNode
  cases hn : s.nodeAt v with
  | none => rfl
  | some n => simp only [State.nodeInv_d h.nodes hv hn]

/-- The start is never improved: its cost is 0. -/
theorem State.Expanding.ne_start (h : s.Expanding u nu old) (hi : s.improves v (nu.cost.toNat + 1) = true) :
    v ≠ s.latch.start := by
  rintro rfl
  simp [State.improves, h.nodes.1] at hi

/-- State s with a node put for v and its entry placed: what a relaxation that improves v makes of it (R413). -/
def State.relaxed (s : State) (v : Coord) (n : Node) : State :=
  { s.putNode v n with frontier := placeEntry s.frontier ⟨v.x, v.y, n.cost, n.d⟩ }

theorem State.Expanding.nodeAt_relaxed (h : s.Expanding u nu old) (hv : s.onGrid v = true) (n : Node) {d : Coord}
    (hd : s.onGrid d = true) : (s.relaxed v n).nodeAt d = if d = v then some n else s.nodeAt d :=
  State.nodeAt_putNode h.table.1 hv hd

theorem State.Expanding.findCell_relaxed (h : s.Expanding u nu old) {n : Node} {d : Coord} :
    findCell (s.relaxed v n).frontier d = none ↔ d ≠ v ∧ findCell s.frontier d = none :=
  findCell_placeEntry_eq_none h.queue.1

/-- With room for it, the entry of a node just put is placed (R376, R413). -/
theorem frontierInsert_putNode (hroom : s.frontierFull v = false) (n : Node) :
    frontierInsert ⟨v.x, v.y, n.cost, n.d⟩ (s.putNode v n) = .ok (s.relaxed v n) :=
  if_neg (by rw [Bool.not_eq_true]; exact hroom)

theorem State.Expanding.improved_ne (h : s.Expanding u nu old) (hv : s.onGrid v = true) (ha : u.adjacent v)
    (hi : s.improves v (nu.cost.toNat + 1) = true) {c : Coord} (hc : s.extracted c) : c ≠ v := by
  rintro rfl
  exact h.not_extracted hv ha hi hc

/-- A predecessor has been extracted. -/
theorem State.Expanding.pred_extracted (h : s.Expanding u nu old) {c p : Coord} {n : Node} (hc : s.onGrid c = true)
    (hn : s.nodeAt c = some n) (hp : n.pred = some p) : s.extracted p := by
  obtain ⟨hgp, np, hnp, -⟩ := State.nodeInv_pred h.nodes hc hn hp
  exact ⟨hgp, by simp [hnp], h.preds c n p hc hn hp⟩

theorem State.Expanding.entriesInv_relaxed (h : s.Expanding u nu old) (hv : s.onGrid v = true) :
    (s.relaxed v (s.loweredNode u v nu)).entriesInv := by
  intro e he
  rcases (mem_placeEntry h.queue.1).1 he with rfl | ⟨he, hne⟩
  · exact ⟨hv, _, (h.nodeAt_relaxed hv _ hv).trans (if_pos rfl), rfl, rfl⟩
  · obtain ⟨hg, n, hn, hcost, hd⟩ := h.entries e he
    refine ⟨hg, n, (h.nodeAt_relaxed hv _ hg).trans ((if_neg fun hev => hne ?_).trans hn), hcost, hd⟩
    rw [← hev]
    exact ⟨rfl, rfl⟩

section
variable (h : s.Expanding u nu old) (hv : s.onGrid v = true) (ha : u.adjacent v)
  (hi : s.improves v (nu.cost.toNat + 1) = true)
include h hv ha hi

/-- An extracted cell stays extracted, with its node. -/
theorem State.Expanding.extracted_relaxed {c : Coord} (hc : s.extracted c) :
    (s.relaxed v (s.loweredNode u v nu)).extracted c ∧ (s.relaxed v (s.loweredNode u v nu)).nodeAt c = s.nodeAt c := by
  have hne := h.improved_ne hv ha hi hc
  obtain ⟨hg, hsome, hfree⟩ := hc
  have hn := h.nodeAt_relaxed hv (s.loweredNode u v nu) hg
  rw [if_neg hne] at hn
  exact ⟨⟨hg, by rw [hn]; exact hsome, h.findCell_relaxed.2 ⟨hne, hfree⟩⟩, hn⟩

theorem State.Expanding.nodeInv_relaxed : (s.relaxed v (s.loweredNode u v nu)).nodeInv := by
  have hstart : s.onGrid s.latch.start = true := by
    obtain ⟨-, -, -, -, -, hs, -, -⟩ := h.latched
    exact hs
  refine ⟨(h.nodeAt_relaxed hv _ hstart).trans ((if_neg (h.ne_start hi).symm).trans h.nodes.1), fun c n hc hn hne => ?_⟩
  rw [h.nodeAt_relaxed hv _ hc] at hn
  split_ifs at hn with hcv
  · subst hcv
    obtain rfl := Option.some.inj hn
    refine ⟨rfl, u, nu, rfl, h.extracted.1, ha, ?_, h.cost_succ⟩
    rw [(h.extracted_relaxed hv ha hi h.extracted).2, h.node]
  · obtain ⟨hd, p, np, hp, hgp, hadj, hnp, hcost⟩ := h.nodes.2 c n hc hn hne
    refine ⟨hd, p, np, hp, hgp, hadj, ?_, hcost⟩
    rw [(h.extracted_relaxed hv ha hi (h.pred_extracted hc hn hp)).2, hnp]

theorem State.Expanding.preds_relaxed {c p : Coord} {n : Node} (hc : s.onGrid c = true)
    (hn : (s.relaxed v (s.loweredNode u v nu)).nodeAt c = some n) (hp : n.pred = some p) :
    findCell (s.relaxed v (s.loweredNode u v nu)).frontier p = none := by
  have hpx : s.extracted p := by
    rw [h.nodeAt_relaxed hv _ hc] at hn
    split_ifs at hn with hcv
    · obtain rfl := Option.some.inj hn
      obtain rfl := Option.some.inj hp
      exact h.extracted
    · exact h.pred_extracted hc hn hp
  exact (h.extracted_relaxed hv ha hi hpx).1.2.2

/-- A relaxation that improves v keeps what holds between relaxations (R413 to R415). -/
theorem State.Expanding.relaxed (hroom : s.frontierFull v = false) :
    (s.relaxed v (s.loweredNode u v nu)).Expanding u nu old := by
  obtain ⟨hux, hun⟩ := h.extracted_relaxed hv ha hi h.extracted
  obtain ⟨hdist, hsort, hlen⟩ := h.queue
  exact {
    latched := h.latched
    cells := h.cells
    table := ⟨Sparse.sorted_set h.table.1 _ _, fun c hc => by
      rcases Sparse.mem_set hc with ⟨hk, -⟩ | hc
      · rw [hk]
        exact State.cellIndex_lt hv
      · exact h.table.2 c hc⟩
    nodes := h.nodeInv_relaxed hv ha hi
    entries := h.entriesInv_relaxed hv
    queue := ⟨pairwise_placeEntry hdist _, sorted_placeEntry hdist hsort _,
      length_frontierInsert (frontierInsert_putNode hroom _) hlen⟩
    preds := fun c n p hc hn hp => h.preds_relaxed hv ha hi hc hn hp
    extracted := hux
    node := hun.trans h.node
    below := fun c n ⟨hg, _, hfree⟩ hn => by
      obtain ⟨hne, hfree⟩ := h.findCell_relaxed.1 hfree
      rw [h.nodeAt_relaxed hv _ hg, if_neg hne] at hn
      exact h.below c n ⟨hg, by simp [hn], hfree⟩ hn
    above := fun e he => by
      rcases (mem_placeEntry hdist).1 he with rfl | ⟨he, -⟩
      · exact h.key_le hv ha
      · exact h.above e he
    kept := fun c hc => (h.extracted_relaxed hv ha hi (h.kept c hc)).1 }

end

/-- A relaxation from u ends with what holds between relaxations, also where it overflows (R413). -/
theorem relax_endsIn (h : s.Expanding u nu old) (hv : s.onGrid v = true) (ha : u.adjacent v) :
    (relax u v s).endsIn fun t => t.Expanding u nu old := by
  unfold relax
  simp only [h.node]
  split_ifs with hi hfull
  · exact ⟨by decide, { h with }⟩
  · have hroom : s.frontierFull v = false := by simpa using hfull
    rw [h.relaxedNode_eq hv, frontierInsert_putNode hroom]
    exact h.relaxed hv ha hi hroom
  · exact h

/-- A cell of the latched grid has its grid byte below 2^32 (R403, R410). -/
theorem State.gridAddrOf_lt (hl : s.latchInv) (hv : s.onGrid v = true) : s.gridAddrOf v < 2 ^ 32 := by
  obtain ⟨-, -, -, -, -, -, -, hgrid⟩ := hl
  have := State.cellIndex_lt hv
  unfold State.gridAddrOf
  omega

theorem relaxPassable_endsIn (h : s.Expanding u nu old) (hv : s.onGrid v = true) (ha : u.adjacent v) :
    (relaxPassable u v s).endsIn fun t => t.Expanding u nu old := by
  have hlt := State.gridAddrOf_lt h.latched hv
  unfold relaxPassable
  rw [if_neg (by simp [hv]), if_neg (by omega)]
  split_ifs
  · exact h
  · exact relax_endsIn h hv ha

/-- The relaxations of neighbours of u, one after another (R412). -/
theorem relaxAll_endsIn (h : s.Expanding u nu old) (vs : List Coord) (hvs : ∀ v ∈ vs, s.onGrid v = true ∧ u.adjacent v) :
    (relaxAll u vs s).endsIn fun t => t.Expanding u nu old := by
  induction vs generalizing s with
  | nil => exact h
  | cons v vs ih =>
    obtain ⟨⟨hv, ha⟩, hvs⟩ := List.forall_mem_cons.1 hvs
    refine Ended.endsIn_seq (relaxPassable_endsIn h hv ha) fun t hr ht => ih ht fun c hc => ?_
    have hlatch : t.latch = s.latch := by rw [((relaxPassable_relaxes u v s).1 t hr).1]
    obtain ⟨hg, hadj⟩ := hvs c hc
    refine ⟨?_, hadj⟩
    unfold State.onGrid
    rwa [hlatch]

end Sys2Proof.Machine
end

section
/-! SUPPORT. PF_STEP, PF_START, PF_TRACE and PF_SEARCH end, and keep the invariant on the way (45_pathfinder.md R410 to
R422): each step extracts a cell that was not extracted before. -/

namespace Sys2Proof.Machine

variable {s t : State}

/-! ### A step (R412) -/

/-- The state PF_STEP goes on from when it has extracted entry e and left `rest` (R412). -/
def State.afterExtract (s : State) (e : Entry) (rest : List Entry) : State :=
  { s with frontier := rest, res := e.results, pfSteps := s.pfSteps + 1 }

theorem State.Inv.queue (h : s.Inv) : frontierWf s.par.frontierCap.toNat s.frontier := by
  obtain ⟨-, -, -, -, -, hq, -⟩ := h
  exact hq

theorem State.Inv.search (h : s.Inv) : s.searchInv := by
  obtain ⟨-, -, -, -, -, -, hsi⟩ := h
  exact hsi

/-- Once a search has been started, its latch and its node table are as R410 and R419 say. -/
theorem State.Inv.started (h : s.Inv) (hp : s.ctl.pfState ≠ .idle) : s.latchInv ∧ s.nodeInv := by
  obtain ⟨-, -, hstarted, -⟩ := h.search
  exact hstarted hp

/-- The extraction of the first entry establishes what holds between the relaxations from its cell (R407, R419). -/
theorem State.Inv.expanding (h : s.Inv) (hact : s.ctl.pfState = .active) {e : Entry} {rest : List Entry}
    (hf : s.frontier = e :: rest) :
    ∃ nu, (s.afterExtract e rest).Expanding ⟨e.x, e.y⟩ nu fun c => s.extracted c ∨ c = ⟨e.x, e.y⟩ := by
  obtain ⟨hl, hn⟩ := h.started (by rw [hact]; decide)
  obtain ⟨htab, -, -, hactive, -⟩ := h.search
  have hq := h.queue
  obtain ⟨⟨-, -, hcap, -⟩, -⟩ := h
  obtain ⟨hent, hkeys, hpreds⟩ := hactive hact
  have hcells : s.latch.w.toNat * s.latch.h.toNat ≤ 2 ^ 30 := by
    obtain ⟨-, -, -, -, hle, -⟩ := hl
    exact hle.trans hcap
  unfold State.entriesInv at hent
  rw [hf] at hq hent hkeys hpreds
  obtain ⟨hdist, hsort, hlen⟩ := hq
  rw [List.pairwise_cons] at hdist hsort
  obtain ⟨⟨hg, nu, hnu, hcost, hd⟩, hrest⟩ := List.forall_mem_cons.1 hent
  have hkey : nu.key = keyOf e.cost e.d := by unfold Node.key; rw [hcost, hd]
  have hex : (s.afterExtract e rest).extracted ⟨e.x, e.y⟩ :=
    ⟨hg, Option.isSome_iff_exists.2 ⟨nu, hnu⟩, findCell_rest hdist.1⟩
  refine ⟨nu, {
    latched := hl
    cells := hcells
    table := htab
    nodes := hn
    entries := hrest
    queue := ⟨hdist.2, hsort.2, (Nat.le_succ _).trans hlen⟩
    preds := fun c n p hc hcn hp => (findCell_cons_eq_none.1 (hpreds c n p hc hcn hp)).2
    extracted := hex
    node := hnu
    below := fun c n ⟨hcg, _, hcf⟩ hcn => ?_
    above := fun g hgr => hkey ▸ Entry.cmp_nonpos_iff.1 (hsort.1 g hgr)
    kept := fun c hc => ?_ }⟩
  · by_cases hce : c = ⟨e.x, e.y⟩
    · subst hce
      rw [Option.some.inj (hcn.symm.trans hnu)]
    · rw [hkey]
      exact (keyCmp_nonpos_iff _ _ _ _).1
        (hkeys c n hcg hcn (findCell_cons_eq_none.2 ⟨hce, hcf⟩) e List.mem_cons_self)
  · rcases hc with ⟨hcg, hcn, hcf⟩ | rfl
    · rw [hf] at hcf
      exact ⟨hcg, hcn, (findCell_cons_eq_none.1 hcf).2⟩
    · exact hex

/-- What holds between relaxations gives the invariants of a search that goes on or has overflowed (R413, R419). -/
theorem State.Expanding.searchInv {u : Coord} {nu : Node} {old : Coord → Prop} (h : t.Expanding u nu old)
    (hp : t.ctl.pfState = .active ∨ t.ctl.pfState = .failed) : t.searchInv := by
  refine ⟨h.table, fun hi => ?_, fun _ => ⟨h.latched, h.nodes⟩, fun _ => ⟨h.entries, fun c n hc hn hf e he => ?_, h.preds⟩,
    fun hi => ?_⟩
  · rw [hi] at hp
    exact absurd hp (by decide)
  · exact (keyCmp_nonpos_iff _ _ _ _).2 ((h.below c n ⟨hc, by simp [hn], hf⟩ hn).trans (h.above e he))
  · rw [hi] at hp
    exact absurd hp (by decide)

/-- How many cells have not been extracted. -/
noncomputable def State.remaining (s : State) : Nat := {c | ¬ s.extracted c}.ncard

theorem Coord.finite : Finite Coord :=
  Finite.of_injective (fun c : Coord => (c.x, c.y)) fun ⟨_, _⟩ ⟨_, _⟩ h => by simpa using h

/-- There are 2^32 cells. -/
theorem State.remaining_le (s : State) : s.remaining ≤ 2 ^ 32 := by
  have := Coord.finite
  have hcard : Nat.card (Half × Half) = 2 ^ 32 := by
    rw [Nat.card_prod, Nat.card_congr (BitVec.equivFin (m := 16)).toEquiv, Nat.card_fin, ← pow_add]
  calc s.remaining ≤ Nat.card Coord := Set.ncard_le_card _
    _ ≤ Nat.card (Half × Half) := Nat.card_le_card_of_injective (fun c : Coord => (c.x, c.y))
      fun ⟨_, _⟩ ⟨_, _⟩ h => by simpa using h
    _ = 2 ^ 32 := hcard

theorem State.remaining_lt (h : ∀ c, s.extracted c → t.extracted c) {u : Coord} (hs : ¬ s.extracted u)
    (ht : t.extracted u) : t.remaining < s.remaining := by
  have := Coord.finite
  refine Set.ncard_lt_ncard ?_ (Set.toFinite _)
  exact ⟨fun c hc hsc => hc (h c hsc), fun hsub => hsub hs ht⟩

/-! ### The loop (R420, R422) -/

/-- The invariant while a command runs, which has raised no error (R40, R419). -/
def State.running (s : State) : Prop := s.Inv ∧ s.noError

/-- However the relaxations from a cell end, the search is active or has failed (R413). -/
theorem Ended.endsIn_of_relaxes {r : Ended} {P : State → Prop} (hr : r.relaxes s) (hP : r.endsIn P) :
    r.endsIn fun t => P t ∧ (t.ctl.pfState = s.ctl.pfState ∨ t.ctl.pfState = .failed) := by
  cases r with
  | ok t => exact ⟨hP, .inl (hr.1 t rfl).2⟩
  | raised e n t => exact ⟨hP.1, hP.2, .inr (hr.2 e n t rfl).2.1⟩
  | stuck x => exact hP.elim

/-- What PF_STEP keeps of the rest of the invariant (R412). -/
theorem Ended.endsIn_of_steps {r : Ended} {P : State → Prop} (hs : s.running) (hr : r.steps s)
    (hP : r.endsIn fun t => frontierWf t.par.frontierCap.toNat t.frontier ∧ t.searchInv ∧ P t) :
    r.endsIn fun t => t.running ∧ P t := by
  obtain ⟨⟨hpar, hmem, hset, hcomp, hcfg, -, -⟩, herr⟩ := hs
  have key : ∀ t, s.stepsAs t → frontierWf t.par.frontierCap.toNat t.frontier → t.searchInv → t.running := by
    intro t ht hq hsi
    unfold State.stepsAs at ht
    rw [ht] at hq hsi ⊢
    exact ⟨⟨hpar, hmem, hset, hcomp, hcfg, hq, hsi⟩, herr⟩
  cases r with
  | ok t =>
    obtain ⟨hq, hsi, hp⟩ := hP
    exact ⟨key t (hr.1 t rfl) hq hsi, hp⟩
  | raised e n t =>
    obtain ⟨he, hq, hsi, hp⟩ := hP
    exact ⟨he, key t (hr.2 e n t rfl) hq hsi, hp⟩
  | stuck x => exact hP.elim

/-- The rule of PF_STEP ends with the invariant; where the search goes on, one more cell has been extracted. -/
theorem pfStep_endsIn (h : s.running) :
    (pfStep s).endsIn fun t => t.running ∧ (t.ctl.pfState = .active → t.remaining < s.remaining) := by
  refine Ended.endsIn_of_steps h (pfStep_steps s) ?_
  obtain ⟨hinv, -⟩ := h
  have htab := hinv.search.1
  unfold pfStep
  split_ifs with hna hempty
  · exact ⟨by decide, hinv.queue, hinv.search, fun ha => absurd ha hna⟩
  · have hstarted := hinv.started (by rw [not_not.1 hna]; decide)
    exact ⟨by decide, hinv.queue, ⟨htab, nofun, fun _ => hstarted, nofun, nofun⟩, nofun⟩
  · have hact := not_not.1 hna
    obtain ⟨e, rest, hf⟩ := List.exists_cons_of_ne_nil hempty
    obtain ⟨nu, hx⟩ := hinv.expanding hact hf
    unfold frontierExtract
    simp only [hf]
    change Ended.endsIn (if _ then _ else relaxAll ⟨e.x, e.y⟩ ((s.afterExtract e rest).neighbours ⟨e.x, e.y⟩)
      (s.afterExtract e rest)) _
    split_ifs with hgoal
    · refine ⟨hx.queue, ⟨htab, nofun, fun _ => ⟨hx.latched, hx.nodes⟩, nofun, fun _ => ?_⟩, nofun⟩
      obtain ⟨hgx, hgy⟩ := hgoal
      have hu := hx.extracted.2.1
      rw [hgx, hgy] at hu
      exact hu
    · have hnb := fun v hv => (State.mem_neighbours (v := v) hx.extracted.1).1 hv
      refine Ended.endsIn_mono (Ended.endsIn_of_relaxes (relaxAll_relaxes _ _ _) (relaxAll_endsIn hx _ hnb))
        fun t ⟨ht, hp⟩ => ⟨ht.queue, ht.searchInv (hp.imp_left fun h => h.trans hact), fun _ => ?_⟩
      have hnew : ¬ s.extracted ⟨e.x, e.y⟩ := fun hs => by
        have hcell := hs.2.2
        rw [hf, findCell_cons_eq_none] at hcell
        exact hcell.1 rfl
      exact State.remaining_lt (fun c hc => ht.kept c (.inl hc)) hnew (ht.kept _ (.inr rfl))

/-- The loop of PF_SEARCH ends with the invariant when it has a turn for each cell not yet extracted, and one more. -/
theorem pfLoop_endsIn (n : Nat) (h : s.running) (hn : s.ctl.pfState = .active → s.remaining < n) :
    (pfLoop n s).endsIn State.running := by
  induction n generalizing s with
  | zero =>
    unfold pfLoop
    rw [if_pos fun ha => Nat.not_lt_zero _ (hn ha)]
    exact h
  | succ n ih =>
    unfold pfLoop
    split_ifs with ha
    · exact h
    · exact Ended.endsIn_andThen (pfStep_endsIn h) (fun t ht => ht.1) fun t _ ht =>
        ih ht.1 fun hta => (ht.2 hta).trans_le (Nat.lt_succ_iff.1 (hn (not_not.1 ha)))

/-! ### PF_START and PF_SEARCH (R410, R422) -/

/-- PF_START's checks leave the state as it is (R410). -/
theorem pfStartChecks_endsIn (s : State) : (pfStartChecks s).endsIn (· = s) := by
  unfold pfStartChecks
  simp only [raiseError_eq]
  split_ifs <;> simp

/-- The region check leaves the state as it is (R110). -/
theorem checkRegions_endsIn (rs : List Region) (s : State) : (checkRegions rs s).endsIn (· = s) := by
  rcases checkRegions_cases rs s with h | ⟨e, n, he, h⟩ <;> rw [h]
  · rfl
  · exact ⟨by rcases he with rfl | rfl | rfl <;> decide, rfl⟩

/-- What PF_START's checks and its region check say of the latch (R402, R410). -/
theorem latchInv_of_pfStartChecks (hc : pfStartChecks s = .ok s) (hr : checkRegions (pfStartRegionList s) s = .ok s)
    (mode : BitVec 1) (ht : t.latch = s.latchWith mode) (hp : t.par = s.par) : t.latchInv := by
  have hrange := (checkRegions_ok_iff.1 hr).1 _ (List.mem_singleton_self _)
  unfold pfStartChecks at hc
  simp only [raiseError_eq] at hc
  split_ifs at hc with h1 h2 h3 h4 h5
  simp only [State.latchInv, State.onGrid_iff, PfLatch.start, PfLatch.goal, ht, hp, State.latchWith]
  refine ⟨?_, ?_, ?_, ?_, ?_, ⟨?_, ?_⟩, ⟨?_, ?_⟩, hrange⟩ <;> omega

/-- PF_START's seed, after its checks, is a search of one node; the frontier has room for its entry (R410, R411). -/
theorem pfSeed_endsIn (h : s.running) (hc : pfStartChecks s = .ok s)
    (hr : checkRegions (pfStartRegionList s) s = .ok s) (mode : BitVec 1) : (pfSeed mode s).endsIn State.running := by
  obtain ⟨⟨hpar, hmem, hset, hcomp, hcfg, -, -⟩, herr⟩ := h
  have hcap := hpar.1
  unfold pfSeed frontierInsert
  simp only
  rw [if_neg (by simp [State.frontierFull]; omega)]
  exact ⟨State.seeded_inv hpar hmem hset hcomp hcfg (latchInv_of_pfStartChecks hc hr mode rfl rfl) rfl rfl rfl hcap, herr⟩

theorem pfStart_endsIn (h : s.running) : (pfStart s).endsIn State.running :=
  Ended.endsIn_check (pfStartChecks_endsIn s) h fun hc => Ended.endsIn_check (checkRegions_endsIn _ s) h fun hr =>
    pfSeed_endsIn h hc hr _

/-- A search has turns for every cell (R420). -/
theorem State.remaining_lt_searchFuel (hl : s.latchInv) : s.remaining < s.searchFuel := by
  obtain ⟨hw, -, hh, -⟩ := hl
  have hcells : 1 ≤ s.latch.w.toNat * s.latch.h.toNat := Nat.mul_pos hw hh
  have := s.remaining_le
  unfold State.searchFuel
  omega

theorem pfSearchSteps_endsIn (h : s.running) : (pfSearchSteps s).endsIn State.running := by
  refine Ended.endsIn_seq (pfStart_endsIn h) fun t _ ht => pfLoop_endsIn _ ht fun ha => ?_
  exact State.remaining_lt_searchFuel (ht.1.started (by rw [ha]; decide)).1

/-- PF_TRACE ends, and changes no flag (R418). -/
theorem pfTrace_endsIn (extra : List Region) (h : s.running) : (pfTrace extra s).endsIn State.noError := by
  obtain ⟨hinv, herr⟩ := h
  unfold pfTrace
  split_ifs with hf
  · exact ⟨by decide, herr⟩
  · have hf := not_not.1 hf
    obtain ⟨hl, hn⟩ := hinv.started (by rw [hf]; decide)
    obtain ⟨-, -, -, -, hfound⟩ := hinv.search
    obtain ⟨cells, hp⟩ := State.foundPath_eq_path hl hn (hfound hf)
    rw [hp]
    unfold tracePath
    simp only
    split_ifs
    · exact ⟨by decide, herr⟩
    · exact Ended.endsIn_check (checkRegions_endsIn _ s) herr fun _ => herr

theorem pfSearchRule_endsIn (h : s.running) : (pfSearchRule s).endsIn State.noError :=
  Ended.endsIn_andThen (pfSearchSteps_endsIn h) (fun _ ht => ht.2) fun _ _ ht => pfTrace_endsIn _ ht

end Sys2Proof.Machine
end

section
/-! SUPPORT. Every command completes (00_scope.md R15, 60_exceptions.md R457): the rules of the 17 commands end. -/

namespace Sys2Proof.Machine

variable {s : State}

/-! ### The header check and the checks the row commands share (R331 to R339) -/

theorem headerPair_endsIn (ct bd : Nat) (s : State) : (headerPair ct bd s).endsIn (· = s) := by
  unfold headerPair
  split
  · exact ⟨by decide, rfl⟩
  · split_ifs
    · rfl
    · exact ⟨by decide, rfl⟩

/-- The end of the header check touches no flag but CFG_VALID (R333). -/
theorem headerInterlace_endsIn (ct bd il : Nat) (h : s.noError) : (headerInterlace ct bd il s).endsIn State.noError := by
  unfold headerInterlace headerFinish
  simp only
  split_ifs <;> simpa [State.noError] using h

theorem headerCheck_endsIn (h : s.noError) : (headerCheck s).endsIn State.noError := by
  unfold headerCheck
  simp only
  split_ifs
  · exact ⟨by decide, h⟩
  · exact Ended.endsIn_check (headerPair_endsIn _ _ s) h fun _ => headerInterlace_endsIn _ _ _ h

theorem bodyInterlace_endsIn (il : Nat) (s : State) : (bodyInterlace il s).endsIn (· = s) := by
  unfold bodyInterlace
  split_ifs
  · exact ⟨by decide, rfl⟩
  · rfl

theorem requireConfig_endsIn (s : State) : (requireConfig s).endsIn (· = s) := by
  rcases requireConfig_cases s with ⟨-, -, h⟩ | ⟨-, h⟩ | ⟨-, -, h⟩ <;> simp [h]

theorem requireInflated_endsIn (s : State) : (requireInflated s).endsIn (· = s) := by
  rcases requireInflated_cases s with ⟨-, -, h⟩ | ⟨-, h⟩ | ⟨-, -, h⟩ <;> simp [h]

theorem sizeCheckRule_endsIn (s : State) : (sizeCheckRule s).endsIn (· = s) :=
  Ended.endsIn_check (requireConfig_endsIn s) rfl fun _ => requireInflated_endsIn s

/-- The row commands' check of their row index (R285, R312). -/
theorem rowCheck_endsIn (s : State) :
    (if s.hdr.height.toNat ≤ s.rowOperand then raiseError .rowOutOfRange s.rowOperand s else .ok s).endsIn (· = s) := by
  split_ifs
  · exact ⟨by decide, rfl⟩
  · rfl

theorem unfilterChecks_endsIn (s : State) : (unfilterChecks s).endsIn (· = s) :=
  Ended.endsIn_check (sizeCheckRule_endsIn s) rfl fun _ => rowCheck_endsIn s

theorem unpackChecks_endsIn (s : State) : (unpackChecks s).endsIn (· = s) :=
  Ended.endsIn_check (requireConfig_endsIn s) rfl fun _ => rowCheck_endsIn s

/-! ### The image commands (R252, R285, R312, R342) -/

/-- The header pair is a row of R301, and no error is raised: what the rows of an image need and keep. -/
def State.pairKnown (s : State) : Prop := s.noError ∧ s.hdr.bitDepth.toNat ∈ depthsOf s.hdr.colorType.toNat

theorem unfilterRow_endsIn {P : State → Prop} (y : Nat) (hs : P s) (hm : ∀ m, P { s with mem := m }) :
    (unfilterRow y s).endsIn P := by
  rcases unfilterRow_frame y s with ⟨m, h⟩ | h <;> rw [h]
  · exact hm m
  · exact ⟨by decide, hs⟩

theorem unpackRow_endsIn (y : Nat) (h : s.pairKnown) : (unpackRow y s).endsIn State.pairKnown := by
  rw [unpackRow_ok y s h.2]
  exact h

theorem decodeRow_endsIn (y : Nat) (h : s.pairKnown) : (decodeRow y s).endsIn State.pairKnown :=
  Ended.endsIn_seq (Ended.endsIn_seq (unfilterRow_endsIn y h fun _ => h) fun _ _ ht => unpackRow_endsIn y ht)
    fun _ _ ht => ht

theorem decodeRows_endsIn (n y : Nat) (h : s.pairKnown) : (decodeRows n y s).endsIn State.pairKnown := by
  induction n generalizing y s with
  | zero => exact h
  | succ n ih => exact Ended.endsIn_seq (decodeRow_endsIn y h) fun _ _ ht => ih (y + 1) ht

/-- Unspecified regions change no register. -/
theorem drawWrites_noError (rs : List Region) (h : s.noError) : (drawWrites rs s).noError := by
  obtain ⟨m, k, hd⟩ := drawWrites_eq rs s
  rw [hd]
  exact h

/-- The inflate phase ends with a stream error, or as the rest of the rule does on its results (R252). -/
theorem inflatePhase_endsIn (isDecode : Bool) {next : Nat → State → Ended} (h : s.noError)
    (hf : ∀ l m r, (next l { s with mem := m, inf := r }).endsIn State.noError) :
    (inflatePhase isDecode s next).endsIn State.noError := by
  rcases inflatePhase_cases isDecode s next with ⟨x, -, hx⟩ | ⟨c, -, hc⟩
  · rw [hx]
    exact ⟨by decide, drawWrites_noError _ h⟩
  · rw [hc]
    exact hf _ _ _

theorem inflateRule_endsIn (h : s.noError) : (inflateRule s).endsIn State.noError :=
  Ended.endsIn_check (checkRegions_endsIn _ (clearInfOk s)) h fun _ => inflatePhase_endsIn false h fun l m r => by
    split_ifs
    · exact ⟨by decide, drawWrites_noError _ h⟩
    · exact h

theorem unfilterRowRule_endsIn (h : s.noError) : (unfilterRowRule s).endsIn State.noError :=
  Ended.endsIn_check (unfilterChecks_endsIn s) h fun _ => Ended.endsIn_check (checkRegions_endsIn _ s) h fun _ =>
    unfilterRow_endsIn _ h fun _ => h

/-- UNPACK_ROW ends: beside CFG_VALID the header pair is a row of R301 (R45). -/
theorem unpackRowRule_endsIn (h : s.noError) (hc : s.configInv) : (unpackRowRule s).endsIn State.noError := by
  refine Ended.endsIn_check (unpackChecks_endsIn s) h fun hk => Ended.endsIn_check (checkRegions_endsIn _ s) h fun _ => ?_
  obtain ⟨t, ht, -⟩ := Ended.andThen_eq_ok.1 hk
  have hv : s.ctl.cfgValid = true := by
    rcases requireConfig_cases s with ⟨hv, -⟩ | ⟨-, hr⟩ | ⟨hv, -⟩
    · exact hv
    · rw [hr] at ht
      cases ht
    · exact hv
  obtain ⟨⟨-, -, hpair, -⟩, -⟩ := hc.1 hv
  exact Ended.endsIn_mono (unpackRow_endsIn _ ⟨h, hpair⟩) fun _ ht => ht.1

theorem decodeBody_endsIn (h : s.pairKnown) : (decodeBody s).endsIn State.noError :=
  inflatePhase_endsIn true h.1 fun l m r => by
    simp only
    split_ifs
    · exact ⟨by decide, drawWrites_noError _ h.1⟩
    · exact ⟨by decide, drawWrites_noError _ h.1⟩
    · exact Ended.endsIn_onRaise (Ended.endsIn_mono (decodeRows_endsIn _ _ h) fun _ ht => ht.1)
        fun _ ht => drawWrites_noError _ ht

/-- Where DECODE's head passes, the header pair is a row of R301 (R331, R342). -/
theorem decodeHead_endsIn (h : s.noError) :
    (decodeHead s).endsIn State.noError ∧ ∀ t, decodeHead s = .ok t → t.pairKnown := by
  have hh : (clearCfgValid { clearInfOk s with rowsDone := 0 }).noError := h
  have hchk := headerCheck_endsIn hh
  refine ⟨Ended.endsIn_seq hchk fun t _ ht => Ended.endsIn_of_eq (bodyInterlace_endsIn _ t) ht, fun t ht => ?_⟩
  obtain ⟨u, hu, hb⟩ := Ended.andThen_eq_ok.1 ht
  have hbi := bodyInterlace_endsIn u.hdr.interlace.toNat u
  rw [hb] at hbi
  rw [hu] at hchk
  obtain ⟨⟨-, -, hpair, -⟩, hut⟩ := headerCheck_eq_ok.1 hu
  rw [show t = u from hbi]
  exact ⟨hchk, by rw [hut]; exact hpair⟩

theorem decodeRule_endsIn (h : s.noError) : (decodeRule s).endsIn State.noError := by
  obtain ⟨hhead, hok⟩ := decodeHead_endsIn h
  exact Ended.endsIn_seq hhead fun t hr ht =>
    Ended.endsIn_check (checkRegions_endsIn _ t) ht fun _ => decodeBody_endsIn (hok t hr)

/-! ### The frontier commands and NODE_READ (R378 to R382, R424) -/

theorem requireNoSearch_endsIn (s : State) : (requireNoSearch s).endsIn (· = s) := by
  rcases requireNoSearch_cases s with ⟨-, h⟩ | ⟨-, h⟩ <;> simp [h]

theorem frontierInsert_endsIn (e : Entry) (h : s.noError) : (frontierInsert e s).endsIn State.noError := by
  rcases frontierInsert_cases e s with ⟨-, hi⟩ | ⟨-, hi⟩ <;> rw [hi]
  · exact ⟨by decide, h⟩
  · exact h

theorem pqClearRule_endsIn (h : s.noError) : (pqClearRule s).endsIn State.noError :=
  Ended.endsIn_check (requireNoSearch_endsIn s) h fun _ => h

theorem pqInsertRule_endsIn (h : s.noError) : (pqInsertRule s).endsIn State.noError :=
  Ended.endsIn_check (requireNoSearch_endsIn s) h fun _ => frontierInsert_endsIn _ h

theorem pqExtractRule_endsIn (h : s.noError) : (pqExtractRule s).endsIn State.noError :=
  Ended.endsIn_check (requireNoSearch_endsIn s) h fun _ => by
    unfold frontierExtract
    split
    · exact ⟨by decide, h⟩
    · exact h

theorem pqPeekRule_endsIn (h : s.noError) : (pqPeekRule s).endsIn State.noError := by
  unfold pqPeekRule frontierPeek
  split
  · exact ⟨by decide, h⟩
  · exact h

theorem pqDecreaseRule_endsIn (h : s.noError) : (pqDecreaseRule s).endsIn State.noError :=
  Ended.endsIn_check (requireNoSearch_endsIn s) h fun _ => by
    split
    · exact ⟨by decide, h⟩
    · split_ifs
      · exact frontierInsert_endsIn _ h
      · exact h

theorem nodeReadRule_endsIn (h : s.noError) : (nodeReadRule s).endsIn State.noError := by
  unfold nodeReadRule
  split_ifs
  · exact h
  · exact ⟨by decide, h⟩

/-! ### Every command (R15, R457) -/

/-- A command whose rule ends, run as the pending word n. -/
theorem exec_completesAs {w : Word} {i : Instr} {n : Nat} {r : Ended} (hn : w.toNat = n)
    (he : exec i s = complete (BitVec.ofNat 8 n) r) (hr : r.endsIn State.noError) :
    completesAs (w.setWidth 8) (exec i s) := by
  rw [he, ← BitVec.ofNat_toNat 8 w, hn]
  exact complete_completesAs hr

/-- A word that decodes runs its command's rule, which ends, and completes it with bits [7:0] of the word (R141, R454). -/
theorem exec_command {w : Word} {i : Instr} (h : s.running) (hi : decode .cmd w.toNat = .ok i) :
    completesAs (w.setWidth 8) (exec i s) := by
  have herr := h.2
  have hcfg : s.configInv := by
    obtain ⟨⟨-, -, -, -, hc, -⟩, -⟩ := h
    exact hc
  change decodeCmd w.toNat = .ok i at hi
  unfold decodeCmd at hi
  split at hi <;> cases hi
  case h_1 hn => exact exec_completesAs (r := .ok s) hn rfl herr
  case h_2 hn => exact exec_completesAs hn rfl (headerCheck_endsIn (s := clearCfgValid s) herr)
  case h_3 hn => exact exec_completesAs hn rfl (inflateRule_endsIn herr)
  case h_4 hn => exact exec_completesAs hn rfl (Ended.endsIn_of_eq (sizeCheckRule_endsIn s) herr)
  case h_5 hn => exact exec_completesAs hn rfl (unfilterRowRule_endsIn herr)
  case h_6 hn => exact exec_completesAs hn rfl (unpackRowRule_endsIn herr hcfg)
  case h_7 hn => exact exec_completesAs hn rfl (decodeRule_endsIn herr)
  case h_8 hn => exact exec_completesAs hn rfl (Ended.endsIn_mono (pfStart_endsIn h) fun _ ht => ht.2)
  case h_9 hn => exact exec_completesAs hn rfl (Ended.endsIn_mono (pfStep_endsIn h) fun _ ht => ht.1.2)
  case h_10 hn => exact exec_completesAs hn rfl (pfTrace_endsIn [] h)
  case h_11 hn => exact exec_completesAs hn rfl (pfSearchRule_endsIn h)
  case h_12 hn => exact exec_completesAs hn rfl (pqClearRule_endsIn herr)
  case h_13 hn => exact exec_completesAs hn rfl (pqInsertRule_endsIn herr)
  case h_14 hn => exact exec_completesAs hn rfl (pqExtractRule_endsIn herr)
  case h_15 hn => exact exec_completesAs hn rfl (pqPeekRule_endsIn herr)
  case h_16 hn => exact exec_completesAs hn rfl (pqDecreaseRule_endsIn herr)
  case h_17 hn => exact exec_completesAs hn rfl (nodeReadRule_endsIn herr)

/-- Settles O22: from a state with the invariant the rule of each command ends, a search after at most one step a cell
(R420), so the command completes; an illegal word completes with IllegalCommand (R142). -/
theorem everyCommandCompletes : Obligations.EveryCommandCompletes := by
  unfold Obligations.EveryCommandCompletes
  intro s w hs hw
  have herr : s.noError := by
    obtain ⟨-, -, -, ⟨hbusy, -⟩, -⟩ := hs
    obtain ⟨-, he, -⟩ := hbusy (by simp [State.busy, hw])
    exact he
  unfold engineStep
  simp only [hw]
  cases hd : decode .cmd w.toNat with
  | ok i => exact exec_command ⟨hs, herr⟩ hd
  | error x => exact complete_completesAs (r := .raised .illegalCommand w s) ⟨by decide, herr⟩

end Sys2Proof.Machine
end

section
/-! SUPPORT. What the rule of a command leaves, however it ends: a state with a property, and an error, if it raises
one, of a kind the block produces (60_exceptions.md R451, R455, R456). -/

namespace Sys2Proof

/-- The commands that write the frontier (R58, R383). -/
abbrev Instr.writesFrontier (i : Instr) : Prop :=
  i ∈ [.pfStart, .pfStep, .pfSearch, .pqClear, .pqInsert, .pqExtract, .pqDecrease]

/-- The commands that write system memory (20_memory.md R104). -/
abbrev Instr.writesMemory (i : Instr) : Prop :=
  i ∈ [.inflate, .unfilterRow, .unpackRow, .decode, .pfTrace, .pfSearch]

/-- The commands with an inflate phase (R48, R252). -/
abbrev Instr.inflates (i : Instr) : Prop := i ∈ [.inflate, .decode]

end Sys2Proof

namespace Sys2Proof.Machine

/-- A kind of error the block raises: it has a code, and one the block produces (R451, R452). -/
abbrev ErrorKind.produced (e : ErrorKind) : Prop := e ≠ .none ∧ producedCode e.code

/-- A rule that is not stuck leaves a state with P; an error it raises is of a kind the block raises. -/
def Ended.leaves (r : Ended) (P : State → Prop) : Prop :=
  match r with
  | .ok s => P s
  | .raised e _ s => e.produced ∧ P s
  | .stuck _ => True

variable {r : Ended} {f : State → Ended} {P Q : State → Prop} {s t : State}

theorem Ended.leaves_mono (hr : r.leaves P) (h : ∀ t, P t → Q t) : r.leaves Q := by
  cases r with
  | ok t => exact h t hr
  | raised e n t => exact ⟨hr.1, h t hr.2⟩
  | stuck x => trivial

/-- A sequence leaves states with Q when its first part leaves such states, and its second does from where the first ran
to its end. -/
theorem Ended.leaves_andThen (hr : r.leaves P) (hPQ : ∀ t, P t → Q t) (hf : ∀ t, r = .ok t → P t → (f t).leaves Q) :
    (r.andThen f).leaves Q := by
  cases r with
  | ok t => exact hf t rfl hr
  | raised e n t => exact ⟨hr.1, hPQ t hr.2⟩
  | stuck x => trivial

/-- A check that leaves the state as it is, then the rest of the rule. -/
theorem Ended.leaves_check (hr : r.leaves (· = s)) (hs : P s) (hf : r = .ok s → (f s).leaves P) :
    (r.andThen f).leaves P :=
  Ended.leaves_andThen hr (fun t ht => by rwa [ht]) fun t hrt ht => by subst ht; exact hf hrt

/-- A raise with its state changed. -/
theorem Ended.leaves_onRaise {g : State → State} (hr : r.leaves P) (hg : ∀ t, P t → P (g t)) :
    (r.onRaise g).leaves P := by
  cases r with
  | ok t => exact hr
  | raised e n t => exact ⟨hr.1, hg t hr.2⟩
  | stuck x => trivial

/-- A rule that ends in states with P leaves such states, if the kinds of its errors are known. -/
theorem Ended.leaves_of_endsIn (hr : r.endsIn P) (hk : r.leaves Q) : r.leaves P := by
  cases r with
  | ok t => exact hr
  | raised e n t => exact ⟨hk.1, hr.2⟩
  | stuck x => trivial

/-- The state a completed command answers, from what its rule leaves (R455). -/
theorem Ended.leaves_complete {opc : Byte} (hr : r.leaves P) (hok : ∀ u, P u → Q (finish u))
    (herr : ∀ e n u, e.produced → P u → Q (takeError opc e n u)) (h : complete opc r = .next t) : Q t := by
  rcases complete_eq_next.1 h with ⟨u, rfl, rfl⟩ | ⟨e, n, u, rfl, rfl⟩
  · exact hok u hr
  · exact herr e n u hr.1 hr.2

/-! ### The commands and their rules -/

/-- The rule of each command (30_encoding.md R141); NOP has none (R330), nor has a data encoding. -/
def commandRule (i : Instr) (s : State) : Ended :=
  match i with
  | .hdrCheck => hdrCheckRule s
  | .inflate => inflateRule s
  | .sizeCheck => sizeCheckRule s
  | .unfilterRow => unfilterRowRule s
  | .unpackRow => unpackRowRule s
  | .decode => decodeRule s
  | .pfStart => pfStart s
  | .pfStep => pfStep s
  | .pfTrace => pfTrace [] s
  | .pfSearch => pfSearchRule s
  | .pqClear => pqClearRule s
  | .pqInsert => pqInsertRule s
  | .pqExtract => pqExtractRule s
  | .pqPeek => pqPeekRule s
  | .pqDecrease => pqDecreaseRule s
  | .nodeRead => nodeReadRule s
  | _ => .ok s

/-- A command runs its rule and completes with its OPC (R454, R455). -/
theorem exec_eq_complete {i : Instr} (hi : (encode i).fmt = .cmd) (s : State) :
    exec i s = complete (BitVec.ofNat 8 (encode i).bits) (commandRule i s) := by
  cases i
  case nop | hdrCheck | inflate | sizeCheck | unfilterRow | unpackRow | decode | pfStart | pfStep | pfTrace | pfSearch
    | pqClear | pqInsert | pqExtract | pqPeek | pqDecrease | nodeRead => rfl
  all_goals exact absurd hi nofun

/-- A command word decodes to a command. -/
theorem fmt_of_decode_cmd {v : Nat} {i : Instr} (h : decode .cmd v = .ok i) : (encode i).fmt = .cmd := by
  change decodeCmd v = .ok i at h
  unfold decodeCmd at h
  split at h <;> cases h <;> rfl

/-- State t is state s with other values only in the pieces of state that are named for command i (10_state.md R44 to R58,
44_frontier.md R383). -/
def State.writesAs (i : Instr) (s t : State) : Prop :=
  t = { s with
    res := if i ∈ [.pqExtract, .pqPeek, .pfStep, .pfSearch, .nodeRead] then t.res else s.res
    der := if i ∈ [.hdrCheck, .decode] then t.der else s.der
    inf := if i.inflates then t.inf else s.inf
    draws := if i.inflates then t.draws else s.draws
    rowsDone := if i = .decode then t.rowsDone else s.rowsDone
    pfSteps := if i ∈ [.pfStart, .pfStep, .pfSearch] then t.pfSteps else s.pfSteps
    node := if i ∈ [.pfStart, .pfStep, .pfSearch] then t.node else s.node
    latch := if i ∈ [.pfStart, .pfSearch] then t.latch else s.latch
    pathLen := if i ∈ [.pfStart, .pfTrace, .pfSearch] then t.pathLen else s.pathLen
    frontier := if i.writesFrontier then t.frontier else s.frontier
    mem := if i.writesMemory then t.mem else s.mem
    ctl := { s.ctl with
      cfgValid := if i ∈ [.hdrCheck, .decode] then t.ctl.cfgValid else s.ctl.cfgValid
      infOk := if i.inflates then t.ctl.infOk else s.ctl.infOk
      pfState := if i ∈ [.pfStart, .pfStep, .pfSearch] then t.ctl.pfState else s.ctl.pfState } }

theorem State.writesAs_refl (i : Instr) (s : State) : s.writesAs i s := by
  simp [State.writesAs]

theorem State.writesAs_trans {i : Instr} {u : State} (h : s.writesAs i t) (g : t.writesAs i u) : s.writesAs i u := by
  unfold State.writesAs at *
  rw [g, h]
  simp +contextual

/-- A rule goes on from a state t that s became: what it leaves, seen from s. -/
theorem Ended.leaves_writes_from {i : Instr} (h : s.writesAs i t) (hr : r.leaves (t.writesAs i)) :
    r.leaves (s.writesAs i) := Ended.leaves_mono hr fun _ g => State.writesAs_trans h g

/-! ### The checks (20_memory.md R110, 43_decode_pipeline.md R336 to R339) -/

/-- The region check leaves the state as it is (R110). -/
theorem checkRegions_leaves (rs : List Region) (s : State) : (checkRegions rs s).leaves (· = s) := by
  rcases checkRegions_cases rs s with h | ⟨e, n, he, h⟩ <;> rw [h]
  · rfl
  · exact ⟨by rcases he with rfl | rfl | rfl <;> decide, rfl⟩

/-- The regions of a rule that goes on after its region check are in range (R110). -/
theorem inRange_of_checkRegions {rs : List Region} (h : checkRegions rs s = .ok s) {q : Region} (hq : q ∈ rs) :
    q.base + q.len ≤ 2 ^ 32 := (checkRegions_ok_iff.1 h).1 q hq

theorem bodyInterlace_leaves (il : Nat) (s : State) : (bodyInterlace il s).leaves (· = s) := by
  unfold bodyInterlace
  split_ifs
  · exact ⟨by decide, rfl⟩
  · rfl

theorem requireConfig_leaves (s : State) : (requireConfig s).leaves (· = s) := by
  rcases requireConfig_cases s with ⟨-, -, h⟩ | ⟨-, h⟩ | ⟨-, -, h⟩ <;> rw [h]
  · rfl
  · exact ⟨by decide, rfl⟩
  · exact ⟨by decide, rfl⟩

theorem requireInflated_leaves (s : State) : (requireInflated s).leaves (· = s) := by
  rcases requireInflated_cases s with ⟨-, -, h⟩ | ⟨-, h⟩ | ⟨-, -, h⟩ <;> rw [h]
  · rfl
  · exact ⟨by decide, rfl⟩
  · exact ⟨by decide, rfl⟩

theorem sizeCheckRule_leaves (s : State) : (sizeCheckRule s).leaves (· = s) :=
  Ended.leaves_check (requireConfig_leaves s) rfl fun _ => requireInflated_leaves s

/-- The row commands' check of their row index (R285, R312). -/
theorem rowCheck_leaves (s : State) :
    (if s.hdr.height.toNat ≤ s.rowOperand then raiseError .rowOutOfRange s.rowOperand s else .ok s).leaves (· = s) := by
  split_ifs
  · exact ⟨by decide, rfl⟩
  · rfl

theorem unfilterChecks_leaves (s : State) : (unfilterChecks s).leaves (· = s) :=
  Ended.leaves_check (sizeCheckRule_leaves s) rfl fun _ => rowCheck_leaves s

theorem unpackChecks_leaves (s : State) : (unpackChecks s).leaves (· = s) :=
  Ended.leaves_check (requireConfig_leaves s) rfl fun _ => rowCheck_leaves s

theorem pfStartChecks_leaves (s : State) : (pfStartChecks s).leaves (· = s) := by
  unfold pfStartChecks
  simp only
  split_ifs
  case neg => rfl
  all_goals exact ⟨by decide, rfl⟩

theorem requireNoSearch_leaves (s : State) : (requireNoSearch s).leaves (· = s) := by
  rcases requireNoSearch_cases s with ⟨-, h⟩ | ⟨-, h⟩ <;> rw [h]
  · rfl
  · exact ⟨by decide, rfl⟩

end Sys2Proof.Machine
end

section
/-! SUPPORT. What the rules of the image commands leave: the pieces of state named for them changed, memory in its canonical
form, and CFG_VALID and INF_OK as R45 and R339 say (10_state.md R45, R48; 43_decode_pipeline.md R331 to R347). -/

namespace Sys2Proof.Machine

variable {r : Ended} {s t : State} {i : Instr}

/-- State t is what command i may make of s, with memory still in its canonical form and the flags CFG_VALID and INF_OK
still right. -/
def State.imageAs (i : Instr) (s t : State) : Prop :=
  s.writesAs i t ∧ (s.mem.wf → t.mem.wf) ∧ (s.configInv → t.configInv)

theorem State.imageAs_refl (i : Instr) (s : State) : s.imageAs i s := ⟨s.writesAs_refl i, id, id⟩

theorem State.imageAs_trans {u : State} (h : s.imageAs i t) (g : t.imageAs i u) : s.imageAs i u :=
  ⟨State.writesAs_trans h.1 g.1, g.2.1 ∘ h.2.1, g.2.2 ∘ h.2.2⟩

/-- A rule goes on from a state t that s became: what it leaves, seen from s. -/
theorem Ended.leaves_image_from (h : s.imageAs i t) (hr : r.leaves (t.imageAs i)) : r.leaves (s.imageAs i) :=
  Ended.leaves_mono hr fun _ g => State.imageAs_trans h g

/-- A rule whose first part leaves what s may become, and whose second does so from where the first ran to its end. -/
theorem Ended.leaves_image_seq {f : State → Ended} (hr : r.leaves (s.imageAs i))
    (hf : ∀ t, r = .ok t → s.imageAs i t → (f t).leaves (t.imageAs i)) : (r.andThen f).leaves (s.imageAs i) :=
  Ended.leaves_andThen hr (fun _ ht => ht) fun t hrt ht => Ended.leaves_image_from ht (hf t hrt ht)

/-! ### Memory -/

/-- A write of bytes that exist, by a command that writes memory. -/
theorem State.imageAs_write (hi : i.writesMemory) {a : Nat}
    {bytes : List Byte} (h : a + bytes.length ≤ 2 ^ 32) : s.imageAs i { s with mem := s.mem.write a bytes } :=
  ⟨by unfold State.writesAs; rw [if_pos hi]; simp, fun hm => Memory.wf_write hm h, id⟩

/-- What a command that inflates may write (R48, R252). -/
theorem State.writesAs_inflated (hi : i.inflates) (s : State) (m : Memory) (f : InfResults) (k : Nat)
    (ok : Bool) : s.writesAs i { s with mem := m, inf := f, draws := k, ctl := { s.ctl with infOk := ok } } := by
  rcases List.mem_pair.1 hi with rfl | rfl <;> rfl

/-- Unspecified bytes, in a command that inflates (R458). -/
theorem State.imageAs_drawWrites (hi : i.inflates) (rs : List Region) (s : State) :
    s.imageAs i (drawWrites rs s) := by
  refine ⟨?_, wf_drawWrites rs, ?_⟩ <;> obtain ⟨m, k, h⟩ := drawWrites_eq rs s <;> rw [h]
  · exact s.writesAs_inflated hi m s.inf k s.ctl.infOk
  · exact id

/-! ### The header check (R331 to R333) -/

theorem headerPair_leaves (ct bd : Nat) (s : State) : (headerPair ct bd s).leaves (· = s) := by
  unfold headerPair
  split
  · exact ⟨by decide, rfl⟩
  · split_ifs
    · rfl
    · exact ⟨by decide, rfl⟩

/-- The kinds of error of the header check are kinds the block produces. -/
theorem headerCheck_leaves_true (s : State) : (headerCheck s).leaves fun _ => True := by
  have hfin : ∀ ct bd il, (headerInterlace ct bd il s).leaves fun _ => True := by
    intro ct bd il
    unfold headerInterlace headerFinish
    simp only
    split_ifs
    case neg => trivial
    all_goals exact ⟨by decide, trivial⟩
  unfold headerCheck
  simp only
  split_ifs
  · exact ⟨by decide, trivial⟩
  · exact Ended.leaves_check (headerPair_leaves _ _ s) trivial fun _ => hfin _ _ _

/-- The header check writes the derived registers and CFG_VALID, which then says what it should (R45, R333). -/
theorem headerCheck_leaves (hi : i ∈ [.hdrCheck, .decode]) (s : State) :
    (headerCheck s).leaves fun t => s.imageAs i t ∧ t.ctl.infOk = s.ctl.infOk := by
  have hk := headerCheck_leaves_true s
  cases h : headerCheck s with
  | ok t =>
    obtain ⟨hv, rfl⟩ := headerCheck_eq_ok.1 h
    exact ⟨⟨by rcases List.mem_pair.1 hi with rfl | rfl <;> rfl, id, fun hc => ⟨fun _ => ⟨hv, rfl⟩, hc.2⟩⟩, rfl⟩
  | raised e n t =>
    obtain rfl := headerCheck_raised h
    rw [h] at hk
    exact ⟨hk.1, t.imageAs_refl i, rfl⟩
  | stuck x => trivial

/-- CFG_VALID = 0 says nothing of the derived registers (R41). -/
theorem State.imageAs_clearCfgValid (hi : i ∈ [.hdrCheck, .decode]) (s : State) : s.imageAs i (clearCfgValid s) :=
  ⟨by rcases List.mem_pair.1 hi with rfl | rfl <;> rfl, id, fun hc => ⟨nofun, hc.2⟩⟩

theorem hdrCheckRule_leaves (s : State) : (hdrCheckRule s).leaves (s.imageAs .hdrCheck) :=
  Ended.leaves_image_from (s.imageAs_clearCfgValid (by decide))
    (Ended.leaves_mono (headerCheck_leaves (by decide) _) fun _ ht => ht.1)

/-! ### Rows (R284, R313) -/

/-- RUN makes no more bytes than the row has, and keeps the row's number (R271). -/
theorem FilterFsm.runAll_raw (n : Nat) {m : FilterFsm} (hi : m.i = m.raw.length) (hm : m.raw.length ≤ m.flt.length) :
    (m.runAll n).raw.length ≤ m.flt.length ∧ (m.runAll n).y = m.y := by
  induction n generalizing m with
  | zero => exact ⟨hm, rfl⟩
  | succ n ih =>
    unfold FilterFsm.runAll
    split
    · unfold FilterFsm.advance
      split
      · exact ih hi hm
      · next x hx =>
        have hlt : m.i < m.flt.length := (List.getElem?_eq_some_iff.1 hx).1
        exact ih (by simp [hi]) (by simp only [List.length_append, List.length_singleton]; omega)
    all_goals exact ⟨hm, rfl⟩

/-- So does the FSM from SELECT on, where it has no byte yet. -/
theorem FilterFsm.filtered_raw (f : Nat) {m : FilterFsm} (hi : m.i = 0) (hm : m.raw = []) :
    (m.filtered f).raw.length ≤ m.flt.length ∧ (m.filtered f).y = m.y := by
  unfold FilterFsm.filtered FilterFsm.select
  split_ifs
  · exact FilterFsm.runAll_raw (m := { m with f := f, phase := .fail }) _ (by simp [hi, hm]) (by simp [hm])
  · exact FilterFsm.runAll_raw (m := { m with f := f, i := 0, raw := [], phase := .run }) _ rfl (Nat.zero_le _)

/-- UnfilterRow writes at most the SB bytes of RAW row y, or raises UnknownFilter and writes nothing (R281, R284). -/
theorem unfilterRow_eq_write (y : Nat) (s : State) :
    (∃ n, unfilterRow y s = .raised .unknownFilter n s) ∨
      ∃ raw : List Byte, raw.length ≤ s.der.scanlineBytes.toNat ∧
        unfilterRow y s = .ok { s with mem := s.mem.write (s.rawRow y) raw } := by
  obtain ⟨hlen, hy⟩ := FilterFsm.filtered_raw (s.mem.readByte (s.infRow y)).toNat (m := FilterFsm.load y s) rfl rfl
  unfold unfilterRow filterEnd
  rw [hy]
  rw [show (FilterFsm.load y s).flt.length = s.der.scanlineBytes.toNat from Memory.length_read _ _ _] at hlen
  split
  · exact .inl ⟨_, rfl⟩
  all_goals exact .inr ⟨_, hlen, rfl⟩

theorem unfilterRow_leaves (hi : i.writesMemory) {y : Nat}
    (hfit : s.rawRow y + s.der.scanlineBytes.toNat ≤ 2 ^ 32) : (unfilterRow y s).leaves (s.imageAs i) := by
  rcases unfilterRow_eq_write y s with ⟨n, h⟩ | ⟨raw, hraw, h⟩ <;> rw [h]
  · exact ⟨by decide, s.imageAs_refl i⟩
  · exact State.imageAs_write hi (by omega)

theorem unpackRow_leaves (hi : i.writesMemory) {y : Nat}
    (hfit : s.pixRow y + 8 * s.hdr.width.toNat ≤ 2 ^ 32) : (unpackRow y s).leaves (s.imageAs i) := by
  unfold unpackRow
  simp only
  split_ifs
  · exact State.imageAs_write hi (by rw [Unpacker.unpacked_out, length_rowRecords]; exact hfit)
  · trivial

theorem unfilterRowRule_leaves (s : State) : (unfilterRowRule s).leaves (s.imageAs .unfilterRow) :=
  Ended.leaves_check (unfilterChecks_leaves s) (s.imageAs_refl _) fun _ =>
    Ended.leaves_check (checkRegions_leaves _ s) (s.imageAs_refl _) fun hr =>
      unfilterRow_leaves (by decide) (inRange_of_checkRegions hr (q := ⟨_, _, .W⟩) (by simp [unfilterRegionList, State.rawRow]))

theorem unpackRowRule_leaves (s : State) : (unpackRowRule s).leaves (s.imageAs .unpackRow) :=
  Ended.leaves_check (unpackChecks_leaves s) (s.imageAs_refl _) fun _ =>
    Ended.leaves_check (checkRegions_leaves _ s) (s.imageAs_refl _) fun hr =>
      unpackRow_leaves (by decide) (inRange_of_checkRegions hr (q := ⟨_, _, .W⟩) (by simp [unpackRegionList, State.pixRow]))

/-! ### DECODE's rows (R345) -/

/-- Row y of an image that fits lies below 2^32 (R104, R110). -/
theorem State.rows_fit (h : ∀ q ∈ s.imageRegions, q.base + q.len ≤ 2 ^ 32) {y : Nat} (hy : y < s.hdr.height.toNat) :
    s.rawRow y + s.der.scanlineBytes.toNat ≤ 2 ^ 32 ∧ s.pixRow y + 8 * s.hdr.width.toNat ≤ 2 ^ 32 := by
  obtain ⟨hraw, hpix, -⟩ := List.forall_mem_cons.1 h |>.imp_right List.forall_mem_cons.1
  have h1 := Nat.mul_le_mul_right s.der.scanlineBytes.toNat hy
  have h2 := Nat.mul_le_mul_left (8 * s.hdr.width.toNat) hy
  simp only [State.rawRow, State.pixRow] at *
  constructor <;> nlinarith

theorem decodeRow_leaves {y : Nat} (h : ∀ q ∈ s.imageRegions, q.base + q.len ≤ 2 ^ 32) (hy : y < s.hdr.height.toNat) :
    (decodeRow y s).leaves (s.imageAs .decode) := by
  obtain ⟨hraw, hpix⟩ := State.rows_fit h hy
  refine Ended.leaves_image_seq (Ended.leaves_image_seq (unfilterRow_leaves (by decide) hraw) fun t ht _ => ?_)
    fun t _ _ => ⟨rfl, id, id⟩
  rcases unfilterRow_eq_write y s with ⟨n, hn⟩ | ⟨raw, -, hw⟩
  · rw [hn] at ht
    cases ht
  · rw [hw] at ht
    cases ht
    exact unpackRow_leaves (by decide) hpix

theorem decodeRows_leaves (n y : Nat) (h : ∀ q ∈ s.imageRegions, q.base + q.len ≤ 2 ^ 32)
    (hn : y + n ≤ s.hdr.height.toNat) : (decodeRows n y s).leaves (s.imageAs .decode) := by
  induction n generalizing y s with
  | zero => exact s.imageAs_refl _
  | succ n ih =>
    refine Ended.leaves_image_seq (decodeRow_leaves h (by omega)) fun t ht _ => ?_
    have hrows := ((decodeRow_frame y s).1 t ht).1
    unfold State.rowsAs at hrows
    rw [hrows]
    exact ih (y + 1) h (by simp only; omega)

/-! ### INFLATE and DECODE (R252, R342) -/

/-- INF_OK = 0 says nothing of the inflated length (R339). -/
theorem State.imageAs_clearInfOk (hi : i.inflates) (s : State) : s.imageAs i (clearInfOk s) :=
  ⟨s.writesAs_inflated hi s.mem s.inf s.draws false, id, fun hc => ⟨hc.1, nofun⟩⟩

/-- INF_OK rises where the inflated length fits (R252, R339). -/
theorem State.imageAs_setInfOk (hi : i.inflates) (h : s.inf.len.toNat ≤ s.buf.infCap.toNat) :
    s.imageAs i (setInfOk s) :=
  ⟨s.writesAs_inflated hi s.mem s.inf s.draws true, id, fun hc => ⟨hc.1, fun _ => h⟩⟩

/-- While INF_OK = 0, the INF results may take any value (R253). -/
theorem State.imageAs_inf (hi : i.inflates) (hok : s.ctl.infOk = false) {m : Memory} {f : InfResults}
    {k : Nat} (hm : s.mem.wf → m.wf) : s.imageAs i { s with mem := m, inf := f, draws := k } :=
  ⟨s.writesAs_inflated hi m f k s.ctl.infOk, hm, fun hc => ⟨hc.1, fun h => absurd (hok.symm.trans h) (by decide)⟩⟩

theorem toNat_saturate_le (n : Nat) : (saturate n).toNat ≤ n :=
  (Nat.mod_le _ _).trans (Nat.min_le_left _ _)

/-- The inflate phase leaves a stream error's unspecified state, or what the rest of the rule makes of the L bytes (R252,
R253). -/
theorem inflatePhase_leaves (hi : i.inflates) (isDecode : Bool) {next : Nat → State → Ended}
    (hok : s.ctl.infOk = false) (hfit : s.infRegion.base + s.infRegion.len ≤ 2 ^ 32)
    (hn : ∀ l m f, f.len.toNat ≤ l → (next l { s with mem := m, inf := f }).leaves
      (State.imageAs i { s with mem := m, inf := f })) :
    (inflatePhase isDecode s next).leaves (s.imageAs i) := by
  rcases inflatePhase_cases isDecode s next with ⟨x, -, hx⟩ | ⟨c, -, hc⟩
  · rw [hx]
    exact ⟨by decide, State.imageAs_trans (State.imageAs_inf hi hok id) (State.imageAs_drawWrites hi _ _)⟩
  · rw [hc]
    refine Ended.leaves_image_from (State.imageAs_inf hi hok fun hm => ?_) (hn _ _ _ (toNat_saturate_le _))
    refine Memory.wf_write hm ?_
    have := List.length_take_le s.buf.infCap.toNat c.hist.reverse
    simp only [State.infRegion] at hfit
    omega

theorem inflateRule_leaves (s : State) : (inflateRule s).leaves (s.imageAs .inflate) := by
  refine Ended.leaves_image_from (s.imageAs_clearInfOk (by decide)) ?_
  refine Ended.leaves_check (checkRegions_leaves _ (clearInfOk s)) (State.imageAs_refl _ _) fun hr => ?_
  refine inflatePhase_leaves (by decide) false rfl
    (inRange_of_checkRegions hr (List.mem_cons_of_mem _ (List.mem_singleton_self _))) fun l m f hl => ?_
  split_ifs with hcap
  · exact ⟨by decide, State.imageAs_drawWrites (by decide) _ _⟩
  · exact State.imageAs_setInfOk (by decide) (hl.trans (Nat.not_lt.1 hcap))

theorem decodeBody_leaves (hok : s.ctl.infOk = false) (h : ∀ q ∈ decodeRegionList s, q.base + q.len ≤ 2 ^ 32) :
    (decodeBody s).leaves (s.imageAs .decode) := by
  obtain ⟨-, hinf, himg⟩ := (List.forall_mem_cons.1 h).imp_right List.forall_mem_cons.1
  refine inflatePhase_leaves (by decide) true hok hinf fun l m f hl => ?_
  have hlost := fun rs t => State.imageAs_drawWrites (i := .decode) (by decide) rs t
  simp only
  split_ifs with hlen hcap
  · exact ⟨by decide, hlost _ _⟩
  · exact ⟨by decide, hlost _ _⟩
  · refine Ended.leaves_onRaise ?_ fun t ht => State.imageAs_trans ht (hlost _ _)
    exact Ended.leaves_image_from (State.imageAs_setInfOk (by decide) (hl.trans (Nat.not_lt.1 hcap)))
      (decodeRows_leaves _ _ himg (Nat.zero_add _).le)

theorem decodeHead_leaves (s : State) : (decodeHead s).leaves fun t => s.imageAs .decode t ∧ t.ctl.infOk = false := by
  have hstart : s.imageAs .decode (clearCfgValid { clearInfOk s with rowsDone := 0 }) :=
    State.imageAs_trans (s.imageAs_clearInfOk (by decide)) ⟨rfl, id, fun hc => ⟨nofun, hc.2⟩⟩
  refine Ended.leaves_andThen (headerCheck_leaves (by decide) _)
    (fun t ht => ⟨State.imageAs_trans hstart ht.1, ht.2⟩) fun t _ ht => ?_
  exact Ended.leaves_mono (bodyInterlace_leaves _ t) fun u hu =>
    hu ▸ ⟨State.imageAs_trans hstart ht.1, ht.2⟩

theorem decodeRule_leaves (s : State) : (decodeRule s).leaves (s.imageAs .decode) :=
  Ended.leaves_andThen (decodeHead_leaves s) (fun _ ht => ht.1) fun t _ ht =>
    Ended.leaves_check (checkRegions_leaves _ t) ht.1 fun hr =>
      Ended.leaves_image_from ht.1 (decodeBody_leaves ht.2 fun _ => inRange_of_checkRegions hr)

end Sys2Proof.Machine
end

section
/-! SUPPORT. What the rules of the pathfinder and the frontier commands leave, and with it every command: the pieces of state
named for it changed, and the invariant kept (44_frontier.md R374 to R383, 45_pathfinder.md R410 to R424). -/

namespace Sys2Proof.Machine

variable {r : Ended} {s t : State} {i : Instr}

/-! ### The pathfinder's writes (R410 to R422) -/

theorem Ended.leaves_of_relaxes (h : r.relaxes s) : r.leaves s.searchesAs := by
  cases r with
  | ok t => exact (h.1 t rfl).1
  | raised e n t =>
    obtain ⟨ht, -, rfl, -⟩ := h.2 e n t rfl
    exact ⟨by decide, ht⟩
  | stuck x => trivial

theorem pfStart_leaves (s : State) : (pfStart s).leaves (s.writesAs .pfStart) := by
  refine Ended.leaves_check (pfStartChecks_leaves s) (s.writesAs_refl _) fun _ =>
    Ended.leaves_check (checkRegions_leaves _ s) (s.writesAs_refl _) fun _ => ?_
  unfold pfSeed
  simp only
  rcases frontierInsert_cases _ _ with ⟨-, h⟩ | ⟨-, h⟩ <;> rw [h]
  · exact ⟨by decide, rfl⟩
  · rfl

theorem pfStep_leaves (s : State) : (pfStep s).leaves (s.writesAs .pfStep) := by
  unfold pfStep
  split_ifs
  · exact ⟨by decide, s.writesAs_refl _⟩
  · exact ⟨by decide, rfl⟩
  · unfold frontierExtract
    split
    · exact ⟨by decide, s.writesAs_refl _⟩
    · next e rest _ =>
      unfold pfExpand
      simp only
      split_ifs
      · rfl
      · refine Ended.leaves_mono (Ended.leaves_of_relaxes (relaxAll_relaxes _ _ _)) fun t ht => ?_
        unfold State.searchesAs at ht
        rw [ht]
        rfl

theorem pfLoop_leaves (n : Nat) (s : State) : (pfLoop n s).leaves (s.writesAs .pfStep) := by
  induction n generalizing s with
  | zero =>
    unfold pfLoop
    split_ifs
    · exact s.writesAs_refl _
    · trivial
  | succ n ih =>
    unfold pfLoop
    split_ifs
    · exact s.writesAs_refl _
    · exact Ended.leaves_andThen (pfStep_leaves s) (fun _ ht => ht) fun t _ ht => Ended.leaves_writes_from ht (ih t)

/-- The trace writes the path's bytes, which its region check has found in range, and PATH_LEN (R418). -/
theorem pfTrace_leaves (extra : List Region) (s : State) : (pfTrace extra s).leaves (s.imageAs .pfTrace) := by
  unfold pfTrace
  split_ifs
  · exact ⟨by decide, s.imageAs_refl _⟩
  · split
    · trivial
    · next cells _ =>
      unfold tracePath
      simp only
      split_ifs
      · exact ⟨by decide, s.imageAs_refl _⟩
      · refine Ended.leaves_check (checkRegions_leaves _ s) (s.imageAs_refl _) fun hr => ?_
        have hfit : s.pf.pathAddr.toNat + 4 * cells.length ≤ 2 ^ 32 :=
          inRange_of_checkRegions hr (List.mem_append_right _ (List.mem_singleton_self _))
        exact State.imageAs_trans (State.imageAs_write (by decide) (by rwa [length_pathBytes])) ⟨rfl, id, id⟩

/-- PF_SEARCH may write what its phases may (R422). -/
theorem State.writesAs_pfSearch (hi : i ∈ [.pfStart, .pfStep, .pfTrace]) (h : s.writesAs i t) : s.writesAs .pfSearch t := by
  simp only [List.mem_cons, List.not_mem_nil, or_false] at hi
  unfold State.writesAs at h
  rw [h]
  rcases hi with rfl | rfl | rfl <;> rfl

theorem pfSearchSteps_leaves (s : State) : (pfSearchSteps s).leaves (s.writesAs .pfSearch) :=
  Ended.leaves_andThen (Ended.leaves_mono (pfStart_leaves s) fun _ => State.writesAs_pfSearch (by decide)) (fun _ ht => ht)
    fun t _ ht => Ended.leaves_writes_from ht
      (Ended.leaves_mono (pfLoop_leaves _ t) fun _ => State.writesAs_pfSearch (by decide))

/-! ### The invariant -/

/-- State t is what command i may make of s, and has the invariant if s has it, with no error, while the command runs. -/
def State.keepsAs (i : Instr) (s t : State) : Prop := s.writesAs i t ∧ (s.running → t.Inv)

theorem State.keepsAs_refl (i : Instr) (s : State) : s.keepsAs i s := ⟨s.writesAs_refl i, fun h => h.1⟩

/-- The invariant speaks of memory and the image configuration in two parts of their own. -/
theorem State.Inv.of_imageAs (hi : ¬ i.writesFrontier)
    (hs : s.Inv) (h : s.imageAs i t) : t.Inv := by
  obtain ⟨hpar, hmem, hset, hcomp, hcfg, hq, hsi⟩ := hs
  obtain ⟨hw, hm, hc⟩ := h
  have hm := hm hmem
  have hc := hc hcfg
  simp only [List.mem_cons, List.not_mem_nil, or_false, not_or] at hi
  simp only [State.writesAs, hi, List.mem_cons, List.not_mem_nil, or_false, false_or, if_false] at hw
  rw [hw] at hm hc ⊢
  exact ⟨hpar, hm, hset, hcomp, hc, hq, hsi⟩

theorem State.imageAs.keepsAs (hi : ¬ i.writesFrontier)
    (h : s.imageAs i t) : s.keepsAs i t := ⟨h.1, fun hs => hs.1.of_imageAs hi h⟩

/-- A rule that changes what it may, and ends with the invariant where it runs with it. -/
theorem Ended.leaves_keeps (hw : r.leaves (s.writesAs i)) (h : s.running → r.leaves State.Inv) :
    r.leaves (s.keepsAs i) := by
  cases r with
  | ok t => exact ⟨hw, h⟩
  | raised e n t => exact ⟨hw.1, hw.2, fun hs => (h hs).2⟩
  | stuck x => trivial

/-- PF_SEARCH's phases each keep the invariant (R422). -/
theorem pfSearchRule_leaves (s : State) : (pfSearchRule s).leaves (s.keepsAs .pfSearch) := by
  have hsteps := pfSearchSteps_leaves s
  refine Ended.leaves_keeps ?_ fun hs => ?_
  · refine Ended.leaves_andThen hsteps (fun _ ht => ht) fun t _ ht => Ended.leaves_writes_from ht ?_
    exact Ended.leaves_mono (pfTrace_leaves _ t) fun _ hu => State.writesAs_pfSearch (by decide) hu.1
  · refine Ended.leaves_andThen (Ended.leaves_of_endsIn (pfSearchSteps_endsIn hs) hsteps) (fun _ ht => ht.1) fun t _ ht => ?_
    exact Ended.leaves_mono (pfTrace_leaves _ t) fun _ hu => ht.1.of_imageAs (by decide) hu

/-! ### The frontier commands and NODE_READ (R378 to R383, R424) -/

/-- While no search is active, the invariant asks of the frontier only that it is well formed (R374). -/
theorem State.Inv.withQueue (hs : s.Inv) (hna : s.ctl.pfState ≠ .active) {q : List Entry}
    (hq : frontierWf s.par.frontierCap.toNat q) (v : Results) : ({ s with frontier := q, res := v } : State).Inv := by
  obtain ⟨hpar, hmem, hset, hcomp, hcfg, -, htab, hidle, hstarted, -, hfound⟩ := hs
  exact ⟨hpar, hmem, hset, hcomp, hcfg, hq, htab, hidle, hstarted, fun ha => absurd ha hna, hfound⟩

/-- A direct frontier command, which is refused while a search is active (R383). -/
theorem requireNoSearch_andThen_leaves {f : State → Ended} (hf : s.ctl.pfState ≠ .active → (f s).leaves (s.keepsAs i)) :
    ((requireNoSearch s).andThen f).leaves (s.keepsAs i) := by
  refine Ended.leaves_check (requireNoSearch_leaves s) (s.keepsAs_refl i) fun hr => ?_
  rcases requireNoSearch_cases s with ⟨hna, -⟩ | ⟨-, h⟩
  · exact hf hna
  · rw [h] at hr
    cases hr

/-- An insertion that has room keeps the frontier well formed (R374, R376). -/
theorem frontierInsert_leaves (hi : i ∈ [.pqInsert, .pqDecrease]) (hna : s.ctl.pfState ≠ .active) (e : Entry) :
    (frontierInsert e s).leaves (s.keepsAs i) := by
  rcases frontierInsert_cases e s with ⟨-, h⟩ | ⟨-, h⟩
  · rw [h]
    exact ⟨by decide, s.keepsAs_refl i⟩
  · rw [h]
    refine ⟨by rcases List.mem_pair.1 hi with rfl | rfl <;> rfl, fun hs => ?_⟩
    obtain ⟨hdist, hsort, hlen⟩ := hs.1.queue
    exact hs.1.withQueue hna ⟨pairwise_placeEntry hdist e, sorted_placeEntry hdist hsort e, length_frontierInsert h hlen⟩ _

theorem pqClearRule_leaves (s : State) : (pqClearRule s).leaves (s.keepsAs .pqClear) :=
  requireNoSearch_andThen_leaves fun hna => ⟨rfl, fun hs => hs.1.withQueue hna ⟨.nil, .nil, Nat.zero_le _⟩ _⟩

theorem pqInsertRule_leaves (s : State) : (pqInsertRule s).leaves (s.keepsAs .pqInsert) :=
  requireNoSearch_andThen_leaves fun hna => frontierInsert_leaves (by decide) hna _

theorem pqExtractRule_leaves (s : State) : (pqExtractRule s).leaves (s.keepsAs .pqExtract) :=
  requireNoSearch_andThen_leaves fun hna => by
    unfold frontierExtract
    split
    · exact ⟨by decide, s.keepsAs_refl _⟩
    · next e rest hf =>
      refine ⟨rfl, fun hs => ?_⟩
      obtain ⟨hdist, hsort, hlen⟩ := hf ▸ hs.1.queue
      exact hs.1.withQueue hna ⟨hdist.of_cons, hsort.of_cons, (Nat.le_succ _).trans hlen⟩ _

theorem pqPeekRule_leaves (s : State) : (pqPeekRule s).leaves (s.keepsAs .pqPeek) := by
  unfold pqPeekRule frontierPeek
  split
  · exact ⟨by decide, s.keepsAs_refl _⟩
  · exact ⟨rfl, fun hs => hs.1⟩

theorem pqDecreaseRule_leaves (s : State) : (pqDecreaseRule s).leaves (s.keepsAs .pqDecrease) :=
  requireNoSearch_andThen_leaves fun hna => by
    split
    · exact ⟨by decide, s.keepsAs_refl _⟩
    · split_ifs
      · exact frontierInsert_leaves (by decide) hna _
      · exact s.keepsAs_refl _

theorem nodeReadRule_leaves (s : State) : (nodeReadRule s).leaves (s.keepsAs .nodeRead) := by
  unfold nodeReadRule
  split_ifs
  · exact ⟨rfl, fun hs => hs.1⟩
  · exact ⟨by decide, s.keepsAs_refl _⟩

/-! ### Every command -/

/-- What the rule of any command leaves: only the pieces of state named for it changed, and the invariant. -/
theorem commandRule_leaves (i : Instr) (s : State) : (commandRule i s).leaves (s.keepsAs i) := by
  cases i
  case hdrCheck => exact Ended.leaves_mono (hdrCheckRule_leaves s) fun _ => State.imageAs.keepsAs (by decide)
  case inflate => exact Ended.leaves_mono (inflateRule_leaves s) fun _ => State.imageAs.keepsAs (by decide)
  case sizeCheck => exact Ended.leaves_mono (sizeCheckRule_leaves s) fun t ht => ht ▸ t.keepsAs_refl _
  case unfilterRow => exact Ended.leaves_mono (unfilterRowRule_leaves s) fun _ => State.imageAs.keepsAs (by decide)
  case unpackRow => exact Ended.leaves_mono (unpackRowRule_leaves s) fun _ => State.imageAs.keepsAs (by decide)
  case decode => exact Ended.leaves_mono (decodeRule_leaves s) fun _ => State.imageAs.keepsAs (by decide)
  case pfStart =>
    have h := pfStart_leaves s
    exact Ended.leaves_keeps h fun hs => Ended.leaves_of_endsIn (Ended.endsIn_mono (pfStart_endsIn hs) fun _ ht => ht.1) h
  case pfStep =>
    have h := pfStep_leaves s
    exact Ended.leaves_keeps h fun hs => Ended.leaves_of_endsIn (Ended.endsIn_mono (pfStep_endsIn hs) fun _ ht => ht.1.1) h
  case pfTrace => exact Ended.leaves_mono (pfTrace_leaves [] s) fun _ => State.imageAs.keepsAs (by decide)
  case pfSearch => exact pfSearchRule_leaves s
  case pqClear => exact pqClearRule_leaves s
  case pqInsert => exact pqInsertRule_leaves s
  case pqExtract => exact pqExtractRule_leaves s
  case pqPeek => exact pqPeekRule_leaves s
  case pqDecrease => exact pqDecreaseRule_leaves s
  case nodeRead => exact nodeReadRule_leaves s
  all_goals exact s.keepsAs_refl _

/-- A completion writes the completion state only (R455). -/
theorem complete_frame {opc : Byte} {P : State → Prop} (hr : r.leaves P) (h : complete opc r = .next t) :
    ∃ u, P u ∧ t = { u with
      pending := none
      unit := .idle
      ctl := { u.ctl with
        done := t.ctl.done
        err := t.ctl.err
        errCode := t.ctl.errCode
        errInfo := t.ctl.errInfo
        errCmd := t.ctl.errCmd } } := by
  rcases complete_eq_next.1 h with ⟨u, rfl, rfl⟩ | ⟨e, n, u, rfl, rfl⟩
  · exact ⟨u, hr, rfl⟩
  · exact ⟨u, hr.2, rfl⟩

/-- Settles O17: the rule of each command writes only the pieces of state named for it, and its completion writes only the
completion state. -/
theorem commandsWriteOnlyTheirState : Obligations.CommandsWriteOnlyTheirState := by
  unfold Obligations.CommandsWriteOnlyTheirState
  intro s t i hi ht
  rw [exec_eq_complete hi] at ht
  obtain ⟨u, ⟨hu, -⟩, htu⟩ := complete_frame (commandRule_leaves i s) ht
  rw [htu, hu]
  exact ⟨rfl, rfl, rfl, rfl, rfl, rfl, rfl, rfl, rfl, rfl, fun h => if_neg h,
    fun h => ⟨if_neg h, if_neg h⟩, fun h => ⟨if_neg h, if_neg h, if_neg h⟩, fun h => if_neg h,
    fun h => ⟨if_neg h, if_neg h, if_neg h⟩, fun h => if_neg h, fun h => if_neg h, fun h => if_neg h, fun h => if_neg h⟩

end Sys2Proof.Machine
end

section
/-! SUPPORT. Every step keeps the invariant: the engine's steps, which run a command to its completion, and the host's
accesses (00_scope.md R14, 10_state.md R35 to R48, 70_reset_and_hazards.md R490 to R492). -/

namespace Sys2Proof.Machine

variable {s t : State}

/-! ### The engine (R454, R455) -/

/-- A success keeps the invariant: the engine is idle, and the error registers are as they were. -/
theorem State.Inv.finish (hs : s.Inv) : (finish s).Inv := by
  obtain ⟨hpar, hmem, ⟨-, hitem⟩, ⟨-, hcode⟩, hcfg, hq, hsi⟩ := hs
  exact ⟨hpar, hmem, ⟨rfl, hitem⟩, ⟨nofun, hcode⟩, hcfg, hq, hsi⟩

/-- An error of a kind the block raises keeps the invariant (R451). -/
theorem State.Inv.takeError (hs : s.Inv) {e : ErrorKind} (he : e.produced) (opc : Byte) (n : Word) :
    (takeError opc e n s).Inv := by
  obtain ⟨hpar, hmem, ⟨-, hitem⟩, -, hcfg, hq, hsi⟩ := hs
  exact ⟨hpar, hmem, ⟨rfl, hitem⟩, ⟨nofun, he.2, fun _ h0 => he.1 (ErrorKind.code_eq_zero.1 h0)⟩, hcfg, hq, hsi⟩

/-- A command that is pending has raised no error yet (R40). -/
theorem State.Inv.running (hs : s.Inv) (hb : s.busy = true) : s.running := by
  have ⟨_, _, _, ⟨hbusy, _⟩, _⟩ := hs
  obtain ⟨-, herr, -⟩ := hbusy hb
  exact ⟨hs, herr⟩

/-- An engine step keeps the invariant: it runs the pending word's command, which completes, or completes it with
IllegalCommand. -/
theorem State.Inv.engineStep (hs : s.Inv) (h : engineStep s = .next t) : t.Inv := by
  unfold Machine.engineStep at h
  cases hp : s.pending with
  | none =>
    simp only [hp, Host.Outcome.next.injEq] at h
    exact h ▸ hs
  | some w =>
    simp only [hp] at h
    cases hd : decode .cmd w.toNat with
    | ok i =>
      simp only [hd] at h
      rw [exec_eq_complete (fmt_of_decode_cmd hd)] at h
      have hrun := hs.running (by simp [State.busy, hp])
      exact Ended.leaves_complete (commandRule_leaves i s) (fun u hu => (hu.2 hrun).finish)
        (fun e n u he hu => (hu.2 hrun).takeError he _ n) h
    | error x =>
      simp only [hd, Host.Outcome.next.injEq] at h
      exact h ▸ hs.takeError (by decide) _ _

/-! ### Resets (R490 to R492) -/

/-- The state after hardware reset has the invariant. -/
theorem State.resetWith_inv {p : Params} {m : Memory} (hp : p.wf) (hm : m.wf) : (State.resetWith p m).Inv :=
  ⟨hp, hm, ⟨rfl, rfl⟩, ⟨nofun, .inl rfl, nofun⟩, ⟨nofun, nofun⟩, ⟨.nil, .nil, Nat.zero_le _⟩, ⟨.nil, nofun⟩, fun _ => rfl,
    fun h => absurd rfl h, nofun, nofun⟩

theorem State.Inv.hardReset (hs : s.Inv) : (hardReset s).Inv := State.resetWith_inv hs.1 hs.2.1

theorem State.Inv.softReset (hs : s.Inv) : (softReset s).Inv := by
  refine State.resetWith_inv ?_ (wf_drawWrites _ hs.2.1)
  obtain ⟨m, k, hd⟩ := drawWrites_eq s.runningRegions s
  rw [hd]
  exact hs.1

/-! ### The host's accesses (R35 to R48, 20_memory.md R120) -/

/-- Acceptance keeps the invariant: it clears what a pending command needs cleared (R40, R48). -/
theorem State.Inv.accept (hs : s.Inv) (w : Word) : (accept w s).Inv := by
  obtain ⟨hpar, hmem, hset, hcomp, ⟨hcv, hok⟩, hq, hsi⟩ := hs
  cases hb : s.busy with
  | true =>
    rw [accept_busy hb]
    exact ⟨hpar, hmem, hset, hcomp, ⟨hcv, hok⟩, hq, hsi⟩
  | false =>
    rw [accept_idle hb]
    refine ⟨hpar, hmem, hset, ⟨fun _ => ⟨rfl, rfl, rfl, rfl, rfl⟩, .inl rfl, nofun⟩, ⟨hcv, fun h => hok ?_⟩, hq, hsi⟩
    simp only at h
    split_ifs at h
    exact h

/-- A write of STATUS keeps the invariant: it only clears flags (R41). -/
theorem State.Inv.writeStatus (hs : s.Inv) (v : Word) : (s.writeStatus v).Inv := by
  obtain ⟨hpar, hmem, hset, ⟨hbusy, hcode, herr⟩, hcfg, hq, hsi⟩ := hs
  refine ⟨hpar, hmem, hset, ⟨fun hb => ?_, hcode, fun h => herr ?_⟩, hcfg, hq, hsi⟩
  · obtain ⟨hd, he, hrest⟩ := hbusy hb
    exact ⟨by simp [hd], by simp [he], hrest⟩
  · rw [writeStatus_ctl] at h
    exact (Bool.and_eq_true_iff.1 h).1

/-- A write to a read-write register keeps the invariant: CFG_VALID falls with the IHDR registers it speaks of (R45), and
INF_OK with INF_CAP (R48). -/
theorem State.Inv.setReg (hs : s.Inv) (r : Reg) (v : Word) : (setReg r v s).Inv := by
  obtain ⟨hpar, hmem, hset, hcomp, ⟨hcv, hok⟩, hq, hsi⟩ := hs
  cases r
  case width | height | bitDepth | colorType | compMethod | filtMethod | interlace =>
    exact ⟨hpar, hmem, hset, hcomp, ⟨nofun, hok⟩, hq, hsi⟩
  case infAddr | infCap => exact ⟨hpar, hmem, hset, hcomp, ⟨hcv, nofun⟩, hq, hsi⟩
  all_goals exact ⟨hpar, hmem, hset, hcomp, ⟨hcv, hok⟩, hq, hsi⟩

theorem State.Inv.busWrite (hs : s.Inv) (r : Reg) (v : Word) : (busWrite r v s).Inv := by
  unfold Machine.busWrite writeCtrl
  split
  · exact hs
  · exact hs.accept v
  · exact hs.writeStatus v
  · split_ifs
    · exact hs.softReset
    · exact hs
    · exact hs
    · exact hs.setReg r v

/-- A register read changes what the bus returned, and nothing the invariant speaks of (R31). -/
theorem State.Inv.busRead (hs : s.Inv) (r : Reg) : (busRead r s).Inv := by
  unfold Machine.busRead
  split_ifs <;> exact hs

theorem State.Inv.hostRead (hs : s.Inv) {size offset : Nat} (h : hostRead size offset s = .next t) : t.Inv := by
  unfold Machine.hostRead at h
  split_ifs at h
  split at h <;> cases h
  · exact hs.busRead _
  · exact hs

theorem State.Inv.hostWrite (hs : s.Inv) {size offset : Nat} {v : Word} (h : hostWrite size offset v s = .next t) :
    t.Inv := by
  unfold Machine.hostWrite at h
  split_ifs at h
  split at h <;> cases h
  · exact hs.busWrite _ v
  · exact hs

theorem State.Inv.hostMemRead (hs : s.Inv) (a : Word) : (hostMemRead a s).Inv := by
  unfold Machine.hostMemRead
  split_ifs <;> exact hs

/-- A host write to memory keeps its canonical form (R100, R120). -/
theorem State.Inv.hostMemWrite (hs : s.Inv) {a : Word} {v : Byte} (h : hostMemWrite a v s = .next t) : t.Inv := by
  unfold Machine.hostMemWrite at h
  split_ifs at h
  cases h
  obtain ⟨hpar, hmem, hrest⟩ := hs
  exact ⟨hpar, Memory.wf_writeByte hmem a.isLt v, hrest⟩

/-! ### Every step -/

theorem State.Inv.hostStep (hs : s.Inv) {op : HostOp} (h : hostStep op s = .next t) : t.Inv := by
  cases op with
  | rd size offset => exact hs.hostRead h
  | wr size offset v => exact hs.hostWrite h
  | memRd a =>
    cases h
    exact hs.hostMemRead a
  | memWr a v => exact hs.hostMemWrite h
  | wait =>
    unfold Machine.hostStep at h
    simp only at h
    split_ifs at h
    · exact State.Inv.engineStep (s := { s with agenda := .wait :: s.agenda }) hs h
    · cases h
      exact hs.busRead .status
  | engineTurn => exact hs.engineStep h
  | hardReset =>
    cases h
    exact hs.hardReset

/-- Settles O21: with no item latched a step is an engine step or a host access, and each of them keeps the invariant. -/
theorem stepKeepsInvariant : Obligations.StepKeepsInvariant := by
  unfold Obligations.StepKeepsInvariant
  intro s t hs h
  have ⟨hpar, hmem, ⟨hunit, hitem⟩, hrest⟩ := hs
  unfold step at h
  simp only [hitem] at h
  split at h
  · exact hs.engineStep h
  · next op rest _ =>
    exact State.Inv.hostStep (s := { s with agenda := rest, item := none }) ⟨hpar, hmem, ⟨hunit, rfl⟩, hrest⟩ h

end Sys2Proof.Machine
end

section
/-! SUPPORT. The register map (10_state.md R30 to R41): where each register is found, what a read of it returns, and what a
write does by its access type. -/

namespace Sys2Proof.Machine

variable {s : State} {r : Reg} {v : Word}

/-! ### The map (R32, R33, R38) -/

theorem regAt_offset (r : Reg) : regAt r.offset = some r := by cases r <;> rfl

theorem offset_aligned (r : Reg) : r.offset % 4 = 0 ∧ r.offset < 256 := by cases r <;> decide

theorem goodAccess_offset (r : Reg) : goodAccess 4 r.offset = true := decide_eq_true ⟨rfl, offset_aligned r⟩

/-- A register and its row of the table of R38. -/
theorem mem_registerTable (r : Reg) : (r, r.offset, r.access) ∈ registerTable := by cases r <;> decide

/-- A read at a register's offset reads the register. -/
theorem hostRead_offset (r : Reg) (s : State) : hostRead 4 r.offset s = .next (busRead r s) := by
  unfold hostRead
  rw [if_pos (goodAccess_offset r), regAt_offset]

/-- A write at a register's offset writes the register. -/
theorem hostWrite_offset (r : Reg) (v : Word) (s : State) : hostWrite 4 r.offset v s = .next (busWrite r v s) := by
  unfold hostWrite
  rw [if_pos (goodAccess_offset r), regAt_offset]

/-- An access that is not of 4 bytes at a multiple of 4 is not taken (R32). -/
theorem goodAccess_eq_false {size offset : Nat} (h : size ≠ 4 ∨ offset % 4 ≠ 0) : goodAccess size offset = false := by
  refine decide_eq_false fun ⟨h1, h2, _⟩ => ?_
  rcases h with h | h
  · exact h h1
  · exact h h2

/-- The reserved offsets of the block hold no register (R33). -/
theorem regAt_reserved : ∀ offset ∈ [0x078, 0x07C, 0x0A8, 0x0AC, 0x0B0, 0x0B4, 0x0B8, 0x0BC, 0x0F4, 0x0F8, 0x0FC],
    goodAccess 4 offset = true ∧ regAt offset = none := by decide

/-- Settles O8: register by register of R38's table, and offset by offset of the reserved ones. -/
theorem registerBlockAccesses : Obligations.RegisterBlockAccesses := by
  unfold Obligations.RegisterBlockAccesses
  refine ⟨fun s size offset v h => ?_, fun s offset v h => ?_, fun r => ⟨regAt_offset r, offset_aligned r⟩, mem_registerTable⟩
  · have hg := goodAccess_eq_false h
    simp only [hostRead, hostWrite, hg, Bool.false_eq_true, if_false, and_self]
  · obtain ⟨hg, hr⟩ := regAt_reserved offset h
    simp only [hostRead, hostWrite, hg, hr, if_true, and_self]

/-! ### Reads (R31, R37) -/

/-- The registers whose value is not specified while BUSY = 1 (R37, log 11). -/
theorem Reg.unstable_iff (r : Reg) : r.unstable = true ↔
    r ∈ [.res0, .res1, .res2, .res3, .infLen, .infSrcUsed, .infAdler, .rowsDone, .pathLen, .pqCount, .pfSteps] := by
  cases r <;> decide

/-- The value of each register, piece of state by piece of state: a narrow field is read zero-extended (R34, R38). -/
theorem value_of_registerHolds (s : State) : ∀ p ∈ registerHolds s, (p.1.value s).toNat = p.2 := by
  simp only [registerHolds, List.forall_mem_cons]
  and_intros <;> try rfl
  · change (BitVec.ofNat 32 (flagBit s.ctl.ie)).toNat = _
    cases s.ctl.ie <;> rfl
  · exact nofun

/-- Settles O9: a read returns the value of the piece of state that the register names. -/
theorem registerReads : Obligations.RegisterReads := by
  unfold Obligations.RegisterReads
  intro s r
  rw [hostRead_offset]
  refine ⟨fun h => ?_, ?_, ⟨rfl, rfl⟩, fun n hn => value_of_registerHolds s (r, n) hn⟩
  · rw [← Reg.unstable_iff, Bool.not_eq_true] at h
    unfold busRead
    rw [if_neg (by rcases h with h | h <;> simp [h])]
  · unfold busRead
    split_ifs
    · exact ⟨_, _, rfl⟩
    · exact ⟨_, s.draws, rfl⟩

/-! ### Writes (R34 to R36, R39) -/

theorem busWrite_ro (h : r.access = .ro) : busWrite r v s = s := by simp only [busWrite, h]

theorem busWrite_rw (h : r.access = .rw) (hc : r ≠ .ctrl) :
    busWrite r v s = if s.busy then s else setReg r v s := by
  simp only [busWrite, h, hc, if_false]

/-- Settles O11: by access type. -/
theorem ignoredWrites : Obligations.IgnoredWrites := by
  unfold Obligations.IgnoredWrites
  intro s r v
  refine ⟨fun h => ?_, fun h hc hb => ?_, fun hv => ?_⟩
  · rw [hostWrite_offset, busWrite_ro h]
  · rw [hostWrite_offset, busWrite_rw h hc, if_pos hb]
  · have hw : hostWrite 4 0x004 v s = .next (writeCtrl v s) := hostWrite_offset .ctrl v s
    rw [hw, writeCtrl, hv]
    rfl

/-- Settles O12: by acceptance, idle or busy. -/
theorem commandAcceptance : Obligations.CommandAcceptance := by
  unfold Obligations.CommandAcceptance
  intro s w
  have hw : hostWrite 4 0x00C w s = .next (accept w s) := hostWrite_offset .cmd w s
  refine ⟨fun hb => by rw [hw, accept_busy hb], fun hb => ⟨_, hw, by rw [accept_idle hb]; rfl, ?_⟩⟩
  rw [accept_idle hb]
  have h2 : w = 0x02 ↔ w.toNat = 2 := BitVec.toNat_inj.symm
  have h6 : w = 0x06 ↔ w.toNat = 6 := BitVec.toNat_inj.symm
  simp only [h2, h6]
  split_ifs with h
  · rcases h with h | h <;> simp [h]
  · simp [not_or.1 h]

/-! ### A write of a field is read back (R34, R45, R48) -/

/-- A write leaves the other registers as they read, but STATUS. -/
theorem value_setReg_of_ne {q : Reg} (h : q ≠ r) (hq : q ≠ .status) (v : Word) (s : State) :
    q.value (setReg r v s) = q.value s := by
  cases r <;> cases q <;> try rfl
  all_goals contradiction

/-- A field of n bits keeps the low n bits of a word, and is read zero-extended (R34). -/
theorem toNat_setWidth_setWidth {n : Nat} (hn : n ≤ 32) (v : Word) :
    ((v.setWidth n).setWidth 32).toNat = v.toNat % 2 ^ n := by
  rw [BitVec.toNat_setWidth_of_le hn, BitVec.toNat_setWidth]

/-- A written register reads as the low bits of the word. -/
theorem value_setReg (hr : r.access = .rw) (hc : r ≠ .ctrl) (v : Word) (s : State) :
    (r.value (setReg r v s)).toNat = v.toNat % 2 ^ r.fieldWidth := by
  cases r
  case bitDepth | colorType | compMethod | filtMethod | interlace => exact toNat_setWidth_setWidth (n := 8) (by decide) v
  case pfW | pfH | startX | startY | goalX | goalY => exact toNat_setWidth_setWidth (n := 16) (by decide) v
  case pfMode => exact toNat_setWidth_setWidth (n := 1) (by decide) v
  case arg0 | arg1 | arg2 | arg3 | width | height | srcAddr | srcLen | infAddr | infCap | rawAddr | pixAddr | gridAddr
    | pathAddr | pathCap => exact (Nat.mod_eq_of_lt v.isLt).symm
  all_goals contradiction

/-- A write changes no piece of state but the registers, CFG_VALID and INF_OK (R45, R48). -/
theorem setReg_frame (r : Reg) (v : Word) (s : State) :
    setReg r v s = { s with
      args := (setReg r v s).args
      hdr := (setReg r v s).hdr
      buf := (setReg r v s).buf
      pf := (setReg r v s).pf
      ctl := { s.ctl with
        cfgValid := if r ∈ [.width, .height, .bitDepth, .colorType, .compMethod, .filtMethod, .interlace] then false
          else s.ctl.cfgValid
        infOk := if r ∈ [.infAddr, .infCap] then false else s.ctl.infOk } } := by
  cases r <;> rfl

/-- Settles O10: an accepted write is read back, and changes only its group of registers, CFG_VALID and INF_OK. -/
theorem writeReadsBackLowBits : Obligations.WriteReadsBackLowBits := by
  unfold Obligations.WriteReadsBackLowBits
  intro s r v hr hc hb
  have hw : hostWrite 4 r.offset v s = .next (setReg r v s) := by
    rw [hostWrite_offset, busWrite_rw hr hc, hb]
    rfl
  refine ⟨_, hw, value_setReg hr hc v s, fun q hq hs => value_setReg_of_ne hq hs v s, ?_⟩
  rw [setReg_frame]
  exact ⟨rfl, rfl, rfl, rfl, rfl, rfl⟩

/-! ### STATUS (R38, R41, R52) -/

/-- Bit k of a word, by division. -/
theorem getLsbD_eq_div (v : Word) (k : Nat) : v.getLsbD k = decide (v.toNat / 2 ^ k % 2 = 1) :=
  Nat.testBit_eq_decide_div_mod_eq

theorem flagBit_le (b : Bool) : flagBit b ≤ 1 := by cases b <;> decide

/-- The flags of STATUS are single bits. -/
theorem State.flagBits_le (s : State) : flagBit s.busy ≤ 1 ∧ flagBit s.ctl.done ≤ 1 ∧ flagBit s.ctl.err ≤ 1 ∧
    flagBit s.ctl.ovr ≤ 1 ∧ flagBit s.ctl.cfgValid ≤ 1 ∧ flagBit s.ctl.infOk ≤ 1 :=
  ⟨flagBit_le _, flagBit_le _, flagBit_le _, flagBit_le _, flagBit_le _, flagBit_le _⟩

theorem PfState.code_le (p : PfState) : p.code ≤ 4 := by cases p <;> decide

/-- STATUS as a number: the sum of its fields. -/
theorem toNat_statusWord (s : State) : s.statusWord.toNat =
    flagBit s.busy + 2 * flagBit s.ctl.done + 4 * flagBit s.ctl.err + 8 * flagBit s.ctl.ovr
      + 16 * flagBit s.ctl.cfgValid + 32 * flagBit s.ctl.infOk + 256 * s.ctl.pfState.code := by
  obtain ⟨hbusy, hdone, herr, hovr, hcfg, hinf⟩ := s.flagBits_le
  have hpf := s.ctl.pfState.code_le
  exact Nat.mod_eq_of_lt (by omega)

/-- A bit of a word that is the bit of a flag. -/
theorem getLsbD_of_flagBit {v : Word} {k : Nat} {b : Bool} (h : v.toNat / 2 ^ k % 2 = flagBit b) : v.getLsbD k = b := by
  rw [getLsbD_eq_div, h]
  cases b <;> rfl

/-- Settles O13: a write by the bits of the word as quotients, STATUS by its number. -/
theorem statusBits : Obligations.StatusBits := by
  unfold Obligations.StatusBits
  intro s v
  have hw : hostWrite 4 0x008 v s = .next (s.writeStatus v) := hostWrite_offset .status v s
  have hv : (Reg.status.value s).toNat = _ := toNat_statusWord s
  obtain ⟨hbusy, hdone, herr, hovr, hcfg, hinf⟩ := s.flagBits_le
  have hzero : flagBit false = 0 := rfl
  have hcode : (Reg.status.value s).toNat / 256 = s.ctl.pfState.code := by omega
  refine ⟨?_, getLsbD_of_flagBit ?_, getLsbD_of_flagBit ?_, getLsbD_of_flagBit ?_, getLsbD_of_flagBit ?_,
    getLsbD_of_flagBit ?_, getLsbD_of_flagBit ?_, ?_, getLsbD_of_flagBit (b := false) ?_,
    getLsbD_of_flagBit (b := false) ?_⟩
  · rw [hw, State.writeStatus, getLsbD_eq_div, getLsbD_eq_div, getLsbD_eq_div]
    rfl
  case refine_8 =>
    rw [hcode]
    rfl
  all_goals
    rw [hv]
    omega

end Sys2Proof.Machine
end

section
/-! SUPPORT. Which bytes a command may change (20_memory.md R101, R104, 60_exceptions.md R458): the parts of a rule that write
memory each change bytes of the regions the rule names only, so the command does. -/

namespace Sys2Proof.Machine

variable {r : Ended} {s t : State} {rs : List Region}

/-! ### Changes confined to regions -/

/-- State t has memory s had outside the write regions of a list, and its bytes still are in order of address. -/
def State.confined (rs : List Region) (s t : State) : Prop :=
  Sparse.sorted s.mem → Sparse.sorted t.mem ∧ s.mem.keepsOutside t.mem rs

theorem State.confined_of_mem_eq (rs : List Region) (h : t.mem = s.mem) : s.confined rs t :=
  fun hs => by rw [h]; exact ⟨hs, fun _ _ => rfl⟩

theorem State.confined_refl (rs : List Region) (s : State) : s.confined rs s := s.confined_of_mem_eq rs rfl

theorem State.confined_trans {u : State} (h : s.confined rs t) (g : t.confined rs u) : s.confined rs u := fun hs => by
  obtain ⟨ht, hst⟩ := h hs
  obtain ⟨hu, htu⟩ := g ht
  exact ⟨hu, fun x hx => (htu x hx).trans (hst x hx)⟩

/-- A rule goes on from a state t that s became: what it leaves, seen from s. -/
theorem Ended.leaves_confined_from (h : s.confined rs t) (hr : r.leaves (t.confined rs)) : r.leaves (s.confined rs) :=
  Ended.leaves_mono hr fun _ g => State.confined_trans h g

/-- More regions confine less. -/
theorem State.confined_mono {qs : List Region} (hsub : qs ⊆ rs) (h : s.confined qs t) : s.confined rs t := fun hs => by
  obtain ⟨ht, hst⟩ := h hs
  exact ⟨ht, fun x hx => hst x fun q hq => hx q (hsub hq)⟩

/-- A write inside a write region. -/
theorem State.confined_write {q : Region} (hq : q ∈ rs) (hk : q.kind = .W) {a : Nat} {bytes : List Byte}
    (hlo : q.base ≤ a) (hhi : a + bytes.length ≤ q.base + q.len) :
    s.confined rs { s with mem := s.mem.write a bytes } := by
  refine fun hs => ⟨Memory.sorted_write hs a bytes, fun x hx => ?_⟩
  have hout := hx q hq hk
  rw [← Bool.not_eq_true, Region.holds_iff] at hout
  exact (Memory.storesAt_write hs a bytes).2 x (by omega)

/-- Unspecified bytes in write regions of the list (R458). -/
theorem State.confined_drawWrites {qs : List Region} (hsub : qs ⊆ rs) (s : State) : s.confined rs (drawWrites qs s) :=
  State.confined_mono hsub fun hs => ⟨sorted_drawWrites qs hs, keepsOutside_drawWrites qs hs⟩

/-! ### Rows (R284, R313, R345) -/

/-- UnfilterRow writes RAW row y. -/
theorem unfilterRow_confined {y : Nat} {q : Region} (hq : q ∈ rs) (hk : q.kind = .W) (hlo : q.base ≤ s.rawRow y)
    (hhi : s.rawRow y + s.der.scanlineBytes.toNat ≤ q.base + q.len) : (unfilterRow y s).leaves (s.confined rs) := by
  rcases unfilterRow_eq_write y s with ⟨n, h⟩ | ⟨raw, hraw, h⟩ <;> rw [h]
  · exact ⟨by decide, s.confined_refl rs⟩
  · exact State.confined_write hq hk hlo (by omega)

/-- UnpackRow writes PIX row y. -/
theorem unpackRow_confined {y : Nat} {q : Region} (hq : q ∈ rs) (hk : q.kind = .W) (hlo : q.base ≤ s.pixRow y)
    (hhi : s.pixRow y + 8 * s.hdr.width.toNat ≤ q.base + q.len) : (unpackRow y s).leaves (s.confined rs) := by
  unfold unpackRow
  simp only
  split_ifs
  · exact State.confined_write hq hk hlo (by rwa [Unpacker.unpacked_out, length_rowRecords])
  · trivial

/-- Row y of an image lies in its RAW and PIX regions (R104). -/
theorem State.row_in_image (s : State) {y : Nat} (hy : y < s.hdr.height.toNat) :
    s.rawRow y + s.der.scanlineBytes.toNat ≤ s.buf.rawAddr.toNat + s.hdr.height.toNat * s.der.scanlineBytes.toNat ∧
      s.pixRow y + 8 * s.hdr.width.toNat ≤ s.buf.pixAddr.toNat + 8 * s.hdr.width.toNat * s.hdr.height.toNat := by
  have hraw := Nat.mul_le_mul_right s.der.scanlineBytes.toNat hy
  have hpix := Nat.mul_le_mul_left (8 * s.hdr.width.toNat) hy
  simp only [State.rawRow, State.pixRow]
  constructor <;> nlinarith

theorem decodeRow_confined {y : Nat} (hy : y < s.hdr.height.toNat) :
    (decodeRow y s).leaves (s.confined s.imageRegions) := by
  obtain ⟨hraw, hpix⟩ := s.row_in_image hy
  have hunfilter : (unfilterRow y s).leaves (s.confined s.imageRegions) :=
    unfilterRow_confined (List.mem_cons_self ..) rfl (Nat.le_add_right _ _) hraw
  refine Ended.leaves_andThen (Ended.leaves_andThen hunfilter (fun _ ht => ht) fun t ht hst => ?_)
    (fun _ ht => ht) fun t _ hst => State.confined_trans hst (t.confined_of_mem_eq _ rfl)
  rcases unfilterRow_frame y s with ⟨m, h⟩ | h <;> rw [h] at ht <;> cases ht
  exact Ended.leaves_confined_from hst
    (unpackRow_confined (List.mem_cons_of_mem _ (List.mem_singleton_self _)) rfl (Nat.le_add_right _ _) hpix)

theorem decodeRows_confined (n y : Nat) (hn : y + n ≤ s.hdr.height.toNat) :
    (decodeRows n y s).leaves (s.confined s.imageRegions) := by
  induction n generalizing y s with
  | zero => exact s.confined_refl _
  | succ n ih =>
    refine Ended.leaves_andThen (decodeRow_confined (by omega)) (fun _ ht => ht) fun t ht hst => ?_
    have hrows := ((decodeRow_frame y s).1 t ht).1
    have himg : t.imageRegions = s.imageRegions := by rw [hrows]; rfl
    have hheight : t.hdr = s.hdr := by rw [hrows]
    rw [← himg] at hst ⊢
    exact Ended.leaves_confined_from hst (ih (y + 1) (by rw [hheight]; omega))

theorem rawRow_mem_unfilterRegionList (s : State) :
    ⟨s.rawRow s.rowOperand, s.der.scanlineBytes.toNat, .W⟩ ∈ unfilterRegionList s := by simp [unfilterRegionList]

theorem pixRow_mem_unpackRegionList (s : State) :
    ⟨s.pixRow s.rowOperand, 8 * s.hdr.width.toNat, .W⟩ ∈ unpackRegionList s := by simp [unpackRegionList]

theorem unfilterRowRule_confined (s : State) :
    (unfilterRowRule s).leaves (s.confined (regionsAfter (unfilterChecks s) unfilterRegionList)) :=
  Ended.leaves_check (unfilterChecks_leaves s) (s.confined_refl _) fun hc =>
    Ended.leaves_check (checkRegions_leaves _ s) (s.confined_refl _) fun _ => by
      rw [hc]
      exact unfilterRow_confined (rawRow_mem_unfilterRegionList s) rfl le_rfl le_rfl

theorem unpackRowRule_confined (s : State) :
    (unpackRowRule s).leaves (s.confined (regionsAfter (unpackChecks s) unpackRegionList)) :=
  Ended.leaves_check (unpackChecks_leaves s) (s.confined_refl _) fun hc =>
    Ended.leaves_check (checkRegions_leaves _ s) (s.confined_refl _) fun _ => by
      rw [hc]
      exact unpackRow_confined (pixRow_mem_unpackRegionList s) rfl le_rfl le_rfl

/-! ### INFLATE and DECODE (R252, R342, R347) -/

/-- The inflate phase writes the INF buffer up to its capacity; a stream error loses the regions of a failed phase (R253). -/
theorem inflatePhase_confined (isDecode : Bool) {next : Nat → State → Ended} (hsub : s.inflateRegions isDecode ⊆ rs)
    (hn : ∀ l m f, (next l { s with mem := m, inf := f }).leaves (State.confined rs { s with mem := m, inf := f })) :
    (inflatePhase isDecode s next).leaves (s.confined rs) := by
  rcases inflatePhase_cases isDecode s next with ⟨x, -, h⟩ | ⟨c, -, h⟩ <;> rw [h]
  · exact ⟨by decide, State.confined_trans (s.confined_of_mem_eq rs (t := drawInfResults s) rfl)
      (State.confined_drawWrites hsub _)⟩
  · have hlen := List.length_take_le s.buf.infCap.toNat c.hist.reverse
    have hsink : s.confined rs { s with mem := s.mem.write s.buf.infAddr.toNat (c.hist.reverse.take s.buf.infCap.toNat) } :=
      State.confined_write (hsub (List.mem_cons_self ..)) rfl le_rfl (Nat.add_le_add_left hlen _)
    exact Ended.leaves_confined_from (State.confined_trans hsink (State.confined_of_mem_eq rs rfl)) (hn _ _ _)

theorem inflateRule_confined (s : State) : (inflateRule s).leaves (s.confined (inflateRegionList s)) := by
  have hinf : [s.infRegion] ⊆ inflateRegionList s := List.subset_cons_self _ _
  refine Ended.leaves_confined_from (s.confined_of_mem_eq _ (t := clearInfOk s) rfl) ?_
  refine Ended.leaves_check (checkRegions_leaves _ (clearInfOk s)) (State.confined_refl _ _) fun _ => ?_
  refine inflatePhase_confined false hinf fun l m f => ?_
  split_ifs
  · exact ⟨by decide, State.confined_drawWrites hinf _⟩
  · exact State.confined_of_mem_eq _ rfl

theorem decodeBody_confined (s : State) : (decodeBody s).leaves (s.confined (decodeRegionList s)) := by
  have hlost : s.inflateRegions true ⊆ decodeRegionList s := List.subset_cons_self _ _
  have himg : s.imageRegions ⊆ decodeRegionList s := List.Subset.trans (List.subset_cons_self _ _) hlost
  refine inflatePhase_confined true hlost fun l m f => ?_
  simp only
  split_ifs
  · exact ⟨by decide, State.confined_drawWrites hlost _⟩
  · exact ⟨by decide, State.confined_drawWrites hlost _⟩
  · refine Ended.leaves_onRaise ?_ fun t ht => State.confined_trans ht (State.confined_drawWrites hlost _)
    refine Ended.leaves_confined_from (State.confined_of_mem_eq _ (setInfOk_mem _)) ?_
    exact Ended.leaves_mono (decodeRows_confined _ 0 (Nat.zero_add _).le) fun _ => State.confined_mono himg

/-- The header check and the interlace test leave memory as it is. -/
theorem decodeHead_mem (s : State) : (decodeHead s).leaves fun t => t.mem = s.mem := by
  refine Ended.leaves_andThen (Ended.leaves_mono (headerCheck_leaves (i := .hdrCheck) (by decide) _) fun t ht => ?_)
    (fun _ ht => ht) fun t _ ht => Ended.leaves_mono (bodyInterlace_leaves _ t) fun u hu => hu ▸ ht
  rw [ht.1.1]
  rfl

theorem decodeRule_confined (s : State) :
    (decodeRule s).leaves (s.confined (regionsAfter (decodeHead s) decodeRegionList)) :=
  Ended.leaves_andThen (decodeHead_mem s) (fun _ => s.confined_of_mem_eq _) fun t hrt ht => by
    rw [hrt]
    exact Ended.leaves_check (checkRegions_leaves _ t) (s.confined_of_mem_eq _ ht) fun _ =>
      Ended.leaves_confined_from (s.confined_of_mem_eq _ ht) (decodeBody_confined t)

/-! ### PF_TRACE and PF_SEARCH (R418, R422) -/

/-- The trace writes the bytes of the path it finds, if the path fits. -/
theorem pfTrace_confined (extra : List Region) (hsub : pathRegionList s ⊆ rs) :
    (pfTrace extra s).leaves (s.confined rs) := by
  unfold pfTrace
  split_ifs with hf
  · exact ⟨by decide, s.confined_refl rs⟩
  · unfold pathRegionList at hsub
    rw [if_pos (not_not.1 hf)] at hsub
    split
    · trivial
    · next cells hp =>
      simp only [hp] at hsub
      unfold tracePath
      simp only
      split_ifs with hcap
      · exact ⟨by decide, s.confined_refl rs⟩
      · rw [if_neg hcap] at hsub
        refine Ended.leaves_check (checkRegions_leaves _ s) (s.confined_refl rs) fun _ => ?_
        have hwrite : s.confined rs { s with mem := s.mem.write s.pf.pathAddr.toNat (pathBytes cells) } :=
          State.confined_write (hsub (List.mem_singleton_self _)) rfl le_rfl (by rw [length_pathBytes]; rfl)
        exact State.confined_trans hwrite (State.confined_of_mem_eq rs rfl)

/-- PF_START and the steps of a search leave memory as it is. -/
theorem pfSearchSteps_mem (s : State) : (pfSearchSteps s).leaves fun t => t.mem = s.mem := by
  refine Ended.leaves_andThen (Ended.leaves_mono (pfStart_leaves s) fun t ht => ?_) (fun _ ht => ht) fun t _ ht =>
    Ended.leaves_mono (pfLoop_leaves _ t) fun u hu => ?_
  · rw [ht]; rfl
  · rw [← ht, hu]; rfl

theorem pfSearchRule_confined (s : State) :
    (pfSearchRule s).leaves (s.confined (regionsAfter (pfSearchSteps s) pathRegionList)) :=
  Ended.leaves_andThen (pfSearchSteps_mem s) (fun _ => s.confined_of_mem_eq _) fun t hrt ht =>
    Ended.leaves_confined_from (s.confined_of_mem_eq _ ht) (pfTrace_confined _ (by rw [hrt]; exact List.Subset.refl _))

/-! ### Every command -/

/-- A command with no memory among the pieces of state it writes (R104). -/
theorem commandRule_mem {i : Instr} (hi : ¬ i.writesMemory) (s : State) :
    (commandRule i s).leaves fun t => t.mem = s.mem :=
  Ended.leaves_mono (commandRule_leaves i s) fun t ht => by rw [ht.1]; exact if_neg hi

/-- The rule of every command changes bytes of the write regions of its word only. -/
theorem commandRule_confined {w : Word} {i : Instr} (hi : decode .cmd w.toNat = .ok i) (s : State) :
    (commandRule i s).leaves (s.confined (commandRegions w s)) := by
  by_cases hm : i.writesMemory
  case neg => exact Ended.leaves_mono (commandRule_mem hm s) fun _ => s.confined_of_mem_eq _
  unfold commandRegions
  change decodeCmd w.toNat = .ok i at hi
  unfold decodeCmd at hi
  split at hi <;> cases hi
  case h_3 hn => rw [hn]; exact inflateRule_confined s
  case h_5 hn => rw [hn]; exact unfilterRowRule_confined s
  case h_6 hn => rw [hn]; exact unpackRowRule_confined s
  case h_7 hn => rw [hn]; exact decodeRule_confined s
  case h_10 hn => rw [hn]; exact pfTrace_confined [] (List.Subset.refl _)
  case h_11 hn =>
    rw [hn]
    exact Ended.leaves_mono (pfSearchRule_confined s) fun _ => State.confined_mono (List.subset_append_right _ _)
  all_goals exact absurd hm (by decide)

/-- Settles O18: the rule of each command changes only bytes of the write regions of its word, and its completion no byte. -/
theorem commandsWriteOnlyTheirRegions : Obligations.CommandsWriteOnlyTheirRegions := by
  unfold Obligations.CommandsWriteOnlyTheirRegions
  intro s t w i hs hi ht
  rw [exec_eq_complete (fmt_of_decode_cmd hi)] at ht
  obtain ⟨u, hu, htu⟩ := complete_frame (commandRule_confined hi s) ht
  rw [htu]
  exact (hu hs.1).2

end Sys2Proof.Machine
end

section
/-! SUPPORT. What each pass of the region check reports (20_memory.md R110, R111): the first pair of regions that may not overlap
and does, and the first byte that is not admitted. With `firstTooLarge_eq_some` they give the check its order. -/

namespace Sys2Proof.Machine

variable {r q : Region} {rs : List Region} {p : Params}

/-! ### Pass 2: overlap (R111) -/

/-- Two regions of which one is written overlap. -/
abbrev Region.clashes (r q : Region) : Prop := (r.kind = .W ∨ q.kind = .W) ∧ r.overlaps q = true

theorem Region.not_clashes_of (h : (r.kind = .W ∨ q.kind = .W) → ∀ x, ¬ (r.holds x = true ∧ q.holds x = true)) :
    ¬ r.clashes q := fun ⟨hk, ho⟩ => not_exists.2 (h hk) ((r.overlaps_iff q).1 ho)

/-- For one region the first later one it clashes with is reported. -/
theorem firstClash_eq_some {k m : Nat} (hq : rs[m]? = some q) (hc : r.clashes q)
    (hmin : ∀ n q', n < m → rs[n]? = some q' → ¬ r.clashes q') : firstClash r k rs = some (k + m) := by
  induction rs generalizing k m with
  | nil => cases hq
  | cons q₀ rest ih =>
    unfold firstClash
    cases m with
    | zero =>
      cases hq
      rw [if_pos hc, Nat.add_zero]
    | succ m =>
      rw [if_neg (hmin 0 q₀ (Nat.succ_pos m) rfl), ih hq fun n q' hn h => hmin (n + 1) q' (Nat.succ_lt_succ hn) h,
        Nat.add_right_comm, Nat.add_assoc]

/-- The first pair in order that clashes is reported. -/
theorem firstOverlap_eq_some {k i j : Nat} (hij : i < j) (hr : rs[i]? = some r) (hq : rs[j]? = some q) (hc : r.clashes q)
    (hmin : ∀ i' j' r' q', i' < j' → (i' < i ∨ (i' = i ∧ j' < j)) → rs[i']? = some r' → rs[j']? = some q' →
      ¬ r'.clashes q') : firstOverlap k rs = some ((k + i) * 256 + (k + j)) := by
  induction rs generalizing k i j with
  | nil => cases hr
  | cons r₀ rest ih =>
    obtain ⟨j, rfl⟩ := Nat.exists_eq_add_one_of_ne_zero (Nat.ne_zero_of_lt hij)
    have hshift : ∀ n, k + 1 + n = k + (n + 1) := fun n => by omega
    unfold firstOverlap
    cases i with
    | zero =>
      cases hr
      have hfirst : firstClash r (k + 1) rest = some (k + 1 + j) := firstClash_eq_some hq hc fun n q' hn h =>
        hmin 0 (n + 1) r q' (Nat.succ_pos n) (.inr ⟨rfl, Nat.succ_lt_succ hn⟩) rfl h
      simp only [hfirst, hshift, Nat.add_zero]
    | succ i =>
      have hnone : firstClash r₀ (k + 1) rest = none := firstClash_eq_none.2 fun q' hq' hk => by
        obtain ⟨n, hn⟩ := List.mem_iff_getElem?.1 hq'
        exact Bool.eq_false_iff.2 fun ho =>
          hmin 0 (n + 1) r₀ q' (Nat.succ_pos n) (.inl (Nat.succ_pos i)) rfl hn ⟨hk, ho⟩
      simp only [hnone]
      rw [ih (Nat.lt_of_succ_lt_succ hij) hr hq fun i' j' r' q' h1 h2 =>
        hmin (i' + 1) (j' + 1) r' q' (by omega) (by omega), hshift, hshift]

/-! ### Pass 3: bus admission (R106) -/

/-- The lowest byte of a region that is not admitted is reported. -/
theorem firstUnadmitted_eq_some_of {a : Nat} (ha : r.holds a = true) (hna : admits p a r.kind = false)
    (hmin : ∀ b, r.holds b = true → b < a → admits p b r.kind = true) : firstUnadmitted p r = some a := by
  cases h : firstUnadmitted p r with
  | none => exact absurd ((firstUnadmitted_eq_none.1 h a ha).symm.trans hna) (by decide)
  | some b =>
    obtain ⟨hb, hnb, hlow⟩ := firstUnadmitted_eq_some h
    rcases Nat.lt_trichotomy a b with hab | rfl | hba
    · exact absurd ((hlow a ha hab).symm.trans hna) (by decide)
    · rfl
    · exact absurd ((hmin b hb hba).symm.trans hnb) (by decide)

/-- Region by region, the first byte that is not admitted is reported. -/
theorem firstBusError_eq_some {i a : Nat} (hr : rs[i]? = some r) (ha : firstUnadmitted p r = some a)
    (hmin : ∀ q ∈ rs.take i, ∀ b, q.holds b = true → admits p b q.kind = true) : firstBusError p rs = some a := by
  induction rs generalizing i with
  | nil => cases hr
  | cons r₀ rest ih =>
    unfold firstBusError
    cases i with
    | zero =>
      cases hr
      rw [ha]
    | succ i =>
      rw [List.take_succ_cons, List.forall_mem_cons] at hmin
      rw [firstUnadmitted_eq_none.2 hmin.1]
      exact ih hr hmin.2

/-! ### The check (R110) -/

theorem checkRegions_tooLarge {i : Nat} {s : State} (h : firstTooLarge 0 rs = some i) :
    checkRegions rs s = .raised .tooLarge (BitVec.ofNat 32 i) s := by
  simp only [checkRegions, h, raiseError_eq]

theorem checkRegions_regionOverlap {n : Nat} {s : State} (h1 : ∀ q ∈ rs, q.base + q.len ≤ 2 ^ 32)
    (h2 : firstOverlap 0 rs = some n) : checkRegions rs s = .raised .regionOverlap (BitVec.ofNat 32 n) s := by
  simp only [checkRegions, firstTooLarge_eq_none.2 h1, h2, raiseError_eq]

theorem checkRegions_busError {a : Nat} {s : State} (h1 : ∀ q ∈ rs, q.base + q.len ≤ 2 ^ 32)
    (h2 : rs.Pairwise fun r q => ¬ r.clashes q) (h3 : firstBusError s.par rs = some a) :
    checkRegions rs s = .raised .busError (BitVec.ofNat 32 a) s := by
  have hnone : firstOverlap 0 rs = none :=
    firstOverlap_eq_none.2 (h2.imp fun h hk => Bool.eq_false_iff.2 fun ho => h ⟨hk, ho⟩)
  simp only [checkRegions, firstTooLarge_eq_none.2 h1, hnone, h3, raiseError_eq]

/-- Settles O19: each pass reports the first thing wrong, and runs when the ones before it have found nothing. -/
theorem regionCheckOrder : Obligations.RegionCheckOrder := by
  unfold Obligations.RegionCheckOrder
  intro rs s
  refine ⟨checkRegions_ok_iff.2, fun i r hr hbig hmin => ?_, fun hrange i j r q hij hr hq hk hx hmin => ?_,
    fun hrange hdisj i r a hr ha hna hlow hmin => ?_⟩
  · exact checkRegions_tooLarge (firstTooLarge_eq_some.2 ⟨i, r, (Nat.zero_add i).symm, hr, hbig, hmin⟩)
  · have hfirst := firstOverlap_eq_some (k := 0) hij hr hq ⟨hk, (r.overlaps_iff q).2 hx⟩
      fun i' j' r' q' h1 h2 h3 h4 => Region.not_clashes_of (hmin i' j' r' q' h1 h2 h3 h4)
    rw [Nat.zero_add, Nat.zero_add] at hfirst
    exact checkRegions_regionOverlap hrange hfirst
  · exact checkRegions_busError hrange (hdisj.imp Region.not_clashes_of)
      (firstBusError_eq_some hr (firstUnadmitted_eq_some_of ha hna hlow) hmin)

end Sys2Proof.Machine
end

section
/-! SUPPORT. The checks of a rule as a list (60_exceptions.md R453): the rule's checks run the list, and the first check that
fails decides. -/

namespace Sys2Proof.Machine

variable {s t : State} {cs : List Check}

/-! ### Running a list of checks (R453) -/

/-- Run checks in order: the first that fails raises its error, and none changes the state. -/
def State.checked (cs : List Check) (s : State) : Ended :=
  match cs with
  | [] => .ok s
  | c :: rest => if c.1 then raiseError c.2.1 c.2.2 s else s.checked rest

theorem State.checked_cons (c : Check) (rest : List Check) (s : State) :
    s.checked (c :: rest) = if c.1 then raiseError c.2.1 c.2.2 s else s.checked rest := rfl

theorem State.checked_cons_andThen (c : Check) (rest : List Check) (s : State) (f : State → Ended) :
    (s.checked (c :: rest)).andThen f = if c.1 then raiseError c.2.1 c.2.2 s else (s.checked rest).andThen f := by
  rw [State.checked_cons]
  cases c.1 <;> rfl

theorem State.checked_eq (cs : List Check) (s : State) :
    s.checked cs = match firstError cs with
      | none => .ok s
      | some (e, n) => raiseError e n s := by
  induction cs with
  | nil => rfl
  | cons c rest ih =>
    unfold firstError
    rw [State.checked_cons, List.find?_cons]
    cases hc : c.1
    · exact ih
    · rfl

theorem State.checked_of_none (h : firstError cs = none) (s : State) : s.checked cs = .ok s := by
  rw [State.checked_eq, h]

theorem State.checked_of_some {e : ErrorKind} {n : Nat} (h : firstError cs = some (e, n)) (s : State) :
    s.checked cs = .raised e (BitVec.ofNat 32 n) s := by rw [State.checked_eq, h]; rfl

/-- Checks, then a rule that is checks too. -/
theorem State.checked_andThen {f : State → Ended} {ds : List Check} (hf : f s = s.checked ds) :
    (s.checked cs).andThen f = s.checked (cs ++ ds) := by
  induction cs with
  | nil => exact hf
  | cons c rest ih =>
    rw [List.cons_append, State.checked_cons, State.checked_cons]
    cases c.1
    · exact ih
    · rfl

/-- The regions of a rule after its checks (70_reset_and_hazards.md R492). -/
theorem regionsAfter_checked (cs : List Check) (s : State) (f : State → List Region) :
    regionsAfter (s.checked cs) f = if firstError cs = none then f s else [] := by
  cases h : firstError cs with
  | none => rw [State.checked_of_none h, if_pos rfl]; rfl
  | some c => rw [State.checked_of_some h, if_neg nofun]; rfl

/-! ### The checks of the row commands and of PF_START (R285, R312, R337 to R339, R410) -/

theorem requireConfig_eq_checked (s : State) : requireConfig s = s.checked s.configChecks := by
  have hi : s.hdr.interlace.toNat = 1 ↔ s.hdr.interlace = 1 := by rw [← BitVec.toNat_inj]; rfl
  exact if_congr (by simp) rfl (if_congr (by simp [hi]) rfl rfl)

theorem requireInflated_eq_checked (s : State) : requireInflated s = s.checked s.inflatedChecks :=
  if_congr (by simp) rfl (if_congr (by simp) rfl rfl)

theorem rowCheck_eq_checked (s : State) :
    (if s.hdr.height.toNat ≤ s.rowOperand then raiseError .rowOutOfRange s.rowOperand s else .ok s) =
      s.checked s.rowCheck :=
  if_congr (by simp [State.rowOperand]) rfl rfl

theorem unfilterChecks_eq_checked (s : State) :
    unfilterChecks s = s.checked (s.configChecks ++ s.inflatedChecks ++ s.rowCheck) := by
  rw [unfilterChecks, requireConfig_eq_checked, State.checked_andThen (requireInflated_eq_checked s),
    State.checked_andThen (rowCheck_eq_checked s)]

theorem unpackChecks_eq_checked (s : State) : unpackChecks s = s.checked (s.configChecks ++ s.rowCheck) := by
  rw [unpackChecks, requireConfig_eq_checked, State.checked_andThen (rowCheck_eq_checked s)]

theorem pfStartChecks_eq_checked (s : State) : pfStartChecks s = s.checked s.startChecks :=
  if_congr (by simp [Config.maxPfDim]) rfl <| if_congr (by simp [Config.maxPfDim]) rfl <| if_congr (by simp) rfl <|
    if_congr (by simp) rfl <| if_congr (by simp) rfl rfl

/-! ### The header check (42_unpack.md R301, 43_decode_pipeline.md R331) -/

/-- The rows of R301 by color type: the channels, or none. -/
theorem channelsOf_eq_find? (ct : Nat) : channelsOf ct = (colorModels.find? fun m => m.1 = ct).map fun m => m.2.1 := by
  match ct with
  | 0 | 1 | 2 | 3 | 4 | 5 | 6 => rfl
  | n + 7 => simp [channelsOf, colorModels]

theorem isNone_channelsOf (ct : Nat) : (channelsOf ct).isNone = colorModels.all fun m => m.1 ≠ ct := by
  match ct with
  | 0 | 1 | 2 | 3 | 4 | 5 | 6 => rfl
  | n + 7 => simp [channelsOf, colorModels]

theorem all_notMem_depths (ct bd : Nat) :
    (colorModels.all fun m => m.1 ≠ ct || bd ∉ m.2.2.2) = decide (bd ∉ depthsOf ct) := by
  match ct with
  | 0 | 1 | 2 | 3 | 4 | 5 | 6 => simp [depthsOf, colorModels]
  | n + 7 => simp [depthsOf, colorModels]

theorem headerPair_eq_checked (ct bd : Nat) (s : State) : headerPair ct bd s = s.checked
    [(colorModels.all fun m => m.1 ≠ ct, .invalidColorType, ct),
      (colorModels.all fun m => m.1 ≠ ct || bd ∉ m.2.2.2, .invalidBitDepth, bd)] := by
  rw [← isNone_channelsOf, all_notMem_depths]
  unfold headerPair
  cases channelsOf ct with
  | none => rfl
  | some c => by_cases hd : bd ∈ depthsOf ct <;> simp [State.checked, hd]

theorem expectedLenOf_eq (w h ct bd : Nat) :
    expectedLenOf w h ct bd = h * (1 + rowBytes w ((channelsOf ct).getD 0) bd) := rfl

/-- The header check runs its list, then writes the derived registers and CFG_VALID (R331 to R333). -/
theorem headerCheck_eq_checked (s : State) : headerCheck s = (s.checked (headerChecks s.hdr)).andThen fun t =>
    .ok { t with der := t.hdr.derived, ctl := { t.ctl with cfgValid := true } } := by
  have hil : 1 < s.hdr.interlace.toNat ↔ s.hdr.interlace ≠ 0 ∧ s.hdr.interlace ≠ 1 := by bv_omega
  simp only [headerCheck, headerChecks, headerPair_eq_checked, State.checked_cons_andThen, ← channelsOf_eq_find?]
  refine if_congr (by simp) rfl <| if_congr Iff.rfl rfl <| if_congr Iff.rfl rfl ?_
  refine if_congr (by simp [hil]) rfl <| if_congr (by simp) rfl <| if_congr (by simp) rfl <|
    if_congr (by simp [expectedLenOf_eq]) rfl <| if_congr (by simp) rfl rfl

end Sys2Proof.Machine
end

section
/-! SUPPORT. The search as the host sees it, one PF_STEP after another (45_pathfinder.md R412, R422): a PF_STEP's rule takes no
notice of a completion, so the loop of PF_SEARCH is a run of completed PF_STEPs; and the length of the path found (R418). -/

namespace Sys2Proof.Machine

variable {s t : State}

/-! ### Steps and completions (R455) -/

/-- The states of a rule's end completed. -/
def Ended.finished (r : Ended) : Ended :=
  match r with
  | .ok s => .ok (finish s)
  | .raised e n s => .raised e n (finish s)
  | .stuck x => .stuck x

theorem Ended.finished_andThen (r : Ended) {f g : State → Ended} (h : ∀ t, g (finish t) = (f t).finished) :
    (r.finished).andThen g = (r.andThen f).finished := by
  cases r with
  | ok t => exact h t
  | raised e n t => rfl
  | stuck x => rfl

theorem frontierInsert_finish (e : Entry) (s : State) : frontierInsert e (finish s) = (frontierInsert e s).finished := by
  unfold frontierInsert
  rw [apply_ite Ended.finished]
  rfl

theorem relax_finish (u v : Coord) (s : State) : relax u v (finish s) = (relax u v s).finished := by
  unfold relax
  rw [show (finish s).nodeAt u = s.nodeAt u from rfl]
  cases s.nodeAt u with
  | none => rfl
  | some nu =>
    simp only [apply_ite Ended.finished, ← frontierInsert_finish]
    rfl

theorem relaxPassable_finish (u v : Coord) (s : State) : relaxPassable u v (finish s) = (relaxPassable u v s).finished := by
  unfold relaxPassable
  rw [apply_ite Ended.finished, apply_ite Ended.finished, apply_ite Ended.finished, ← relax_finish]
  rfl

theorem relaxAll_finish (u : Coord) (vs : List Coord) (s : State) :
    relaxAll u vs (finish s) = (relaxAll u vs s).finished := by
  induction vs generalizing s with
  | nil => rfl
  | cons v rest ih =>
    unfold relaxAll
    rw [relaxPassable_finish]
    exact Ended.finished_andThen _ ih

theorem pfExpand_finish (e : Entry) (s : State) : pfExpand e (finish s) = (pfExpand e s).finished := by
  unfold pfExpand
  simp only [apply_ite Ended.finished, ← relaxAll_finish]
  rfl

/-- PF_STEP takes no notice of a completion before it (R412). -/
theorem pfStep_finish (s : State) : pfStep (finish s) = (pfStep s).finished := by
  unfold pfStep frontierExtract
  rw [apply_ite Ended.finished, apply_ite Ended.finished, show (finish s).frontier = s.frontier from rfl]
  cases s.frontier with
  | nil => rfl
  | cons e rest =>
    simp only [← pfExpand_finish]
    rfl

theorem exec_pfStep_finish (s : State) : exec .pfStep (finish s) = complete 0x11 (pfStep s).finished := by
  rw [← pfStep_finish]
  rfl

/-! ### The loop as a run of PF_STEPs (R412, R417, R422) -/

/-- From an active search a rule leaves the search active or found, or raises with no path or a failed search. -/
def Ended.searchGoesOn (r : Ended) : Prop :=
  (∀ t, r = .ok t → t.ctl.pfState = .active ∨ t.ctl.pfState = .found) ∧
    ∀ e n t, r = .raised e n t → t.ctl.pfState = .noPath ∨ t.ctl.pfState = .failed

theorem Ended.relaxes.searchGoesOn {r : Ended} (hr : r.relaxes s) (ha : s.ctl.pfState = .active) : r.searchGoesOn :=
  ⟨fun t h => .inl ((hr.1 t h).2.trans ha), fun e n t h => .inr (hr.2 e n t h).2.1⟩

theorem pfExpand_searchGoesOn (e : Entry) (ha : s.ctl.pfState = .active) : (pfExpand e s).searchGoesOn := by
  unfold pfExpand
  simp only
  split_ifs
  · exact ⟨fun t h => .inr (by cases h; rfl), fun _ _ _ h => by cases h⟩
  · exact (relaxAll_relaxes _ _ _).searchGoesOn ha

/-- A PF_STEP of an active search (R412, R413, R417). -/
theorem pfStep_searchGoesOn (ha : s.ctl.pfState = .active) : (pfStep s).searchGoesOn := by
  unfold pfStep frontierExtract
  rw [if_neg (not_not.2 ha)]
  cases s.frontier with
  | nil => exact ⟨fun _ h => (by cases h), fun _ _ _ h => .inl (by cases h; rfl)⟩
  | cons e rest =>
    rw [if_neg (List.cons_ne_nil e rest)]
    exact pfExpand_searchGoesOn e ha

/-- From state s completed PF_STEPs lead to what a rule leaves, completed: the goal found, or the raise of the step that ends
the search. -/
def Ended.endsRunFrom (r : Ended) (s : State) : Prop :=
  (∀ t, r = .ok t → t.ctl.pfState = .found ∧ ∃ k, searchRuns k s (finish t)) ∧
    ∀ e n t, r = .raised e n t → ∃ k v u, searchRuns k s v ∧ v.ctl.pfState = .active ∧
      exec .pfStep v = .next u ∧ (u.ctl.pfState = .noPath ∨ u.ctl.pfState = .failed)

theorem Ended.endsRunFrom_found (hf : s.ctl.pfState = .found) : (Ended.ok s).endsRunFrom (finish s) :=
  ⟨fun t h => by cases h; exact ⟨hf, 0, rfl⟩, fun _ _ _ h => by cases h⟩

theorem Ended.endsRunFrom_stuck (x : Fault) (s : State) : (Ended.stuck x).endsRunFrom s :=
  ⟨fun _ h => (by cases h), fun _ _ _ h => by cases h⟩

/-- A run may begin with one more PF_STEP. -/
theorem Ended.endsRunFrom_step {r : Ended} {u : State} (ha : s.ctl.pfState = .active) (h : exec .pfStep s = .next u)
    (hu : u.ctl.pfState = .active ∨ u.ctl.pfState = .found) (hr : r.endsRunFrom u) : r.endsRunFrom s := by
  obtain ⟨hok, hraised⟩ := hr
  refine ⟨fun t ht => ?_, fun e n t ht => ?_⟩
  · obtain ⟨hf, k, hk⟩ := hok t ht
    exact ⟨hf, k + 1, ha, u, h, hu, hk⟩
  · obtain ⟨k, v, x, hk, hv⟩ := hraised e n t ht
    exact ⟨k + 1, v, x, ⟨ha, u, h, hu, hk⟩, hv⟩

/-- The loop of PF_SEARCH is a run of completed PF_STEPs. -/
theorem pfLoop_endsRunFrom (n : Nat) (hs : s.ctl.pfState = .active ∨ s.ctl.pfState = .found) :
    (pfLoop n s).endsRunFrom (finish s) := by
  induction n generalizing s with
  | zero =>
    unfold pfLoop
    split_ifs with hna
    · exact Ended.endsRunFrom_found (hs.resolve_left hna)
    · exact Ended.endsRunFrom_stuck _ _
  | succ n ih =>
    unfold pfLoop
    split_ifs with hna
    · exact Ended.endsRunFrom_found (hs.resolve_left hna)
    · have ha := not_not.1 hna
      obtain ⟨hok, hraised⟩ := pfStep_searchGoesOn ha
      have hexec := exec_pfStep_finish s
      cases h : pfStep s with
      | ok u =>
        rw [h] at hexec
        exact Ended.endsRunFrom_step ha hexec (hok u h) (ih (hok u h))
      | raised e m u =>
        rw [h] at hexec
        exact ⟨fun _ ht => (by cases ht), fun _ _ _ _ => ⟨0, finish s, _, rfl, ha, hexec, hraised e m u h⟩⟩
      | stuck x => exact Ended.endsRunFrom_stuck _ _

/-! ### PF_SEARCH's steps (R410, R422) -/

/-- PF_START's seed is an active search: the frontier has room for its entry (R410, R411). -/
theorem pfSeed_active (hcap : 1 ≤ s.par.frontierCap.toNat) (mode : BitVec 1) :
    ∃ t, pfSeed mode s = .ok t ∧ t.ctl.pfState = .active := by
  unfold pfSeed frontierInsert
  simp only
  rw [if_neg (by simp [State.frontierFull]; omega)]
  exact ⟨_, rfl, rfl⟩

/-! ### The path (R418) -/

/-- The path has one cell more than the cost of its end (R418, R419). -/
theorem length_traceChain (hs : s.nodeInv) (fuel : Nat) {c : Coord} {n : Node} (hc : s.onGrid c = true)
    (hn : s.nodeAt c = some n) {cells p : List Coord} (hp : traceChain s fuel c cells = .path p) :
    p.length = n.cost.toNat + 1 + cells.length := by
  induction fuel generalizing c n cells with
  | zero => cases hp
  | succ k ih =>
    unfold traceChain at hp
    simp only [hn] at hp
    cases hq : n.pred with
    | none =>
      simp only [hq] at hp
      cases hp
      have hstart : c = s.latch.start := by
        by_contra hne
        obtain ⟨-, q, -, hq', -⟩ := hs.2 c n hc hn hne
        rw [hq] at hq'
        cases hq'
      rw [hstart] at hn
      rw [State.nodeInv_start hs hn, List.length_cons]
      exact Nat.add_comm ..
    | some q =>
      obtain ⟨hgq, nq, hnq, hcost⟩ := State.nodeInv_pred hs hc hn hq
      simp only [hq] at hp
      have := ih hgq hnq hp
      rw [List.length_cons] at this
      omega

/-- The path region of n cells, if they fit (R418). -/
def State.fittingPath (s : State) (n : Nat) : List Region := if n ≤ s.pf.pathCap.toNat then [s.pathRegion n] else []

/-- A search that has found the goal has the region of its path (R418). -/
theorem pathRegionList_found (h : s.Inv) (hf : s.ctl.pfState = .found) :
    ∃ goal, s.nodeAt s.latch.goal = some goal ∧ pathRegionList s = s.fittingPath (goal.cost.toNat + 1) := by
  obtain ⟨hl, hn⟩ := h.started (by rw [hf]; decide)
  obtain ⟨-, -, -, -, hfound⟩ := h.search
  have hsome := hfound hf
  obtain ⟨goal, hgoal⟩ := Option.isSome_iff_exists.1 hsome
  obtain ⟨cells, hp⟩ := State.foundPath_eq_path hl hn hsome
  obtain ⟨-, -, -, -, -, -, hgrid, -⟩ := hl
  have hlen : cells.length = goal.cost.toNat + 1 := length_traceChain hn _ hgrid hgoal hp
  refine ⟨goal, hgoal, ?_⟩
  unfold pathRegionList State.fittingPath
  rw [if_pos hf]
  simp only [hp, hlen]
  split_ifs
  · omega
  · rfl
  · rfl
  · omega

theorem pathRegionList_of_ne_found (hf : s.ctl.pfState ≠ .found) : pathRegionList s = [] := if_neg hf

end Sys2Proof.Machine
end

section
/-! SUPPORT. The regions of the running command, command by command (20_memory.md R104, R120, 70_reset_and_hazards.md R492), and
the host's accesses to system memory against them. -/

namespace Sys2Proof.Machine

variable {s : State}

/-! ### The image commands (R252, R285, R312, R342) -/

theorem commandRegions_unfilterRow (s : State) : commandRegions 0x04 s =
    if firstError (s.configChecks ++ s.inflatedChecks ++ s.rowCheck) = none then unfilterRegionList s else [] := by
  change regionsAfter (unfilterChecks s) unfilterRegionList = _
  rw [unfilterChecks_eq_checked, regionsAfter_checked]

theorem commandRegions_unpackRow (s : State) : commandRegions 0x05 s =
    if firstError (s.configChecks ++ s.rowCheck) = none then unpackRegionList s else [] := by
  change regionsAfter (unpackChecks s) unpackRegionList = _
  rw [unpackChecks_eq_checked, regionsAfter_checked]

/-- A body command's interlace test refuses Adam7 (R338). -/
theorem bodyInterlace_eq (s : State) : bodyInterlace s.hdr.interlace.toNat s =
    if s.hdr.interlace = 1 then .raised .unsupportedInterlace 1 s else .ok s :=
  if_congr (by rw [← BitVec.toNat_inj]; rfl) rfl rfl

/-- The header check and the interlace test of DECODE, and the regions after them (R342). -/
theorem regionsAfter_headerCheck (s : State) :
    regionsAfter ((headerCheck s).andThen fun t => bodyInterlace t.hdr.interlace.toNat t) decodeRegionList =
      if firstError (headerChecks s.hdr) = none ∧ s.hdr.interlace ≠ 1 then
        decodeRegionList { s with der := s.hdr.derived }
      else [] := by
  rw [headerCheck_eq_checked]
  cases h : firstError (headerChecks s.hdr) with
  | some c =>
    rw [State.checked_of_some h, if_neg fun hc => nomatch hc.1]
    rfl
  | none =>
    rw [State.checked_of_none h]
    simp only [Ended.andThen_ok, bodyInterlace_eq, true_and]
    by_cases hi : s.hdr.interlace = 1
    · rw [if_pos hi, if_neg (not_not.2 hi)]
      rfl
    · rw [if_neg hi, if_pos hi]
      rfl

theorem commandRegions_decode (s : State) : commandRegions 0x06 s =
    if firstError (headerChecks s.hdr) = none ∧ s.hdr.interlace ≠ 1 then
      decodeRegionList { s with der := s.hdr.derived }
    else [] :=
  regionsAfter_headerCheck (clearCfgValid { clearInfOk s with rowsDone := 0 })

/-! ### The pathfinder's commands (R410, R418, R422) -/

theorem commandRegions_pfStart (s : State) : commandRegions 0x10 s =
    if firstError s.startChecks = none then pfStartRegionList s else [] := by
  change regionsAfter (pfStartChecks s) pfStartRegionList = _
  rw [pfStartChecks_eq_checked, regionsAfter_checked]

/-- PF_SEARCH has PF_START's region, and the path region its steps lead to (log 10). -/
theorem commandRegions_pfSearch (s : State) : commandRegions 0x13 s =
    (if firstError s.startChecks = none then pfStartRegionList s else []) ++
      regionsAfter (pfSearchSteps s) pathRegionList := by
  rw [← commandRegions_pfStart]
  rfl

/-- A search that PF_START's checks refuse has no region. -/
theorem commandRegions_pfSearch_refused (h : firstError s.startChecks ≠ none) : commandRegions 0x13 s = [] := by
  obtain ⟨⟨e, n⟩, hc⟩ := Option.ne_none_iff_exists'.1 h
  rw [commandRegions_pfSearch, if_neg h]
  unfold pfSearchSteps pfStart
  rw [pfStartChecks_eq_checked, State.checked_of_some hc]
  rfl

/-- A search that PF_START's region check refuses has the grid. -/
theorem commandRegions_pfSearch_gridRefused (h : firstError s.startChecks = none) {e : ErrorKind} {n : Word}
    (hr : checkRegions (pfStartRegionList s) s = .raised e n s) : commandRegions 0x13 s = pfStartRegionList s := by
  rw [commandRegions_pfSearch, if_pos h]
  unfold pfSearchSteps pfStart
  rw [pfStartChecks_eq_checked, State.checked_of_none h, Ended.andThen_ok, hr]
  exact List.append_nil _

/-- A search that starts has the grid, and the path region if its PF_STEPs find the goal. -/
theorem commandRegions_pfSearch_runs (hs : s.running) (hc : firstError s.startChecks = none)
    (hr : regionsPass s.par (pfStartRegionList s)) :
    ∃ t0 k t, exec .pfStart s = .next t0 ∧ searchRuns k t0 t ∧
      ((∃ u, t.ctl.pfState = .active ∧ exec .pfStep t = .next u ∧
          (u.ctl.pfState = .noPath ∨ u.ctl.pfState = .failed) ∧ commandRegions 0x13 s = pfStartRegionList s) ∨
        ∃ goal, t.ctl.pfState = .found ∧ t.nodeAt t.latch.goal = some goal ∧
          commandRegions 0x13 s = pfStartRegionList s ++ s.fittingPath (goal.cost.toNat + 1)) := by
  have ⟨⟨⟨hcap, _⟩, _⟩, _⟩ := hs
  obtain ⟨t0, hseed, hactive⟩ := pfSeed_active hcap s.pf.mode
  have hstart : pfStart s = .ok t0 := by
    unfold pfStart
    rw [pfStartChecks_eq_checked, State.checked_of_none hc, Ended.andThen_ok, checkRegions_ok_iff.2 hr, Ended.andThen_ok,
      hseed]
  have hexec : exec .pfStart s = .next (finish t0) := by
    change complete 0x10 (pfStart s) = _
    rw [hstart, complete_ok]
  have hsteps : pfSearchSteps s = pfLoop t0.searchFuel t0 := by rw [pfSearchSteps, hstart, Ended.andThen_ok]
  have hends := pfSearchSteps_endsIn hs
  have hwrites := pfSearchSteps_leaves s
  obtain ⟨hfound, hover⟩ := pfLoop_endsRunFrom t0.searchFuel (.inl hactive)
  rw [commandRegions_pfSearch, if_pos hc]
  cases h : pfLoop t0.searchFuel t0 with
  | ok t =>
    rw [hsteps, h] at hends hwrites ⊢
    obtain ⟨ht, k, hk⟩ := hfound t h
    obtain ⟨goal, hgoal, hpath⟩ := pathRegionList_found hends.1 ht
    have hpf : t.pf = s.pf := by rw [hwrites]
    refine ⟨finish t0, k, finish t, hexec, hk, .inr ⟨goal, ht, hgoal, ?_⟩⟩
    rw [regionsAfter, hpath]
    unfold State.fittingPath State.pathRegion
    rw [hpf]
  | raised e n t =>
    rw [hsteps, h]
    obtain ⟨k, v, u, hk, hv, hvu, hu⟩ := hover e n t h
    exact ⟨finish t0, k, v, hexec, hk, .inl ⟨u, hv, hvu, hu, List.append_nil _⟩⟩
  | stuck x =>
    rw [hsteps, h] at hends
    exact hends.elim

/-! ### Every word -/

/-- A word that is none of the commands with regions has none. -/
theorem commandRegions_eq_nil {w : Word} (h : w ∉ [0x02, 0x04, 0x05, 0x06, 0x10, 0x11, 0x12, 0x13]) :
    commandRegions w s = [] := by
  have hne : ∀ n ∈ [0x02, 0x04, 0x05, 0x06, 0x10, 0x11, 0x12, 0x13], w.toNat ≠ n := by
    rintro n hn rfl
    have hw := List.mem_map_of_mem (f := BitVec.ofNat 32) hn
    rw [BitVec.ofNat_toNat, BitVec.setWidth_eq] at hw
    exact h hw
  unfold commandRegions
  split
  case h_9 => rfl
  all_goals exact absurd ‹w.toNat = _› (hne _ (by decide))

/-- The regions of the running command, word by word (R104, R110, R492; log 10). -/
theorem runningCommandRegions_holds : runningCommandRegions := by
  unfold runningCommandRegions
  intro s w hw
  have hs : s.runningRegions = commandRegions w s := by rw [State.runningRegions, hw]
  simp only [hs]
  refine ⟨?_, ?_, ?_, ?_, ?_, ?_, ?_, ?_, commandRegions_eq_nil⟩
  · rintro rfl
    rfl
  · rintro rfl
    exact commandRegions_unfilterRow s
  · rintro rfl
    exact commandRegions_unpackRow s
  · rintro rfl
    exact commandRegions_decode s
  · rintro rfl
    exact commandRegions_pfStart s
  · rintro rfl
    rfl
  · rintro rfl hinv
    exact ⟨pathRegionList_of_ne_found, pathRegionList_found hinv⟩
  · rintro rfl hinv
    exact ⟨commandRegions_pfSearch_refused, fun hc e n => commandRegions_pfSearch_gridRefused hc,
      commandRegions_pfSearch_runs (hinv.running (by rw [State.busy, hw]; rfl))⟩

/-! ### The host's accesses (R120) -/

/-- Settles O15: the host's accesses test the regions of the running command, which are the ones its rule names. -/
theorem hostMemoryAccesses : Obligations.HostMemoryAccesses := by
  unfold Obligations.HostMemoryAccesses
  refine ⟨fun s a v hm => ⟨fun h => ?_, fun h => ?_, fun h => ?_, fun h => ?_, fun h => ?_⟩, runningCommandRegions_holds⟩
  · refine if_neg ?_
    simpa using h
  · refine ⟨Config.freeByte s.draws, if_pos ?_⟩
    simpa using h
  · refine if_pos ?_
    simpa using h
  · refine ⟨s.mem.write a.toNat [v], if_neg ?_, Memory.storesAt_write hm.1 _ _⟩
    simpa using h
  · rw [State.runningRegions, h]

end Sys2Proof.Machine
end

section
/-! PROOF. Decoding and encoding agree on every item of every format (30_encoding.md R141, R145 to R150; 40_inflate.md R214,
R221). -/

namespace Sys2Proof

variable {v : Nat} {i : Instr}

/-! ### Encode, then decode -/

theorem decodeLitLen_lit (h : v < 256) : decodeLitLen v = .ok (.lit v) := if_pos h

theorem decodeCl_clLen (h : v < 16) : decodeCl v = .ok (.clLen v) := if_pos h

/-- Settles O1: LIT and CL_LEN give back an operand within its bound; every other item is one row of its table. -/
theorem decodeOfEncode : Obligations.DecodeOfEncode := by
  unfold Obligations.DecodeOfEncode
  intro i hi
  cases i
  case lit v => exact decodeLitLen_lit (of_decide_eq_true hi)
  case clLen n => exact decodeCl_clLen (of_decide_eq_true hi)
  all_goals rfl

/-! ### Decode, then encode -/

/-- Item i is well formed, and value v of format f encodes it. -/
def Instr.encodedBy (i : Instr) (f : Format) (v : Nat) : Prop := i.wellFormed = true ∧ encode i = ⟨f, v⟩

theorem encodedBy_of_decodeLitLen (h : decodeLitLen v = .ok i) : i.encodedBy .litLen v := by
  unfold decodeLitLen at h
  split at h
  case isTrue hv =>
    cases h
    exact ⟨decide_eq_true hv, rfl⟩
  case isFalse => split at h <;> cases h <;> exact ⟨rfl, rfl⟩

theorem encodedBy_of_decodeCl (h : decodeCl v = .ok i) : i.encodedBy .cl v := by
  unfold decodeCl at h
  split at h
  case isTrue hv =>
    cases h
    exact ⟨decide_eq_true hv, rfl⟩
  case isFalse => split at h <;> cases h <;> exact ⟨rfl, rfl⟩

/-- Settles O2: a value below the bound of LIT or CL_LEN is its operand; every other is that of one row of its table, whose
item it encodes. -/
theorem encodeOfDecode : Obligations.EncodeOfDecode := by
  unfold Obligations.EncodeOfDecode
  intro f v i h
  cases f
  case litLen => exact encodedBy_of_decodeLitLen h
  case cl => exact encodedBy_of_decodeCl h
  all_goals
    simp only [decode, decodeCmd, decodeFsel, decodeHdrKey, decodeInterlace, decodePfMode, decodeBtype, decodeDist] at h
    split at h <;> cases h <;> exact ⟨rfl, rfl⟩

/-! ### Sample words -/

/-- Settles O3: each word is a row of its format's table, or an operand of LIT or CL_LEN within its bound. -/
theorem sampleWordsDecode : Obligations.SampleWordsDecode := by
  unfold Obligations.SampleWordsDecode
  exact ⟨rfl, rfl, rfl, rfl, rfl, rfl, rfl, rfl, decodeLitLen_lit (by decide), rfl, rfl, decodeCl_clLen (by decide)⟩

/-! ### Values that no row has -/

/-- A command word is illegal exactly when it has a nonzero bit above its OPC or an unassigned OPC (R142). -/
theorem decodeCmd_error_iff (v : Nat) : (∃ r, decodeCmd v = .error r) ↔
    (v / 256 ≠ 0 ∨ (0x07 ≤ v % 256 ∧ v % 256 ≤ 0x0F) ∨ (0x14 ≤ v % 256 ∧ v % 256 ≤ 0x17) ∨ 0x1E ≤ v % 256) := by
  unfold decodeCmd
  split
  case h_18 =>
    simp only [imp_false] at *
    exact iff_of_true ⟨_, rfl⟩ (by omega)
  all_goals exact iff_of_false (fun ⟨_, h⟩ => nomatch h) (by decide)

/-- A selector above 4 is no filter (R145). -/
theorem decodeFsel_reserved (h : 4 < v) : decodeFsel v = .error (.unknownFilter v) := by
  unfold decodeFsel
  split
  case h_6 => rfl
  all_goals exact absurd h (by decide)

end Sys2Proof

namespace Sys2Proof.Machine

/-- An illegal word completes as R142 says (R454). -/
theorem engineStep_illegal {s : State} {w : Word} {r : Reject} (hw : s.pending = some w)
    (hr : decode .cmd w.toNat = .error r) : engineStep s = .next (illegalCommand w s) := by
  unfold engineStep
  simp only [hw, hr]

/-- Settles O4: the words of R142 are those that no row of R141 decodes, and IllegalCommand(w) completes them. -/
theorem illegalCommandCompletes : Obligations.IllegalCommandCompletes := by
  unfold Obligations.IllegalCommandCompletes
  exact fun s w hw => ⟨decodeCmd_error_iff w.toNat, fun ⟨_, hr⟩ => engineStep_illegal hw hr⟩

end Sys2Proof.Machine
end

section
/-! PROOF. The data encodings outside the inflater, each run by itself by the unit that decodes it (30_encoding.md R145 to
R148): filter selectors, header pairs, interlace codes and mode bits. -/

namespace Sys2Proof.Machine

variable {s : State} {w : Word}

/-! ### Filter selectors (R145, 41_unfilter.md R271, R281, R284) -/

/-- At SELECT, with its row in range, the FSM runs a selector to its end (R271). -/
theorem filterItem_select {m : FilterFsm} (hu : s.unit = .unfiltering m) (hm : m.phase = .select)
    (hr : s.rawRow m.y + m.flt.length ≤ 2 ^ 32) (f : Nat) :
    filterItem f s = endItem .fsel s (filterItemEnd (m.filtered f) s) := by
  unfold filterItem
  simp only [hu, if_pos hm]
  exact onRegions_pass (by simpa using hr) _

/-- A filter writes the reconstruction of its row and leaves the FSM in DONE (R271, R284). -/
theorem filterItem_done {m : FilterFsm} (hw : s.pending = some w) (hu : s.unit = .unfiltering m) (hm : m.phase = .select)
    (hb : 1 ≤ m.bpp) (hr : s.rawRow m.y + m.flt.length ≤ 2 ^ 32) {f : Nat} (hf : f ≤ 4) :
    ∃ raw, filterItem f s = .next { s with
        mem := s.mem.write (s.rawRow m.y) raw
        unit := .unfiltering { m with phase := .done, f := f, i := m.flt.length, raw := raw } } ∧
      reconstructs f m.bpp m.flt m.prev raw := by
  obtain ⟨raw, hd, hc⟩ := m.filtered_done hf hb
  refine ⟨raw, ?_, hc⟩
  rw [filterItem_select hu hm hr, hd, endItem_pending hw]
  rfl

/-- A selector above 4 ends the command with UnknownFilter(y) and writes nothing (R281). -/
theorem filterItem_fail {m : FilterFsm} (hw : s.pending = some w) (hu : s.unit = .unfiltering m) (hm : m.phase = .select)
    (hr : s.rawRow m.y + m.flt.length ≤ 2 ^ 32) {f : Nat} (hf : 4 < f) :
    filterItem f s = .next (takeError (w.setWidth 8) .unknownFilter (BitVec.ofNat 32 m.y) s) := by
  rw [filterItem_select hu hm hr, m.filtered_fail hf, endItem_pending hw]
  rfl

/-- A latched selector 5 to 255 is run by the FSM (R145; log 5). -/
theorem step_reservedFilter {f : Nat} (hi : s.item = some (.fsel, f)) (hf : 4 < f) (h8 : f < 256) :
    step s = filterItem f { s with item := none } := by
  unfold step itemStep reservedItem
  simp only [hi, decode, decodeFsel_reserved hf]
  exact if_neg (Nat.not_le.2 h8)

/-- Settles O49: a row of R145 takes the FSM through RUN to DONE, a reserved selector to FAIL. -/
theorem filterSelectorsRun : Obligations.FilterSelectorsRun := by
  unfold Obligations.FilterSelectorsRun
  refine ⟨fun i f hrow => ?_, fun s w m f hw hu hm hr hi hf h8 => ?_⟩
  · have ⟨hdec, hexec, hf⟩ : decode .fsel f = .ok i ∧ exec i = filterItem f ∧ f ≤ 4 := by
      generalize hp : (i, f) = p at hrow
      fin_cases hrow <;> cases hp <;> exact ⟨rfl, rfl, by decide⟩
    refine ⟨hdec, fun s w m hw hu hm hmem hb hr => ?_⟩
    obtain ⟨raw, hrun, hc⟩ := filterItem_done hw hu hm hb hr hf
    exact ⟨_, raw, (congrFun hexec s).trans hrun, hc, Memory.storesAt_write hmem.1 _ _⟩
  · rw [step_reservedFilter hi hf h8]
    exact filterItem_fail (s := { s with item := none }) hw hu hm hr hf

/-! ### Records of a row (42_unpack.md R303 to R310, R313) -/

theorem rowByte_lt (row : List Byte) (j : Nat) : rowByte row j < 256 := (row.getD j 0).isLt

/-- A sample has at most 16 bits (R303 to R305). -/
theorem sampleAt_lt (row : List Byte) (bd c x k : Nat) : sampleAt row bd c x k < 65536 := by
  unfold sampleAt
  split_ifs
  case pos =>
    have hle : 2 ^ bd ≤ 2 ^ 16 := Nat.pow_le_pow_right (by decide) (by omega)
    exact (Nat.mod_lt _ (by positivity)).trans_le hle
  case pos => exact (rowByte_lt _ _).trans (by decide)
  case neg =>
    have h0 := rowByte_lt row (2 * (x * c + k))
    have h1 := rowByte_lt row (2 * (x * c + k) + 1)
    omega

/-- The fields of a record have at most 16 bits (R308 to R310). -/
theorem pixelFields_lt (row : List Byte) {bd : Nat} (hb : bd ∈ [1, 2, 4, 8, 16]) (ct c x : Nat) :
    ∀ v ∈ pixelFields row ct bd c x, v < 65536 := by
  have hs := sampleAt_lt row bd c x
  have hmax : 2 ^ bd - 1 < 65536 := (by decide : ∀ n ∈ [1, 2, 4, 8, 16], 2 ^ n - 1 < 65536) bd hb
  unfold pixelFields
  split <;> simp [hs, hmax]

/-- The bytes of a record hold its fields as little-endian u16 (R310). -/
theorem recordBytes_le16 {r : List Nat} (hr : ∀ v ∈ r, v < 65536) (k : Nat) :
    rowByte (recordBytes r) (2 * k) + 256 * rowByte (recordBytes r) (2 * k + 1) = r.getD k 0 := by
  induction r generalizing k with
  | nil => rfl
  | cons v r ih =>
    obtain ⟨hv, hr⟩ := List.forall_mem_cons.1 hr
    have hcons : recordBytes (v :: r) = BitVec.ofNat 8 (v % 256) :: BitVec.ofNat 8 (v / 256) :: recordBytes r := rfl
    rw [hcons]
    cases k with
    | zero =>
      simp only [rowByte, Nat.mul_zero, Nat.zero_add, List.getD_cons_zero, List.getD_cons_succ, BitVec.toNat_ofNat]
      omega
    | succ k => exact ih hr k

/-- n records of a row from column 0 (R310, R313). -/
theorem unpacksTo_rowRecords (row : List Byte) (ct : Nat) {bd : Nat} (hb : bd ∈ [1, 2, 4, 8, 16]) (c n : Nat) :
    unpacksTo row (rowRecords row ct bd c 0 n) ct bd c n := by
  refine ⟨length_rowRecords row ct bd c 0 n, fun x k hx hk => ?_⟩
  have hdrop := rowRecords_drop row ct bd c 0 hb hx
  have hat : ∀ j < 8, rowByte (rowRecords row ct bd c 0 n) (8 * x + j) =
      rowByte (recordBytes (pixelFields row ct bd c x)) j := by
    intro j hj
    rw [Nat.zero_add] at hdrop
    rw [← hdrop]
    simp [rowByte, hj]
  rw [Nat.add_assoc, hat _ (by omega), hat _ (by omega)]
  exact recordBytes_le16 (pixelFields_lt row hb ct c x) k

/-! ### Header pairs (R146) -/

/-- In the header check a pair is accepted and INTERLACE comes next (43_decode_pipeline.md R331). -/
theorem headerPairItem_headerKey (hw : s.pending = some w) (hu : s.unit = .headerKey) (ct bd : Nat) :
    headerPairItem ct bd s = .next { s with unit := .headerInterlace ct bd } := by
  unfold headerPairItem
  simp only [hu, endItem_pending hw]

/-- In the unpacker a pair writes the records of the row, of which nothing is held then (R302, R313). -/
theorem headerPairItem_unpacking {u : Unpacker} (hw : s.pending = some w) (hu : s.unit = .unpacking u)
    (hr : s.pixRow u.y + 8 * s.hdr.width.toNat ≤ 2 ^ 32) (ct bd : Nat) :
    headerPairItem ct bd s = .next { s with
      mem := s.mem.write (s.pixRow u.y) (rowRecords u.row ct bd s.der.channels.toNat 0 s.hdr.width.toNat)
      unit := .idle } := by
  unfold headerPairItem
  simp only [hu, endItem_pending hw, ← Unpacker.unpacked_out]
  exact onRegions_pass (by simpa using hr) _

/-- Settles O50: each pair is a row of R301 and runs as its unit's operation, whose records are those of the row. -/
theorem headerPairsRun : Obligations.HeaderPairsRun := by
  unfold Obligations.HeaderPairsRun
  intro i ct bd c hrow
  have ⟨hdec, hexec, hb⟩ : decode .hdrKey (bd * 256 + ct) = .ok i ∧ exec i = headerPairItem ct bd ∧
      bd ∈ [1, 2, 4, 8, 16] := by
    generalize hp : (i, ct, bd, c) = p at hrow
    fin_cases hrow <;> cases hp <;> exact ⟨rfl, rfl, by decide⟩
  rw [hexec]
  refine ⟨hdec, fun s w hw hu => headerPairItem_headerKey hw hu ct bd, ?_⟩
  rintro s w u hw hu hmem rfl hr
  exact ⟨_, _, headerPairItem_unpacking hw hu hr ct bd, unpacksTo_rowRecords u.row ct hb _ _, Memory.storesAt_write hmem.1 _ _⟩

/-! ### Interlace codes (R147) -/

/-- The rows of 42_unpack.md R301, by color type. -/
theorem colorModels_rows : ∀ m ∈ colorModels, channelsOf m.1 = some m.2.1 ∧ pixKindOf m.1 = m.2.2.1 ∧ m.2.1 ≤ 4 ∧
    m.2.2.1 < 4 ∧ ∀ bd ∈ m.2.2.2, m.2.1 * bd ≤ 64 := by decide

/-- The derived registers hold R332's values where the expected length fits its register. -/
theorem deriveRegs_toNat {ct c k bd w h : Nat} {depths : List Nat} (hm : (ct, c, k, depths) ∈ colorModels)
    (hbd : bd ∈ depths) (hh : h ≠ 0) (hlen : h * (1 + rowBytes w c bd) ≤ 0xFFFFFFFF) :
    let d := deriveRegs w h ct bd
    d.channels.toNat = c ∧ d.pixelBits.toNat = c * bd ∧ d.bpp.toNat = max 1 ((c * bd + 7) / 8) ∧
      d.scanlineBytes.toNat = rowBytes w c bd ∧ d.expectedLen.toNat = h * (1 + rowBytes w c bd) ∧ d.pixKind.toNat = k := by
  obtain ⟨hch, hkind, hc, hk, hdepths⟩ : channelsOf ct = some c ∧ pixKindOf ct = k ∧ c ≤ 4 ∧ k < 4 ∧
    ∀ bd ∈ depths, c * bd ≤ 64 := colorModels_rows _ hm
  have hbits := hdepths bd hbd
  have hpixel : pixelBitsOf ct bd = c * bd := by rw [pixelBitsOf, hch]; rfl
  have hrow : 1 + rowBytes w c bd ≤ h * (1 + rowBytes w c bd) := Nat.le_mul_of_pos_left _ (Nat.pos_of_ne_zero hh)
  simp only [deriveRegs, expectedLenOf, scanlineBytesOf, bppOf, hpixel, hch, hkind, BitVec.toNat_ofNat, Option.getD_some]
  refine ⟨?_, ?_, ?_, ?_, ?_, ?_⟩ <;> apply Nat.mod_eq_of_lt
  · omega
  · omega
  · unfold ceilDiv8; omega
  · change rowBytes w c bd < _; omega
  · change h * (1 + rowBytes w c bd) < _; omega
  · exact hk

/-- In the header check a code 0 or 1 passes, and so does the rest of the check where the sizes pass (R331 to R334). -/
theorem interlaceItem_headerInterlace {ct bd : Nat} (hw : s.pending = some w) (hu : s.unit = .headerInterlace ct bd)
    {il : Nat} (hil : il ≤ 1) (hwidth : s.hdr.width.toNat ≠ 0) (hheight : s.hdr.height.toNat ≠ 0)
    (hlen : expectedLenOf s.hdr.width.toNat s.hdr.height.toNat ct bd ≤ 0xFFFFFFFF)
    (hpix : 8 * s.hdr.width.toNat * s.hdr.height.toNat ≤ 0xFFFFFFFF) :
    interlaceItem il s = .next { s with
      unit := .idle
      der := deriveRegs s.hdr.width.toNat s.hdr.height.toNat ct bd
      ctl := { s.ctl with cfgValid := true } } := by
  unfold interlaceItem
  simp only [hu, endItem_pending hw, headerInterlace, headerFinish, if_neg (Nat.not_lt.2 hil), if_neg hwidth, if_neg hheight,
    if_neg (Nat.not_lt.2 hlen), if_neg (Nat.not_lt.2 hpix)]

/-- Before an image body a code is tested (R338). -/
theorem interlaceItem_bodyCheck (hw : s.pending = some w) (hu : s.unit = .bodyCheck) (il : Nat) :
    interlaceItem il s = if il = 1 then
      .next (takeError (w.setWidth 8) .unsupportedInterlace 1 { s with unit := .idle })
    else .next { s with unit := .idle } := by
  unfold interlaceItem bodyInterlace
  simp only [hu, endItem_pending hw]
  split_ifs <;> rfl

/-- Settles O51: in the header check both codes lead to the size checks and the derived registers, before a body only
Adam7 fails. -/
theorem interlaceCodesRun : Obligations.InterlaceCodesRun := by
  unfold Obligations.InterlaceCodesRun
  refine ⟨⟨rfl, rfl⟩, fun s w hw => ⟨?_, fun hu => interlaceItem_bodyCheck hw hu 0, fun hu => interlaceItem_bodyCheck hw hu 1⟩⟩
  intro i ct c k depths bd hi hu hm hbd hwidth hheight hlen hpix
  obtain ⟨hch, -⟩ := colorModels_rows _ hm
  obtain ⟨il, hil, hexec⟩ : ∃ il ≤ 1, exec i = interlaceItem il := by
    rcases hi with rfl | rfl
    · exact ⟨0, by decide, rfl⟩
    · exact ⟨1, by decide, rfl⟩
  have hw0 : s.hdr.width.toNat ≠ 0 := by bv_omega
  have hh0 : s.hdr.height.toNat ≠ 0 := by bv_omega
  rw [hexec]
  refine ⟨_, interlaceItem_headerInterlace hw hu hil hw0 hh0 ?_ hpix, deriveRegs_toNat hm hbd hh0 hlen⟩
  rwa [expectedLenOf_eq, hch]

/-! ### Mode bits (R148, 45_pathfinder.md R402, R406, R410) -/

theorem squaredDiff_toInt (a b : Nat) : (squaredDiff a b : Int) = ((a : Int) - b) * ((a : Int) - b) :=
  Int.toNat_of_nonneg (mul_self_nonneg _)

/-- PF_START's seed: the latch, a node table and a frontier of the start alone, an active search (R410, R411). -/
theorem pfSeed_eq (hcap : 1 ≤ s.par.frontierCap.toNat) (mode : BitVec 1) :
    let d := State.heuristic { s with latch := s.latchWith mode } (s.latchWith mode).start
    pfSeed mode s = .ok { s with
      latch := s.latchWith mode
      node := [(s.pf.startY.toNat * s.pf.w.toNat + s.pf.startX.toNat, ⟨0, none, d⟩)]
      frontier := [⟨s.pf.startX, s.pf.startY, 0, d⟩]
      pfSteps := 0
      pathLen := 0
      ctl := { s.ctl with pfState := .active } } := by
  unfold pfSeed frontierInsert
  simp only
  rw [if_neg (by simp [State.frontierFull]; omega)]
  rfl

/-- d of the start is exact where its coordinates and the goal's are below 32768 (R406). -/
theorem heuristic_start (hsx : s.latch.sx.toNat < 32768) (hsy : s.latch.sy.toNat < 32768)
    (hgx : s.latch.gx.toNat < 32768) (hgy : s.latch.gy.toNat < 32768) :
    let dx : Int := (s.latch.sx.toNat : Int) - s.latch.gx.toNat
    let dy : Int := (s.latch.sy.toNat : Int) - s.latch.gy.toNat
    ((s.heuristic s.latch.start).toNat : Int) = if s.latch.mode = 1 then dx * dx + dy * dy else 0 := by
  have hx := squaredDiff_lt hsx hgx
  have hy := squaredDiff_lt hsy hgy
  simp only [← squaredDiff_toInt]
  unfold State.heuristic
  split_ifs
  · rw [BitVec.toNat_ofNat, Nat.mod_eq_of_lt (by simp only [PfLatch.start]; omega)]
    rfl
  · rfl

/-- In PF_START a mode bit seeds the search (R402, R410). -/
theorem modeItem_starting (hu : s.unit = .starting) (mode : BitVec 1) :
    modeItem mode s = endItem .pfMode s (pfSeed mode { s with unit := .idle }) := by
  unfold modeItem
  simp only [hu]

/-- Settles O52: each mode bit seeds the search with the start, whose d is exact for coordinates below 32768. -/
theorem modeBitsRun : Obligations.ModeBitsRun := by
  unfold Obligations.ModeBitsRun
  intro i b hrow
  have ⟨hdec, hexec⟩ : decode .pfMode b.toNat = .ok i ∧ exec i = modeItem b := by
    generalize hp : (i, b) = p at hrow
    fin_cases hrow <;> cases hp <;> exact ⟨rfl, rfl⟩
  refine ⟨hdec, fun s w hw hu hcap hsx hsy hgx hgy => ?_⟩
  refine ⟨_, heuristic_start (s := { s with latch := s.latchWith b }) hsx hsy hgx hgy, ?_⟩
  rw [hexec, modeItem_starting hu, endItem_pending hw, pfSeed_eq (s := { s with unit := .idle }) hcap]
  rfl

end Sys2Proof.Machine
end

section
/-! SUPPORT. The inflater's parts as equations for the proofs about whole streams: bits read in sequence, the block header,
stored blocks, the trailer, the Adler-32 sums, and turns (40_inflate.md R202 to R210, R240, R241, R246). -/

namespace Sys2Proof.Machine

variable {c d : Inflater} {src : List Byte}

/-! ### Bits in sequence (R202, R206, R246) -/

/-- An action after m bits that are there. -/
theorem bits_bind {α : Type} {m : Nat} (h : hasBits c.src c.pos m) (f : Nat → Inf α) :
    (bits m >>= f) c = f (streamBits c.src c.pos m) { c with pos := c.pos + m } := by
  rw [Inf.bind_eq, bits_eq h]

/-- No action runs after bits that are not there. -/
theorem bits_bind_truncated {α : Type} {m : Nat} (hm : m ≠ 0) (h : ¬ hasBits c.src c.pos m) (f : Nat → Inf α) :
    (bits m >>= f) c = .error .truncated := by
  rw [Inf.bind_eq, bits_fails hm h]

/-- Stream bits from a byte boundary on are bits of the bytes from there on. -/
theorem streamBits_drop (src : List Byte) (j q m : Nat) : streamBits src (8 * j + q) m = streamBits (src.drop j) q m := by
  unfold streamBits
  rw [leNat_drop, Nat.div_div_eq_div_mul, ← Nat.pow_add]

/-- Two bytes, the low one first, are 16 stream bits. -/
theorem le16_streamBits (src : List Byte) (p : Nat) :
    le16 (streamBits src p 8) (streamBits src (p + 8) 8) = streamBits src p 16 :=
  (streamBits_add src p 8 8).symm

/-- The 16 bits of `le16bytes v` are v. -/
theorem streamBits_le16bytes {v : Nat} (hv : v < 65536) (rest : List Byte) : streamBits (le16bytes v ++ rest) 0 16 = v := by
  simp only [streamBits, le16bytes, List.cons_append, List.nil_append, leNat, BitVec.toNat_ofNat]
  omega

/-! ### Block headers (R205, R207) -/

/-- The block header, then its block. -/
theorem nextBlock_eq (h : hasBits c.src c.pos 3) : nextBlock c = blockType (streamBits c.src (c.pos + 1) 2)
    { c with pos := c.pos + 3, final := decide (streamBits c.src c.pos 1 = 1) } := by
  have h1 : hasBits c.src c.pos 1 := by simp only [hasBits] at *; omega
  have h2 : hasBits c.src (c.pos + 1) 2 := by simp only [hasBits] at *; omega
  unfold nextBlock
  rw [bits_bind h1, bits_bind (c := { c with pos := c.pos + 1 }) h2]
  rfl

theorem nextBlock_truncated (h : ¬ hasBits c.src c.pos 3) : nextBlock c = .error .truncated := by
  unfold nextBlock
  by_cases h1 : hasBits c.src c.pos 1
  · rw [bits_bind h1]
    exact bits_bind_truncated (c := { c with pos := c.pos + 1 }) (by decide) (by simp only [hasBits] at *; omega) _
  · exact bits_bind_truncated (by decide) h1 _

theorem turn_block (hc : c.phase = .block) : turn c = nextBlock c := by simp only [turn, hc]

theorem turn_trailer (hc : c.phase = .trailer) : turn c = trailer c := by simp only [turn, hc]

theorem turn_litLen (hc : c.phase = .litLen) : turn c = readAndRun c.lit litLenSymbol c := by simp only [turn, hc]

theorem turn_codeLen (hc : c.phase = .codeLen) : turn c = readAndRun c.cl clSymbol c := by simp only [turn, hc]

theorem turn_dist {n : Nat} (hc : c.phase = .dist n) : turn c = readAndRun c.dist (fun sym => distSymbol sym n) c := by
  simp only [turn, hc]

/-- A symbol that is decoded is run. -/
theorem readAndRun_eq {code : List HuffEntry} {sym : Nat} (h : decodeSymbol code c = .ok (sym, d)) (run : Nat → Inf Unit) :
    readAndRun code run c = run sym d := by
  unfold readAndRun
  rw [Inf.bind_eq, h]

/-! ### Stored blocks (R210) -/

/-- NLEN is the complement of LEN. -/
theorem xor_0xFFFF {x : Nat} (h : x < 2 ^ 16) : x ^^^ 0xFFFF = 65535 - x := by
  have hx : (BitVec.ofNat 16 x ^^^ BitVec.allOnes 16).toNat = (~~~ BitVec.ofNat 16 x).toNat := by
    rw [BitVec.xor_allOnes]
  rw [BitVec.toNat_xor, BitVec.toNat_not, BitVec.toNat_ofNat, BitVec.toNat_allOnes, Nat.mod_eq_of_lt h] at hx
  exact hx

section
variable {n : Nat} (hn : n = (c.pos + 7) / 8)
include hn

/-- With LEN and NLEN there, they are compared and LEN bytes are read. -/
theorem storedBlock_eq (h : hasBits c.src (8 * n) 32) :
    storedBlock c = if streamBits c.src (8 * n + 16) 16 ≠ 65535 - streamBits c.src (8 * n) 16 then .error .badStoredLen
      else (storedBytes (streamBits c.src (8 * n) 16) >>= fun _ => endBlock) { c with pos := 8 * n + 32 } := by
  have hb : ∀ k ≤ 3, hasBits c.src (8 * n + 8 * k) 8 := by intro k hk; simp only [hasBits] at *; omega
  unfold storedBlock getByte
  rw [Inf.bind_eq]
  simp only [alignByte, ← hn]
  rw [bits_bind (c := { c with pos := 8 * n }) (hb 0 (by decide)),
    bits_bind (c := { c with pos := 8 * n + 8 }) (hb 1 (by decide)),
    bits_bind (c := { c with pos := 8 * n + 8 + 8 }) (hb 2 (by decide)),
    bits_bind (c := { c with pos := 8 * n + 8 + 8 + 8 }) (hb 3 (by decide))]
  simp only [le16_streamBits, Nat.add_assoc, Nat.reduceAdd, xor_0xFFFF (streamBits_lt _ _ 16)]
  split_ifs <;> rfl

/-- LEN or NLEN is not there: TRUNCATED. -/
theorem storedBlock_truncated_head (h : ¬ hasBits c.src (8 * n) 32) : storedBlock c = .error .truncated := by
  unfold storedBlock getByte
  rw [Inf.bind_eq]
  simp only [alignByte, ← hn]
  by_cases h0 : hasBits c.src (8 * n) 8
  · rw [bits_bind (c := { c with pos := 8 * n }) h0]
    by_cases h1 : hasBits c.src (8 * n + 8) 8
    · rw [bits_bind (c := { c with pos := 8 * n + 8 }) h1]
      by_cases h2 : hasBits c.src (8 * n + 8 + 8) 8
      · rw [bits_bind (c := { c with pos := 8 * n + 8 + 8 }) h2]
        exact bits_bind_truncated (c := { c with pos := 8 * n + 8 + 8 + 8 }) (by decide)
          (by simp only [hasBits] at *; omega) _
      · exact bits_bind_truncated (c := { c with pos := 8 * n + 8 + 8 }) (by decide) h2 _
    · exact bits_bind_truncated (c := { c with pos := 8 * n + 8 }) (by decide) h1 _
  · exact bits_bind_truncated (c := { c with pos := 8 * n }) (by decide) h0 _

/-- LEN and NLEN do not agree: BAD_STORED_LEN. -/
theorem storedBlock_badStoredLen (h : hasBits c.src (8 * n) 32)
    (ha : streamBits c.src (8 * n + 16) 16 ≠ 65535 - streamBits c.src (8 * n) 16) :
    storedBlock c = .error .badStoredLen := by
  rw [storedBlock_eq hn h, if_pos ha]

/-- A byte of the data is not there: TRUNCATED. -/
theorem storedBlock_truncated (h : hasBits c.src (8 * n) 32)
    (ha : streamBits c.src (8 * n + 16) 16 = 65535 - streamBits c.src (8 * n) 16)
    (hl : ¬ hasBits c.src (8 * n) (32 + 8 * streamBits c.src (8 * n) 16)) : storedBlock c = .error .truncated := by
  rw [storedBlock_eq hn h, if_neg (not_not.2 ha), Inf.bind_eq]
  have hp : ({ c with pos := 8 * n + 32 } : Inflater).pos = 8 * (n + 4) := by simp only; omega
  have hb : ¬ hasBits c.src (8 * n + 32) (8 * streamBits c.src (8 * n) 16) := by simp only [hasBits] at *; omega
  rcases (storedBytes_cases hp).1 hb with hs | h0
  · rw [hs]
  · rw [h0] at hb; simp only [hasBits] at *; omega

/-- A whole stored block emits its bytes and ends (R210). -/
theorem storedBlock_ok (hl : hasBits c.src (8 * n) (32 + 8 * streamBits c.src (8 * n) 16))
    (ha : streamBits c.src (8 * n + 16) 16 = 65535 - streamBits c.src (8 * n) 16) :
    storedBlock c = .ok ((), { c.pushAll ((c.src.drop (n + 4)).take (streamBits c.src (8 * n) 16)) with
      pos := 8 * n + 32 + 8 * streamBits c.src (8 * n) 16
      phase := if c.final then .trailer else .block }) := by
  rw [storedBlock_eq hn (by simp only [hasBits] at *; omega), if_neg (not_not.2 ha), Inf.bind_eq]
  have hp : ({ c with pos := 8 * n + 32 } : Inflater).pos = 8 * (n + 4) := by simp only; omega
  have hb : hasBits c.src (8 * n + 32) (8 * streamBits c.src (8 * n) 16) := by simp only [hasBits] at *; omega
  rw [(storedBytes_cases hp).2 hb]
  rfl

end

/-! ### The Adler-32 (R241) -/

/-- The sum of the bytes. -/
abbrev byteSum (bytes : List Byte) : Nat := ((List.range bytes.length).map fun i => rowByte bytes i).sum

/-- The sum of the bytes, each times the number of bytes from it on. -/
abbrev weightedSum (bytes : List Byte) : Nat :=
  ((List.range bytes.length).map fun i => (bytes.length - i) * rowByte bytes i).sum

theorem byteSum_cons (x : Byte) (rest : List Byte) : byteSum (x :: rest) = x.toNat + byteSum rest := by
  rw [byteSum, List.length_cons, List.range_succ_eq_map, List.map_cons, List.map_map, List.sum_cons]
  rfl

theorem weightedSum_cons (x : Byte) (rest : List Byte) :
    weightedSum (x :: rest) = (rest.length + 1) * x.toNat + weightedSum rest := by
  rw [weightedSum, List.length_cons, List.range_succ_eq_map, List.map_cons, List.map_map, List.sum_cons]
  simp only [Function.comp_def, Nat.succ_eq_add_one, Nat.add_sub_add_right]
  rfl

/-- The running sums after some bytes, from sums that are reduced. -/
theorem foldl_adlerByte (bytes : List Byte) {s : AdlerSums} (ha : s.a < 65521) (hb : s.b < 65521) :
    bytes.foldl adlerByte s = ⟨(s.a + byteSum bytes) % 65521, (s.b + bytes.length * s.a + weightedSum bytes) % 65521⟩ := by
  induction bytes generalizing s with
  | nil => simp [byteSum, weightedSum, Nat.mod_eq_of_lt ha, Nat.mod_eq_of_lt hb]
  | cons x rest ih =>
    have hlt := fun v => Nat.mod_lt v (by decide : 65521 > 0)
    have ha' : (s.a + x.toNat) % 65521 ≡ s.a + x.toNat [MOD 65521] := Nat.mod_modEq _ _
    rw [List.foldl_cons, ih (hlt _) (hlt _), byteSum_cons, weightedSum_cons, List.length_cons]
    simp only [adlerByte, AdlerSums.mk.injEq]
    constructor
    · rw [Nat.mod_add_mod, Nat.add_assoc]
    · calc ((s.b + (s.a + x.toNat) % 65521) % 65521 + rest.length * ((s.a + x.toNat) % 65521) + weightedSum rest) % 65521
          = (s.b + (s.a + x.toNat) + rest.length * (s.a + x.toNat) + weightedSum rest) % 65521 :=
            (((Nat.mod_modEq _ _).trans (ha'.add_left _)).add (ha'.mul_left _)).add_right _
        _ = _ := by congr 1; ring

/-- The Adler-32 in closed form (R241). -/
theorem adler32_eq (bytes : List Byte) :
    adler32 bytes = (bytes.length + weightedSum bytes) % 65521 * 65536 + (1 + byteSum bytes) % 65521 := by
  rw [adler32, foldl_adlerByte bytes (s := adlerStart) (by decide) (by decide), adlerValue]
  simp only [adlerStart, Nat.zero_add, Nat.mul_one]

theorem adler32_lt (bytes : List Byte) : adler32 bytes < 2 ^ 32 := by
  rw [adler32_eq]
  have hlt := fun v => Nat.mod_lt v (by decide : 65521 > 0)
  have := hlt (bytes.length + weightedSum bytes)
  have := hlt (1 + byteSum bytes)
  omega

/-! ### The trailer (R240) -/

/-- The bytes from n on are a number's trailer exactly when they are, big-endian, that number. -/
theorem trailerAt_eq_iff {n : Nat} {t rest : List Byte} (hs : src.drop n = t ++ rest) (ht : t.length = 4) {a : Nat}
    (ha : a < 2 ^ 32) : trailerAt src n = a ↔ t = trailerBytes a := by
  obtain ⟨w, x, y, z, rfl⟩ : ∃ w x y z, t = [w, x, y, z] := by
    match t, ht with
    | [w, x, y, z], _ => exact ⟨w, x, y, z, rfl⟩
  have hrow : trailerAt src n = trailerAt ([w, x, y, z] ++ rest) 0 := by
    rw [← hs]
    simp [trailerAt, rowByte]
  have hw := w.isLt
  have hx := x.isLt
  have hy := y.isLt
  have hz := z.isLt
  rw [hrow]
  simp only [trailerAt, rowByte, trailerBytes, List.cons.injEq, and_true, BitVec.toNat_eq, BitVec.toNat_ofNat,
    List.cons_append, List.getD_cons_zero, List.getD_cons_succ, Nat.zero_add]
  omega

/-- A trailer that is there and agrees ends the stream; another one is BAD_ADLER. -/
theorem trailer_compares {n : Nat} (hn : n = (c.pos + 7) / 8) (h : n + 4 ≤ c.src.length) :
    trailer c = if trailerAt c.src n = adlerValue c.sums then .ok ((), { c with pos := 8 * (n + 4), phase := .done })
      else .error .badAdler := by
  subst hn
  rw [trailer_eq h, checkAdler]
  simp only [ne_eq, ite_not]

/-! ### Whole streams (R200, R203) -/

theorem inflateStream_of_header (h : zlibHeader src = .ok c) : inflateStream src = turns (8 * src.length + 2) c := by
  simp only [inflateStream, h]

theorem inflateStream_of_badHeader {x : InfFail} (h : zlibHeader src = .error x) : inflateStream src = .error x := by
  simp only [inflateStream, h]

/-- The header check, all its outcomes in one (R203, R204). -/
theorem zlibHeader_cons (cmf flg : Byte) (rest : List Byte) : zlibHeader (cmf :: flg :: rest) =
    if (cmf.toNat * 256 + flg.toNat) % 31 ≠ 0 then .error .badFcheck
    else if cmf.toNat % 16 ≠ 8 then .error .badCm
    else if 7 < cmf.toNat / 16 then .error .badCinfo
    else if flg.toNat / 32 % 2 = 1 then .error .fdict
    else .ok (.start (cmf :: flg :: rest)) := rfl

/-- The header 78 01 passes. -/
theorem zlibHeader_7801 (rest : List Byte) : zlibHeader (0x78 :: 0x01 :: rest) = .ok (.start (0x78 :: 0x01 :: rest)) := by
  rw [zlibHeader_cons, if_neg (by decide), if_neg (by decide), if_neg (by decide), if_neg (by decide)]

/-- The header 78 9C passes. -/
theorem zlibHeader_789C (rest : List Byte) : zlibHeader (0x78 :: 0x9C :: rest) = .ok (.start (0x78 :: 0x9C :: rest)) := by
  rw [zlibHeader_cons, if_neg (by decide), if_neg (by decide), if_neg (by decide), if_neg (by decide)]

/-! ### Turns -/

theorem turns_next (h : turn c = .ok ((), d)) (hd : d.phase ≠ .done) (k : Nat) : turns (k + 1) c = turns k d := by
  simp only [turns, h, if_neg hd]

theorem turns_done_now (h : turn c = .ok ((), d)) (hd : d.phase = .done) (k : Nat) : turns (k + 1) c = .ok d := by
  simp only [turns, h, if_pos hd]

theorem turns_error {x : InfFail} (h : turn c = .error x) (k : Nat) : turns (k + 1) c = .error x := by
  simp only [turns, h]

/-- At a trailer that is there one turn is enough. -/
theorem turns_trailer {n : Nat} (hc : c.phase = .trailer) (hn : n = (c.pos + 7) / 8) (h : n + 4 ≤ c.src.length) (k : Nat) :
    turns (k + 1) c = if trailerAt c.src n = adlerValue c.sums then .ok { c with pos := 8 * (n + 4), phase := .done }
      else .error .badAdler := by
  have ht := (turn_trailer hc).trans (trailer_compares hn h)
  split_ifs with ha
  · exact turns_done_now (ht.trans (if_pos ha)) rfl k
  · exact turns_error (ht.trans (if_neg ha)) k

end Sys2Proof.Machine
end

section
/-! PROOF. Streams of stored blocks (40_inflate.md R200, R203, R205, R210, R240, R242, R246): what they inflate to, and how
they fail by their trailer or by their end. -/

namespace Sys2Proof.Machine

variable {c : Inflater}

/-- A stored block of these bytes: the byte of its header bits, LEN, NLEN, the bytes (R205, R210). -/
def storedForm (final : Byte) (bytes : List Byte) : List Byte :=
  final :: (le16bytes bytes.length ++ (le16bytes (65535 - bytes.length) ++ bytes))

@[simp] theorem length_storedForm (final : Byte) (bytes : List Byte) : (storedForm final bytes).length = bytes.length + 5 := by
  simp only [storedForm, le16bytes, List.length_cons, List.length_append, List.length_nil]
  omega

theorem storedBlocks_concat (init : List (List Byte)) (last : List Byte) :
    storedBlocks (init ++ [last]) = [0x78, 0x01] ++ (init.flatMap (storedForm 0) ++ storedForm 1 last) := by
  simp only [storedBlocks, List.dropLast_concat, List.getLastD_concat, List.append_assoc]
  rfl

/-! ### One block -/

section
variable {j len : Nat} {final : Byte} {data : List Byte} (hc : c.phase = .block) (hp : c.pos = 8 * j)
  (hf : final.toNat ≤ 1) (hl : len ≤ 65535)
  (hs : c.src.drop j = final :: (le16bytes len ++ (le16bytes (65535 - len) ++ data)))
include hc hp hf hl hs

/-- Where LEN and NLEN are there and agree, the turn is that of the stored block after the header bits. -/
theorem turn_storedHead : turn c = storedBlock { c with pos := 8 * j + 3, final := decide (final.toNat = 1) } ∧
    streamBits c.src (8 * (j + 1)) 16 = len ∧ streamBits c.src (8 * (j + 1) + 16) 16 = 65535 - len ∧
    c.src.length = j + 5 + data.length := by
  have hlen : c.src.length = j + 5 + data.length := by
    have := congrArg List.length hs
    simp only [List.length_drop, le16bytes, List.length_cons, List.length_append, List.length_nil] at this
    omega
  have hdrop1 : c.src.drop (j + 1) = le16bytes len ++ (le16bytes (65535 - len) ++ data) := by
    rw [← List.drop_drop, hs]
    rfl
  have hdrop3 : c.src.drop (j + 3) = le16bytes (65535 - len) ++ data := by
    rw [← List.drop_drop, hs]
    rfl
  have hfinal : streamBits c.src (8 * j) 1 = final.toNat := by
    rw [← Nat.add_zero (8 * j), streamBits_drop, hs]
    simp only [streamBits, leNat]
    omega
  have htype : streamBits c.src (8 * j + 1) 2 = 0 := by
    rw [streamBits_drop, hs]
    simp only [streamBits, leNat]
    omega
  refine ⟨?_, ?_, ?_, hlen⟩
  · rw [turn_block hc, nextBlock_eq (by rw [hp]; simp only [hasBits]; omega), hp, hfinal, htype]
    rfl
  · rw [← Nat.add_zero (8 * (j + 1)), streamBits_drop, hdrop1, streamBits_le16bytes (by omega)]
  · rw [show 8 * (j + 1) + 16 = 8 * (j + 3) + 0 by omega, streamBits_drop, hdrop3, streamBits_le16bytes (by omega)]

/-- A whole stored block is one turn. -/
theorem turn_stored_ok (hd : len ≤ data.length) : turn c = .ok ((), { c.pushAll (data.take len) with
    pos := 8 * (j + 5 + len)
    final := decide (final.toNat = 1)
    phase := if final.toNat = 1 then .trailer else .block }) := by
  obtain ⟨hturn, hlen, hnlen, hsrc⟩ := turn_storedHead hc hp hf hl hs
  have hdata : c.src.drop (j + 1 + 4) = data := by
    rw [Nat.add_assoc, ← List.drop_drop, hs]
    rfl
  rw [hturn, storedBlock_ok (n := j + 1) (by simp only; omega)
    (by simp only [hlen, hasBits]; omega) (by simp only [hlen, hnlen])]
  simp only [hlen, hdata, Inflater.pushAll, decide_eq_true_eq, Except.ok.injEq, Prod.mk.injEq, true_and,
    Inflater.mk.injEq, and_true]
  omega

/-- A stored block with too few bytes is TRUNCATED (R246). -/
theorem turn_stored_truncated (hd : data.length < len) : turn c = .error .truncated := by
  obtain ⟨hturn, hlen, hnlen, hsrc⟩ := turn_storedHead hc hp hf hl hs
  rw [hturn]
  exact storedBlock_truncated (n := j + 1) (by simp only; omega) (by simp only [hasBits]; omega)
    (by simp only [hlen, hnlen]) (by simp only [hlen, hasBits]; omega)

end

/-- A stored block cut off before its end is TRUNCATED (R246). -/
theorem turn_stored_cut {j n : Nat} {final : Byte} {bytes : List Byte} (hc : c.phase = .block) (hp : c.pos = 8 * j)
    (hf : final.toNat ≤ 1) (hl : bytes.length ≤ 65535) (hs : c.src.drop j = (storedForm final bytes).take n)
    (hn : n < (storedForm final bytes).length) : turn c = .error .truncated := by
  have hlen : c.src.length - j = n := by
    have := congrArg List.length hs
    rw [List.length_drop, List.length_take] at this
    omega
  rw [length_storedForm] at hn
  by_cases h5 : 5 ≤ n
  · obtain ⟨m, rfl⟩ := Nat.exists_eq_add_of_le' h5
    exact turn_stored_truncated (data := bytes.take m) hc hp hf hl hs (by rw [List.length_take]; omega)
  rw [turn_block hc]
  match n with
  | 0 => exact nextBlock_truncated (by simp only [hasBits]; omega)
  | m + 1 =>
    have htype : streamBits c.src (8 * j + 1) 2 = 0 := by
      rw [streamBits_drop, hs, storedForm, List.take_succ_cons]
      simp only [streamBits, leNat]
      omega
    rw [nextBlock_eq (by simp only [hasBits]; omega), hp, htype]
    exact storedBlock_truncated_head (n := j + 1) (by simp only; omega) (by simp only [hasBits]; omega)

/-! ### Blocks before the last -/

/-- Every stored block but the last is one turn, and its bytes are emitted. -/
theorem turns_storedForms {init : List (List Byte)} (hl : ∀ b ∈ init, b.length ≤ 65535) {j : Nat} {tail : List Byte}
    (hc : c.phase = .block) (hfin : c.final = false) (hp : c.pos = 8 * j)
    (hs : c.src.drop j = init.flatMap (storedForm 0) ++ tail) (k : Nat) :
    turns (init.length + k) c =
      turns k { c.pushAll init.flatten with pos := 8 * (j + (init.flatMap (storedForm 0)).length) } := by
  induction init generalizing c j with
  | nil =>
    have : { c.pushAll [] with pos := 8 * j } = c := by rw [← hp]; rfl
    simp only [List.length_nil, Nat.zero_add, List.flatten_nil, List.flatMap_nil, Nat.add_zero, this]
  | cons b init ih =>
    obtain ⟨hb, hl⟩ := List.forall_mem_cons.1 hl
    rw [List.flatMap_cons, List.append_assoc] at hs
    have hturn := turn_stored_ok (data := b ++ (init.flatMap (storedForm 0) ++ tail)) hc hp (final := 0) (by decide) hb
      (by rw [hs]; simp [storedForm]) (by simp)
    have hstep := ih hl (c := { c.pushAll b with pos := 8 * (j + 5 + b.length) }) (j := j + 5 + b.length) hc hfin rfl (by
      show c.src.drop _ = _
      rw [Nat.add_assoc, ← List.drop_drop, hs]
      exact List.drop_left' (by rw [length_storedForm]; omega))
    rw [List.take_left' rfl] at hturn
    have hnext : { c.pushAll b with
        pos := 8 * (j + 5 + b.length)
        final := decide ((0 : Byte).toNat = 1)
        phase := if (0 : Byte).toNat = 1 then .trailer else .block } =
        { c.pushAll b with pos := 8 * (j + 5 + b.length) } := by
      simp [Inflater.pushAll, hc, hfin]
    rw [hnext] at hturn
    have hlen : init.length + 1 + k = init.length + k + 1 := by omega
    rw [List.length_cons, hlen, turns_next hturn (by simp [Inflater.pushAll, hc]), hstep]
    simp only [List.flatten_cons, List.flatMap_cons, List.length_append, length_storedForm, Inflater.pushAll,
      List.reverse_append, List.append_assoc, List.foldl_append]
    congr 3
    omega

/-- A part of a stream that fails TRUNCATED wherever it is cut off, however many turns there are. -/
def CutFails (part : List Byte) : Prop :=
  ∀ (c : Inflater) (j n : Nat), c.phase = .block → c.pos = 8 * j → c.src.drop j = part.take n → n < part.length →
    ∀ k, turns k c = .error .truncated

/-- A stored block before such a part makes another one. -/
theorem CutFails.storedForm_append {b tail : List Byte} (hb : b.length ≤ 65535) (ht : CutFails tail) :
    CutFails (storedForm 0 b ++ tail) := by
  intro c j n hc hp hs hn k
  match k with
  | 0 => rfl
  | k + 1 =>
    rcases Nat.lt_or_ge n (storedForm 0 b).length with hlt | hge
    · rw [List.take_append_of_le_length hlt.le] at hs
      exact turns_error (turn_stored_cut hc hp (by decide) hb hs hlt) k
    · obtain ⟨m, rfl⟩ := Nat.exists_eq_add_of_le hge
      rw [List.take_length_add_append] at hs
      rw [List.length_append] at hn
      have hturn := turn_stored_ok (data := b ++ tail.take m) hc hp (final := 0) (by decide) hb
        (by rw [hs]; simp [storedForm]) (by simp)
      rw [turns_next hturn (by simp)]
      refine ht _ (j + 5 + b.length) m (by simp) rfl ?_ (by omega) k
      show c.src.drop _ = _
      rw [Nat.add_assoc, ← List.drop_drop, hs]
      exact List.drop_left' (by rw [length_storedForm]; omega)

/-- The last block and a trailer fail TRUNCATED wherever they are cut off. -/
theorem cutFails_last {last t : List Byte} (hl : last.length ≤ 65535) (ht : t.length = 4) :
    CutFails (storedForm 1 last ++ t) := by
  intro c j n hc hp hs hn k
  match k with
  | 0 => rfl
  | k + 1 =>
    rcases Nat.lt_or_ge n (storedForm 1 last).length with hlt | hge
    · rw [List.take_append_of_le_length hlt.le] at hs
      exact turns_error (turn_stored_cut hc hp (by decide) hl hs hlt) k
    · obtain ⟨m, rfl⟩ := Nat.exists_eq_add_of_le hge
      rw [List.take_length_add_append] at hs
      rw [List.length_append, ht] at hn
      have hlen : c.src.length = j + 5 + last.length + m := by
        have := congrArg List.length hs
        rw [List.length_drop, List.length_append, length_storedForm, List.length_take] at this
        omega
      have hturn := turn_stored_ok (data := last ++ t.take m) hc hp (final := 1) (by decide) hl
        (by rw [hs]; simp [storedForm]) (by simp)
      rw [turns_next hturn (by simp)]
      match k with
      | 0 => rfl
      | k + 1 =>
        refine turns_error ?_ k
        rw [turn_trailer (by simp), trailer_truncated]
        show c.src.length < _
        simp only
        omega

theorem cutFails_storedForms {init : List (List Byte)} (hl : ∀ b ∈ init, b.length ≤ 65535) {tail : List Byte}
    (ht : CutFails tail) : CutFails (init.flatMap (storedForm 0) ++ tail) := by
  induction init with
  | nil => exact ht
  | cons b init ih =>
    obtain ⟨hb, hl⟩ := List.forall_mem_cons.1 hl
    rw [List.flatMap_cons, List.append_assoc]
    exact (ih hl).storedForm_append hb

/-! ### The whole stream -/

/-- The last block and a trailer: the stream ends there if they are the output's Adler-32, and is BAD_ADLER if not. -/
theorem turns_lastForm {j : Nat} {last t rest : List Byte} (hc : c.phase = .block) (hp : c.pos = 8 * j)
    (hl : last.length ≤ 65535) (hs : c.src.drop j = storedForm 1 last ++ (t ++ rest)) (ht : t.length = 4)
    {a : Nat} (hsum : adlerValue (c.pushAll last).sums = a) (ha : a < 2 ^ 32) (k : Nat) :
    turns (k + 1 + 1) c = if t = trailerBytes a then
        .ok { c.pushAll last with pos := 8 * (j + 5 + last.length + 4), final := true, phase := .done }
      else .error .badAdler := by
  have hsrc := congrArg List.length hs
  simp only [List.length_drop, List.length_append, length_storedForm, ht] at hsrc
  have hdrop : c.src.drop (j + 5 + last.length) = t ++ rest := by
    rw [Nat.add_assoc, ← List.drop_drop, hs]
    exact List.drop_left' (by rw [length_storedForm]; omega)
  have hturn := turn_stored_ok (data := last ++ (t ++ rest)) hc hp (final := 1) (by decide) hl
    (hs.trans (by simp [storedForm])) (by simp)
  rw [List.take_left' rfl] at hturn
  rw [turns_next hturn (by simp), turns_trailer (n := j + 5 + last.length) (by simp) (by simp only; omega)
    (by show _ ≤ c.src.length; omega)]
  subst hsum
  simp only [← trailerAt_eq_iff hdrop ht ha]
  rfl

/-- A stored stream with some trailer: it ends there if that is the output's Adler-32, and is BAD_ADLER if not. -/
theorem inflateStream_storedBlocks {init : List (List Byte)} {last t rest : List Byte}
    (hi : ∀ b ∈ init, b.length ≤ 65535) (hl : last.length ≤ 65535) (ht : t.length = 4) :
    inflateStream (storedBlocks (init ++ [last]) ++ t ++ rest) =
      if t = trailerBytes (adler32 (init ++ [last]).flatten) then
        .ok { (Inflater.start (storedBlocks (init ++ [last]) ++ t ++ rest)).pushAll (init ++ [last]).flatten with
          pos := 8 * ((storedBlocks (init ++ [last])).length + 4), final := true, phase := .done }
      else .error .badAdler := by
  set src := storedBlocks (init ++ [last]) ++ t ++ rest with hsrc
  set m := (init.flatMap (storedForm 0)).length with hm
  have hshape : src = 0x78 :: 0x01 :: (init.flatMap (storedForm 0) ++ (storedForm 1 last ++ (t ++ rest))) := by
    simp only [hsrc, storedBlocks_concat, List.append_assoc, List.cons_append, List.nil_append]
  have hlen : (storedBlocks (init ++ [last])).length = 2 + m + 5 + last.length := by
    simp only [storedBlocks_concat, List.length_append, length_storedForm, List.length_cons, List.length_nil, ← hm]
    omega
  have hinit : init.length ≤ m := by
    rw [hm, List.length_flatMap]
    simpa using List.card_nsmul_le_sum (init.map fun b => (storedForm 0 b).length) 1 (by simp)
  obtain ⟨k, hk⟩ : ∃ k, 8 * src.length + 2 = init.length + (k + 1 + 1) :=
    ⟨8 * src.length - init.length, by simp only [hsrc, List.length_append]; omega⟩
  have hsum : adlerValue (((Inflater.start src).pushAll init.flatten).pushAll last).sums =
      adler32 (init ++ [last]).flatten := by
    rw [Inflater.pushAll_pushAll]
    simp [adler32, Inflater.start]
  have hlast := turns_lastForm (c := { (Inflater.start src).pushAll init.flatten with pos := 8 * (2 + m) })
    (j := 2 + m) rfl rfl hl (by
      show src.drop _ = _
      rw [← List.drop_drop, hshape]
      exact List.drop_left' hm.symm) ht hsum (adler32_lt _) k
  rw [inflateStream_of_header (c := Inflater.start src) (by rw [hshape]; exact zlibHeader_7801 _), hk,
    turns_storedForms hi rfl rfl rfl (j := 2) (by show src.drop 2 = _; rw [hshape]; rfl), ← hm, hlast, hlen]
  simp [Inflater.pushAll]

/-- A stored stream cut off before its end is TRUNCATED (R246). -/
theorem inflateStream_stored_cut {init : List (List Byte)} {last t : List Byte}
    (hi : ∀ b ∈ init, b.length ≤ 65535) (hl : last.length ≤ 65535) (ht : t.length = 4) {n : Nat}
    (hn : n < (storedBlocks (init ++ [last]) ++ t).length) :
    inflateStream ((storedBlocks (init ++ [last]) ++ t).take n) = .error .truncated := by
  rw [storedBlocks_concat, List.append_assoc, List.append_assoc] at hn ⊢
  match n with
  | 0 => rfl
  | 1 => rfl
  | n + 2 =>
    set part := (init.flatMap (storedForm 0) ++ (storedForm 1 last ++ t)).take n with hpart
    change inflateStream (0x78 :: 0x01 :: part) = _
    rw [inflateStream_of_header (zlibHeader_7801 part)]
    have hcut : CutFails (init.flatMap (storedForm 0) ++ (storedForm 1 last ++ t)) :=
      cutFails_storedForms hi (cutFails_last hl ht)
    refine hcut (.start (0x78 :: 0x01 :: part)) 2 n rfl rfl hpart ?_ _
    rw [List.length_append] at hn
    simp only [List.length_cons, List.length_nil] at hn
    omega

/-- Settles O28: the blocks before the last are one turn each, by induction on them; then the last block and the trailer.
Cut off, the first part that is not whole is TRUNCATED. -/
theorem storedStreamsInflate : Obligations.StoredStreamsInflate := by
  unfold Obligations.StoredStreamsInflate
  intro chunks rest hne hl
  obtain ⟨init, last, rfl⟩ : ∃ init last, chunks = init ++ [last] :=
    ⟨_, _, (List.dropLast_append_getLast hne).symm⟩
  have hi : ∀ b ∈ init, b.length ≤ 65535 := fun b hb => hl b (by simp [hb])
  have hlast : last.length ≤ 65535 := hl last (by simp)
  have h4 : ∀ a, (trailerBytes a).length = 4 := fun _ => rfl
  refine ⟨?_, fun wrong hw hne => ?_, fun n hn => ?_⟩
  · refine ⟨_, (inflateStream_storedBlocks hi hlast (h4 _)).trans (if_pos rfl), ?_, ?_⟩
    · simp [Inflater.start]
    · simp [storedStream, h4]
  · rw [inflateStream_storedBlocks hi hlast hw, if_neg hne]
  · exact inflateStream_stored_cut hi hlast (h4 _) hn

end Sys2Proof.Machine
end

section
/-! PROOF. Literals in a fixed-code block (40_inflate.md R202, R206, R209, R217, R220 to R222): the bits a stream holds, one
code among codes of which none begins it, and a whole block by induction on its literals. -/

namespace Sys2Proof.Machine

variable {c : Inflater} {src : List Byte} {p : Nat}

/-! ### The bits a stream holds (R202, R206) -/

/-- From position p on the stream holds these bits, in the order they are read. -/
def StreamHolds (src : List Byte) (p : Nat) (l : List Bool) : Prop :=
  hasBits src p l.length ∧ ∀ k (h : k < l.length), streamBits src (p + k) 1 = l[k].toNat

theorem StreamHolds.append_iff {l m : List Bool} :
    StreamHolds src p (l ++ m) ↔ StreamHolds src p l ∧ StreamHolds src (p + l.length) m := by
  simp only [StreamHolds, hasBits, List.length_append]
  constructor
  · rintro ⟨hlen, h⟩
    refine ⟨⟨by omega, fun k hk => ?_⟩, by omega, fun k hk => ?_⟩
    · rw [h k (by omega), List.getElem_append_left hk]
    · rw [Nat.add_assoc, h (l.length + k) (by omega), List.getElem_append_right (by omega)]
      simp only [Nat.add_sub_cancel_left]
  · rintro ⟨⟨-, hl⟩, hlen, hm⟩
    refine ⟨by omega, fun k hk => ?_⟩
    rcases Nat.lt_or_ge k l.length with hlt | hge
    · rw [hl k hlt, List.getElem_append_left hlt]
    · obtain ⟨i, rfl⟩ := Nat.exists_eq_add_of_le hge
      rw [← Nat.add_assoc, hm i (by omega), List.getElem_append_right (by omega)]
      simp only [Nat.add_sub_cancel_left]

/-- The bits of a byte built from 8 bits, the first least significant. -/
theorem byte_bit (f : Nat → Bool) {r : Nat} (hr : r < 8) :
    (BitVec.ofNat 8 ((List.range 8).map fun j => if f j then 2 ^ j else 0).sum).toNat / 2 ^ r % 2 = (f r).toNat := by
  have hbit : ∀ j, (if f j then 2 ^ j else 0) = (f j).toNat * 2 ^ j := by intro j; cases f j <;> simp
  have hle : ∀ j, (f j).toNat ≤ 1 := fun j => Bool.toNat_le _
  have h0 := hle 0; have h1 := hle 1; have h2 := hle 2; have h3 := hle 3
  have h4 := hle 4; have h5 := hle 5; have h6 := hle 6; have h7 := hle 7
  simp only [hbit, List.range_succ, List.range_zero, List.nil_append, List.map_append, List.map_cons, List.map_nil,
    List.sum_append, List.sum_cons, List.sum_nil, BitVec.toNat_ofNat]
  interval_cases r <;> omega

theorem length_packBits (l : List Bool) : (packBits l).length = (l.length + 7) / 8 := by
  rw [packBits, List.length_map, List.length_range]

/-- Packed bits are what the stream holds. -/
theorem streamHolds_packBits (pre rest : List Byte) (l : List Bool) :
    StreamHolds (pre ++ packBits l ++ rest) (8 * pre.length) l := by
  have hlen := length_packBits l
  refine ⟨by simp only [hasBits, List.length_append]; omega, fun k hk => ?_⟩
  have hi : k / 8 < (packBits l).length := by omega
  rw [streamBits_drop, List.append_assoc, List.drop_left' rfl, streamBits_one _ _ (by rw [List.length_append]; omega),
    List.getElem_append_left hi]
  simp only [packBits, List.getElem_map, List.getElem_range]
  rw [byte_bit (fun j => l.getD (8 * (k / 8) + j) false) (Nat.mod_lt _ (by decide)), Nat.div_add_mod]
  simp [List.getD, hk]

/-! ### Codes, most significant bit first (R206, R217) -/

/-- The w bits of v, the most significant first. -/
def codeForm (w v : Nat) : List Bool := (List.range w).map fun k => v.testBit (w - 1 - k)

@[simp] theorem length_codeForm (w v : Nat) : (codeForm w v).length = w := by simp [codeForm]

/-- The first n bits read of a code are its top n bits. -/
theorem codeBits_codeForm {w v n : Nat} (hv : v < 2 ^ w) (h : StreamHolds src p (codeForm w v)) (hn : n ≤ w) :
    codeBits src p n = v / 2 ^ (w - n) := by
  induction n with
  | zero => rw [codeBits, Nat.sub_zero, Nat.div_eq_of_lt hv]
  | succ n ih =>
    have hbit := h.2 n (by rw [length_codeForm]; omega)
    simp only [codeForm, List.getElem_map, List.getElem_range] at hbit
    have hw : w - n = w - 1 - n + 1 := by omega
    rw [codeBits_succ, ih (by omega), hbit, hw, Nat.pow_succ, ← Nat.div_div_eq_div_mul,
      show w - (n + 1) = w - 1 - n by omega, Nat.testBit_eq_decide_div_mod_eq]
    generalize v / 2 ^ (w - 1 - n) = x
    rcases Nat.mod_two_eq_zero_or_one x with hx | hx <;> simp only [hx] <;> simp <;> omega

/-- Where the stream holds the code of an entry, and no other entry's code begins it, Decode answers its symbol (R217). -/
theorem decodeSymbol_codeForm {code : List HuffEntry} {e : HuffEntry} (he : e ∈ code) (h1 : 1 ≤ e.len) (h15 : e.len ≤ 15)
    (hv : e.code < 2 ^ e.len) (hpre : ∀ q ∈ code, q.len ≤ e.len → q.code = e.code / 2 ^ (e.len - q.len) → q = e)
    (h : StreamHolds c.src c.pos (codeForm e.len e.code)) :
    decodeSymbol code c = .ok (e.sym, { c with pos := c.pos + e.len }) := by
  have hbits : ∀ l, l ≤ e.len → codeBits c.src c.pos l = e.code / 2 ^ (e.len - l) :=
    fun l hl => codeBits_codeForm hv h hl
  have hhas : hasBits c.src c.pos e.len := by simpa using h.1
  have hreads : ∀ q ∈ code, ∀ l ≤ e.len, q.reads c.src c.pos l → q = e := by
    rintro q hq l hl ⟨rfl, hc⟩
    exact hpre q hq hl (hc.trans (hbits _ hl))
  obtain ⟨n, hn⟩ := Nat.exists_eq_add_of_le' h1
  rw [hn] at h15 hhas hreads hbits ⊢
  refine (decodeSymbol_next (n := n) (by omega) (List.ne_nil_of_mem he) hhas fun l _ hl => ⟨fun q hq hc => ?_, ?_⟩).1
    e he ⟨hn, ?_⟩ fun q hq hc => hreads q hq _ le_rfl hc
  · have := hreads q hq l (by omega) hc
    subst this
    have := hc.1
    omega
  · exact ⟨e, he, by omega, by rw [hbits l (by omega), hn]⟩
  · rw [hbits _ le_rfl, Nat.sub_self, Nat.pow_zero, Nat.div_one]

/-! ### The fixed codes (R209) -/

/-- An entry of FIXED_LIT (R209). -/
def fixedEntry (k : Nat) : HuffEntry :=
  if k < 144 then ⟨k, 8, 0b00110000 + k⟩
  else if k < 256 then ⟨k, 9, 0b110010000 + (k - 144)⟩
  else if k < 280 then ⟨k, 7, k - 256⟩
  else ⟨k, 8, 0b11000000 + (k - 280)⟩

theorem fixedLit_eq : fixedLit = (List.range 288).map fixedEntry := by decide +kernel

theorem fixedDist_eq : fixedDist = (List.range 32).map fun k => ⟨k, 5, k⟩ := by decide +kernel

/-- No code of FIXED_LIT begins another one. -/
theorem fixedEntry_eq_of_begins {k i : Nat} (hk : k < 288) (hi : i < 288) (hl : (fixedEntry i).len ≤ (fixedEntry k).len)
    (hc : (fixedEntry i).code = (fixedEntry k).code / 2 ^ ((fixedEntry k).len - (fixedEntry i).len)) :
    fixedEntry i = fixedEntry k := by
  suffices i = k by rw [this]
  unfold fixedEntry at hl hc
  split_ifs at hl hc <;> simp only at hl hc <;> omega

theorem fixedEntry_bounds {k : Nat} (hk : k < 288) :
    1 ≤ (fixedEntry k).len ∧ (fixedEntry k).len ≤ 15 ∧ (fixedEntry k).code < 2 ^ (fixedEntry k).len := by
  unfold fixedEntry
  split_ifs <;> simp only <;> omega

theorem fixedEntry_sym (k : Nat) : (fixedEntry k).sym = k := by
  unfold fixedEntry
  split_ifs <;> rfl

/-- Where the stream holds the fixed code of a symbol, Decode answers it. -/
theorem decodeSymbol_fixedLit {k : Nat} (hk : k < 288)
    (h : StreamHolds c.src c.pos (codeForm (fixedEntry k).len (fixedEntry k).code)) :
    decodeSymbol fixedLit c = .ok (k, { c with pos := c.pos + (fixedEntry k).len }) := by
  have hmem : ∀ q, q ∈ fixedLit ↔ ∃ i < 288, fixedEntry i = q := by
    intro q
    simp only [fixedLit_eq, List.mem_map, List.mem_range]
  obtain ⟨h1, h15, hv⟩ := fixedEntry_bounds hk
  rw [decodeSymbol_codeForm ((hmem _).2 ⟨k, hk, rfl⟩) h1 h15 hv ?_ h, fixedEntry_sym]
  intro q hq hl hc
  obtain ⟨i, hi, rfl⟩ := (hmem q).1 hq
  exact fixedEntry_eq_of_begins hk hi hl hc

theorem fixedCodeBits_eq (b : Byte) : fixedCodeBits b = codeForm (fixedEntry b.toNat).len (fixedEntry b.toNat).code := by
  have hb := b.isLt
  unfold fixedCodeBits fixedEntry
  split_ifs
  · rfl
  · rfl

/-! ### Turns of a fixed-code block (R205, R220 to R222) -/

/-- The header of a final fixed block: BFINAL = 1, BTYPE = 1. -/
theorem turn_fixedHeader (hc : c.phase = .block) (h : StreamHolds c.src c.pos [true, true, false]) :
    turn c = .ok ((), { c with
      pos := c.pos + 3, final := true, lit := fixedLit, dist := fixedDist, phase := .litLen }) := by
  obtain ⟨hhas, hbits⟩ := h
  have hfinal : streamBits c.src c.pos 1 = 1 := hbits 0 (by decide)
  have hlow : streamBits c.src (c.pos + 1) 1 = 1 := hbits 1 (by decide)
  have hhigh : streamBits c.src (c.pos + 1 + 1) 1 = 0 := hbits 2 (by decide)
  have htype : streamBits c.src (c.pos + 1) 2 = 1 := by
    rw [streamBits_add _ _ 1 1, hlow, hhigh]
    rfl
  rw [turn_block hc, nextBlock_eq hhas, hfinal, htype]
  rfl

section
variable (hc : c.phase = .litLen) (hlit : c.lit = fixedLit)
include hc hlit

/-- A literal's code is one turn, which emits it. -/
theorem turn_fixedLiteral {b : Byte} (h : StreamHolds c.src c.pos (fixedCodeBits b)) :
    turn c = .ok ((), { c.push b with pos := c.pos + (fixedCodeBits b).length }) := by
  have hb := b.isLt
  rw [fixedCodeBits_eq] at h ⊢
  have hsym := decodeSymbol_fixedLit (by omega) h
  rw [← hlit] at hsym
  rw [turn_litLen hc, readAndRun_eq hsym, litLenSymbol, if_pos (by omega), emit,
    BitVec.ofNat_toNat, BitVec.setWidth_eq, length_codeForm]
  rfl

/-- The code 0000000 ends the block. -/
theorem turn_fixedEnd (h : StreamHolds c.src c.pos (List.replicate 7 false)) :
    turn c = .ok ((), { c with pos := c.pos + 7, phase := if c.final then .trailer else .block }) := by
  have hentry : fixedEntry 256 = ⟨256, 7, 0⟩ := by decide
  have hcode : StreamHolds c.src c.pos (codeForm (fixedEntry 256).len (fixedEntry 256).code) := by rw [hentry]; exact h
  have hsym := decodeSymbol_fixedLit (by decide) hcode
  rw [← hlit, hentry] at hsym
  rw [turn_litLen hc, readAndRun_eq hsym]
  rfl

/-- Each literal is one turn. -/
theorem turns_fixedLiterals (bytes : List Byte) (h : StreamHolds c.src c.pos (bytes.flatMap fixedCodeBits)) (k : Nat) :
    turns (bytes.length + k) c =
      turns k { c.pushAll bytes with pos := c.pos + (bytes.flatMap fixedCodeBits).length } := by
  induction bytes generalizing c with
  | nil => simp [Inflater.pushAll]
  | cons b bytes ih =>
    rw [List.flatMap_cons, StreamHolds.append_iff] at h
    obtain ⟨hb, hrest⟩ := h
    have hlen : (b :: bytes).length + k = bytes.length + k + 1 := by rw [List.length_cons]; omega
    rw [hlen, turns_next (turn_fixedLiteral hc hlit hb) (by simp [hc]), ih (by exact hc) (by exact hlit) hrest]
    simp [Inflater.pushAll, Inflater.push, Nat.add_assoc]

end

/-- A final fixed block of literals: its header, its literals and its end are a turn each. -/
theorem turns_fixedBlock {bytes : List Byte} (hc : c.phase = .block) (h : StreamHolds c.src c.pos
    ([true, true, false] ++ (bytes.flatMap fixedCodeBits ++ List.replicate 7 false))) (k : Nat) :
    ∃ d, turns (bytes.length + k + 2) c = turns k d ∧ d.phase = .trailer ∧ d.src = c.src ∧
      d.pos = c.pos + 3 + (bytes.flatMap fixedCodeBits).length + 7 ∧
      d.hist = bytes.reverse ++ c.hist ∧ d.sums = bytes.foldl adlerByte c.sums := by
  obtain ⟨hhead, hrest⟩ := StreamHolds.append_iff.1 h
  obtain ⟨hlits, hend⟩ := StreamHolds.append_iff.1 hrest
  have hheader := turn_fixedHeader hc hhead
  obtain ⟨d, hd⟩ : ∃ d, d = { c with
    pos := c.pos + 3, final := true, lit := fixedLit, dist := fixedDist, phase := .litLen } := ⟨_, rfl⟩
  rw [← hd] at hheader
  have hphase : d.phase = .litLen := by simp only [hd]
  have hlit : d.lit = fixedLit := by simp only [hd]
  have hfinal : d.final = true := by simp only [hd]
  have hsrc : d.src = c.src := by simp only [hd]
  have hpos : d.pos = c.pos + 3 := by simp only [hd]
  have hrun := turns_fixedLiterals hphase hlit bytes (by rw [hsrc, hpos]; exact hlits) (k + 1)
  have hstop := turn_fixedEnd (c := { d.pushAll bytes with pos := d.pos + (bytes.flatMap fixedCodeBits).length }) hphase
    hlit (by show StreamHolds d.src _ _; rw [hsrc, hpos]; exact hend)
  refine ⟨_, (turns_next hheader (by simp [hphase]) (bytes.length + (k + 1))).trans
    (hrun.trans (turns_next hstop (by simp [Inflater.pushAll, hfinal]) k)), ?_⟩
  simp [hd, Inflater.pushAll]

theorem length_le_fixedCodeBits (bytes : List Byte) : bytes.length ≤ (bytes.flatMap fixedCodeBits).length := by
  induction bytes with
  | nil => exact Nat.zero_le _
  | cons b bytes ih =>
    have hb : 1 ≤ (fixedCodeBits b).length := by
      rw [fixedCodeBits_eq, length_codeForm]
      exact (fixedEntry_bounds (b.isLt.trans (by decide))).1
    rw [List.flatMap_cons, List.length_append, List.length_cons]
    omega

/-- Settles O29: the block's turns are those of its literals and two more, and the trailer follows in the next whole byte. -/
theorem fixedLiteralsInflate : Obligations.FixedLiteralsInflate := by
  unfold Obligations.FixedLiteralsInflate
  intro bytes body src
  have hholds : StreamHolds src 16 ([true, true, false] ++ bytes.flatMap fixedCodeBits ++ List.replicate 7 false) :=
    streamHolds_packBits [0x78, 0x9C] _ _
  rw [List.append_assoc] at hholds
  have hbody : body.length = (3 + (bytes.flatMap fixedCodeBits).length + 7 + 7) / 8 := by
    rw [length_packBits, List.length_append, List.length_append, List.length_replicate]
    rfl
  have hsrc : src.length = 2 + body.length + 4 := by
    rw [List.length_append, List.length_append]
    rfl
  have hdrop : src.drop (2 + body.length) = trailerBytes (adler32 bytes) ++ [] := by
    rw [List.append_nil]
    exact List.drop_left' (by rw [List.length_append]; rfl)
  have hagrees : trailerAt src (2 + body.length) = adler32 bytes := (trailerAt_eq_iff hdrop rfl (adler32_lt bytes)).2 rfl
  have hcount := length_le_fixedCodeBits bytes
  obtain ⟨k, hk⟩ : ∃ k, 8 * src.length + 2 = bytes.length + (k + 1) + 2 :=
    ⟨8 * src.length - 1 - bytes.length, by omega⟩
  obtain ⟨d, hturns, hphase, hdsrc, hpos, hhist, hdsums⟩ := turns_fixedBlock (c := .start src) rfl hholds (k + 1)
  have hstart : (Inflater.start src).pos = 16 := rfl
  have hstop := turns_trailer (n := 2 + body.length) hphase (by omega) (by rw [hdsrc]; exact hsrc.ge) k
  have hsums : adlerValue d.sums = adler32 bytes := congrArg adlerValue hdsums
  rw [hsums, if_pos (hdsrc.symm ▸ hagrees)] at hstop
  refine ⟨{ d with pos := 8 * (2 + body.length + 4), phase := .done }, ?_, ?_, ?_⟩
  · have hheader : zlibHeader src = .ok (.start src) := zlibHeader_789C _
    rw [inflateStream_of_header hheader, hk, hturns, hstop]
  · simp [hhist, Inflater.start]
  · rw [hsrc]

end Sys2Proof.Machine
end

section
/-! PROOF. INFLATE (40_inflate.md R245, R252, R253), and the zlib header and trailer around a stream (R203, R204, R240,
R241, R246). -/

namespace Sys2Proof.Machine

variable {s : State} {c : Inflater}

/-! ### The header, the trailer and the Adler-32 -/

theorem zlibHeader_truncated {src : List Byte} (h : src.length < 2) : zlibHeader src = .error .truncated := by
  match src, h with
  | [], _ => rfl
  | [_], _ => rfl

/-- A header that passes starts the inflater on its stream. -/
theorem zlibHeader_ok {src : List Byte} (h : zlibHeader src = .ok c) : c = .start src := by
  unfold zlibHeader at h
  split at h
  · split_ifs at h
    exact (Except.ok.inj h).symm
  · cases h

/-- A stream that inflates ends with a trailer that is the Adler-32 of its output (R240). -/
theorem inflateStream_ends {src : List Byte} (h : inflateStream src = .ok c) :
    ∃ n, c.pos = 8 * (n + 4) ∧ n + 4 ≤ src.length ∧ trailerAt src n = adler32 c.hist.reverse := by
  have hadler := inflateStream_adler h
  unfold inflateStream at h
  split at h
  · cases h
  next c0 h0 =>
    have hstart := zlibHeader_ok h0
    subst hstart
    obtain ⟨e, hphase, hturn, hsrc, -⟩ := turns_done h (by simp [Inflater.start])
    replace hsrc : e.src = src := hsrc
    rw [turn_trailer hphase] at hturn
    have hlen : (e.pos + 7) / 8 + 4 ≤ e.src.length := by
      by_contra hshort
      rw [trailer_truncated (by omega)] at hturn
      cases hturn
    rw [trailer_compares rfl hlen] at hturn
    split_ifs at hturn with hagrees
    cases hturn
    rw [hsrc] at hlen hagrees
    exact ⟨_, rfl, hlen, hagrees.trans hadler⟩

/-- Settles O27: each clause is one outcome of the header check or of the trailer's turn. -/
theorem zlibWrapper : Obligations.ZlibWrapper := by
  unfold Obligations.ZlibWrapper
  refine ⟨fun src => ⟨fun h => inflateStream_of_badHeader (zlibHeader_truncated h), ?_⟩, fun c hc => ⟨?_, ?_, ?_⟩,
    fun src c => inflateStream_ends, adler32_eq⟩
  · rintro cmf flg rest rfl
    have hcheck := zlibHeader_cons cmf flg rest
    refine ⟨fun h1 => ?_, fun h1 h2 => ?_, fun h1 h2 h3 => ?_, fun h1 h2 h3 h4 => ?_⟩ <;> apply inflateStream_of_badHeader
    · rw [hcheck, if_pos h1]
    · rw [hcheck, if_neg (not_not.2 h1), if_pos h2]
    · rw [hcheck, if_neg (not_not.2 h1), if_neg (not_not.2 h2), if_pos h3]
    · rw [hcheck, if_neg (not_not.2 h1), if_neg (not_not.2 h2), if_neg (Nat.not_lt.2 h3), if_pos h4]
  · intro h
    rw [turn_trailer hc, trailer_truncated h]
  · intro h hne
    rw [turn_trailer hc, trailer_compares rfl h, if_neg hne]
  · intro h heq
    rw [turn_trailer hc, trailer_compares rfl h, if_pos heq]

/-! ### INFLATE -/

/-- The region check looks at the parameters alone (R106, R110). -/
theorem checkRegions_raised_of_par {rs : List Region} {t : State} {e : ErrorKind} {n : Word} (hpar : t.par = s.par)
    (h : checkRegions rs s = .raised e n s) : checkRegions rs t = .raised e n t := by
  unfold checkRegions at h ⊢
  rw [hpar]
  split at h
  · cases h; rfl
  · split at h
    · cases h; rfl
    · split at h
      · cases h; rfl
      · cases h

/-- A region error ends INFLATE with INF_OK = 0 and nothing else changed. -/
theorem execInflate_regionError {e : ErrorKind} {n : Word} (h : checkRegions (inflateRegionList s) s = .raised e n s) :
    execInflate s = .next (takeError 0x02 e n (clearInfOk s)) := by
  rw [execInflate, inflateRule, checkRegions_raised_of_par (clearInfOk_par s) h]
  rfl

/-- What follows INFLATE's inflate phase (R252): OutputOverflow where the output does not fit, else INF_OK. -/
def inflateTail (l : Nat) (s : State) : Ended :=
  if s.buf.infCap.toNat < l then .raised .outputOverflow (saturate l) (drawWrites [s.infRegion] s) else .ok (setInfOk s)

theorem inflateTail_fits {l : Nat} (h : l ≤ s.buf.infCap.toNat) : inflateTail l s = .ok (setInfOk s) :=
  if_neg (Nat.not_lt.2 h)

theorem inflateTail_overflow {l : Nat} (h : s.buf.infCap.toNat < l) :
    inflateTail l s = .raised .outputOverflow (saturate l) (drawWrites [s.infRegion] s) := if_pos h

/-- Where the regions pass, INFLATE is its inflate phase (R252). -/
theorem execInflate_pass (h : regionsPass s.par (inflateRegionList s)) :
    execInflate s = complete 0x02 (inflatePhase false (clearInfOk s) inflateTail) := by
  have hcheck : checkRegions (inflateRegionList s) (clearInfOk s) = .ok (clearInfOk s) := checkRegions_ok_iff.2 h
  rw [execInflate, inflateRule, hcheck]
  rfl

/-- The INF registers after a stream that inflates (R252). -/
def Inflater.results (c : Inflater) : InfResults :=
  ⟨saturate c.hist.length, BitVec.ofNat 32 (c.pos / 8), BitVec.ofNat 32 (adler32 c.hist.reverse)⟩

/-- The inflate phase on a stream that inflates (R252). -/
theorem inflatePhase_ok (h : inflateStream (s.mem.read s.buf.srcAddr.toNat s.buf.srcLen.toNat) = .ok c) (isDecode : Bool)
    (next : Nat → State → Ended) :
    inflatePhase isDecode s next = next c.hist.length { s with mem := (sink 0 c s).mem, inf := c.results } := by
  rw [Inflater.results, ← inflateStream_adler h, inflatePhase, h]
  rfl

theorem inflatePhase_error {x : InfFail} (h : inflateStream (s.mem.read s.buf.srcAddr.toNat s.buf.srcLen.toNat) = .error x)
    (isDecode : Bool) (next : Nat → State → Ended) : inflatePhase isDecode s next = inflateFailed isDecode x s := by
  rw [inflatePhase, h]

/-- A number of a register's width is not saturated. -/
theorem saturate_toNat {n : Nat} (h : n < 2 ^ 32) : (saturate n).toNat = n := by
  simp only [saturate, BitVec.toNat_ofNat]
  omega

/-- Settles O25: the regions pass, the inflate phase writes bytes and results, and the output fits. -/
theorem inflateSucceeds : Obligations.InflateSucceeds := by
  unfold Obligations.InflateSucceeds
  refine ⟨rfl, fun s c hmem hregions hstream hfits => ?_⟩
  have hcap := s.buf.infCap.isLt
  refine ⟨(sink 0 c s).mem, c.results, ?_, ?_, saturate_toNat (by omega), rfl, rfl⟩
  · show execInflate s = _
    rw [execInflate_pass hregions, inflatePhase_ok (s := clearInfOk s) hstream, inflateTail_fits (by exact hfits)]
    rfl
  · have hsink : (sink 0 c s).mem = s.mem.write s.buf.infAddr.toNat c.hist.reverse := by
      rw [sink_mem, List.drop_zero, List.take_of_length_le (by rw [List.length_reverse]; exact hfits), Nat.add_zero]
    rw [hsink]
    exact Memory.storesAt_write hmem.1 _ _

/-- The sink writes below the INF capacity only (R245). -/
theorem sink_confined {rs : List Region} (hrs : s.infRegion ∈ rs) : s.confined rs (sink 0 c s) :=
  State.confined_write hrs rfl le_rfl (Nat.add_le_add_left (List.length_take_le _ _) _)

/-- Unspecified regions, as an equation of states with their frame. -/
theorem drawWrites_keeps {qs rs : List Region} (hsub : qs ⊆ rs) (hs : Sparse.sorted s.mem) :
    ∃ m k, drawWrites qs s = { s with mem := m, draws := k } ∧ s.mem.keepsOutside m rs := by
  obtain ⟨m, k, h⟩ := drawWrites_eq qs s
  obtain ⟨-, hkeeps⟩ := State.confined_drawWrites hsub s hs
  rw [h] at hkeeps
  exact ⟨m, k, h, hkeeps⟩

/-- Settles O26: the region check fails, the stream does, or its output does not fit. -/
theorem inflateFails : Obligations.InflateFails := by
  unfold Obligations.InflateFails
  refine ⟨⟨rfl, fun x => by cases x <;> decide⟩, ?_⟩
  intro s hmem lowered rs src
  have hinf : [s.infRegion] ⊆ rs := List.subset_cons_self _ _
  refine ⟨fun e n h => execInflate_regionError h, fun hregions x hx => ?_, fun hregions c hc hlong => ?_⟩
  · obtain ⟨m, k, hdraw, hkeeps⟩ := drawWrites_keeps hinf (s := drawInfResults lowered) hmem.1
    refine ⟨m, (drawInfResults lowered).inf, k, ?_, hkeeps⟩
    show execInflate s = _
    rw [execInflate_pass hregions, inflatePhase_error (s := clearInfOk s) hx]
    exact congrArg (fun t => Host.Outcome.next (takeError 0x02 .decompressionFailed _ t)) hdraw
  · obtain ⟨hsorted, hsink⟩ := sink_confined (c := c) (hinf (List.mem_singleton_self _)) hmem.1
    obtain ⟨m, k, hdraw, hkeeps⟩ :=
      drawWrites_keeps hinf (s := { lowered with mem := (sink 0 c s).mem, inf := c.results }) hsorted
    refine ⟨m, c.results, k, ?_, fun x hx => (hkeeps x hx).trans (hsink x hx), rfl⟩
    show execInflate s = _
    rw [execInflate_pass hregions, inflatePhase_ok (s := clearInfOk s) hc, inflateTail_overflow (by exact hlong)]
    exact congrArg (fun t => Host.Outcome.next (takeError 0x02 .outputOverflow _ t)) hdraw

end Sys2Proof.Machine
end

section
/-! SUPPORT. The items of the inflater, each run by itself (40_inflate.md R207, R214, R220 to R227; log 5): the action of an
item, and how a success and a failure of the action end it (R245, R247, R253). -/

namespace Sys2Proof.Machine

variable {s : State} {c c' : Inflater} {p : InfPhase} {i : Instr} {act : Inf Unit} {v : Nat}

/-! ### From an item to its action -/

/-- The meaning of an item, by its format. -/
theorem exec_eq_item (i : Instr) : exec i = match (encode i).fmt with
    | .btype => btypeItem (encode i).bits
    | .litLen => litLenItem (encode i).bits
    | .dist => distItem (encode i).bits
    | .cl => clItem (encode i).bits
    | .cmd | .fsel | .hdrKey | .interlace | .pfMode => exec i := by
  cases i <;> rfl

/-- Run in this phase, the item runs this action on the inflater. -/
def RunsAction (i : Instr) (p : InfPhase) (act : Inf Unit) : Prop :=
  ∀ s c, inflaterAt s c p → ∃ fmt, exec i s = inflaterItem fmt act c s

theorem runsAction_btype (h : encode i = ⟨.btype, v⟩) : RunsAction i .block (blockType v) := by
  intro s c ⟨_, hu, hp, _⟩
  have hi := exec_eq_item i
  rw [h] at hi
  refine ⟨.btype, (congrFun hi s).trans ?_⟩
  simp only [btypeItem, hu, if_pos hp]

theorem runsAction_litLen (h : encode i = ⟨.litLen, v⟩) : RunsAction i .litLen (litLenSymbol v) := by
  intro s c ⟨_, hu, hp, _⟩
  have hi := exec_eq_item i
  rw [h] at hi
  refine ⟨.litLen, (congrFun hi s).trans ?_⟩
  simp only [litLenItem, hu, if_pos hp]

theorem runsAction_dist (h : encode i = ⟨.dist, v⟩) (n : Nat) : RunsAction i (.dist n) (distSymbol v n) := by
  intro s c ⟨_, hu, hp, _⟩
  have hi := exec_eq_item i
  rw [h] at hi
  refine ⟨.dist, (congrFun hi s).trans ?_⟩
  simp only [distItem, hu, hp]

theorem runsAction_cl (h : encode i = ⟨.cl, v⟩) : RunsAction i .codeLen (clSymbol v) := by
  intro s c ⟨_, hu, hp, _⟩
  have hi := exec_eq_item i
  rw [h] at hi
  refine ⟨.cl, (congrFun hi s).trans ?_⟩
  simp only [clItem, hu, if_pos hp]

/-! ### From the action to the item's end -/

/-- An action that goes on: the item answers its inflater, with the sink's bytes in memory (R245). -/
theorem RunsAction.next_of_ok (hr : RunsAction i p act) (hat : inflaterAt s c p) (h : act c = .ok ((), c')) :
    exec i s = .next { s with mem := (sink c.hist.length c' s).mem, unit := .inflating c' } := by
  obtain ⟨fmt, hi⟩ := hr s c hat
  obtain ⟨hw, -, -, -, hregion⟩ := hat
  obtain ⟨w, hw⟩ := Option.isSome_iff_exists.1 hw
  rw [hi, inflaterItem_ok hw hregion h]

/-- An action that goes on with some bytes emitted: what the statements say of its item. -/
theorem RunsAction.inflates (hr : RunsAction i p act) (hat : inflaterAt s c p) (h : act c = .ok ((), c'))
    {emitted : List Byte} (hhist : c'.hist = emitted.reverse ++ c.hist) (hsums : c'.sums = emitted.foldl adlerByte c.sums) :
    inflatesTo i s c c' emitted :=
  have ⟨_, _, _, hmem, _⟩ := hat
  ⟨hhist, hsums, _, hr.next_of_ok hat h, storesAt_sink hhist hmem.1⟩

/-- An action that fails: the item ends the command with its subcode (R247, R253, R458). -/
theorem RunsAction.fails (hr : RunsAction i p act) (hat : inflaterAt s c p) {x : InfFail} (h : act c = .error x) :
    failsWith i s x.code := by
  obtain ⟨fmt, hi⟩ := hr s c hat
  obtain ⟨hw, -, -, hmem, hregion⟩ := hat
  obtain ⟨w, hw⟩ := Option.isSome_iff_exists.1 hw
  obtain ⟨m, k, hdraw, hkeeps⟩ := drawWrites_keeps (List.Subset.refl (s.inflateRegions s.decoding))
    (s := drawInfResults s) hmem.1
  refine ⟨m, (drawInfResults s).inf, k, ?_, hkeeps⟩
  rw [hi, inflaterItem_error hw hregion h, hdraw, hw]
  rfl

/-! ### Extra bits (R223, R226, R214) -/

theorem bits_of_hasExtra {m : Nat} (h : hasExtra c m) :
    bits m c = .ok (streamBits c.src c.pos m, { c with pos := c.pos + m }) := by
  rcases h with rfl | h
  · simp [bits, Inf.pure_eq]
  · exact bits_eq h

theorem bits_of_not_hasExtra {m : Nat} (h : ¬ hasExtra c m) : bits m c = .error .truncated :=
  have ⟨hm, hb⟩ := not_or.1 h
  bits_fails hm hb

/-! ### Reserved symbols, literals and end of block (R221, R222, R224, R227, R229) -/

/-- Settles O59: each item's action fails at once. -/
theorem reservedSymbolsFail : Obligations.ReservedSymbolsFail := by
  unfold Obligations.ReservedSymbolsFail
  rintro s c i n x (⟨rfl, rfl, hat⟩ | ⟨rfl, rfl, hat⟩ | ⟨rfl, rfl, hat⟩ | ⟨rfl, rfl, hat⟩ | ⟨rfl, rfl, hat⟩)
  · exact (runsAction_btype rfl).fails hat (x := .badBtype) rfl
  · exact (runsAction_litLen rfl).fails hat (x := .badSymbol) rfl
  · exact (runsAction_litLen rfl).fails hat (x := .badSymbol) rfl
  · exact (runsAction_dist rfl n).fails hat (x := .badSymbol) rfl
  · exact (runsAction_dist rfl n).fails hat (x := .badSymbol) rfl

theorem litLenSymbol_lit (b : Byte) : litLenSymbol b.toNat c = .ok ((), c.push b) := by
  have hb := b.isLt
  rw [litLenSymbol, if_pos (by omega), emit, BitVec.ofNat_toNat, BitVec.setWidth_eq]

/-- Settles O55: LIT emits its byte, EOB ends the block. -/
theorem literalsAndEndOfBlockRun : Obligations.LiteralsAndEndOfBlockRun := by
  unfold Obligations.LiteralsAndEndOfBlockRun
  refine ⟨rfl, fun s c hat => ⟨fun b => ⟨decodeLitLen_lit b.isLt, ?_⟩, ?_⟩⟩
  · exact (runsAction_litLen rfl).inflates hat (litLenSymbol_lit b) rfl rfl
  · exact (runsAction_litLen rfl).inflates hat rfl rfl rfl

end Sys2Proof.Machine
end

section
/-! PROOF. The length, distance and code-length symbols, each run by itself (40_inflate.md R211, R214, R223, R226, R228,
R246). -/

namespace Sys2Proof.Machine

variable {s : State} {c : Inflater} {i : Instr} {base extra n : Nat}

/-! ### Length symbols (R223) -/

/-- A length symbol reads its extra bits, and a distance symbol comes next. -/
theorem litLenSymbol_length {sym : Nat} (hsym : 256 < sym) (hrow : lengthTable[sym - 257]? = some (base, extra)) :
    litLenSymbol sym = (bits extra >>= fun x => goTo (.dist (base + x))) := by
  rw [litLenSymbol, if_neg (by omega), if_neg (by omega), hrow]

/-- Settles O56: a row of R223 is the length table's row of its symbol, which reads the extra bits. -/
theorem lengthSymbolsRun : Obligations.LengthSymbolsRun := by
  unfold Obligations.LengthSymbolsRun
  intro i base extra hrow
  have ⟨henc, hsym, htable⟩ : encode i = ⟨.litLen, (encode i).bits⟩ ∧ 256 < (encode i).bits ∧
      lengthTable[(encode i).bits - 257]? = some (base, extra) := by
    generalize hp : (i, base, extra) = row at hrow
    fin_cases hrow <;> cases hp <;> exact ⟨rfl, by decide, rfl⟩
  intro s c hat
  have hruns := runsAction_litLen henc
  rw [litLenSymbol_length hsym htable] at hruns
  refine ⟨fun hx => hruns.fails hat (x := .truncated) ?_, fun hx => hruns.inflates hat ?_ rfl rfl⟩
  · rw [Inf.bind_eq, bits_of_not_hasExtra hx]
  · rw [Inf.bind_eq, bits_of_hasExtra hx]
    rfl

/-! ### Distance symbols (R225, R226, R228) -/

/-- A distance symbol reads its extra bits, and the copy is made. -/
theorem distSymbol_eq {sym : Nat} (hrow : distTable[sym]? = some (base, extra)) (n : Nat) :
    distSymbol sym n = (bits extra >>= fun x => copyBack n (base + x) >>= fun _ => goTo .litLen) := by
  rw [distSymbol, hrow]

/-- A copy from not beyond the output appends bytes that are each the byte that distance back (R228). -/
theorem copyBack_ok {dist : Nat} (h0 : 0 < dist) (h : dist ≤ c.hist.length) (n : Nat) :
    ∃ copied, copied.length = n ∧
      (∀ j, j < n → copied[j]? = (c.hist.reverse ++ copied)[c.hist.length + j - dist]?) ∧
      copyBack n dist c = .ok ((), c.pushAll copied) := by
  obtain ⟨copied, hlen, hcopy⟩ := copyBytes_eq_pushAll n dist c
  refine ⟨copied, hlen, fun j hj => ?_, ?_⟩
  · have hback := copyBytes_getElem h0 h hj
    rw [hcopy, Inflater.pushAll_hist, List.reverse_append, List.reverse_reverse] at hback
    rw [← hback, List.getElem?_append_right (by rw [List.length_reverse]; omega), List.length_reverse,
      Nat.add_sub_cancel_left]
  · rw [copyBack, if_neg (Nat.not_lt.2 h), hcopy]

/-- Settles O57: a row of R226 is the distance table's row of its symbol, which reads the extra bits and copies. -/
theorem distanceSymbolsRun : Obligations.DistanceSymbolsRun := by
  unfold Obligations.DistanceSymbolsRun
  intro i base extra hrow
  have ⟨henc, htable, hbase⟩ : encode i = ⟨.dist, (encode i).bits⟩ ∧
      distTable[(encode i).bits]? = some (base, extra) ∧ 0 < base := by
    generalize hp : (i, base, extra) = row at hrow
    fin_cases hrow <;> cases hp <;> exact ⟨rfl, rfl, by decide⟩
  intro s c n hat dist
  have hruns := runsAction_dist henc n
  rw [distSymbol_eq htable] at hruns
  refine ⟨fun hx => hruns.fails hat (x := .truncated) ?_, fun hx hle => ?_,
    fun hx hlt => hruns.fails hat (x := .badDistance) ?_⟩
  · rw [Inf.bind_eq, bits_of_not_hasExtra hx]
  · obtain ⟨copied, hlen, hback, hcopy⟩ :=
      copyBack_ok (c := { c with pos := c.pos + extra }) (dist := dist) (by omega) hle n
    refine ⟨copied, hlen, hback, hruns.inflates hat ?_ rfl rfl⟩
    rw [Inf.bind_eq, bits_of_hasExtra hx]
    simp only
    rw [Inf.bind_eq, hcopy]
    rfl
  · rw [Inf.bind_eq, bits_of_hasExtra hx]
    simp only
    rw [Inf.bind_eq, copyBack, if_pos hlt]

/-! ### Code-length symbols (R214) -/

/-- A code-length symbol that is `base` and more copies of v, the extra bits said: a length, a repeat of the last, zeros. -/
def RepeatsLength (i : Instr) (c : Inflater) (base extra v : Nat) : Prop :=
  (i = .clLen v ∧ v ≤ 15 ∧ base = 1 ∧ extra = 0) ∨
    (i = .clRep16 ∧ c.lens.getLast? = some v ∧ base = 3 ∧ extra = 2) ∨
    (i = .clRep17 ∧ v = 0 ∧ base = 3 ∧ extra = 3) ∨ (i = .clRep18 ∧ v = 0 ∧ base = 11 ∧ extra = 7)

/-- Such a symbol reads its extra bits, then appends. -/
theorem clSymbol_eq {v : Nat} (h : RepeatsLength i c base extra v) : ∃ sym, encode i = ⟨.cl, sym⟩ ∧
    clSymbol sym c = (bits extra >>= fun x => pushLengths (base + x) v) c := by
  rcases h with ⟨rfl, hv, rfl, rfl⟩ | ⟨rfl, hlast, rfl, rfl⟩ | ⟨rfl, rfl, rfl, rfl⟩ | ⟨rfl, rfl, rfl, rfl⟩
  · refine ⟨v, rfl, ?_⟩
    rw [clSymbol, if_pos hv]
    rfl
  · refine ⟨16, rfl, ?_⟩
    rw [clSymbol, if_neg (by decide), if_pos rfl, Inf.bind_eq, previousLength, hlast]
  · exact ⟨17, rfl, rfl⟩
  · exact ⟨18, rfl, rfl⟩

section
variable {r v : Nat} {lens : List Nat} (hlens : lens = c.lens ++ List.replicate r v)
include hlens

theorem pushLengths_more (h : lens.length < c.total) : pushLengths r v c = .ok ((), { c with lens := lens }) := by
  subst hlens
  rw [pushLengths_eq]
  simp only [if_neg (Nat.lt_asymm h), if_pos h]

theorem pushLengths_tooMany (h : c.total < lens.length) : pushLengths r v c = .error .badCodeLengths := by
  subst hlens
  rw [pushLengths_eq]
  simp only [if_pos h]

theorem pushLengths_badCode (h : lens.length = c.total) (hbad : (lens.take c.nlit).getD 256 0 = 0 ∨
      buildCode (lens.take c.nlit) .lens = none ∨ buildCode (lens.drop c.nlit) .dists = none) :
    pushLengths r v c = .error .badCodeLengths := by
  subst hlens
  rw [pushLengths_eq]
  simp only [h, Nat.lt_irrefl, if_false]
  split_ifs with h0
  · rfl
  · rcases hbad with hbad | hbad | hbad
    · exact absurd hbad h0
    · simp only [hbad]
    · rw [hbad]
      split <;> simp_all

theorem pushLengths_whole (h : lens.length = c.total) {lit dist : List HuffEntry}
    (h0 : (lens.take c.nlit).getD 256 0 ≠ 0) (hlit : buildCode (lens.take c.nlit) .lens = some lit)
    (hdist : buildCode (lens.drop c.nlit) .dists = some dist) :
    pushLengths r v c = .ok ((), { c with lens := lens, lit := lit, dist := dist, phase := .litLen }) := by
  subst hlens
  rw [pushLengths_eq]
  simp only [h, Nat.lt_irrefl, if_false, if_neg h0, hlit, hdist]

end

/-- Settles O58: a repeat with nothing before it fails at once; else the extra bits are read and the lengths appended. -/
theorem codeLengthSymbolsRun : Obligations.CodeLengthSymbolsRun := by
  unfold Obligations.CodeLengthSymbolsRun
  intro s c hat
  refine ⟨fun hnil => (runsAction_cl rfl).fails hat (x := .badCodeLengths) ?_, ?_⟩
  · rw [clSymbol, if_neg (by decide), if_pos rfl, Inf.bind_eq, previousLength, hnil]
    rfl
  intro i base extra v hi
  obtain ⟨sym, henc, hsym⟩ := clSymbol_eq (show RepeatsLength i c base extra v from hi)
  have hruns := runsAction_cl henc
  refine ⟨fun hx => hruns.fails hat (x := .truncated) ?_, fun hx => ?_⟩
  · rw [hsym, Inf.bind_eq, bits_of_not_hasExtra hx]
  intro lens c' litlens distlens
  replace hsym : clSymbol sym c =
      pushLengths (base + streamBits c.src c.pos extra) v { c with pos := c.pos + extra } := by
    rw [hsym, Inf.bind_eq, bits_of_hasExtra hx]
  refine ⟨fun h => hruns.inflates hat ?_ rfl rfl, fun h => hruns.fails hat (x := .badCodeLengths) ?_,
    fun h => ⟨fun hbad => hruns.fails hat (x := .badCodeLengths) ?_,
      fun lit dist h0 hlit hdist => hruns.inflates hat ?_ rfl rfl⟩⟩
  · exact hsym.trans (pushLengths_more rfl h)
  · exact hsym.trans (pushLengths_tooMany rfl h)
  · exact hsym.trans (pushLengths_badCode rfl h hbad)
  · exact hsym.trans (pushLengths_whole (c := { c with pos := c.pos + extra }) rfl h h0 hlit hdist)

end Sys2Proof.Machine
end

section
/-! PROOF. The block types, each run by itself (40_inflate.md R205, R207, R209 to R213), the Huffman codes (R215 to R217),
and that a turn of a running stream is its item's run (log 17). -/

namespace Sys2Proof.Machine

variable {s : State} {c c1 c' : Inflater} {i : Instr} {p : InfPhase} {act : Inf Unit} {v : Nat} {f : Format}

/-! ### Stored and fixed blocks (R209, R210) -/

/-- Settles O53: the fixed codes are R209's, and a stored block has the four outcomes of `storedBlock`. -/
theorem storedAndFixedBlocksRun : Obligations.StoredAndFixedBlocksRun := by
  unfold Obligations.StoredAndFixedBlocksRun
  refine ⟨⟨fixedLit_eq, fixedDist_eq⟩, rfl, rfl, fun s c hat => ⟨?_, ?_⟩⟩
  · exact (runsAction_btype rfl).inflates hat rfl rfl rfl
  intro p len agree bytes
  have hruns : RunsAction .btypeStored .block (blockType 0) := runsAction_btype rfl
  have hdrop : p / 8 + 4 = (c.pos + 7) / 8 + 4 := by omega
  refine ⟨fun h => ?_, fun h ha => ?_, fun h ha hl => ?_, fun hl ha => ?_⟩
  · exact hruns.fails hat (storedBlock_truncated_head rfl h)
  · exact hruns.fails hat (storedBlock_badStoredLen rfl h ha)
  · exact hruns.fails hat (storedBlock_truncated rfl h ha hl)
  · refine hruns.inflates hat ((storedBlock_ok rfl hl ha).trans ?_) rfl rfl
    simp only [bytes, hdrop]
    rfl

/-! ### The header of a dynamic block (R211 to R213) -/

/-- HLIT, HDIST or HCLEN is not there: TRUNCATED. -/
theorem dynamicHeader_truncated (h : ¬ hasBits c.src c.pos 14) : dynamicHeader c = .error .truncated := by
  unfold dynamicHeader
  by_cases h1 : hasBits c.src c.pos 5
  · rw [bits_bind h1]
    by_cases h2 : hasBits c.src (c.pos + 5) 5
    · rw [bits_bind (c := { c with pos := c.pos + 5 }) h2]
      exact bits_bind_truncated (c := { c with pos := c.pos + 5 + 5 }) (by decide) (by simp only [hasBits] at *; omega) _
    · exact bits_bind_truncated (c := { c with pos := c.pos + 5 }) (by decide) h2 _
  · exact bits_bind_truncated (by decide) h1 _

section
variable {hlit hdist nclen : Nat} (h14 : hasBits c.src c.pos 14) (hl : hlit = streamBits c.src c.pos 5)
  (hd : hdist = streamBits c.src (c.pos + 5) 5) (hn : nclen = streamBits c.src (c.pos + 10) 4 + 4)
include h14 hl hd hn

/-- With HLIT, HDIST and HCLEN there, the counts are checked and the code-length-code lengths read. -/
theorem dynamicHeader_eq : dynamicHeader c = if 29 < hlit ∨ 29 < hdist then .error .badCodeCounts else
    (readClLengths (clOrder.take nclen) (List.replicate 19 0) >>= fun clen =>
      match buildCode clen .codes with
      | none => Inf.fail .badCodeLengths
      | some cl => beginCodeLengths cl (hlit + 257) (hdist + 1)) { c with pos := c.pos + 14 } := by
  have h1 : hasBits c.src c.pos 5 := by simp only [hasBits] at *; omega
  have h2 : hasBits c.src (c.pos + 5) 5 := by simp only [hasBits] at *; omega
  have h3 : hasBits c.src (c.pos + 5 + 5) 4 := by simp only [hasBits] at *; omega
  have hcounts : (286 < hlit + 257 ∨ 30 < hdist + 1) ↔ (29 < hlit ∨ 29 < hdist) := by omega
  unfold dynamicHeader
  rw [bits_bind h1, bits_bind (c := { c with pos := c.pos + 5 }) h2, bits_bind (c := { c with pos := c.pos + 5 + 5 }) h3]
  simp only [Nat.add_assoc, Nat.reduceAdd, ← hl, ← hd, ← hn, hcounts]
  split_ifs <;> rfl

end

theorem length_clOrder : clOrder.length = 19 := rfl

/-- The code-length-code lengths that are read (R212), nclen of them in the order of `clOrder`, the rest 0. -/
theorem readClLengths_take {nclen : Nat} (hn : nclen ≤ 19) (h : hasBits c.src c.pos (3 * nclen)) :
    ∃ clen, clen.length = 19 ∧
      (∀ k sym, clOrder[k]? = some sym → clen.getD sym 0 = if k < nclen then streamBits c.src (c.pos + 3 * k) 3 else 0) ∧
      readClLengths (clOrder.take nclen) (List.replicate 19 0) c = .ok (clen, { c with pos := c.pos + 3 * nclen }) := by
  have hlen : (clOrder.take nclen).length = nclen := by rw [List.length_take, length_clOrder]; omega
  have hnodup : clOrder.Nodup := by decide
  have hlt : ∀ k ∈ clOrder, k < 19 := by decide
  obtain ⟨clen, hread, hsize, hin, hout⟩ := (readClLengths_cases (clen := List.replicate 19 0)).2 (by rw [hlen]; exact h)
    (hnodup.sublist (List.take_sublist _ _))
    (fun k hk => by rw [List.length_replicate]; exact hlt k (List.mem_of_mem_take hk))
  rw [hlen] at hread
  refine ⟨clen, hsize.trans (List.length_replicate ..), fun k sym hk => ?_, hread⟩
  split_ifs with hkn
  · exact hin k sym (by rw [List.getElem?_take_of_lt hkn, hk])
  · have hdrop : sym ∈ clOrder.drop nclen :=
      List.mem_of_getElem? (i := k - nclen) (by rw [List.getElem?_drop, Nat.add_sub_cancel' (Nat.not_lt.1 hkn), hk])
    rw [hout sym fun htake => List.disjoint_take_drop hnodup le_rfl htake hdrop, List.getD_eq_getElem?_getD,
      List.getElem?_replicate]
    split_ifs <;> rfl

section
variable {hlit hdist nclen : Nat} (h14 : hasBits c.src c.pos 14) (hl : hlit = streamBits c.src c.pos 5)
  (hd : hdist = streamBits c.src (c.pos + 5) 5) (hn : nclen = streamBits c.src (c.pos + 10) 4 + 4) (hl29 : hlit ≤ 29)
  (hd29 : hdist ≤ 29)
include h14 hl hd hn hl29 hd29

/-- With counts that pass, a code-length-code length that is not there is TRUNCATED. -/
theorem dynamicHeader_truncated_lengths (h : ¬ hasBits c.src c.pos (14 + 3 * nclen)) :
    dynamicHeader c = .error .truncated := by
  have hn19 : nclen ≤ 19 := by have := streamBits_lt c.src (c.pos + 10) 4; omega
  have hlen : (clOrder.take nclen).length = nclen := by rw [List.length_take, length_clOrder]; omega
  rw [dynamicHeader_eq h14 hl hd hn, if_neg (by omega), Inf.bind_eq]
  rcases (readClLengths_cases (order := clOrder.take nclen) (clen := List.replicate 19 0)
    (c := { c with pos := c.pos + 14 })).1 (by rw [hlen]; simp only [hasBits] at *; omega) with ht | hnil
  · rw [ht]
  · rw [hnil, List.length_nil] at hlen
    omega

/-- With all of the header there, the code its lengths give reads the code lengths next; BAD_CODE_LENGTHS if they give
none. -/
theorem dynamicHeader_lengths (h : hasBits c.src c.pos (14 + 3 * nclen)) : ∃ clen, clen.length = 19 ∧
    (∀ k sym, clOrder[k]? = some sym →
      clen.getD sym 0 = if k < nclen then streamBits c.src (c.pos + 14 + 3 * k) 3 else 0) ∧
    dynamicHeader c = match buildCode clen .codes with
      | none => .error .badCodeLengths
      | some cl => .ok ((), { c with
          pos := c.pos + 14 + 3 * nclen
          cl := cl, lens := [], nlit := hlit + 257, total := hlit + 257 + (hdist + 1), phase := .codeLen }) := by
  have hn19 : nclen ≤ 19 := by have := streamBits_lt c.src (c.pos + 10) 4; omega
  obtain ⟨clen, hsize, hlens, hread⟩ := readClLengths_take (c := { c with pos := c.pos + 14 }) hn19
    (by simp only [hasBits] at *; omega)
  refine ⟨clen, hsize, hlens, ?_⟩
  rw [dynamicHeader_eq h14 hl hd hn, if_neg (by omega), Inf.bind_eq, hread]
  cases hcode : buildCode clen .codes with
  | none => simp only [hcode, Inf.fail_eq]
  | some cl =>
    simp only [hcode]
    rfl

end

/-! ### Codes (R215 to R217) -/

theorem huffmanCodes_holds : huffmanCodes :=
  ⟨fun _ _ h => ⟨buildCode_eq_none h, fun _ => buildCode_eq_some h⟩, fun _ => rfl, fun _ _ _ hn hne hb h =>
    ⟨decodeSymbol_truncated hn hne hb h, fun hnext => decodeSymbol_next hn hne hnext h⟩⟩

/-! ### A turn is its item's run (log 17) -/

/-- The failures of R247's table, in its order. -/
def InfFail.table : List InfFail :=
  [.truncated, .badCm, .badCinfo, .badFcheck, .fdict, .badBtype, .badStoredLen, .badCodeCounts, .badCodeLengths, .badSymbol,
    .badDistance, .badAdler]

theorem InfFail.table_code (x : InfFail) : InfFail.table[x.code - 1]? = some x := by cases x <;> rfl

theorem InfFail.code_le (x : InfFail) : x.code ≤ 12 := by cases x <;> decide

/-- ERR_INFO tells the failures apart. -/
theorem InfFail.eq_of_info {x y : InfFail} (h : BitVec.ofNat 32 x.code = BitVec.ofNat 32 y.code) : x = y := by
  have hx := x.code_le
  have hy := y.code_le
  have hcode : x.code = y.code := by
    have := congrArg BitVec.toNat h
    simp only [BitVec.toNat_ofNat] at this
    omega
  have := x.table_code
  rw [hcode, y.table_code] at this
  exact (Option.some.inj this).symm

theorem failsWith_info {x y : Nat} (hx : failsWith i s x) (hy : failsWith i s y) :
    BitVec.ofNat 32 x = BitVec.ofNat 32 y := by
  obtain ⟨m, r, k, hx, -⟩ := hx
  obtain ⟨m', r', k', hy, -⟩ := hy
  exact congrArg (fun t => t.ctl.errInfo) (Host.Outcome.next.inj (hx.symm.trans hy))

/-- An item that goes on keeps its command pending, so it does not fail. -/
theorem not_failsWith_of_next (hw : s.pending.isSome = true) {m : Memory} {u : Transient}
    (h : exec i s = .next { s with mem := m, unit := u }) (x : Nat) : ¬ failsWith i s x := by
  rintro ⟨m', r, k, hx, -⟩
  have := congrArg State.pending (Host.Outcome.next.inj (h.symm.trans hx))
  rw [show s.pending = none from this] at hw
  cases hw

/-- A turn that is the item's action goes on and fails as the item does. -/
theorem RunsAction.turn_iff (hr : RunsAction i p act) (hat : inflaterAt s c1 p) (hturn : turn c = act c1) :
    (∀ c', turn c = .ok ((), c') ↔ ∃ mem, exec i s = .next { s with mem := mem, unit := .inflating c' }) ∧
    ∀ x, turn c = .error x ↔ failsWith i s x.code := by
  rw [hturn]
  have ⟨hw, _⟩ := hat
  cases h : act c1 with
  | ok r =>
    obtain ⟨⟨⟩, d⟩ := r
    have hnext := hr.next_of_ok hat h
    refine ⟨fun c' => ⟨?_, ?_⟩, fun x => ⟨nofun, fun hx => absurd hx (not_failsWith_of_next hw hnext _)⟩⟩
    · rintro ⟨⟩
      exact ⟨_, hnext⟩
    · rintro ⟨m, hm⟩
      have hunit := congrArg State.unit (Host.Outcome.next.inj (hnext.symm.trans hm))
      rw [Transient.inflating.inj hunit]
  | error y =>
    have hfail := hr.fails hat h
    refine ⟨fun c' => ⟨nofun, fun ⟨m, hm⟩ => absurd hfail (not_failsWith_of_next hw hm _)⟩, fun x => ⟨?_, fun hx => ?_⟩⟩
    · rintro ⟨⟩
      exact hfail
    · rw [InfFail.eq_of_info (failsWith_info hfail hx)]

theorem turnsRunItems_holds : turnsRunItems := by
  intro c c1 f v i s hread hdec hat
  have henc := (encodeOfDecode f v i hdec).2
  rcases hread with ⟨rfl, hc, h3, rfl, hc1⟩ | ⟨rfl, hc, hsym⟩ | ⟨rfl, hc, hsym⟩ | ⟨rfl, ⟨n, hc⟩, hsym⟩ <;> rw [hc] at hat
  · exact (runsAction_btype henc).turn_iff hat ((turn_block hc).trans ((nextBlock_eq h3).trans (by rw [hc1])))
  · exact (runsAction_cl henc).turn_iff hat ((turn_codeLen hc).trans (readAndRun_eq hsym _))
  · exact (runsAction_litLen henc).turn_iff hat ((turn_litLen hc).trans (readAndRun_eq hsym _))
  · exact (runsAction_dist henc n).turn_iff hat ((turn_dist hc).trans (readAndRun_eq hsym _))

/-- Settles O54: the outcomes of `dynamicHeader`, the codes, and that a turn is its item's action. -/
theorem dynamicBlockRuns : Obligations.DynamicBlockRuns := by
  unfold Obligations.DynamicBlockRuns
  refine ⟨rfl, huffmanCodes_holds, turnsRunItems_holds, ?_⟩
  intro s c hat hlit hdist nclen
  have hruns : RunsAction .btypeDynamic .block (blockType 2) := runsAction_btype rfl
  refine ⟨fun h => hruns.fails hat (x := .truncated) (dynamicHeader_truncated h),
    fun h14 hbad => hruns.fails hat (x := .badCodeCounts) ?_, fun h14 hl29 hd29 => ⟨fun h => ?_, fun h => ?_⟩⟩
  · exact (dynamicHeader_eq h14 rfl rfl rfl).trans (if_pos hbad)
  · exact hruns.fails hat (x := .truncated) (dynamicHeader_truncated_lengths h14 rfl rfl rfl hl29 hd29 h)
  · obtain ⟨clen, hsize, hlens, hrun⟩ := dynamicHeader_lengths h14 rfl rfl rfl hl29 hd29 h
    refine ⟨clen, hsize, hlens, fun hnone => hruns.fails hat (x := .badCodeLengths) ?_, fun cl hcl =>
      hruns.inflates hat ?_ rfl rfl⟩
    · exact hrun.trans (by rw [hnone])
    · exact hrun.trans (by rw [hcl])

end Sys2Proof.Machine
end

section
/-! PROOF. The filters (41_unfilter.md R274 to R280, R286): the Paeth predictor picks the nearest neighbour, and a scanline
has exactly one reconstruction, which for a forward-filtered row is the row. -/

namespace Sys2Proof.Machine

variable {f bpp : Nat} {flt prev row row' : List Byte}

/-! ### The prediction (R275) -/

theorem paethPredictor_mem (a b c : Nat) : paethPredictor a b c ∈ [a, b, c] := by
  unfold paethPredictor
  simp only
  split_ifs <;> simp

/-- Settles O30: the first three clauses are the predictor's branches, and what a branch picks is the nearest by its
condition and those of the branches before it. -/
theorem paethPicksNearest : Obligations.PaethPicksNearest := by
  unfold Obligations.PaethPicksNearest
  intro a b c p near
  have hval : paethPredictor a b c = if near a b ∧ near a c then a else if near b c then b else c := rfl
  refine ⟨fun ha => by rw [hval, if_pos ha], fun ha hb => by rw [hval, if_neg ha, if_pos hb],
    fun ha hb => by rw [hval, if_neg ha, if_neg hb], ?_, paethPredictor_mem a b c, fun ha hb hc => ?_⟩
  · rw [hval]
    simp only [List.forall_mem_cons, List.not_mem_nil, false_imp_iff, implies_true, and_true]
    split_ifs with ha hb
    · exact ⟨le_rfl, ha⟩
    · exact ⟨by omega, le_rfl, hb⟩
    · exact ⟨by omega, by omega, le_rfl⟩
  · simp only [List.forall_mem_cons, List.not_mem_nil, false_imp_iff, implies_true, and_true]
    omega

/-- A prediction from bytes is a byte. -/
theorem predicted_lt {a b c : Nat} (ha : a < 256) (hb : b < 256) (hc : c < 256) : predicted f a b c < 256 := by
  unfold predicted
  split
  · decide
  · exact ha
  · exact hb
  · omega
  · have h := paethPredictor_mem a b c
    simp only [List.mem_cons, List.not_mem_nil, or_false] at h
    omega

theorem neighbour_lt (row : List Byte) (bpp i : Nat) : neighbour row bpp i < 256 := by
  unfold neighbour
  split_ifs
  · decide
  · exact rowByte_lt row _

/-! ### The reconstruction (R274, R286) -/

/-- Rows of one length with the same bytes are the same row. -/
theorem eq_of_rowByte_eq (hlen : row.length = row'.length) (h : ∀ i, i < row.length → rowByte row i = rowByte row' i) :
    row = row' := by
  refine List.ext_getElem hlen fun i hi hi' => BitVec.eq_of_toNat_eq ?_
  have hbyte := h i hi
  unfold rowByte at hbyte
  rwa [List.getD_eq_getElem _ _ hi, List.getD_eq_getElem _ _ hi'] at hbyte

/-- The left neighbour is determined by the bytes before. -/
theorem neighbour_congr {i : Nat} (hb : 1 ≤ bpp) (h : ∀ j, j < i → rowByte row j = rowByte row' j) :
    neighbour row bpp i = neighbour row' bpp i := by
  unfold neighbour
  split_ifs
  · rfl
  · exact h _ (by omega)

/-- A scanline has at most one reconstruction: each byte follows from the bytes before it. -/
theorem reconstructs_unique (hb : 1 ≤ bpp) (h : reconstructs f bpp flt prev row)
    (h' : reconstructs f bpp flt prev row') : row = row' := by
  obtain ⟨hlen, hbyte⟩ := h
  obtain ⟨hlen', hbyte'⟩ := h'
  have heq : ∀ i, i < flt.length → rowByte row i = rowByte row' i := by
    intro i
    induction i using Nat.strong_induction_on with
    | _ i ih =>
      intro hi
      rw [hbyte i hi, hbyte' i hi, neighbour_congr hb fun j hj => ih j hj (by omega)]
  exact eq_of_rowByte_eq (hlen.trans hlen'.symm) fun i hi => heq i (hlen ▸ hi)

@[simp] theorem length_forwardFilter (f bpp : Nat) (row prev : List Byte) :
    (forwardFilter f bpp row prev).length = row.length := by simp [forwardFilter]

theorem rowByte_forwardFilter (f bpp : Nat) (prev : List Byte) {i : Nat} (hi : i < row.length) :
    rowByte (forwardFilter f bpp row prev) i =
      (rowByte row i + 256 - predicted f (neighbour row bpp i) (rowByte prev i) (neighbour prev bpp i)) % 256 := by
  rw [rowByte, List.getD_eq_getElem _ _ (by simpa using hi)]
  simp [forwardFilter]

/-- A row is the reconstruction of its forward-filtered row: modulo 256, adding the prediction undoes subtracting it. -/
theorem reconstructs_forwardFilter (f bpp : Nat) (row prev : List Byte) :
    reconstructs f bpp (forwardFilter f bpp row prev) prev row := by
  refine ⟨(length_forwardFilter f bpp row prev).symm, fun i hi => ?_⟩
  rw [rowByte_forwardFilter f bpp prev (by simpa using hi)]
  have hpred := predicted_lt (f := f) (neighbour_lt row bpp i) (rowByte_lt prev i) (neighbour_lt prev bpp i)
  have hbyte := rowByte_lt row i
  omega

/-- Settles O31: the FSM ends in DONE with a reconstruction of the filtered row, and the row is the only one. -/
theorem unfilterInvertsFilter : Obligations.UnfilterInvertsFilter := by
  unfold Obligations.UnfilterInvertsFilter
  intro f bpp y raw prev hf hbpp _ m
  have hb : 1 ≤ bpp := by
    simp only [List.mem_cons, List.not_mem_nil, or_false] at hbpp
    omega
  obtain ⟨out, hdone, hout⟩ := m.filtered_done hf hb
  rw [hdone]
  exact ⟨rfl, reconstructs_unique hb hout (reconstructs_forwardFilter f bpp raw prev)⟩

end Sys2Proof.Machine
end

section
/-! PROOF. UNFILTER_ROW, and the errors of the two row commands (41_unfilter.md R281, R284, R285, 42_unpack.md R312): both
rules are a list of checks, a region check and the work on the row. -/

namespace Sys2Proof.Machine

variable {s : State} {cs : List Check} {rs : State → List Region} {body : State → Ended} {e : ErrorKind}
  {opc : Byte}

/-! ### A rule of checks, a region check and a body (R453) -/

/-- Checks in order, the region check, then the body. -/
def State.guarded (cs : List Check) (rs : State → List Region) (body : State → Ended) (s : State) : Ended :=
  (s.checked cs).andThen fun t => (checkRegions (rs t) t).andThen body

theorem State.complete_guarded_checkFails {n : Nat} (h : firstError cs = some (e, n)) :
    complete opc (s.guarded cs rs body) = .next (takeError opc e (BitVec.ofNat 32 n) s) := by
  rw [State.guarded, State.checked_of_some h]
  rfl

theorem State.complete_guarded_regionError {n : Word} (h : firstError cs = none)
    (hr : checkRegions (rs s) s = .raised e n s) :
    complete opc (s.guarded cs rs body) = .next (takeError opc e n s) := by
  rw [State.guarded, State.checked_of_none h, Ended.andThen_ok, hr]
  rfl

theorem State.guarded_pass (h : firstError cs = none) (hr : regionsPass s.par (rs s)) : s.guarded cs rs body = body s := by
  rw [State.guarded, State.checked_of_none h, Ended.andThen_ok, checkRegions_ok_iff.2 hr, Ended.andThen_ok]

theorem exec_unfilterRow_eq_guarded (s : State) : exec .unfilterRow s =
    complete 0x04 (s.guarded (s.configChecks ++ s.inflatedChecks ++ s.rowCheck) unfilterRegionList
      fun t => unfilterRow t.rowOperand t) := by
  rw [State.guarded, ← unfilterChecks_eq_checked]
  rfl

theorem exec_unpackRow_eq_guarded (s : State) : exec .unpackRow s =
    complete 0x05 (s.guarded (s.configChecks ++ s.rowCheck) unpackRegionList fun t => unpackRow t.rowOperand t) := by
  rw [State.guarded, ← unpackChecks_eq_checked]
  rfl

/-- A selector above 4 is no filter (R281). -/
theorem unfilterRow_unknownFilter {y : Nat} (h : 4 < (s.mem.readByte (s.infRow y)).toNat) :
    unfilterRow y s = .raised .unknownFilter (BitVec.ofNat 32 y) s := by
  rw [unfilterRow, FilterFsm.filtered_fail _ h]
  rfl

/-! ### The commands (R281, R284, R285, R312) -/

/-- Settles O32: the checks and the region check pass, and UnfilterRow writes the reconstruction. -/
theorem unfilterRowSucceeds : Obligations.UnfilterRowSucceeds := by
  unfold Obligations.UnfilterRowSucceeds
  refine ⟨rfl, fun s hmem hb hchecks hregions hf => ?_⟩
  obtain ⟨hbad, -⟩ | ⟨-, raw, hrow, hraw⟩ := unfilterRow_cases s.rowOperand s hb
  · exact absurd hf (Nat.not_le.2 hbad)
  · refine ⟨s.mem.write (s.rawRow s.rowOperand) raw, raw, ?_, hraw, Memory.storesAt_write hmem.1 _ _⟩
    rw [exec_unfilterRow_eq_guarded, State.guarded_pass hchecks hregions, hrow]
    rfl

/-- Settles O33: the first failing check, else the region error, else (UNFILTER_ROW only) the selector decides. -/
theorem rowCommandsFail : Obligations.RowCommandsFail := by
  unfold Obligations.RowCommandsFail
  refine ⟨fun s => ⟨fun e n h => ?_, fun h => ⟨fun e n hr => ?_, fun hr hf => ?_⟩⟩,
    fun s => ⟨fun e n h => ?_, fun h e n hr => ?_⟩⟩
  · exact (exec_unfilterRow_eq_guarded s).trans (State.complete_guarded_checkFails h)
  · exact (exec_unfilterRow_eq_guarded s).trans (State.complete_guarded_regionError h hr)
  · rw [exec_unfilterRow_eq_guarded, State.guarded_pass h hr, State.rowOperand, unfilterRow_unknownFilter hf,
      BitVec.ofNat_toNat, BitVec.setWidth_eq]
    rfl
  · exact (exec_unpackRow_eq_guarded s).trans (State.complete_guarded_checkFails h)
  · exact (exec_unpackRow_eq_guarded s).trans (State.complete_guarded_regionError h hr)

end Sys2Proof.Machine
end

section
/-! PROOF. The pixel unpacker (42_unpack.md R303 to R313): UNPACK_ROW writes the records of its row, and a sample is made
of its own bits only, which lie before the padding. -/

namespace Sys2Proof.Machine

variable {row row' : List Byte} {ct c k bd w : Nat} {depths : List Nat}

/-! ### UNPACK_ROW (R301, R312, R313) -/

/-- The depths of a color model are those a header pair may have (R301); those below 8 come with one channel (R304). -/
theorem colorModels_depths : ∀ m ∈ colorModels, ∀ bd ∈ m.2.2.2,
    bd ∈ depthsOf m.1 ∧ bd ∈ [1, 2, 4, 8, 16] ∧ (bd < 8 → m.2.1 = 1) := by decide

/-- Settles O34: the checks and the region check pass, and the operation of the header pair writes the records. -/
theorem unpackRowSucceeds : Obligations.UnpackRowSucceeds := by
  unfold Obligations.UnpackRowSucceeds
  refine ⟨rfl, ?_⟩
  rintro s ct c k bd depths y sb w hmem hmodel hbd rfl rfl rfl hchecks hregions
  obtain ⟨hpair, hdepth, -⟩ := colorModels_depths _ hmodel _ hbd
  refine ⟨_, _, ?_, unpacksTo_rowRecords _ _ hdepth _ _, Memory.storesAt_write hmem.1 _ _⟩
  rw [exec_unpackRow_eq_guarded, State.guarded_pass hchecks hregions, unpackRow_ok _ s hpair, unpackWith, writeRecords,
    Unpacker.unpacked_out]
  rfl

/-! ### The bits of a row (R311) -/

/-- Bit j of a row, the most significant bit of byte 0 first (R311). -/
def rowBit (row : List Byte) (j : Nat) : Nat := rowByte row (j / 8) / 2 ^ (7 - j % 8) % 2

/-- The number in the n bits of a row from bit p on, which lie in one byte. -/
def rowField (row : List Byte) (p n : Nat) : Nat := rowByte row (p / 8) / 2 ^ (8 - (p % 8 + n)) % 2 ^ n

/-- A field is determined by its bits. -/
theorem rowField_congr {p n : Nat} (hp : p % 8 + n ≤ 8) (h : ∀ j, j < p + n → rowBit row j = rowBit row' j) :
    rowField row p n = rowField row' p n := by
  refine Nat.eq_of_testBit_eq fun i => ?_
  simp only [rowField, Nat.testBit_mod_two_pow, Nat.testBit_div_two_pow]
  by_cases hi : i < n
  · have hbit := h (p + n - 1 - i) (by omega)
    have hbyte : (p + n - 1 - i) / 8 = p / 8 := by omega
    have hplace : 7 - (p + n - 1 - i) % 8 = i + (8 - (p % 8 + n)) := by omega
    simp only [rowBit, hbyte, hplace] at hbit
    simp only [Nat.testBit_eq_decide_div_mod_eq, hbit]
  · simp only [hi, decide_false, Bool.false_and]

theorem rowByte_eq_rowField (row : List Byte) (i : Nat) : rowByte row i = rowField row (8 * i) 8 := by
  have hbyte := rowByte_lt row i
  simp only [rowField, Nat.mul_div_cancel_left i (by decide : 0 < 8), Nat.mul_mod_right]
  omega

/-- A pixel of a depth below 8 lies in one byte, and its shift is what the bits up to its end leave of that byte (R304). -/
theorem subByte_place (hbd : bd ∈ [1, 2, 4]) (x : Nat) :
    x * bd % 8 + bd ≤ 8 ∧ bd * (8 / bd - 1 - x % (8 / bd)) = 8 - (x * bd % 8 + bd) := by
  simp only [List.mem_cons, List.not_mem_nil, or_false] at hbd
  rcases hbd with rfl | rfl | rfl <;> omega

/-- A sample is determined by the bits of the row up to its end. -/
theorem sampleAt_congr {x : Nat} (hbd : bd ∈ [1, 2, 4, 8, 16]) (hc : bd < 8 → c = 1) (hk : k < c)
    (h : ∀ j, j < (x * c + k + 1) * bd → rowBit row j = rowBit row' j) :
    sampleAt row bd c x k = sampleAt row' bd c x k := by
  have hbyte (i : Nat) (hi : 8 * i + 8 ≤ (x * c + k + 1) * bd) : rowByte row i = rowByte row' i := by
    rw [rowByte_eq_rowField, rowByte_eq_rowField]
    exact rowField_congr (by omega) fun j hj => h j (by omega)
  rcases Nat.lt_trichotomy bd 8 with hlt | rfl | hgt
  · obtain rfl := hc hlt
    obtain rfl : k = 0 := by omega
    have hsub : bd ∈ [1, 2, 4] := (by decide : ∀ n ∈ [1, 2, 4, 8, 16], n < 8 → n ∈ [1, 2, 4]) bd hbd hlt
    obtain ⟨hfit, hshift⟩ := subByte_place hsub x
    simp only [sampleAt, if_pos hlt, hshift]
    exact rowField_congr hfit fun j hj => h j (by rwa [Nat.mul_one, Nat.add_zero, Nat.succ_mul])
  · exact hbyte _ (by omega)
  · obtain rfl : bd = 16 := (by decide : ∀ n ∈ [1, 2, 4, 8, 16], 8 < n → n = 16) bd hbd hgt
    change 256 * rowByte row _ + rowByte row _ = 256 * rowByte row' _ + rowByte row' _
    rw [hbyte _ (by omega), hbyte _ (by omega)]

/-! ### Records (R308 to R311) -/

/-- A record is determined by the samples of the pixel's channels. -/
theorem pixelFields_congr {x : Nat} (hmodel : (ct, c, k, depths) ∈ colorModels)
    (h : ∀ i, i < c → sampleAt row bd c x i = sampleAt row' bd c x i) :
    pixelFields row ct bd c x = pixelFields row' ct bd c x := by
  simp only [colorModels, List.mem_cons, Prod.mk.injEq, List.not_mem_nil, or_false] at hmodel
  rcases hmodel with ⟨rfl, rfl, -⟩ | ⟨rfl, rfl, -⟩ | ⟨rfl, rfl, -⟩ | ⟨rfl, rfl, -⟩ | ⟨rfl, rfl, -⟩ <;>
    simp [pixelFields, h]

/-- The records of a row are those of its pixels, one after another. -/
theorem rowRecords_eq_flatMap (row : List Byte) (hbd : bd ∈ [1, 2, 4, 8, 16]) (ct c x n : Nat) :
    rowRecords row ct bd c x n = (List.range' x n).flatMap fun i => recordBytes (pixelFields row ct bd c i) := by
  induction n generalizing x with
  | zero => rfl
  | succ n ih =>
    rw [rowRecords_succ, ih, Unpacker.record_eq (Unpacker.startAt_placed bd x _) ct c hbd, List.range'_succ,
      List.flatMap_cons]
    rfl

/-- Settles O35: each sample of the w pixels ends before bit w × (c × bd), so its bits agree. -/
theorem paddingBitsIgnored : Obligations.PaddingBitsIgnored := by
  unfold Obligations.PaddingBitsIgnored
  intro ct c k bd w depths row row' hmodel hbd hbits
  obtain ⟨-, hdepth, hone⟩ := colorModels_depths _ hmodel _ hbd
  rw [rowRecords_eq_flatMap row hdepth, rowRecords_eq_flatMap row' hdepth]
  refine List.flatMap_congr fun x hx => congrArg recordBytes (pixelFields_congr hmodel fun i hi => ?_)
  have hxw : x < w := by simpa using List.mem_range'.1 hx
  have hend : (x * c + i + 1) * bd ≤ w * (c * bd) := by
    calc (x * c + i + 1) * bd ≤ ((x + 1) * c) * bd := Nat.mul_le_mul_right bd (by rw [Nat.succ_mul]; omega)
      _ ≤ (w * c) * bd := Nat.mul_le_mul_right bd (Nat.mul_le_mul_right c hxw)
      _ = w * (c * bd) := Nat.mul_assoc w c bd
  exact sampleAt_congr hdepth hone hi fun j hj => hbits j (hj.trans_le hend)

end Sys2Proof.Machine
end

section
/-! PROOF. NOP, SIZE_CHECK and HDR_CHECK (43_decode_pipeline.md R330 to R339): the rules are their lists of checks, and what
the header check writes where its list passes. -/

namespace Sys2Proof.Machine

variable {s : State} {e : ErrorKind} {n : Nat}

/-! ### NOP and SIZE_CHECK (R330, R336, R337, R339) -/

theorem sizeCheckRule_eq_checked (s : State) : sizeCheckRule s = s.checked (s.configChecks ++ s.inflatedChecks) := by
  rw [sizeCheckRule, requireConfig_eq_checked, State.checked_andThen (requireInflated_eq_checked s)]

/-- Settles O23: NOP's rule is empty, SIZE_CHECK's is its list of checks. -/
theorem nopAndSizeCheck : Obligations.NopAndSizeCheck := by
  unfold Obligations.NopAndSizeCheck
  have hsize (s : State) : exec .sizeCheck s = complete 0x03 (s.checked (s.configChecks ++ s.inflatedChecks)) := by
    rw [← sizeCheckRule_eq_checked]
    rfl
  refine ⟨⟨rfl, fun s => rfl⟩, rfl, fun s => ⟨fun e n h => ?_, fun h => ?_⟩⟩
  · rw [hsize, State.checked_of_some h, complete_raised]
  · rw [hsize, State.checked_of_none h, complete_ok]

/-! ### The header check (R331 to R333) -/

/-- A header whose list of checks passes is checked with success. -/
theorem headerCheck_of_none (h : firstError (headerChecks s.hdr) = none) :
    headerCheck s = .ok { s with der := s.hdr.derived, ctl := { s.ctl with cfgValid := true } } := by
  rw [headerCheck_eq_checked, State.checked_of_none h, Ended.andThen_ok]

theorem headerCheck_of_some (h : firstError (headerChecks s.hdr) = some (e, n)) :
    headerCheck s = .raised e (BitVec.ofNat 32 n) s := by
  rw [headerCheck_eq_checked, State.checked_of_some h, Ended.andThen_raised]

theorem valid_of_headerChecks (h : firstError (headerChecks s.hdr) = none) : s.hdr.valid :=
  (headerCheck_eq_ok.1 (headerCheck_of_none h)).1

/-- The depths a header pair may have are those of a color model (R301). -/
theorem exists_colorModel {ct bd : Nat} (h : bd ∈ depthsOf ct) :
    ∃ c k depths, (ct, c, k, depths) ∈ colorModels ∧ bd ∈ depths := by
  match ct, h with
  | 0, h => exact ⟨1, 0, _, by decide, h⟩
  | 2, h => exact ⟨3, 1, _, by decide, h⟩
  | 3, h => exact ⟨1, 2, _, by decide, h⟩
  | 4, h => exact ⟨2, 1, _, by decide, h⟩
  | 6, h => exact ⟨4, 1, _, by decide, h⟩

/-- The derived registers of a header that passes, in the terms of its color model (R332). -/
theorem derived_toNat {ct c k bd : Nat} {depths : List Nat} (h : firstError (headerChecks s.hdr) = none)
    (hm : (ct, c, k, depths) ∈ colorModels) (hbd : bd ∈ depths) (hct : s.hdr.colorType.toNat = ct)
    (hdepth : s.hdr.bitDepth.toNat = bd) :
    let d := s.hdr.derived
    d.channels.toNat = c ∧ d.pixelBits.toNat = c * bd ∧ d.bpp.toNat = max 1 ((c * bd + 7) / 8) ∧
      d.scanlineBytes.toNat = rowBytes s.hdr.width.toNat c bd ∧
      d.expectedLen.toNat = s.hdr.height.toNat * (1 + rowBytes s.hdr.width.toNat c bd) ∧ d.pixKind.toNat = k := by
  subst hct hdepth
  obtain ⟨-, -, -, -, -, hheight, hlen, -⟩ := valid_of_headerChecks h
  have hch : channelsOf s.hdr.colorType.toNat = some c := (colorModels_rows _ hm).1
  rw [expectedLenOf_eq, hch] at hlen
  exact deriveRegs_toNat hm hbd (by bv_omega) hlen

/-- Settles O24: the list of checks decides, and where it passes the derived registers are those of the color model. -/
theorem headerCheckResult : Obligations.HeaderCheckResult := by
  unfold Obligations.HeaderCheckResult
  refine ⟨rfl, fun s => ⟨fun e n h => ?_, fun h => ?_⟩⟩
  · show complete 0x01 (headerCheck (clearCfgValid s)) = _
    rw [headerCheck_of_some (by exact h), complete_raised]
    rfl
  · obtain ⟨-, -, hpair, -⟩ := valid_of_headerChecks h
    obtain ⟨c, k, depths, hm, hbd⟩ := exists_colorModel hpair
    refine ⟨s.hdr.derived, c, k, ?_, ⟨depths, hm, hbd⟩, derived_toNat h hm hbd rfl rfl⟩
    show complete 0x01 (headerCheck (clearCfgValid s)) = _
    rw [headerCheck_of_none (by exact h), complete_ok]
    rfl

end Sys2Proof.Machine
end

section
/-! PROOF. DECODE up to its region check (43_decode_pipeline.md R338, R342, R343): a header error, an interlaced image and a
region error. -/

namespace Sys2Proof.Machine

variable {s : State} {e : ErrorKind}

/-- DECODE's state when it checks the header (R342). -/
def State.decodeStart (s : State) : State := clearCfgValid { clearInfOk s with rowsDone := 0 }

/-- DECODE's state when the header check has passed (R333, R342). -/
def State.headChecked (s : State) : State :=
  { s with rowsDone := 0, der := s.hdr.derived, ctl := { s.ctl with infOk := false, cfgValid := true } }

theorem decodeHead_of_none (h : firstError (headerChecks s.hdr) = none) :
    decodeHead s = bodyInterlace s.hdr.interlace.toNat s.headChecked := by
  have hcheck : headerCheck s.decodeStart = .ok s.headChecked := headerCheck_of_none h
  change (headerCheck s.decodeStart).andThen _ = _
  rw [hcheck, Ended.andThen_ok]
  rfl

theorem execDecode_headerError {n : Nat} (h : firstError (headerChecks s.hdr) = some (e, n)) :
    execDecode s = .next (takeError 0x06 e (BitVec.ofNat 32 n) s.decodeStart) := by
  have hcheck : headerCheck s.decodeStart = .raised e (BitVec.ofNat 32 n) s.decodeStart := headerCheck_of_some h
  have hhead : decodeHead s = .raised e (BitVec.ofNat 32 n) s.decodeStart := by
    change (headerCheck s.decodeStart).andThen _ = _
    rw [hcheck, Ended.andThen_raised]
  rw [execDecode, decodeRule, hhead, Ended.andThen_raised, complete_raised]

theorem execDecode_interlaced (h : firstError (headerChecks s.hdr) = none) (hi : s.hdr.interlace = 1) :
    execDecode s = .next (takeError 0x06 .unsupportedInterlace 1 s.headChecked) := by
  rw [execDecode, decodeRule, decodeHead_of_none h, hi]
  rfl

/-- Of an image that is not interlaced, what follows the header check is the region check and the body (R342). -/
theorem execDecode_of_none (h : firstError (headerChecks s.hdr) = none) (hi : s.hdr.interlace = 0) :
    execDecode s =
      complete 0x06 ((checkRegions (decodeRegionList s.headChecked) s.headChecked).andThen decodeBody) := by
  rw [execDecode, decodeRule, decodeHead_of_none h, hi]
  rfl

theorem execDecode_regionError {n : Word} (h : firstError (headerChecks s.hdr) = none) (hi : s.hdr.interlace = 0)
    (hr : checkRegions (decodeRegionList s.headChecked) s.headChecked = .raised e n s.headChecked) :
    execDecode s = .next (takeError 0x06 e n s.headChecked) := by
  rw [execDecode_of_none h hi, hr, Ended.andThen_raised, complete_raised]

/-- Settles O37: the header check, the interlace test and the region check of DECODE, each the first to fail. -/
theorem decodeRejects : Obligations.DecodeRejects := by
  unfold Obligations.DecodeRejects
  exact fun s => ⟨fun e n h => execDecode_headerError h, fun h hi => execDecode_interlaced h hi,
    fun h hi e n hr => execDecode_regionError h hi hr⟩

end Sys2Proof.Machine
end

section
/-! SUPPORT. The rows of an image in memory (20_memory.md R104, R111, 43_decode_pipeline.md R345): the rows share no byte with
one another or with the scanlines, so a row written stays while the rows after it are. -/

namespace Sys2Proof.Machine

variable {r q : Region} {rs : List Region} {m m' : Memory} {s : State} {y z k : Nat}

/-! ### Regions that share no byte, and memories that agree on a region (R111) -/

/-- Two regions share no byte. -/
def Region.apart (r q : Region) : Prop := ∀ x, ¬ (r.holds x = true ∧ q.holds x = true)

/-- Every byte of region r lies in region q. -/
def Region.inside (r q : Region) : Prop := q.base ≤ r.base ∧ r.base + r.len ≤ q.base + q.len

theorem Region.apart_of_le (h : r.base + r.len ≤ q.base) : r.apart q := by
  rintro x ⟨hr, hq⟩
  rw [Region.holds_iff] at hr hq
  omega

theorem Region.apart.symm (h : r.apart q) : q.apart r := fun x hx => h x hx.symm

theorem Region.apart.mono {r' q' : Region} (h : r.apart q) (hr : r'.inside r) (hq : q'.inside q) : r'.apart q' := by
  rintro x ⟨hr', hq'⟩
  rw [Region.holds_iff] at hr' hq'
  obtain ⟨hrlo, hrhi⟩ := hr
  obtain ⟨hqlo, hqhi⟩ := hq
  exact h x ⟨(r.holds_iff x).2 (by omega), (q.holds_iff x).2 (by omega)⟩

/-- Two memories read alike on a region. -/
def Memory.agrees (m m' : Memory) (r : Region) : Prop := ∀ x, r.holds x = true → m'.readByte x = m.readByte x

theorem Memory.keepsOutside.agrees (h : m.keepsOutside m' rs) (hr : ∀ q ∈ rs, r.apart q) : m.agrees m' r :=
  fun x hx => h x fun q hq _ => Bool.eq_false_iff.2 fun hqx => hr q hq x ⟨hx, hqx⟩

theorem Memory.agrees.readByte (h : m.agrees m' r) {a : Nat} (hlo : r.base ≤ a) (hhi : a < r.base + r.len) :
    m'.readByte a = m.readByte a := h a ((r.holds_iff a).2 ⟨hlo, hhi⟩)

theorem Memory.agrees.read (h : m.agrees m' r) {a n : Nat} (hlo : r.base ≤ a) (hhi : a + n ≤ r.base + r.len) :
    m'.read a n = m.read a n := by
  refine List.ext_getElem (by simp) fun i hi hi' => ?_
  rw [Memory.length_read] at hi
  rw [Memory.getElem_read, Memory.getElem_read, h.readByte (by omega) (by omega)]

/-- Bytes written are read back. -/
theorem Memory.read_write (hm : Sparse.sorted m) (a : Nat) (bytes : List Byte) :
    (m.write a bytes).read a bytes.length = bytes := by
  refine List.ext_getElem (by simp) fun i hi hi' => ?_
  rw [Memory.getElem_read, (Memory.storesAt_write hm a bytes).1 i hi', List.getD_eq_getElem _ _ hi']

/-- A write of a region's bytes leaves the rest. -/
theorem Memory.keepsOutside_write (hm : Sparse.sorted m) (hk : r.kind = .W) {bytes : List Byte}
    (hlen : bytes.length = r.len) : m.keepsOutside (m.write r.base bytes) [r] := by
  intro x hx
  have hout := hx r (List.mem_singleton_self r) hk
  rw [← Bool.not_eq_true, Region.holds_iff] at hout
  exact (Memory.storesAt_write hm r.base bytes).2 x (by omega)

/-! ### The rows of an image (R104) -/

/-- Scanline y in the INF buffer: its selector and its filtered bytes. -/
def State.scanline (s : State) (y : Nat) : Region := ⟨s.infRow y, 1 + s.der.scanlineBytes.toNat, .R⟩

/-- Row y of the RAW buffer. -/
def State.rawSpan (s : State) (y : Nat) : Region := ⟨s.rawRow y, s.der.scanlineBytes.toNat, .W⟩

/-- Row y of the PIX buffer. -/
def State.pixSpan (s : State) (y : Nat) : Region := ⟨s.pixRow y, 8 * s.hdr.width.toNat, .W⟩

/-- What DECODE's checks give its rows: a header pair of R301, a bpp of at least 1 (R272), scanlines that fit in INF (R341),
and an INF, a RAW and a PIX region that share no byte (R111). -/
structure State.RowsReady (s : State) : Prop where
  pair : s.hdr.bitDepth.toNat ∈ depthsOf s.hdr.colorType.toNat
  bpp : 1 ≤ s.der.bpp.toNat
  fits : s.hdr.height.toNat * (1 + s.der.scanlineBytes.toNat) ≤ s.buf.infCap.toNat
  apart : (s.infRegion :: s.imageRegions).Pairwise Region.apart

theorem State.RowsReady.scanline_inside (h : s.RowsReady) (hy : y < s.hdr.height.toNat) :
    (s.scanline y).inside s.infRegion := by
  have hrows := (Nat.mul_le_mul_right (1 + s.der.scanlineBytes.toNat) hy).trans h.fits
  rw [Nat.succ_mul] at hrows
  constructor <;> simp only [State.scanline, State.infRegion, State.infRow] <;> omega

/-- What row y of an image is written to. -/
def State.rowSpans (s : State) (y : Nat) : List Region := [s.rawSpan y, s.pixSpan y]

theorem State.rawSpan_inside (hy : y < s.hdr.height.toNat) :
    (s.rawSpan y).inside ⟨s.buf.rawAddr.toNat, s.hdr.height.toNat * s.der.scanlineBytes.toNat, .W⟩ :=
  ⟨Nat.le_add_right _ _, (s.row_in_image hy).1⟩

theorem State.pixSpan_inside (hy : y < s.hdr.height.toNat) :
    (s.pixSpan y).inside ⟨s.buf.pixAddr.toNat, 8 * s.hdr.width.toNat * s.hdr.height.toNat, .W⟩ :=
  ⟨Nat.le_add_right _ _, (s.row_in_image hy).2⟩

theorem State.rawSpan_apart (h : y < z) : (s.rawSpan y).apart (s.rawSpan z) := by
  refine Region.apart_of_le ?_
  have hrows := Nat.mul_le_mul_right s.der.scanlineBytes.toNat h
  rw [Nat.succ_mul] at hrows
  simp only [State.rawSpan, State.rawRow]
  omega

theorem State.pixSpan_apart (h : y < z) : (s.pixSpan y).apart (s.pixSpan z) := by
  refine Region.apart_of_le ?_
  have hrows := Nat.mul_le_mul_right (8 * s.hdr.width.toNat) h
  rw [Nat.succ_mul, Nat.mul_left_comm, Nat.mul_left_comm z] at hrows
  simp only [State.pixSpan, State.pixRow, Nat.mul_assoc]
  omega

/-- A row of RAW shares no byte with a row of PIX. -/
theorem State.RowsReady.raw_apart_pix (h : s.RowsReady) (hy : y < s.hdr.height.toNat) (hz : z < s.hdr.height.toNat) :
    (s.rawSpan y).apart (s.pixSpan z) :=
  ((List.pairwise_cons.1 (List.pairwise_cons.1 h.apart).2).1 _ (List.mem_singleton_self _)).mono
    (State.rawSpan_inside hy) (State.pixSpan_inside hz)

theorem State.RowsReady.scanline_apart (h : s.RowsReady) (hy : y < s.hdr.height.toNat) :
    ∀ q ∈ s.imageRegions, (s.scanline y).apart q := fun q hq =>
  ((List.pairwise_cons.1 h.apart).1 q hq).mono (h.scanline_inside hy) ⟨le_rfl, le_rfl⟩

theorem State.RowsReady.scanline_apart_row (h : s.RowsReady) (hy : y < s.hdr.height.toNat) (hz : z < s.hdr.height.toNat) :
    ∀ q ∈ s.rowSpans z, (s.scanline y).apart q := by
  obtain ⟨hraw, hpix, -⟩ := (List.forall_mem_cons.1 (h.scanline_apart hy)).imp_right List.forall_mem_cons.1
  exact List.forall_mem_cons.2 ⟨hraw.mono ⟨le_rfl, le_rfl⟩ (State.rawSpan_inside hz),
    List.forall_mem_singleton.2 (hpix.mono ⟨le_rfl, le_rfl⟩ (State.pixSpan_inside hz))⟩

/-- A row of RAW shares no byte with a later row. -/
theorem State.RowsReady.raw_apart_row (h : s.RowsReady) (hyz : y < z) (hz : z < s.hdr.height.toNat) :
    ∀ q ∈ s.rowSpans z, (s.rawSpan y).apart q :=
  List.forall_mem_cons.2 ⟨State.rawSpan_apart hyz, List.forall_mem_singleton.2 (h.raw_apart_pix (hyz.trans hz) hz)⟩

/-- A row of PIX shares no byte with a later row. -/
theorem State.RowsReady.pix_apart_row (h : s.RowsReady) (hyz : y < z) (hz : z < s.hdr.height.toNat) :
    ∀ q ∈ s.rowSpans z, (s.pixSpan y).apart q :=
  List.forall_mem_cons.2 ⟨(h.raw_apart_pix hz (hyz.trans hz)).symm, List.forall_mem_singleton.2 (State.pixSpan_apart hyz)⟩

/-! ### A decoded row (R284, R313, R345) -/

/-- The row of RAW above row y, zeros for row 0 (R274). -/
def State.rowAbove (s : State) (m : Memory) (y : Nat) : List Byte :=
  if y = 0 then List.replicate s.der.scanlineBytes.toNat 0 else m.read (s.rawRow (y - 1)) s.der.scanlineBytes.toNat

/-- Row y is decoded in memory m: RAW row y is the reconstruction of scanline y, PIX row y its records (R345). -/
def State.holdsRow (s : State) (m : Memory) (y : Nat) : Prop :=
  reconstructs (m.readByte (s.infRow y)).toNat s.der.bpp.toNat (m.read (s.infRow y + 1) s.der.scanlineBytes.toNat)
    (s.rowAbove m y) (m.read (s.rawRow y) s.der.scanlineBytes.toNat) ∧
  unpacksTo (m.read (s.rawRow y) s.der.scanlineBytes.toNat) (m.read (s.pixRow y) (8 * s.hdr.width.toNat))
    s.hdr.colorType.toNat s.hdr.bitDepth.toNat s.der.channels.toNat s.hdr.width.toNat

theorem State.rowAbove_congr (h : ∀ z, z < y → m.agrees m' (s.rawSpan z)) : s.rowAbove m' y = s.rowAbove m y := by
  unfold State.rowAbove
  split_ifs with hy
  · rfl
  · exact (h (y - 1) (by omega)).read le_rfl le_rfl

theorem State.scanline_congr (h : m.agrees m' (s.scanline y)) :
    m'.readByte (s.infRow y) = m.readByte (s.infRow y) ∧
      m'.read (s.infRow y + 1) s.der.scanlineBytes.toNat = m.read (s.infRow y + 1) s.der.scanlineBytes.toNat :=
  ⟨h.readByte le_rfl (by simp [State.scanline]), h.read (by simp [State.scanline]) (by simp [State.scanline]; omega)⟩

/-- A decoded row stays decoded where its scanline, its rows and the row above keep their bytes. -/
theorem State.holdsRow_congr (h : s.holdsRow m y) (hscan : m.agrees m' (s.scanline y))
    (hraw : ∀ z, z ≤ y → m.agrees m' (s.rawSpan z)) (hpix : m.agrees m' (s.pixSpan y)) : s.holdsRow m' y := by
  obtain ⟨hsel, hflt⟩ := State.scanline_congr hscan
  have habove := State.rowAbove_congr fun z hz => hraw z hz.le
  have hrow : m'.read (s.rawRow y) s.der.scanlineBytes.toNat = m.read (s.rawRow y) s.der.scanlineBytes.toNat :=
    (hraw y le_rfl).read le_rfl le_rfl
  have hrec : m'.read (s.pixRow y) (8 * s.hdr.width.toNat) = m.read (s.pixRow y) (8 * s.hdr.width.toNat) :=
    hpix.read le_rfl le_rfl
  unfold State.holdsRow
  rw [hsel, hflt, habove, hrow, hrec]
  exact h

/-- Row y is decoded where its reconstruction and then its records are written, and nothing else changes. -/
theorem State.RowsReady.holdsRow_write (h : s.RowsReady) (hs : Sparse.sorted s.mem) (hy : y < s.hdr.height.toNat)
    {raw out : List Byte}
    (hraw : reconstructs (s.mem.readByte (s.infRow y)).toNat s.der.bpp.toNat
      (s.mem.read (s.infRow y + 1) s.der.scanlineBytes.toNat) (s.rowAbove s.mem y) raw)
    (hout : unpacksTo raw out s.hdr.colorType.toNat s.hdr.bitDepth.toNat s.der.channels.toNat s.hdr.width.toNat) :
    let m := (s.mem.write (s.rawRow y) raw).write (s.pixRow y) out
    s.mem.keepsOutside m (s.rowSpans y) ∧ s.holdsRow m y := by
  have hrawLen : raw.length = s.der.scanlineBytes.toNat := hraw.1.trans (Memory.length_read _ _ _)
  intro m
  have hsorted : Sparse.sorted (s.mem.write (s.rawRow y) raw) := Memory.sorted_write hs _ _
  have hraws : s.mem.keepsOutside (s.mem.write (s.rawRow y) raw) [s.rawSpan y] := Memory.keepsOutside_write hs rfl hrawLen
  have hpixs : (s.mem.write (s.rawRow y) raw).keepsOutside m [s.pixSpan y] :=
    Memory.keepsOutside_write hsorted rfl hout.1
  have hkeep : s.mem.keepsOutside m (s.rowSpans y) := fun x hx => by
    obtain ⟨hxraw, hxpix⟩ := List.forall_mem_cons.1 hx
    exact (hpixs x hxpix).trans (hraws x (List.forall_mem_singleton.2 hxraw))
  refine ⟨hkeep, ?_⟩
  obtain ⟨hsel, hflt⟩ := State.scanline_congr (hkeep.agrees (h.scanline_apart_row hy hy))
  have habove := State.rowAbove_congr fun z hz => hkeep.agrees (h.raw_apart_row hz hy)
  have hrow : m.read (s.rawRow y) s.der.scanlineBytes.toNat = raw := by
    have hagrees := hpixs.agrees (r := s.rawSpan y) (List.forall_mem_singleton.2 (h.raw_apart_pix hy hy))
    rw [← hrawLen, hagrees.read (a := s.rawRow y) le_rfl (Nat.add_le_add_left hrawLen.le _), Memory.read_write hs]
  have hrecords : m.read (s.pixRow y) (8 * s.hdr.width.toNat) = out := by rw [← hout.1, Memory.read_write hsorted]
  unfold State.holdsRow
  rw [hsel, hflt, habove, hrow, hrecords]
  exact ⟨hraw, hout⟩

/-- The records of a RAW row that reads as `row` are written to PIX (R313). -/
theorem unpackWith_eq {row : List Byte} (h : s.mem.read (s.rawRow y) s.der.scanlineBytes.toNat = row) (ct bd : Nat) :
    unpackWith ct bd y s =
      { s with mem := s.mem.write (s.pixRow y) (rowRecords row ct bd s.der.channels.toNat 0 s.hdr.width.toNat) } := by
  rw [unpackWith, writeRecords, Unpacker.unpacked_out, ← h]
  rfl

/-- Row y of DECODE whose selector is a filter: it is decoded, only its own bytes are written, and ROWS_DONE moves on
(R345). -/
theorem decodeRow_ok (h : s.RowsReady) (hs : Sparse.sorted s.mem) (hy : y < s.hdr.height.toNat)
    (hf : (s.mem.readByte (s.infRow y)).toNat ≤ 4) :
    ∃ m, decodeRow y s = .ok { s with mem := m, rowsDone := BitVec.ofNat 32 (y + 1) } ∧
      s.mem.keepsOutside m (s.rowSpans y) ∧ s.holdsRow m y := by
  obtain ⟨hbad, -⟩ | ⟨-, raw, hrow, hraw⟩ := unfilterRow_cases y s h.bpp
  · exact absurd hf (Nat.not_le.2 hbad)
  obtain ⟨c, k, depths, hm, hbd⟩ := exists_colorModel h.pair
  obtain ⟨-, hdepth, -⟩ := colorModels_depths _ hm _ hbd
  have hread : (s.mem.write (s.rawRow y) raw).read (s.rawRow y) s.der.scanlineBytes.toNat = raw := by
    rw [← hraw.1.trans (Memory.length_read _ _ _)]
    exact Memory.read_write hs _ _
  refine ⟨_, ?_, h.holdsRow_write hs hy hraw (unpacksTo_rowRecords raw _ hdepth _ _)⟩
  rw [decodeRow, hrow, Ended.andThen_ok, unpackRow_ok _ _ (by exact h.pair), unpackWith_eq (by exact hread)]
  rfl

/-- A row with an unknown selector ends the rows with UnknownFilter(y) (R281, R346). -/
theorem decodeRow_unknownFilter (hf : 4 < (s.mem.readByte (s.infRow y)).toNat) :
    decodeRow y s = .raised .unknownFilter (BitVec.ofNat 32 y) s := by
  rw [decodeRow, unfilterRow_unknownFilter hf, Ended.andThen_raised, Ended.andThen_raised]

/-! ### The rows in their order (R345) -/

/-- Rows, and then the rows behind them. -/
theorem decodeRows_add (n k y : Nat) (s : State) :
    decodeRows (n + k) y s = (decodeRows n y s).andThen (decodeRows k (y + n)) := by
  induction n generalizing y s with
  | zero => rw [Nat.zero_add]; rfl
  | succ n ih =>
    rw [Nat.succ_add, decodeRows, decodeRows]
    cases decodeRow y s with
    | ok t => rw [Ended.andThen_ok, Ended.andThen_ok, ih, Nat.add_assoc, Nat.add_comm 1]
    | raised e m t => rfl
    | stuck x => rfl

theorem decodeRows_ok_confined {n : Word} (h : decodeRows k 0 s = .ok { s with mem := m, rowsDone := n })
    (hs : Sparse.sorted s.mem) (hk : k ≤ s.hdr.height.toNat) :
    Sparse.sorted m ∧ s.mem.keepsOutside m s.imageRegions := by
  have hconfined := decodeRows_confined k 0 ((Nat.zero_add k).trans_le hk)
  rw [h] at hconfined
  exact hconfined hs

/-- The first k rows of an image, whose selectors are filters: each is decoded and stays so, and ROWS_DONE = k. -/
theorem decodeRows_ok (h : s.RowsReady) (hs : Sparse.sorted s.mem) (h0 : s.rowsDone = 0) (hk : k ≤ s.hdr.height.toNat)
    (hf : ∀ y, y < k → (s.mem.readByte (s.infRow y)).toNat ≤ 4) :
    ∃ m, decodeRows k 0 s = .ok { s with mem := m, rowsDone := BitVec.ofNat 32 k } ∧ ∀ y, y < k → s.holdsRow m y := by
  induction k with
  | zero =>
    have hstart : s = { s with rowsDone := BitVec.ofNat 32 0 } := congrArg (fun n => { s with rowsDone := n }) h0
    exact ⟨s.mem, congrArg Ended.ok hstart, fun y hy => absurd hy (Nat.not_lt_zero y)⟩
  | succ k ih =>
    obtain ⟨m, hm, hrows⟩ := ih (by omega) fun y hy => hf y (by omega)
    obtain ⟨hsorted, hkeep⟩ := decodeRows_ok_confined hm hs (by omega)
    let t : State := { s with mem := m, rowsDone := BitVec.ofNat 32 k }
    have hready : t.RowsReady := ⟨h.pair, h.bpp, h.fits, h.apart⟩
    have hsel : (m.readByte (s.infRow k)).toNat ≤ 4 := by
      rw [(State.scanline_congr (hkeep.agrees (h.scanline_apart hk))).1]
      exact hf k (Nat.lt_succ_self k)
    obtain ⟨m', hm', hkeep', hrow⟩ := decodeRow_ok hready hsorted hk hsel
    refine ⟨m', ?_, fun y hy => ?_⟩
    · rw [decodeRows_add, hm, Ended.andThen_ok, Nat.zero_add, decodeRows, hm', Ended.andThen_ok, decodeRows]
    · rcases Nat.lt_succ_iff_lt_or_eq.1 hy with hlt | rfl
      · exact State.holdsRow_congr (hrows y hlt) (hkeep'.agrees (h.scanline_apart_row (hlt.trans hk) hk))
          (fun z hz => hkeep'.agrees (h.raw_apart_row (hz.trans_lt hlt) hk)) (hkeep'.agrees (h.pix_apart_row hlt hk))
      · exact hrow

/-- The lowest row with an unknown selector ends the rows (R345, R346): the rows before it are done, and ROWS_DONE is its
number. -/
theorem decodeRows_unknownFilter (h : s.RowsReady) (hs : Sparse.sorted s.mem) (h0 : s.rowsDone = 0)
    (hy : y < s.hdr.height.toNat) (hbad : 4 < (s.mem.readByte (s.infRow y)).toNat)
    (hf : ∀ z, z < y → (s.mem.readByte (s.infRow z)).toNat ≤ 4) :
    ∃ m, decodeRows s.hdr.height.toNat 0 s =
        .raised .unknownFilter (BitVec.ofNat 32 y) { s with mem := m, rowsDone := BitVec.ofNat 32 y } ∧
      Sparse.sorted m ∧ s.mem.keepsOutside m s.imageRegions := by
  obtain ⟨m, hm, -⟩ := decodeRows_ok h hs h0 hy.le hf
  obtain ⟨hsorted, hkeep⟩ := decodeRows_ok_confined hm hs hy.le
  refine ⟨m, ?_, hsorted, hkeep⟩
  obtain ⟨k, hk⟩ : ∃ k, s.hdr.height.toNat = y + (k + 1) := ⟨s.hdr.height.toNat - y - 1, by omega⟩
  let t : State := { s with mem := m, rowsDone := BitVec.ofNat 32 y }
  have hsel : 4 < (t.mem.readByte (t.infRow y)).toNat := by
    rwa [(State.scanline_congr (hkeep.agrees (h.scanline_apart hy))).1.symm] at hbad
  rw [hk, decodeRows_add, hm, Ended.andThen_ok, Nat.zero_add, decodeRows, decodeRow_unknownFilter hsel, Ended.andThen_raised]

end Sys2Proof.Machine
end

section
/-! PROOF. DECODE from its inflate phase on (43_decode_pipeline.md R341, R342, R345 to R347): a stream error, a length that is
not the expected one or does not fit, an unknown selector, and the decoded image. -/

namespace Sys2Proof.Machine

variable {s : State} {c : Inflater}

/-! ### The header's numbers (R332) -/

/-- EXPECTED_LEN is that of HEIGHT scanlines, and BPP is at least 1 (R332). -/
theorem derived_rows (h : firstError (headerChecks s.hdr) = none) :
    s.hdr.derived.expectedLen.toNat = s.hdr.height.toNat * (1 + s.hdr.derived.scanlineBytes.toNat) ∧
      1 ≤ s.hdr.derived.bpp.toNat := by
  obtain ⟨-, -, hpair, -⟩ := valid_of_headerChecks h
  obtain ⟨c, k, depths, hm, hbd⟩ := exists_colorModel hpair
  obtain ⟨-, -, hbpp, hbytes, hlen, -⟩ := derived_toNat h hm hbd rfl rfl
  rw [hlen, hbytes, hbpp]
  exact ⟨rfl, le_max_left _ _⟩

/-! ### After the inflate phase (R342) -/

/-- What follows DECODE's inflate phase: the size check, the capacity, then the rows (R342, R347). -/
def decodeTail (l : Nat) (s : State) : Ended :=
  if l ≠ s.der.expectedLen.toNat then
    .raised .scanlineSizeMismatch (saturate l) (drawWrites (s.inflateRegions true) s)
  else if s.buf.infCap.toNat < l then .raised .outputOverflow (saturate l) (drawWrites (s.inflateRegions true) s)
  else (decodeRows s.hdr.height.toNat 0 (setInfOk s)).onRaise (drawWrites (s.inflateRegions true))

theorem decodeTail_sizeMismatch {l : Nat} (h : l ≠ s.der.expectedLen.toNat) :
    decodeTail l s = .raised .scanlineSizeMismatch (saturate l) (drawWrites (s.inflateRegions true) s) := if_pos h

theorem decodeTail_overflow {l : Nat} (h : l = s.der.expectedLen.toNat) (hcap : s.buf.infCap.toNat < l) :
    decodeTail l s = .raised .outputOverflow (saturate l) (drawWrites (s.inflateRegions true) s) := by
  rw [decodeTail, if_neg (not_not.2 h), if_pos hcap]

theorem decodeTail_rows {l : Nat} (h : l = s.der.expectedLen.toNat) (hcap : l ≤ s.buf.infCap.toNat) :
    decodeTail l s =
      (decodeRows s.hdr.height.toNat 0 (setInfOk s)).onRaise (drawWrites (s.inflateRegions true)) := by
  rw [decodeTail, if_neg (not_not.2 h), if_neg (Nat.not_lt.2 hcap)]

/-- DECODE's state after the inflate phase of a stream that inflates (R342). -/
def State.decodeInflated (s : State) (c : Inflater) : State :=
  { s.headChecked with mem := (sink 0 c s).mem, inf := c.results }

@[simp] theorem State.decodeInflated_hdr (s : State) (c : Inflater) : (s.decodeInflated c).hdr = s.hdr := rfl

/-- An output that fits is stored whole (R245). -/
theorem sink_fits (h : c.hist.length ≤ s.buf.infCap.toNat) :
    (sink 0 c s).mem = s.mem.write s.buf.infAddr.toNat c.hist.reverse := by
  rw [sink_mem, List.drop_zero, List.take_of_length_le (by rwa [List.length_reverse]), Nat.add_zero]

section

variable (h : firstError (headerChecks s.hdr) = none) (hi : s.hdr.interlace = 0)
  (hr : regionsPass s.par (decodeRegionList s.headChecked))
include h hr

/-- The checks of DECODE make its rows ready where the scanlines are the expected length and fit. -/
theorem rowsReady_decodeInflated (hlen : c.hist.length = s.hdr.derived.expectedLen.toNat)
    (hcap : c.hist.length ≤ s.buf.infCap.toNat) : (setInfOk (s.decodeInflated c)).RowsReady := by
  obtain ⟨hexpected, hbpp⟩ := derived_rows h
  obtain ⟨-, -, hpair, -⟩ := valid_of_headerChecks h
  obtain ⟨-, hapart, -⟩ := hr
  refine ⟨hpair, hbpp, (hexpected.symm.trans hlen.symm).trans_le hcap, ?_⟩
  refine List.Pairwise.imp_of_mem (fun {r q} hmem _ hrq => hrq (.inl ?_)) (List.pairwise_cons.1 hapart).2
  simp only [State.imageRegions, List.mem_cons, List.not_mem_nil, or_false] at hmem
  rcases hmem with rfl | rfl | rfl <;> rfl

include hi

/-- Where the regions pass, DECODE is its inflate phase and what follows it (R342). -/
theorem execDecode_pass : execDecode s = complete 0x06 (inflatePhase true s.headChecked decodeTail) := by
  rw [execDecode_of_none h hi, checkRegions_ok_iff.2 (by exact hr), Ended.andThen_ok]
  rfl

theorem execDecode_inflated (hc : inflateStream (s.mem.read s.buf.srcAddr.toNat s.buf.srcLen.toNat) = .ok c) :
    execDecode s = complete 0x06 (decodeTail c.hist.length (s.decodeInflated c)) := by
  rw [execDecode_pass h hi hr, inflatePhase_ok (s := s.headChecked) hc]
  rfl

end

/-- An output that fits is read back in the INF buffer (R245). -/
theorem readByte_decodeInflated (hs : Sparse.sorted s.mem) (hcap : c.hist.length ≤ s.buf.infCap.toNat) {i : Nat}
    (hi : i < c.hist.length) :
    (s.decodeInflated c).mem.readByte (s.buf.infAddr.toNat + i) = c.hist.reverse.getD i 0 := by
  change (sink 0 c s).mem.readByte _ = _
  rw [sink_fits hcap]
  exact (Memory.storesAt_write hs _ _).1 i (by rwa [List.length_reverse])

/-- The selector of a scanline is its byte of the output (R341). -/
theorem selector_decodeInflated (hs : Sparse.sorted s.mem) (hcap : c.hist.length ≤ s.buf.infCap.toNat) {y : Nat}
    (hy : y < s.hdr.height.toNat)
    (hlen : c.hist.length = s.hdr.height.toNat * (1 + s.hdr.derived.scanlineBytes.toNat)) :
    ((s.decodeInflated c).mem.readByte (s.headChecked.infRow y)).toNat =
      rowByte c.hist.reverse (y * (1 + s.hdr.derived.scanlineBytes.toNat)) := by
  have hin : y * (1 + s.hdr.derived.scanlineBytes.toNat) < c.hist.length := by
    rw [hlen]
    exact Nat.mul_lt_mul_of_pos_right hy (by omega)
  exact congrArg BitVec.toNat (readByte_decodeInflated hs hcap hin)

/-! ### Errors (R346, R347) -/

/-- An error that loses regions: the bytes outside them are those of the memory before, and nothing else changes (R347). -/
theorem complete_lost {qs rs : List Region} {m : Memory} (hsub : qs ⊆ rs) (hs : Sparse.sorted s.mem)
    (hkeep : m.keepsOutside s.mem rs) (opc : Byte) (e : ErrorKind) (n : Word) :
    ∃ m' k, complete opc (.raised e n (drawWrites qs s)) = .next (takeError opc e n { s with mem := m', draws := k }) ∧
      m.keepsOutside m' rs := by
  obtain ⟨m', k, hdraw, hkeep'⟩ := drawWrites_keeps hsub hs
  exact ⟨m', k, by rw [hdraw, complete_raised], fun x hx => (hkeep' x hx).trans (hkeep x hx)⟩

/-- Settles O38: the stream fails, its length is not the expected one, it does not fit, or a row has no filter. -/
theorem decodeBodyFails : Obligations.DecodeBodyFails := by
  unfold Obligations.DecodeBodyFails
  intro s checked src rs expected hmem h hi hr
  have hlost : s.headChecked.inflateRegions true ⊆ rs := List.subset_cons_self _ _
  have himage : s.headChecked.imageRegions ⊆ rs := List.Subset.trans (List.subset_cons_self _ _) hlost
  refine ⟨fun x hx => ?_, fun c hc => ?_⟩
  · obtain ⟨m, k, hend, hkeep⟩ := complete_lost hlost (s := drawInfResults s.headChecked) hmem.1 (fun _ _ => rfl) 0x06
      .decompressionFailed (BitVec.ofNat 32 x.code)
    refine ⟨m, _, k, Eq.trans ?_ hend, hkeep⟩
    exact (execDecode_pass h hi hr).trans (congrArg _ (inflatePhase_error (s := s.headChecked) hx _ _))
  obtain ⟨hsorted, hsink⟩ := sink_confined (c := c) (s := s) (hlost (List.mem_cons_self ..)) hmem.1
  have hexec : exec .decode s = complete 0x06 (decodeTail c.hist.length (s.decodeInflated c)) :=
    execDecode_inflated h hi hr hc
  rw [hexec]
  refine ⟨fun hlen => ?_, fun hlen hcap => ?_, fun hlen hcap y hy hbad hgood => ?_⟩
  · rw [decodeTail_sizeMismatch (by exact hlen)]
    exact complete_lost hlost (s := s.decodeInflated c) hsorted hsink 0x06 _ _
  · rw [decodeTail_overflow (by exact hlen) (by exact hcap)]
    exact complete_lost hlost (s := s.decodeInflated c) hsorted hsink 0x06 _ _
  · have hrows := hlen.trans (derived_rows h).1
    have hready := rowsReady_decodeInflated h hr hlen hcap
    obtain ⟨m, hm, hmsorted, hmkeep⟩ := decodeRows_unknownFilter hready hsorted rfl hy
      (hbad.trans_eq (selector_decodeInflated hmem.1 hcap hy hrows).symm)
      fun z hz => (selector_decodeInflated hmem.1 hcap (hz.trans hy) hrows).trans_le (hgood z hz)
    rw [setInfOk_hdr, State.decodeInflated_hdr] at hm
    rw [decodeTail_rows (by exact hlen) (by exact hcap), State.decodeInflated_hdr, hm, Ended.onRaise_raised]
    exact complete_lost hlost (s := { setInfOk (s.decodeInflated c) with mem := m, rowsDone := BitVec.ofNat 32 y }) hmsorted
      (fun x hx => (hmkeep x fun q hq => hx q (himage hq)).trans (hsink x hx)) 0x06 _ _

/-! ### The decoded image (R345) -/

/-- The rows of an output of the expected length, which fits and whose selectors are filters: every row is decoded, the output
stays in INF, and no byte but those of the output and of the rows is written. -/
theorem decodeRows_decodeInflated (hmem : s.mem.wf) (h : firstError (headerChecks s.hdr) = none)
    (hr : regionsPass s.par (decodeRegionList s.headChecked)) (hlen : c.hist.length = s.hdr.derived.expectedLen.toNat)
    (hcap : c.hist.length ≤ s.buf.infCap.toNat)
    (hsel : ∀ y, y < s.hdr.height.toNat → rowByte c.hist.reverse (y * (1 + s.hdr.derived.scanlineBytes.toNat)) ≤ 4) :
    ∃ m, decodeRows s.hdr.height.toNat 0 (setInfOk (s.decodeInflated c)) =
        .ok { setInfOk (s.decodeInflated c) with mem := m, rowsDone := s.hdr.height } ∧
      (∀ i, i < c.hist.length → m.readByte (s.buf.infAddr.toNat + i) = c.hist.reverse.getD i 0) ∧
      (∀ y, y < s.hdr.height.toNat → s.headChecked.holdsRow m y) ∧
      s.mem.keepsOutside m (⟨s.buf.infAddr.toNat, c.hist.length, .W⟩ :: s.headChecked.imageRegions) := by
  have hready := rowsReady_decodeInflated h hr hlen hcap
  have hsink : (s.decodeInflated c).mem = s.mem.write s.buf.infAddr.toNat c.hist.reverse := sink_fits hcap
  have hsorted : Sparse.sorted (s.decodeInflated c).mem := hsink ▸ Memory.sorted_write hmem.1 _ _
  have hstored : s.mem.keepsOutside (s.decodeInflated c).mem [⟨s.buf.infAddr.toNat, c.hist.length, .W⟩] :=
    hsink ▸ Memory.keepsOutside_write (r := ⟨s.buf.infAddr.toNat, _, .W⟩) hmem.1 rfl List.length_reverse
  obtain ⟨m, hm, hrows⟩ := decodeRows_ok hready hsorted rfl le_rfl fun y hy =>
    (selector_decodeInflated hmem.1 hcap hy (hlen.trans (derived_rows h).1)).trans_le (hsel y hy)
  obtain ⟨-, hkeep⟩ := decodeRows_ok_confined hm hsorted le_rfl
  rw [setInfOk_hdr, State.decodeInflated_hdr, BitVec.ofNat_toNat, BitVec.setWidth_eq] at hm
  refine ⟨m, hm, fun i hi => ?_, hrows, fun x hx => ?_⟩
  · have hinf := hkeep.agrees (List.pairwise_cons.1 hready.apart).1
    exact (hinf.readByte (Nat.le_add_right _ _) (Nat.add_lt_add_left (hi.trans_le hcap) _)).trans
      (readByte_decodeInflated hmem.1 hcap hi)
  · obtain ⟨hxinf, hximage⟩ := List.forall_mem_cons.1 hx
    exact (hkeep x hximage).trans (hstored x (List.forall_mem_singleton.2 hxinf))

/-- Settles O36: the output fits INF, every row is decoded, and the rows of RAW and PIX share no byte with the output. -/
theorem decodeSucceeds : Obligations.DecodeSucceeds := by
  unfold Obligations.DecodeSucceeds
  refine ⟨rfl, ?_⟩
  intro s out ct c k bd depths w h sb inf raw pix rs hmem hm hbd hct hdepth hhdr hi hr hstream hlen hcap hsel
  obtain ⟨hch, -, hbpp, hbytes, hexpected, -⟩ := derived_toNat hhdr hm hbd hct hdepth
  have hsb : sb = s.hdr.derived.scanlineBytes.toNat := hbytes.symm
  have hlen' : out.hist.length = s.hdr.derived.expectedLen.toNat := hlen.trans hexpected.symm
  have hfits := s.buf.infCap.isLt
  clear_value sb
  subst hsb hct hdepth hch
  rw [← hbpp]
  obtain ⟨m, hrows, hinf, hrow, hkeep⟩ := decodeRows_decodeInflated hmem hhdr hr hlen' hcap hsel
  refine ⟨m, s.hdr.derived, out.results, ?_, rfl, saturate_toNat (by omega), rfl, rfl, hinf, fun y hy => ?_, hkeep⟩
  · show execDecode s = _
    rw [execDecode_inflated hhdr hi hr hstream, decodeTail_rows (by exact hlen') (by exact hcap), State.decodeInflated_hdr,
      hrows]
    rfl
  · obtain ⟨hreconstructs, hunpacks⟩ := hrow y hy
    have hselector : m.readByte (s.headChecked.infRow y) =
        out.hist.reverse.getD (y * (1 + s.hdr.derived.scanlineBytes.toNat)) 0 :=
      hinf _ (by rw [hlen]; exact Nat.mul_lt_mul_of_pos_right hy (by omega))
    rw [hselector] at hreconstructs
    exact ⟨hreconstructs, hunpacks⟩

end Sys2Proof.Machine
end

section
/-! PROOF. The key order and the frontier commands (44_frontier.md R370 to R383): a direct command is refused while a search
is active, an insertion overflows or places its entry, and in a well-formed frontier a placed entry stands between the other
cells' entries of smaller or equal key and those of greater key. -/

namespace Sys2Proof.Machine

variable {s : State} {f : List Entry} {cap : Nat} {opc : Byte}

/-! ### The key order (R370, R372) -/

/-- Settles O39: KeyCmp is the sign of the difference of the two keys, so each of its values decides all three relations. -/
theorem keyOrderIsExact : Obligations.KeyOrderIsExact := by
  unfold Obligations.KeyOrderIsExact
  intro c1 d1 c2 d2
  rcases keyCmp_cases c1 d1 c2 d2 with ⟨h, g⟩ | ⟨h, g⟩ | ⟨h, g⟩ <;> rw [h]
  · exact ⟨iff_of_true rfl g, iff_of_false (by decide) g.ne, iff_of_false (by decide) g.asymm⟩
  · exact ⟨iff_of_false (by decide) g.not_lt, iff_of_true rfl g, iff_of_false (by decide) g.not_gt⟩
  · exact ⟨iff_of_false (by decide) g.asymm, iff_of_false (by decide) g.ne', iff_of_true rfl g⟩

/-! ### The refusal of a direct command (R383) -/

theorem complete_requireNoSearch_active (h : s.ctl.pfState = .active) (rule : State → Ended) :
    complete opc ((requireNoSearch s).andThen rule) = .next (takeError opc .searchStateError 1 s) := by
  obtain ⟨hna, -⟩ | ⟨-, hr⟩ := requireNoSearch_cases s
  · exact absurd h hna
  · rw [hr, Ended.andThen_raised, complete_raised]

theorem requireNoSearch_andThen_idle (h : s.ctl.pfState ≠ .active) (rule : State → Ended) :
    (requireNoSearch s).andThen rule = rule s := by
  obtain ⟨-, hr⟩ | ⟨ha, -⟩ := requireNoSearch_cases s
  · rw [hr, Ended.andThen_ok]
  · exact absurd ha h

/-! ### An insertion (R375, R376) -/

/-- A new cell does not fit exactly when none of the entries is for it and the frontier is full. -/
theorem State.frontierFull_iff {c : Coord} :
    s.frontierFull c = true ↔ findCell s.frontier c = none ∧ s.par.frontierCap.toNat ≤ s.frontier.length := by
  simp [State.frontierFull]

/-- No entry is for a cell exactly when the entries of the other cells are as many as all. -/
theorem findCell_eq_none_iff_length {c : Coord} :
    findCell f c = none ↔ (f.filter fun g => !g.isAt c).length = f.length := by
  simp only [findCell_eq_none, List.length_filter_eq_length_iff, Bool.not_eq_true']

/-- In a well-formed frontier a placed entry stands behind the other cells' entries of smaller or equal key and before every
other (R374, R375). -/
theorem placeEntry_of_frontierWf (hf : frontierWf cap f) (e : Entry) :
    placeEntry f e =
      let others := f.filter fun g => !g.isAt ⟨e.x, e.y⟩
      (others.filter fun g => decide (g.cmp e ≤ 0)) ++ e :: others.filter fun g => decide (0 < g.cmp e) := by
  obtain ⟨hdist, hsort, -⟩ := hf
  rw [placeEntry_eq hdist]
  exact insertAt_insertPos (hsort.filter _) e

theorem frontierInsert_full {e : Entry} (h : s.frontierFull ⟨e.x, e.y⟩ = true) :
    frontierInsert e s = .raised .frontierOverflow s.par.frontierCap s := if_pos h

theorem frontierInsert_room {e : Entry} (h : ¬ s.frontierFull ⟨e.x, e.y⟩ = true) :
    frontierInsert e s = .ok { s with frontier := placeEntry s.frontier e } := if_neg h

/-- Settles O40: the refusal, then the capacity check of a new cell, then the entry at its place. -/
theorem pqInsertResult : Obligations.PqInsertResult := by
  unfold Obligations.PqInsertResult
  refine ⟨rfl, fun s hf => ?_⟩
  intro e others
  have hexec (hidle : s.ctl.pfState ≠ .active) : exec .pqInsert s = complete 0x19 (frontierInsert e s) :=
    congrArg (complete 0x19) (requireNoSearch_andThen_idle hidle _)
  have hnew : findCell s.frontier ⟨e.x, e.y⟩ = none ↔ others.length = s.frontier.length := findCell_eq_none_iff_length
  refine ⟨fun hact => complete_requireNoSearch_active hact _, fun hidle habsent hfull => ?_, fun hidle hroom => ?_⟩
  · rw [hexec hidle, frontierInsert_full (State.frontierFull_iff.2 ⟨hnew.2 habsent, hfull⟩), complete_raised]
  · have hfits : ¬ s.frontierFull ⟨e.x, e.y⟩ = true := by
      rw [State.frontierFull_iff, hnew]
      omega
    rw [hexec hidle, frontierInsert_room hfits, complete_ok, placeEntry_of_frontierWf hf]
    rfl

/-! ### The first entry (R377, R380, R381) -/

theorem frontierExtract_nil (h : s.frontier = []) (next : Entry → State → Ended) :
    frontierExtract s next = .raised .frontierEmpty 0 s := by
  rw [frontierExtract, h]
  rfl

theorem frontierExtract_cons {e : Entry} (h : s.frontier = e :: f) (next : Entry → State → Ended) :
    frontierExtract s next = next e { s with frontier := f } := by
  rw [frontierExtract, h]

theorem frontierPeek_nil (h : s.frontier = []) (next : Entry → State → Ended) :
    frontierPeek s next = .raised .frontierEmpty 0 s := by
  rw [frontierPeek, h]
  rfl

theorem frontierPeek_cons {e : Entry} (h : s.frontier = e :: f) (next : Entry → State → Ended) :
    frontierPeek s next = next e s := by
  rw [frontierPeek, h]

/-- Settles O41: the two commands read the head of the list, whose key is the smallest as the list is sorted. -/
theorem pqExtractPeekClear : Obligations.PqExtractPeekClear := by
  unfold Obligations.PqExtractPeekClear
  refine ⟨rfl, rfl, rfl, fun s => ?_⟩
  have hextract (hidle : s.ctl.pfState ≠ .active) : exec .pqExtract s =
      complete 0x1A (frontierExtract s fun e t => .ok { t with res := e.results }) :=
    congrArg (complete 0x1A) (requireNoSearch_andThen_idle hidle _)
  have hpeek : exec .pqPeek s = complete 0x1B (frontierPeek s fun e t => .ok { t with res := e.results }) := rfl
  refine ⟨fun e rest hf => ⟨fun hidle => ?_, ?_, fun ⟨_, hsort, _⟩ => ?_⟩, fun hf => ⟨fun hidle => ?_, ?_⟩,
    fun hidle => ?_, fun hact => ⟨?_, ?_⟩⟩
  · rw [hextract hidle, frontierExtract_cons hf, complete_ok]
    rfl
  · rw [hpeek, frontierPeek_cons hf, complete_ok]
    rfl
  · rw [hf, List.pairwise_cons] at hsort
    exact hsort.1
  · rw [hextract hidle, frontierExtract_nil hf, complete_raised]
  · rw [hpeek, frontierPeek_nil hf, complete_raised]
  · exact congrArg (complete 0x18) (requireNoSearch_andThen_idle hidle _)
  · exact complete_requireNoSearch_active hact _
  · exact complete_requireNoSearch_active hact _

/-! ### PQ_DECREASE (R382) -/

/-- An entry is for the operand's cell exactly when its coordinates are the operands' low halves (R143). -/
theorem isAt_cellOperand (s : State) (g : Entry) : g.isAt s.cellOperand =
    decide (g.x.toNat = s.args.a0.toNat % 65536 ∧ g.y.toNat = s.args.a1.toNat % 65536) := by
  simp [Entry.isAt, State.cellOperand, ← BitVec.toNat_inj]

theorem packed_cellOperand (s : State) :
    s.cellOperand.packed = s.args.a0.toNat % 65536 + 65536 * (s.args.a1.toNat % 65536) := by
  simp [Coord.packed, State.cellOperand]

/-- Outside a search a cell without an entry is not found. -/
theorem pqDecreaseRule_absent (hidle : s.ctl.pfState ≠ .active) (h : ∀ g ∈ s.frontier, g.isAt s.cellOperand = false) :
    pqDecreaseRule s = raiseError .nodeNotFound s.cellOperand.packed s := by
  have hfind : s.frontier.find? (Entry.isAt s.cellOperand) = none :=
    List.find?_eq_none.2 fun g hg => by rw [h g hg]; decide
  rw [pqDecreaseRule, requireNoSearch_andThen_idle hidle, hfind]

/-- Outside a search the cell's entry is inserted again with its d and the new cost, if that is lower. -/
theorem pqDecreaseRule_present {g : Entry} (hf : frontierWf cap s.frontier) (hidle : s.ctl.pfState ≠ .active)
    (hg : g ∈ s.frontier) (hat : g.isAt s.cellOperand = true) :
    pqDecreaseRule s =
      if s.args.a2.toNat < g.cost.toNat then frontierInsert ⟨g.x, g.y, s.args.a2, g.d⟩ s else .ok s := by
  obtain ⟨hdist, -⟩ := hf
  rw [pqDecreaseRule, requireNoSearch_andThen_idle hidle, find?_isAt hdist hg hat]
  rfl

/-- A new entry for a cell that has one always fits. -/
theorem frontierFull_of_isAt {c : Coord} {g : Entry} (hg : g ∈ s.frontier) (hat : g.isAt c = true) :
    ¬ s.frontierFull c = true := by
  rw [State.frontierFull_iff, findCell_eq_none]
  rintro ⟨hnone, -⟩
  exact Bool.false_ne_true ((hnone g hg).symm.trans hat)

/-- Settles O42: the refusal, then the search for the cell's entry, which moves only for a lower cost. -/
theorem pqDecreaseResult : Obligations.PqDecreaseResult := by
  unfold Obligations.PqDecreaseResult
  refine ⟨rfl, fun s hf => ?_⟩
  intro x y here others
  have hexec : exec .pqDecrease s = complete 0x1C (pqDecreaseRule s) := rfl
  have hhere (g : Entry) : g.isAt s.cellOperand = decide (here g) := isAt_cellOperand s g
  have hpresent {g : Entry} (hidle : s.ctl.pfState ≠ .active) (hg : g ∈ s.frontier) (hat : here g) :=
    pqDecreaseRule_present hf hidle hg ((hhere g).trans (decide_eq_true hat))
  refine ⟨fun hact => complete_requireNoSearch_active hact _, fun hidle habsent => ?_,
    fun hidle g hg hat hcost => ?_, fun hidle g hg hat hcost => ?_⟩
  · rw [hexec, pqDecreaseRule_absent hidle fun g hg => (hhere g).trans (decide_eq_false (habsent g hg)), packed_cellOperand]
    rfl
  · rw [hexec, hpresent hidle hg hat, if_neg hcost.not_gt, complete_ok]
  · have hcell : (⟨g.x, g.y⟩ : Coord) = s.cellOperand := by
      obtain ⟨hx, hy⟩ := Entry.isAt_iff.1 ((hhere g).trans (decide_eq_true hat))
      rw [hx, hy]
    have hroom := frontierInsert_room (e := ⟨g.x, g.y, s.args.a2, g.d⟩)
      (frontierFull_of_isAt hg (Entry.isAt_iff.2 ⟨rfl, rfl⟩))
    rw [hexec, hpresent hidle hg hat, if_pos hcost, hroom, complete_ok, placeEntry_of_frontierWf hf]
    simp only [hcell, hhere]
    rfl

end Sys2Proof.Machine
end

section
/-! PROOF. PF_START and NODE_READ (45_pathfinder.md R402, R410, R411, R424): the checks run before the seed, and a cell of the
node table is read out word by word. -/

namespace Sys2Proof.Machine

variable {s : State}

/-! ### PF_START (R410, R411) -/

/-- The first failing check of PF_START is its error. -/
theorem pfStart_checkFails {e : ErrorKind} {n : Nat} (h : firstError s.startChecks = some (e, n)) :
    pfStart s = .raised e (BitVec.ofNat 32 n) s := by
  rw [pfStart, pfStartChecks_eq_checked, State.checked_of_some h, Ended.andThen_raised]

/-- After its checks PF_START checks the grid, then seeds the search. -/
theorem pfStart_checked (h : firstError s.startChecks = none) :
    pfStart s = (checkRegions (pfStartRegionList s) s).andThen fun t => pfSeed t.pf.mode t := by
  rw [pfStart, pfStartChecks_eq_checked, State.checked_of_none h, Ended.andThen_ok]

theorem pfStart_gridFails (h : firstError s.startChecks = none) {e : ErrorKind} {n : Word}
    (hr : checkRegions (pfStartRegionList s) s = .raised e n s) : pfStart s = .raised e n s := by
  rw [pfStart_checked h, hr, Ended.andThen_raised]

theorem pfStart_passes (h : firstError s.startChecks = none) (hr : regionsPass s.par (pfStartRegionList s)) :
    pfStart s = pfSeed s.pf.mode s := by
  rw [pfStart_checked h, checkRegions_ok_iff.2 hr, Ended.andThen_ok]

/-- Where no check of PF_START fails, its coordinates are below 32768 (R410). -/
theorem startCoordinates_lt (h : firstError s.startChecks = none) :
    s.pf.startX.toNat < 32768 ∧ s.pf.startY.toNat < 32768 ∧ s.pf.goalX.toNat < 32768 ∧ s.pf.goalY.toNat < 32768 := by
  simp [firstError, State.startChecks] at h
  omega

/-- Settles O43: the checks and the region check come before the seed, whose d is exact on a grid they let pass. -/
theorem pfStartResult : Obligations.PfStartResult := by
  unfold Obligations.PfStartResult
  refine ⟨rfl, fun s hcap => ?_⟩
  intro rs dx dy
  have hexec : exec .pfStart s = complete 0x10 (pfStart s) := rfl
  refine ⟨fun e n h => ?_, fun h e n hr => ?_, fun h hr => ?_⟩
  · rw [hexec, pfStart_checkFails h, complete_raised]
  · rw [hexec, pfStart_gridFails h hr, complete_raised]
  · obtain ⟨hsx, hsy, hgx, hgy⟩ := startCoordinates_lt h
    refine ⟨_, heuristic_start (s := { s with latch := s.latchWith s.pf.mode }) hsx hsy hgx hgy, ?_⟩
    rw [hexec, pfStart_passes h hr, pfSeed_eq hcap, complete_ok]
    rfl

/-! ### NODE_READ (R424) -/

/-- A cell has an entry exactly when one has its coordinates. -/
theorem isSome_findCell {f : List Entry} {c : Coord} :
    (findCell f c).isSome = true ↔ ∃ g ∈ f, g.x.toNat = c.x.toNat ∧ g.y.toNat = c.y.toNat := by
  simp [findCell, Entry.isAt, BitVec.toNat_inj]

theorem nodeAt_cellOperand (s : State) : s.nodeAt s.cellOperand =
    Sparse.get s.node (s.args.a1.toNat % 65536 * s.latch.w.toNat + s.args.a0.toNat % 65536) := by
  simp [State.nodeAt, State.cellIndex, State.cellOperand]

theorem onGrid_cellOperand (s : State) : s.onGrid s.cellOperand = true ↔
    s.args.a0.toNat % 65536 < s.latch.w.toNat ∧ s.args.a1.toNat % 65536 < s.latch.h.toNat := by
  simp [State.onGrid_iff, State.cellOperand]

/-- RES0 of a cell with a node: validity, presence in the frontier and of a predecessor, one bit each. -/
theorem nodeFlags (p q : Bool) :
    let r : Word := BitVec.ofNat 32 (1 + 2 * flagBit p + 4 * flagBit q)
    r.toNat < 8 ∧ r.getLsbD 0 = true ∧ r.getLsbD 1 = p ∧ r.getLsbD 2 = q := by
  cases p <;> cases q <;> decide

/-- Settles O48: the operand's cell is read out field by field. -/
theorem nodeReadResult : Obligations.NodeReadResult := by
  unfold Obligations.NodeReadResult
  refine ⟨rfl, fun s => ?_⟩
  intro x y
  have hexec : exec .nodeRead s = complete 0x1D (nodeReadRule s) := rfl
  refine ⟨fun hout => ?_, fun hx hy => ?_⟩
  · have hoff : ¬ s.onGrid s.cellOperand = true := by
      rw [onGrid_cellOperand]
      omega
    rw [hexec, nodeReadRule, if_neg hoff]
    rfl
  · have hread : exec .nodeRead s = .next (finish { s with res := nodeResults s s.cellOperand }) := by
      rw [hexec, nodeReadRule, if_pos ((onGrid_cellOperand s).2 ⟨hx, hy⟩), complete_ok]
    have hnode := nodeAt_cellOperand s
    refine ⟨fun hempty => ?_, fun n hn => ⟨_, hread, ?_⟩⟩
    · rw [hread, nodeResults, hnode.trans hempty]
    · obtain ⟨h8, h0, h1, h2⟩ := nodeFlags (findCell s.frontier s.cellOperand).isSome n.pred.isSome
      rw [nodeResults, hnode.trans hn]
      refine ⟨rfl, rfl, h8, h0, ?_, ?_, ?_⟩
      · rw [h1, isSome_findCell]
        simp [State.cellOperand, x, y]
      · rw [h2, Option.isSome_iff_ne_none]
      · cases hp : n.pred with
        | none => simp only [hp, BitVec.toNat_ofNat, Nat.zero_mod]
        | some p =>
          have := p.x.isLt
          have := p.y.isLt
          simp only [hp, Coord.packed, BitVec.toNat_ofNat]
          omega

end Sys2Proof.Machine
end

section
/-! PROOF. PF_TRACE (45_pathfinder.md R418, R419, R430, R431): the predecessors lead from the goal back to the start, each cell
at a cost of its own, and the bytes of the path hold its cells. -/

namespace Sys2Proof.Machine

variable {s : State} {cells p : List Coord}

/-! ### The path of predecessors (R418, R419) -/

/-- Cell c is the predecessor of the node of d, a cell of the grid. -/
def State.leads (s : State) (c d : Coord) : Prop := s.onGrid d = true ∧ ∃ q, s.nodeAt d = some q ∧ q.pred = some c

/-- A path from the start to the goal, each cell but the first with the one before it as predecessor. -/
structure State.IsPath (s : State) (cells : List Coord) : Prop where
  start : cells.head? = some s.latch.start
  goal : cells.getLast? = some s.latch.goal
  chain : cells.IsChain s.leads

/-- The cost of a cell's node, or 0. -/
def State.costAt (s : State) (c : Coord) : Nat := s.node.costAt (s.cellIndex c)

theorem State.costAt_eq {c : Coord} {n : Node} (h : s.nodeAt c = some n) : s.costAt c = n.cost.toNat := by
  unfold State.nodeAt at h
  simp [State.costAt, NodeTable.costAt, h]

/-- A cell on the grid whose node has no predecessor is the start (R419). -/
theorem State.eq_start_of_pred_none (hs : s.nodeInv) {c : Coord} {n : Node} (hc : s.onGrid c = true)
    (hn : s.nodeAt c = some n) (hp : n.pred = none) : c = s.latch.start := by
  by_contra hne
  obtain ⟨-, q, -, hq, -⟩ := hs.2 c n hc hn hne
  rw [hp] at hq
  cases hq

/-- A cell is adjacent to its predecessor, whose cost is one less (R419). -/
theorem State.leads_step (hs : s.nodeInv) {c d : Coord} (h : s.leads c d) :
    c.adjacent d ∧ s.costAt d = s.costAt c + 1 := by
  obtain ⟨hd, n, hn, hpred⟩ := h
  have hne : d ≠ s.latch.start := by
    rintro rfl
    rw [State.nodeInv_start hs hn] at hpred
    cases hpred
  obtain ⟨-, q, nq, hq, -, hadj, hnq, hcost⟩ := hs.2 d n hd hn hne
  obtain rfl := Option.some.inj (hpred.symm.trans hq)
  exact ⟨hadj, by rw [State.costAt_eq hn, State.costAt_eq hnq, hcost]⟩

theorem State.IsPath.adjacent (h : s.IsPath cells) (hs : s.nodeInv) : cells.IsChain Coord.adjacent :=
  h.chain.imp fun _ _ hcd => (State.leads_step hs hcd).1

/-- The cells of a path have rising costs, so no cell comes twice. -/
theorem State.IsPath.nodup (h : s.IsPath cells) (hs : s.nodeInv) : cells.Nodup := by
  have hcost : cells.IsChain (InvImage (· < ·) s.costAt) := h.chain.imp fun c d hcd => by
    have := (State.leads_step hs hcd).2
    simp only [InvImage]
    omega
  have : IsTrans Coord (InvImage (· < ·) s.costAt) := ⟨fun _ _ _ => Nat.lt_trans⟩
  refine (List.isChain_iff_pairwise.1 hcost).imp ?_
  rintro c _ hcd rfl
  exact Nat.lt_irrefl _ hcd

/-- The trace puts predecessors before a chain until it stands at the start (R418). -/
theorem traceChain_leads (hs : s.nodeInv) (fuel : Nat) {c : Coord} {n : Node} (hc : s.onGrid c = true)
    (hn : s.nodeAt c = some n) (hchain : (c :: cells).IsChain s.leads) (hp : traceChain s fuel c cells = .path p) :
    p.head? = some s.latch.start ∧ p.getLast? = (c :: cells).getLast? ∧ p.IsChain s.leads := by
  induction fuel generalizing c n cells with
  | zero => cases hp
  | succ k ih =>
    unfold traceChain at hp
    simp only [hn] at hp
    cases hq : n.pred with
    | none =>
      simp only [hq] at hp
      cases hp
      exact ⟨by rw [State.eq_start_of_pred_none hs hc hn hq]; rfl, rfl, hchain⟩
    | some q =>
      obtain ⟨hgq, nq, hnq, -⟩ := State.nodeInv_pred hs hc hn hq
      simp only [hq] at hp
      have hlead : s.leads q c := ⟨hc, n, hn, hq⟩
      have hend := ih hgq hnq (List.isChain_cons_cons.2 ⟨hlead, hchain⟩) hp
      rwa [List.getLast?_cons_cons] at hend

/-- Where the goal has a node there is a path to it, of one cell more than its cost (R418, R419). -/
theorem State.foundPath_isPath (hl : s.latchInv) (hs : s.nodeInv) {goal : Node} (hg : s.nodeAt s.latch.goal = some goal) :
    ∃ cells, s.foundPath = .path cells ∧ s.IsPath cells ∧ cells.length = goal.cost.toNat + 1 := by
  obtain ⟨cells, hp⟩ := State.foundPath_eq_path hl hs (Option.isSome_iff_exists.2 ⟨goal, hg⟩)
  obtain ⟨-, -, -, -, -, -, hon, -⟩ := hl
  obtain ⟨hstart, hgoal, hchain⟩ := traceChain_leads hs _ hon hg (List.isChain_singleton _) hp
  exact ⟨cells, hp, ⟨hstart, hgoal, hchain⟩, length_traceChain hs _ hon hg hp⟩

/-! ### The trace's ends (R418) -/

variable {extra : List Region}

theorem pfTrace_notFound (h : s.ctl.pfState ≠ .found) (extra : List Region) :
    pfTrace extra s = .raised .searchStateError (BitVec.ofNat 32 s.ctl.pfState.code) s := if_pos h

theorem pfTrace_found (h : s.ctl.pfState = .found) (hp : s.foundPath = .path cells) (extra : List Region) :
    pfTrace extra s = tracePath extra cells s := by
  rw [pfTrace, if_neg (not_not.2 h), hp]

theorem tracePath_overflows (h : s.pf.pathCap.toNat < cells.length) :
    tracePath extra cells s = .raised .outputOverflow (BitVec.ofNat 32 cells.length) s := if_pos h

theorem tracePath_regionFails (h : cells.length ≤ s.pf.pathCap.toNat) {e : ErrorKind} {i : Word}
    (hr : checkRegions (extra ++ [s.pathRegion cells.length]) s = .raised e i s) :
    tracePath extra cells s = .raised e i s := by
  rw [tracePath, if_neg h.not_gt, hr, Ended.andThen_raised]

/-- State s with the path written and PATH_LEN its length. -/
def State.traced (s : State) (cells : List Coord) : State :=
  { s with mem := s.mem.write s.pf.pathAddr.toNat (pathBytes cells), pathLen := BitVec.ofNat 32 cells.length }

theorem tracePath_passes (h : cells.length ≤ s.pf.pathCap.toNat)
    (hr : regionsPass s.par (extra ++ [s.pathRegion cells.length])) : tracePath extra cells s = .ok (s.traced cells) := by
  rw [tracePath, if_neg h.not_gt, checkRegions_ok_iff.2 hr, Ended.andThen_ok]
  rfl

/-! ### The path's bytes (R430) -/

/-- The coordinates of a path in the order of its bytes. -/
def pathCoordinates (cells : List Coord) : List Nat := cells.flatMap fun c => [c.x.toNat, c.y.toNat]

theorem pathBytes_eq (cells : List Coord) : pathBytes cells = recordBytes (pathCoordinates cells) := by
  simp [pathBytes, recordBytes, pathCoordinates, List.flatMap_assoc]

theorem pathCoordinates_lt (cells : List Coord) : ∀ v ∈ pathCoordinates cells, v < 65536 := by
  intro v hv
  obtain ⟨c, -, hc⟩ := List.mem_flatMap.1 hv
  rcases List.mem_pair.1 hc with rfl | rfl
  · exact c.x.isLt
  · exact c.y.isLt

theorem getD_pathCoordinates {k : Nat} {c : Coord} (h : cells[k]? = some c) :
    (pathCoordinates cells).getD (2 * k) 0 = c.x.toNat ∧ (pathCoordinates cells).getD (2 * k + 1) 0 = c.y.toNat := by
  induction cells generalizing k with
  | nil => cases h
  | cons d cells ih =>
    cases k with
    | zero =>
      cases h
      exact ⟨rfl, rfl⟩
    | succ k => exact ih h

/-- After the bytes of a path are written they hold the path. -/
theorem holdsPath_write {m : Memory} (hm : Sparse.sorted m) (a : Nat) (cells : List Coord) :
    holdsPath (m.write a (pathBytes cells)) a cells := by
  intro k c hc
  have hk : k < cells.length := (List.getElem?_eq_some_iff.1 hc).1
  obtain ⟨hx, hy⟩ := getD_pathCoordinates hc
  have hstored := (Memory.storesAt_write hm a (pathBytes cells)).1
  have hbyte (j : Nat) (hj : j < 4) : (Memory.readByte (m.write a (pathBytes cells)) (a + (4 * k + j))).toNat =
      rowByte (recordBytes (pathCoordinates cells)) (4 * k + j) := by
    rw [hstored _ (by rw [length_pathBytes]; omega), pathBytes_eq]
    rfl
  have hword := recordBytes_le16 (pathCoordinates_lt cells)
  simp only [Nat.add_assoc, le16]
  refine ⟨?_, ?_⟩
  · rw [← hx, ← hword, show 2 * (2 * k) = 4 * k by omega, ← hbyte 1 (by decide)]
    exact congrArg (· + _) (hbyte 0 (by decide))
  · rw [← hy, ← hword, show 2 * (2 * k + 1) = 4 * k + 2 by omega, hbyte 2 (by decide), hbyte 3 (by decide)]

/-! ### PF_TRACE -/

/-- PF_STATE as STATUS shows it (R38, R52). -/
theorem statusField_pfState (s : State) : (Reg.status.value s >>> 8) &&& 7 = BitVec.ofNat 32 s.ctl.pfState.code := by
  have hv : (Reg.status.value s).toNat = _ := toNat_statusWord s
  obtain ⟨hbusy, hdone, herr, hovr, hcfg, hinf⟩ := s.flagBits_le
  have hcode := s.ctl.pfState.code_le
  apply BitVec.eq_of_toNat_eq
  rw [BitVec.toNat_and, BitVec.toNat_ushiftRight, Nat.shiftRight_eq_div_pow, BitVec.toNat_ofNat,
    show (7 : Word).toNat = 2 ^ 3 - 1 from rfl, Nat.and_two_pow_sub_one_eq_mod, hv]
  omega

/-- Settles O46: the predecessors of a found search are a path of one cell more than the goal's cost, and the trace checks its
length and its region before it writes it. -/
theorem pfTraceResult : Obligations.PfTraceResult := by
  unfold Obligations.PfTraceResult
  refine ⟨rfl, fun s hinv => ?_⟩
  have hexec : exec .pfTrace s = complete 0x12 (pfTrace [] s) := rfl
  refine ⟨fun hne => ?_, fun hfound goal hgoal => ?_⟩
  · rw [hexec, pfTrace_notFound hne, complete_raised, statusField_pfState]
  · intro n rs
    obtain ⟨hl, hs⟩ := hinv.started (by rw [hfound]; decide)
    obtain ⟨-, ⟨hmem, -⟩, -⟩ := hinv
    obtain ⟨cells, hp, hpath, hlen⟩ := State.foundPath_isPath hl hs hgoal
    replace hlen : cells.length = n := hlen
    rw [hexec, pfTrace_found hfound hp, ← hlen]
    have hrs : rs = [] ++ [s.pathRegion cells.length] := by rw [hlen]; rfl
    rw [hrs]
    refine ⟨fun hshort => ?_, fun hfits e i hr => ?_, fun hfits hr => ⟨_, cells, ?_, rfl, hpath.nodup hs, hpath.start,
      hpath.goal, hpath.adjacent hs, fun k c d hc hd => ?_, holdsPath_write hmem _ _, fun x hx => ?_⟩⟩
    · rw [tracePath_overflows hshort, complete_raised]
    · rw [tracePath_regionFails hfits hr, complete_raised]
    · rw [tracePath_passes hfits hr, complete_ok]
      rfl
    · obtain ⟨hk, rfl⟩ := List.getElem?_eq_some_iff.1 hd
      obtain ⟨_, rfl⟩ := List.getElem?_eq_some_iff.1 hc
      exact (List.isChain_iff_getElem.1 hpath.chain k hk).2
    · have hout := hx _ (List.mem_singleton_self _) rfl
      rw [← Bool.not_eq_true, Region.holds_iff] at hout
      exact (Memory.storesAt_write hmem _ _).2 x (by rw [length_pathBytes]; simp only [State.pathRegion] at hout; omega)

end Sys2Proof.Machine
end

section
/-! PROOF. PF_STEP (45_pathfinder.md R403 to R406, R412 to R417): the relaxations of the cells around an extracted one, one
after another, as nodes and entries told from the state before them. -/

namespace Sys2Proof.Machine

variable {s : State} {e : Entry} {rest : List Entry}

/-! ### The search in a state (R374, R410, R419) -/

/-- The part of the invariant that a search needs and keeps, whatever the rest of the block holds. -/
structure State.Searches (s : State) : Prop where
  par : s.par.wf
  mem : s.mem.wf
  queue : frontierWf s.par.frontierCap.toNat s.frontier
  search : s.searchInv

theorem State.Inv.searches (h : s.Inv) : s.Searches := by
  have ⟨hpar, hmem, _⟩ := h
  exact ⟨hpar, hmem, h.queue, h.search⟩

/-- The search of s in a block that is else as at reset. -/
def State.searchAlone (s : State) : State :=
  { State.resetWith s.par s.mem with
    ctl := { (State.resetWith s.par s.mem).ctl with pfState := s.ctl.pfState }
    latch := s.latch
    node := s.node
    frontier := s.frontier }

theorem State.Searches.inv (h : s.Searches) : s.searchAlone.Inv := by
  obtain ⟨hpar, hmem, hset, hcomp, hcfg, -⟩ := State.resetWith_inv h.par h.mem
  exact ⟨hpar, hmem, hset, hcomp, hcfg, h.queue, h.search⟩

theorem State.Searches.started (h : s.Searches) (hp : s.ctl.pfState ≠ .idle) : s.latchInv ∧ s.nodeInv := h.inv.started hp

/-- The cells a step has to keep extracted: those that were, and the one it extracts. -/
def State.closing (s : State) (e : Entry) (c : Coord) : Prop := s.extracted c ∨ c = ⟨e.x, e.y⟩

/-- State s after the extraction of entry e, with a node table and a frontier (R412). -/
def State.expanded (s : State) (e : Entry) (node : NodeTable) (q : List Entry) : State :=
  { s with node := node, frontier := q, res := e.results, pfSteps := s.pfSteps + 1 }

/-- The extraction of the first entry leaves what holds between relaxations; the entry has its node's cost (R419). -/
theorem State.Searches.expanding (h : s.Searches) (ha : s.ctl.pfState = .active) (hf : s.frontier = e :: rest) :
    ∃ nu, (s.expanded e s.node rest).Expanding ⟨e.x, e.y⟩ nu (s.closing e) ∧ nu.cost = e.cost := by
  obtain ⟨nu, hx⟩ := h.inv.expanding ha hf
  obtain ⟨-, -, -, hactive, -⟩ := h.search
  have hin : e ∈ s.frontier := hf ▸ List.mem_cons_self
  obtain ⟨-, n, hn, hcost, -⟩ := (hactive ha).1 e hin
  obtain rfl := Option.some.inj (hx.node.symm.trans hn)
  exact ⟨nu, { hx with }, hcost⟩

/-! ### PF_STEP's branches (R412, R416, R417) -/

theorem pfStep_inactive (h : s.ctl.pfState ≠ .active) :
    pfStep s = .raised .searchStateError (BitVec.ofNat 32 s.ctl.pfState.code) s := if_pos h

theorem pfStep_empty (h : s.ctl.pfState = .active) (hf : s.frontier = []) :
    pfStep s = .raised .noPath s.pfSteps { s with ctl := { s.ctl with pfState := .noPath } } := by
  rw [pfStep, if_neg (not_not.2 h), if_pos hf]

theorem pfStep_extracts (h : s.ctl.pfState = .active) (hf : s.frontier = e :: rest) :
    pfStep s = pfExpand e { s with frontier := rest } := by
  rw [pfStep, if_neg (not_not.2 h), if_neg (by simp [hf]), frontierExtract_cons hf]

theorem pfStep_goal (h : s.ctl.pfState = .active) (hf : s.frontier = e :: rest)
    (hg : e.x = s.latch.gx ∧ e.y = s.latch.gy) :
    pfStep s = .ok { s.expanded e s.node rest with ctl := { s.ctl with pfState := .found } } := by
  rw [pfStep_extracts h hf]
  exact if_pos hg

/-- Off the goal a step relaxes the cells around the extracted one that are on the grid. -/
theorem State.Searches.pfStep_relaxes (hs : s.Searches) (h : s.ctl.pfState = .active) (hf : s.frontier = e :: rest)
    (hg : ¬ (e.x = s.latch.gx ∧ e.y = s.latch.gy)) :
    pfStep s = relaxAll ⟨e.x, e.y⟩ ((⟨e.x, e.y⟩ : Coord).around.filter s.onGrid) (s.expanded e s.node rest) := by
  obtain ⟨nu, hx, -⟩ := hs.expanding h hf
  obtain ⟨-, hw, -, hh, -⟩ := hx.latched
  have hnb : (s.expanded e s.node rest).neighbours ⟨e.x, e.y⟩ = (⟨e.x, e.y⟩ : Coord).around.filter s.onGrid :=
    State.neighbours_eq_around hw hh hx.extracted.1
  rw [pfStep_extracts h hf, ← hnb]
  exact if_neg hg

/-! ### One relaxation (R403, R413, R414) -/

section
variable {u v : Coord} {nu : Node} {old : Coord → Prop}

theorem relaxPassable_impassable (hl : s.latchInv) (h : ¬ s.passable v) : relaxPassable u v s = .ok s := by
  unfold relaxPassable
  by_cases hv : s.onGrid v = true
  · have hlt := State.gridAddrOf_lt hl hv
    have hzero : s.mem.readByte (s.gridAddrOf v) = 0 := by
      by_contra hne
      rw [State.gridAddrOf, State.cellIndex, ← Nat.add_assoc] at hne
      exact h ⟨hv, hne⟩
    rw [if_neg (by simp [hv]), if_neg hlt.not_ge, if_pos hzero]
  · rw [if_pos (by simpa using hv)]

theorem relaxPassable_passable (hl : s.latchInv) (h : s.passable v) : relaxPassable u v s = relax u v s := by
  obtain ⟨hv, hne⟩ := h
  rw [Nat.add_assoc] at hne
  unfold relaxPassable
  rw [if_neg (by simp [hv]), if_neg (State.gridAddrOf_lt hl hv).not_ge]
  exact if_neg hne

theorem State.Expanding.relax_unimproved (h : s.Expanding u nu old) (hi : s.improves v (nu.cost.toNat + 1) = false) :
    relax u v s = .ok s := by
  unfold relax
  simp only [h.node, hi]
  rfl

theorem State.Expanding.relax_full (h : s.Expanding u nu old) (hi : s.improves v (nu.cost.toNat + 1) = true)
    (hfull : s.frontierFull v = true) : relax u v s =
      .raised .frontierOverflow s.par.frontierCap { s with ctl := { s.ctl with pfState := .failed } } := by
  unfold relax
  simp only [h.node, hi, hfull, if_true]

theorem State.Expanding.relax_room (h : s.Expanding u nu old) (hv : s.onGrid v = true)
    (hi : s.improves v (nu.cost.toNat + 1) = true) (hroom : s.frontierFull v = false) :
    relax u v s = .ok (s.relaxed v (s.loweredNode u v nu)) := by
  unfold relax
  simp only [h.node, hi, if_true, hroom, h.relaxedNode_eq hv, frontierInsert_putNode hroom]
  rfl

/-- A cell that a relaxation improves has an entry exactly when it has a node: it has not been extracted (R415, R419). -/
theorem State.Expanding.findCell_eq_none_iff (h : s.Expanding u nu old) (hv : s.onGrid v = true) (ha : u.adjacent v)
    (hi : s.improves v (nu.cost.toNat + 1) = true) : findCell s.frontier v = none ↔ s.nodeAt v = none := by
  refine ⟨fun hfree => ?_, fun hnone => findCell_eq_none.2 fun g hg => Entry.isAt_eq_false.2 ?_⟩
  · by_contra hsome
    exact h.not_extracted hv ha hi ⟨hv, Option.isSome_iff_ne_none.2 hsome, hfree⟩
  · rintro rfl
    obtain ⟨-, n, hn, -⟩ := h.entries g hg
    rw [hnone] at hn
    cases hn

end

/-! ### Relaxations in order (R404, R412, R413) -/

/-- The frontier with an entry placed, as claims say it. -/
theorem placeEntry_eq_placed {cap : Nat} {f : List Entry} (hf : frontierWf cap f) (e : Entry) :
    placeEntry f e = placed f e := placeEntry_of_frontierWf hf e

theorem State.lowers_of_makes {v : Coord} (h : s.makes v = true) : s.lowers e v = true := by
  simp only [State.makes, Bool.and_eq_true, Option.isNone_iff_eq_none] at h
  simp [State.lowers, h]

theorem State.passable_of_lowers {v : Coord} (h : s.lowers e v = true) : s.passable v := by
  simp only [State.lowers, Bool.and_eq_true, decide_eq_true_eq] at h
  exact h.1

theorem State.makes_iff {v : Coord} (h : s.lowers e v = true) : s.makes v = true ↔ s.nodeAt v = none := by
  rw [State.makes, decide_eq_true (State.passable_of_lowers h), Bool.true_and, Option.isNone_iff_eq_none]

/-- The node a relaxation gives v (R413). -/
def State.relaxedTo (s : State) (e : Entry) (v : Coord) : Node := ⟨e.cost + 1, some ⟨e.x, e.y⟩, (s.loweredEntry e v).d⟩

theorem State.relaxedFrontier_snoc (done : List Coord) (v : Coord) (f : List Entry) :
    s.relaxedFrontier e (done ++ [v]) f =
      if s.lowers e v = true then placed (s.relaxedFrontier e done f) (s.loweredEntry e v)
      else s.relaxedFrontier e done f := by
  unfold State.relaxedFrontier
  rw [List.filter_append, List.map_append, List.foldl_append]
  split_ifs with h
  · simp [h]
  · simp [h]

/-- Where the relaxations of some cells have led after the extraction of entry e from s: each cell of them that had to be
lowered has its new node, every other cell the one it had, and the entries have been placed in order. -/
structure State.Relaxed (s : State) (e : Entry) (rest : List Entry) (nu : Node) (done : List Coord) (node : NodeTable)
    (q : List Entry) : Prop where
  expanding : (s.expanded e node q).Expanding ⟨e.x, e.y⟩ nu (s.closing e)
  cost : nu.cost = e.cost
  lowered : ∀ c ∈ done, s.lowers e c = true → Sparse.get node (s.cellIndex c) = some (s.relaxedTo e c)
  others : ∀ c, s.onGrid c = true → c ∉ done ∨ s.lowers e c = false → Sparse.get node (s.cellIndex c) = s.nodeAt c
  frontier : q = s.relaxedFrontier e done rest
  length : q.length = rest.length + (done.filter s.makes).length

theorem State.Searches.relaxed_nil (h : s.Searches) (ha : s.ctl.pfState = .active) (hf : s.frontier = e :: rest) :
    ∃ nu, s.Relaxed e rest nu [] s.node rest := by
  obtain ⟨nu, hx, hcost⟩ := h.expanding ha hf
  exact ⟨nu, hx, hcost, nofun, fun _ _ _ => rfl, rfl, rfl⟩

section
variable {nu : Node} {done : List Coord} {node : NodeTable} {q : List Entry} {v : Coord}

/-- A cell that is not lowered changes nothing. -/
theorem State.Relaxed.skip (h : s.Relaxed e rest nu done node q) (hv : s.lowers e v = false) :
    s.Relaxed e rest nu (done ++ [v]) node q where
  expanding := h.expanding
  cost := h.cost
  lowered c hc hlow := by
    rcases List.mem_append.1 hc with hc | hc
    · exact h.lowered c hc hlow
    · rw [List.mem_singleton.1 hc, hv] at hlow
      cases hlow
  others c hc hout := h.others c hc (hout.imp_left fun hn hd => hn (List.mem_append_left _ hd))
  frontier := by rw [State.relaxedFrontier_snoc, if_neg (by simp [hv]), h.frontier]
  length := by
    have hm : ¬ s.makes v = true := fun hm => by simpa [hv] using State.lowers_of_makes (e := e) hm
    simp [h.length, hm]

theorem State.Relaxed.queue (h : s.Relaxed e rest nu done node q) : frontierWf s.par.frontierCap.toNat q :=
  h.expanding.queue

/-- A cell not yet relaxed is improved exactly when it had to be lowered. -/
theorem State.Relaxed.improves_iff (h : s.Relaxed e rest nu done node q) (hv : v ∉ done) (hp : s.passable v) :
    (s.expanded e node q).improves v (nu.cost.toNat + 1) = s.lowers e v := by
  have hn : (s.expanded e node q).nodeAt v = s.nodeAt v := h.others v hp.1 (.inl hv)
  unfold State.improves State.lowers
  rw [hn, h.cost, decide_eq_true hp, Bool.true_and]
  cases s.nodeAt v <;> rfl

/-- The node a relaxation gives a cell is told from the state before the step (R413, R419). -/
theorem State.Relaxed.loweredNode_eq (h : s.Relaxed e rest nu done node q) (hv : v ∉ done) (hg : s.onGrid v = true) :
    (s.expanded e node q).loweredNode ⟨e.x, e.y⟩ v nu = s.relaxedTo e v := by
  have hn : (s.expanded e node q).nodeAt v = s.nodeAt v := h.others v hg (.inl hv)
  have hd : (s.loweredEntry e v).d = s.heuristic v := by
    unfold State.loweredEntry
    cases hsv : s.nodeAt v with
    | none => rfl
    | some n => exact State.nodeInv_d h.expanding.nodes hg (hn.trans hsv)
  have hcost : BitVec.ofNat 32 (nu.cost.toNat + 1) = e.cost + 1 := by
    rw [h.cost, BitVec.ofNat_add, BitVec.ofNat_toNat, BitVec.setWidth_eq]
    rfl
  rw [State.loweredNode, hcost, State.relaxedTo, hd]
  rfl

/-- The node table with the node of a lowered cell. -/
def State.withLowered (s : State) (e : Entry) (node : NodeTable) (v : Coord) : NodeTable :=
  Sparse.set node (s.cellIndex v) (some (s.relaxedTo e v))

theorem State.Relaxed.relaxed_eq (h : s.Relaxed e rest nu done node q) (v : Coord) :
    (s.expanded e node q).relaxed v (s.relaxedTo e v) =
      s.expanded e (s.withLowered e node v) (placed q (s.loweredEntry e v)) := by
  rw [← placeEntry_eq_placed h.queue]
  rfl

theorem State.Relaxed.get_withLowered (h : s.Relaxed e rest nu done node q) (hv : s.onGrid v = true) {c : Coord}
    (hc : s.onGrid c = true) : Sparse.get (s.withLowered e node v) (s.cellIndex c) =
      if c = v then some (s.relaxedTo e v) else Sparse.get node (s.cellIndex c) :=
  h.expanding.nodeAt_relaxed hv (s.relaxedTo e v) hc

/-- A cell that has to be lowered, and not been relaxed, has an entry exactly when it has a node. -/
theorem State.Relaxed.findCell_iff (h : s.Relaxed e rest nu done node q) (hv : v ∉ done)
    (ha : (⟨e.x, e.y⟩ : Coord).adjacent v) (hlow : s.lowers e v = true) : findCell q v = none ↔ s.makes v = true := by
  have hp := State.passable_of_lowers hlow
  have hn : (s.expanded e node q).nodeAt v = s.nodeAt v := h.others v hp.1 (.inl hv)
  rw [State.makes_iff hlow, ← hn]
  exact h.expanding.findCell_eq_none_iff hp.1 ha ((h.improves_iff hv hp).trans hlow)

/-- A relaxation fails exactly where it needs a new entry and the frontier is full (R413). -/
theorem State.Relaxed.frontierFull_iff (h : s.Relaxed e rest nu done node q) (hv : v ∉ done)
    (ha : (⟨e.x, e.y⟩ : Coord).adjacent v) (hlow : s.lowers e v = true) :
    (s.expanded e node q).frontierFull v = true ↔ s.makes v = true ∧ s.par.frontierCap.toNat ≤ q.length :=
  State.frontierFull_iff.trans (and_congr_left fun _ => h.findCell_iff hv ha hlow)

/-- A cell that is lowered gets its node, and its entry is placed. -/
theorem State.Relaxed.lower (h : s.Relaxed e rest nu done node q) (hv : v ∉ done) (ha : (⟨e.x, e.y⟩ : Coord).adjacent v)
    (hlow : s.lowers e v = true) (hroom : (s.expanded e node q).frontierFull v = false) :
    s.Relaxed e rest nu (done ++ [v]) (s.withLowered e node v) (placed q (s.loweredEntry e v)) := by
  have hp := State.passable_of_lowers hlow
  refine ⟨?_, h.cost, fun c hc hcl => ?_, fun c hc hout => ?_, ?_, ?_⟩
  · rw [← h.relaxed_eq, ← h.loweredNode_eq hv hp.1]
    exact h.expanding.relaxed hp.1 ha ((h.improves_iff hv hp).trans hlow) hroom
  · rw [h.get_withLowered hp.1 (State.passable_of_lowers hcl).1]
    split_ifs with hcv
    · rw [hcv]
    · exact h.lowered c ((List.mem_append.1 hc).resolve_right fun hc => hcv (List.mem_singleton.1 hc)) hcl
  · rw [h.get_withLowered hp.1 hc, if_neg]
    · exact h.others c hc (hout.imp_left fun hn hd => hn (List.mem_append_left _ hd))
    · rintro rfl
      rcases hout with hn | hn
      · exact hn (List.mem_append_right _ (List.mem_singleton_self _))
      · rw [hn] at hlow
        cases hlow
  · rw [State.relaxedFrontier_snoc, if_pos hlow, h.frontier]
  · have hfree : findCell q ⟨(s.loweredEntry e v).x, (s.loweredEntry e v).y⟩ = none ↔ s.makes v = true :=
      h.findCell_iff hv ha hlow
    rw [← placeEntry_eq_placed h.queue, length_placeEntry, h.length, List.filter_append, List.length_append]
    simp only [Option.isNone_iff_eq_none, hfree]
    split_ifs with hm <;> simp [hm, Nat.add_assoc]

/-- The relaxation of a cell that fits. -/
theorem State.Relaxed.relax_fits (h : s.Relaxed e rest nu done node q) (hv : v ∉ done)
    (ha : s.onGrid v = true → (⟨e.x, e.y⟩ : Coord).adjacent v)
    (hroom : s.makes v = true → q.length < s.par.frontierCap.toNat) :
    ∃ node' q', relaxPassable ⟨e.x, e.y⟩ v (s.expanded e node q) = .ok (s.expanded e node' q') ∧
      s.Relaxed e rest nu (done ++ [v]) node' q' := by
  have hx := h.expanding
  by_cases hp : s.passable v
  · rw [relaxPassable_passable hx.latched hp]
    have hi := h.improves_iff hv hp
    cases hlow : s.lowers e v with
    | false => exact ⟨node, q, hx.relax_unimproved (hi.trans hlow), h.skip hlow⟩
    | true =>
      have hfits : (s.expanded e node q).frontierFull v = false := by
        rw [← Bool.not_eq_true, h.frontierFull_iff hv (ha hp.1) hlow]
        exact fun ⟨hm, hle⟩ => (hroom hm).not_ge hle
      have hnext := h.lower hv (ha hp.1) hlow hfits
      refine ⟨_, _, ?_, hnext⟩
      rw [hx.relax_room hp.1 (hi.trans hlow) hfits, h.loweredNode_eq hv hp.1, h.relaxed_eq]
  · have hlow : s.lowers e v = false := by
      rw [← Bool.not_eq_true]
      exact fun hl => hp (State.passable_of_lowers hl)
    exact ⟨node, q, relaxPassable_impassable hx.latched hp, h.skip hlow⟩

/-- The relaxation of a new cell on a full frontier sets FAILED and leaves the rest (R413). -/
theorem State.Relaxed.relax_overflows (h : s.Relaxed e rest nu done node q) (hv : v ∉ done)
    (ha : s.onGrid v = true → (⟨e.x, e.y⟩ : Coord).adjacent v) (hm : s.makes v = true)
    (hfull : s.par.frontierCap.toNat ≤ q.length) :
    relaxPassable ⟨e.x, e.y⟩ v (s.expanded e node q) = .raised .frontierOverflow s.par.frontierCap
      { s.expanded e node q with ctl := { s.ctl with pfState := .failed } } := by
  have hlow : s.lowers e v = true := State.lowers_of_makes hm
  have hp := State.passable_of_lowers hlow
  rw [relaxPassable_passable h.expanding.latched hp]
  exact h.expanding.relax_full ((h.improves_iff hv hp).trans hlow)
    ((h.frontierFull_iff hv (ha hp.1) hlow).2 ⟨hm, hfull⟩)

/-- The relaxations of cells that fit, one after another. -/
theorem State.Relaxed.relaxAll_fits (h : s.Relaxed e rest nu done node q) (vs : List Coord) (hd : (done ++ vs).Nodup)
    (ha : ∀ v ∈ vs, s.onGrid v = true → (⟨e.x, e.y⟩ : Coord).adjacent v)
    (hroom : rest.length + ((done ++ vs).filter s.makes).length ≤ s.par.frontierCap.toNat) :
    ∃ node' q', relaxAll ⟨e.x, e.y⟩ (vs.filter s.onGrid) (s.expanded e node q) = .ok (s.expanded e node' q') ∧
      s.Relaxed e rest nu (done ++ vs) node' q' := by
  induction vs generalizing done node q with
  | nil => exact ⟨node, q, rfl, by rwa [List.append_nil]⟩
  | cons v vs ih =>
    obtain ⟨hav, ha⟩ := List.forall_mem_cons.1 ha
    have hv : v ∉ done := fun hvd => List.disjoint_of_nodup_append hd hvd List.mem_cons_self
    have hsplit : done ++ v :: vs = done ++ [v] ++ vs := by simp
    rw [hsplit] at hd hroom ⊢
    have hfits (hm : s.makes v = true) : q.length < s.par.frontierCap.toNat := by
      rw [h.length]
      simp [hm] at hroom
      omega
    cases hg : s.onGrid v with
    | true =>
      obtain ⟨node₁, q₁, hr, h₁⟩ := h.relax_fits hv hav hfits
      rw [List.filter_cons_of_pos hg, relaxAll, hr, Ended.andThen_ok]
      exact ih h₁ hd ha hroom
    | false =>
      rw [List.filter_cons_of_neg (by simp [hg])]
      refine ih (h.skip ?_) hd ha hroom
      rw [← Bool.not_eq_true]
      exact fun hl => Bool.false_ne_true (hg.symm.trans (State.passable_of_lowers hl).1)

end

theorem relaxAll_append (u : Coord) (vs ws : List Coord) (s : State) :
    relaxAll u (vs ++ ws) s = (relaxAll u vs s).andThen (relaxAll u ws) := by
  induction vs generalizing s with
  | nil => rfl
  | cons v vs ih =>
    rw [List.cons_append, relaxAll, relaxAll]
    cases relaxPassable u v s with
    | ok t => exact ih t
    | raised x n t => rfl
    | stuck x => rfl

/-! ### The cells around a cell (R404) -/

theorem Coord.nodup_around (c : Coord) : c.around.Nodup := by
  simp only [Coord.around, List.nodup_cons, List.mem_cons, List.not_mem_nil, or_false, Coord.mk.injEq, not_or, not_and,
    not_false_eq_true, List.nodup_nil, and_true]
  refine ⟨⟨fun _ => ?_, fun h => ?_, fun h => ?_⟩, ⟨fun h => ?_, fun h => ?_⟩, fun h => ?_⟩ <;> bv_omega

/-- Two cells of the latched grid are adjacent exactly when one stands around the other. -/
theorem State.latchInv.mem_around (hl : s.latchInv) {c v : Coord} (hc : s.onGrid c = true) (hv : s.onGrid v = true) :
    v ∈ c.around ↔ c.adjacent v := by
  obtain ⟨-, hw, -, hh, -⟩ := hl
  have h := State.mem_neighbours (v := v) hc
  rw [State.neighbours_eq_around hw hh hc, List.mem_filter] at h
  simpa [hv] using h

/-- A step that has room for the new entries relaxes every cell around. -/
theorem State.Searches.pfStep_room (hs : s.Searches) (h : s.ctl.pfState = .active) (hf : s.frontier = e :: rest)
    (hg : ¬ (e.x = s.latch.gx ∧ e.y = s.latch.gy))
    (hroom : rest.length + ((⟨e.x, e.y⟩ : Coord).around.filter s.makes).length ≤ s.par.frontierCap.toNat) :
    ∃ nu node q, pfStep s = .ok (s.expanded e node q) ∧ s.Relaxed e rest nu (⟨e.x, e.y⟩ : Coord).around node q := by
  obtain ⟨nu, h₀⟩ := hs.relaxed_nil h hf
  have hx := h₀.expanding
  obtain ⟨node, q, hr, hdone⟩ := h₀.relaxAll_fits _ (Coord.nodup_around ⟨e.x, e.y⟩)
    (fun v hv hgv => (hx.latched.mem_around hx.extracted.1 hgv).1 hv) hroom
  exact ⟨nu, node, q, (hs.pfStep_relaxes h hf hg).trans hr, hdone⟩

/-! ### PF_STEP ends a search -/

/-- A step whose frontier is full where a new cell comes stops there (R413). -/
theorem State.Searches.pfStep_overflows (hs : s.Searches) (h : s.ctl.pfState = .active) (hf : s.frontier = e :: rest)
    (hg : ¬ (e.x = s.latch.gx ∧ e.y = s.latch.gy)) {done later : List Coord} {v : Coord}
    (haround : (⟨e.x, e.y⟩ : Coord).around = done ++ v :: later) (hm : s.makes v = true)
    (hfull : rest.length + (done.filter s.makes).length = s.par.frontierCap.toNat) :
    ∃ nu node q, s.Relaxed e rest nu done node q ∧ pfStep s = .raised .frontierOverflow s.par.frontierCap
      { s.expanded e node q with ctl := { s.ctl with pfState := .failed } } := by
  obtain ⟨nu, h₀⟩ := hs.relaxed_nil h hf
  have hx := h₀.expanding
  have hadj (c : Coord) (hc : c ∈ (⟨e.x, e.y⟩ : Coord).around) (hgc : s.onGrid c = true) : (⟨e.x, e.y⟩ : Coord).adjacent c :=
    (hx.latched.mem_around hx.extracted.1 hgc).1 hc
  have hd := Coord.nodup_around ⟨e.x, e.y⟩
  rw [haround] at hd hadj
  obtain ⟨node, q, hr, hdone⟩ := h₀.relaxAll_fits done (List.Nodup.of_append_left hd)
    (fun c hc => hadj c (List.mem_append_left _ hc)) hfull.le
  have hv : v ∉ done := fun hvd => List.disjoint_of_nodup_append hd hvd List.mem_cons_self
  have hgv : s.onGrid v = true := (State.passable_of_lowers (State.lowers_of_makes (e := e) hm)).1
  have hover := hdone.relax_overflows hv (hadj v (by simp)) hm (hdone.length.trans hfull).ge
  refine ⟨nu, node, q, hdone, ?_⟩
  rw [hs.pfStep_relaxes h hf hg, haround, List.filter_append, List.filter_cons_of_pos hgv, relaxAll_append, hr,
    Ended.andThen_ok, relaxAll, hover, Ended.andThen_raised]

/-- Settles O44: the branches of a step; where the frontier is full the relaxations before the new cell are done. -/
theorem pfStepEnds : Obligations.PfStepEnds := by
  unfold Obligations.PfStepEnds
  have hexec (s : State) : exec .pfStep s = complete 0x11 (pfStep s) := rfl
  refine ⟨⟨rfl, fun s => ⟨fun hna => ?_, fun ha hf => ?_, fun ha e rest hf hx hy => ?_⟩⟩, ?_⟩
  · rw [hexec, pfStep_inactive hna, complete_raised, statusField_pfState]
  · rw [hexec, pfStep_empty ha hf, complete_raised]
  · rw [hexec, pfStep_goal ha hf ⟨hx, hy⟩, complete_ok]
    rfl
  · intro s e rest done v later hinv ha hf hg haround hm hfull
    obtain ⟨nu, node, q, h, hstep⟩ := hinv.searches.pfStep_overflows ha hf hg haround hm hfull
    refine ⟨node, ?_, h.lowered, h.others, ?_⟩
    · rw [hexec, hstep, complete_raised, h.frontier]
      rfl
    · rw [← h.frontier, h.length, hfull]

/-! ### PF_STEP relaxes the cells around -/

theorem State.lowers_iff {v : Coord} : s.lowers e v = true ↔
    s.passable v ∧ ∀ n, s.nodeAt v = some n → e.cost.toNat + 1 < n.cost.toNat := by
  simp [State.lowers, Option.all_eq_true]

/-- The entries after an entry is placed: it, and those of other cells. -/
theorem mem_placed {f : List Entry} {g : Entry} : g ∈ placed f e ↔ g = e ∨ (g ∈ f ∧ ¬ (g.x = e.x ∧ g.y = e.y)) := by
  simp only [placed, List.mem_append, List.mem_cons, List.mem_filter, decide_eq_true_eq, Bool.not_eq_true',
    Bool.and_eq_false_iff, decide_eq_false_iff_not, not_and_or]
  rw [or_left_comm, ← and_or_left, and_iff_left (le_or_gt _ _)]

/-- The entries after relaxations: those of the lowered cells, and the old ones of all other cells. -/
theorem State.mem_relaxedFrontier {done : List Coord} (hd : done.Nodup) {f : List Entry} {g : Entry} :
    g ∈ s.relaxedFrontier e done f ↔
      (∃ v ∈ done, s.lowers e v = true ∧ g = s.loweredEntry e v) ∨
        (g ∈ f ∧ ∀ v ∈ done, s.lowers e v = true → ¬ (g.x = v.x ∧ g.y = v.y)) := by
  induction done using List.reverseRecOn with
  | nil => simp [State.relaxedFrontier]
  | append_singleton done v ih =>
    have hv : v ∉ done := fun hvd => List.disjoint_of_nodup_append hd hvd (List.mem_singleton_self v)
    have hne (w : Coord) (hw : w ∈ done) : ¬ (w.x = v.x ∧ w.y = v.y) := fun ⟨hx, hy⟩ =>
      hv (by rwa [show v = w from by cases v; cases w; simp_all])
    rw [State.relaxedFrontier_snoc]
    split_ifs with hl
    · have hother : (∃ w ∈ done, s.lowers e w = true ∧ g = s.loweredEntry e w) →
          ¬ (g.x = (s.loweredEntry e v).x ∧ g.y = (s.loweredEntry e v).y) := by
        rintro ⟨w, hw, -, rfl⟩
        exact hne w hw
      rw [mem_placed, ih (List.Nodup.of_append_left hd), or_and_right, and_iff_left_of_imp hother, or_left_comm, and_assoc]
      simp only [List.mem_append, List.mem_singleton, or_imp, forall_and, forall_eq, or_and_right, exists_or,
        exists_eq_left, hl, true_and, true_imp_iff, or_assoc]
      rfl
    · rw [ih (List.Nodup.of_append_left hd)]
      simp [or_imp, forall_and, or_and_right, exists_or, hl]

/-- Settles O45: with room a step relaxes every cell around, and the cells it lowers are those of the statement. -/
theorem pfStepRelaxes : Obligations.PfStepRelaxes := by
  unfold Obligations.PfStepRelaxes
  intro s e rest hinv ha hf hg u hroom lowered
  obtain ⟨nu, node, q, hstep, h⟩ := hinv.searches.pfStep_room ha hf hg hroom
  have hx := h.expanding
  have haround {v : Coord} (hv : s.onGrid v = true) : v ∈ u.around ↔ u.adjacent v := hx.latched.mem_around hx.extracted.1 hv
  have hlowered {v : Coord} : lowered v ↔ v ∈ u.around ∧ s.lowers e v = true := by
    rw [State.lowers_iff]
    exact and_congr_left fun ⟨⟨hv, _⟩, _⟩ => (haround hv).symm
  have hmem {g : Entry} := State.mem_relaxedFrontier (s := s) (e := e) u.nodup_around (f := rest) (g := g)
  rw [← h.frontier] at hmem
  have hexec : exec .pfStep s = complete 0x11 (pfStep s) := rfl
  refine ⟨node, q, ?_, fun v _ hv => ?_, fun v hv hnot => ?_, fun g hnot => ?_, h.queue, h.frontier⟩
  · rw [hexec, hstep, complete_ok]
    rfl
  · obtain ⟨hmv, hl⟩ := hlowered.1 hv
    refine ⟨(s.loweredEntry e v).d, h.lowered v hmv hl, hmem.2 (.inl ⟨v, hmv, hl, rfl⟩), fun n hn => ?_, fun hn => ?_⟩
    · simp [State.loweredEntry, hn]
    · simp [State.loweredEntry, hn]
  · refine h.others v hv ?_
    rw [hlowered, not_and_or, Bool.not_eq_true] at hnot
    exact hnot
  · rw [hlowered] at hnot
    rw [hmem]
    refine ⟨?_, fun hr => .inr ⟨hr, ?_⟩⟩
    · rintro (⟨v, hmv, hl, rfl⟩ | ⟨hr, -⟩)
      · exact absurd ⟨hmv, hl⟩ hnot
      · exact hr
    · rintro v hmv hl ⟨hgx, hgy⟩
      rw [hgx, hgy] at hnot
      exact hnot ⟨hmv, hl⟩

end Sys2Proof.Machine
end

section
/-! PROOF. PF_SEARCH as its phases (45_pathfinder.md R410, R412, R417, R418, R420, R422): the loop takes steps until one ends
the search or extracts the goal, at most one for each cell of the grid, and the trace follows. -/

namespace Sys2Proof.Machine

variable {s t : State} {k : Nat}

/-! ### A step keeps the search (R412, R419) -/

/-- A step from s has extracted its first entry, and t keeps what holds between relaxations; a found goal has a node. -/
def State.advancesTo (s t : State) : Prop :=
  ∃ e rest nu, s.frontier = e :: rest ∧ t.Expanding ⟨e.x, e.y⟩ nu (s.closing e) ∧
    (t.ctl.pfState = .found → (t.nodeAt t.latch.goal).isSome = true)

theorem State.Searches.pfStep_advances (hs : s.Searches) (ha : s.ctl.pfState = .active) :
    (pfStep s).endsIn fun t => t.ctl.pfState ≠ .noPath → s.advancesTo t := by
  cases hf : s.frontier with
  | nil =>
    rw [pfStep_empty ha hf]
    exact ⟨by decide, fun h => absurd rfl h⟩
  | cons e rest =>
    obtain ⟨nu, hx, -⟩ := hs.expanding ha hf
    by_cases hg : e.x = s.latch.gx ∧ e.y = s.latch.gy
    · rw [pfStep_goal ha hf hg]
      have hu := hx.extracted.2.1
      rw [hg.1, hg.2] at hu
      exact fun _ => ⟨e, rest, nu, hf, { hx with }, fun _ => hu⟩
    · rw [hs.pfStep_relaxes ha hf hg]
      have hadj : ∀ v ∈ (⟨e.x, e.y⟩ : Coord).around.filter s.onGrid, s.onGrid v = true ∧ (⟨e.x, e.y⟩ : Coord).adjacent v :=
        fun v hv => by
          obtain ⟨hv, hgv⟩ := List.mem_filter.1 hv
          exact ⟨hgv, (hx.latched.mem_around hx.extracted.1 hgv).1 hv⟩
      refine Ended.endsIn_mono (Ended.endsIn_of_relaxes (relaxAll_relaxes _ _ _) (relaxAll_endsIn hx _ hadj)) ?_
      refine fun t ⟨ht, hp⟩ _ => ⟨e, rest, nu, hf, ht, fun hfound => ?_⟩
      rw [hfound] at hp
      rcases hp with hp | hp
      · exact absurd (hp.trans ha) (by decide)
      · exact absurd hp (by decide)

/-- One more cell has been extracted. -/
theorem State.advancesTo.remaining_lt (h : s.advancesTo t) : t.remaining < s.remaining := by
  obtain ⟨e, rest, nu, hf, hx, -⟩ := h
  have hnew : ¬ s.extracted ⟨e.x, e.y⟩ := fun ⟨_, _, hfree⟩ => by
    rw [hf, findCell_cons_eq_none] at hfree
    exact hfree.1 rfl
  exact State.remaining_lt (fun c hc => hx.kept c (.inl hc)) hnew (hx.kept _ (.inr rfl))

theorem State.advancesTo.searchInv (h : s.advancesTo t) (hp : t.ctl.pfState = .active ∨ t.ctl.pfState = .found) :
    t.searchInv := by
  obtain ⟨e, rest, nu, -, hx, hgoal⟩ := h
  rcases hp with hp | hp
  · exact hx.searchInv (.inl hp)
  · exact ⟨hx.table, by simp [hp], fun _ => ⟨hx.latched, hx.nodes⟩, by simp [hp], hgoal⟩

/-- A step that ends without an error leaves the search active or found, with its invariant, and one more cell extracted. -/
theorem State.Searches.pfStep_ok (hs : s.Searches) (ha : s.ctl.pfState = .active) (h : pfStep s = .ok t) :
    (t.ctl.pfState = .active ∨ t.ctl.pfState = .found) ∧ s.stepsAs t ∧ t.Searches ∧ t.remaining < s.remaining := by
  have hp := (pfStep_searchGoesOn ha).1 t h
  have hsteps := (pfStep_steps s).1 t h
  have hadv := hs.pfStep_advances ha
  rw [h] at hadv
  have hadv : s.advancesTo t := hadv (by rcases hp with hp | hp <;> rw [hp] <;> decide)
  have hpar : t.par = s.par := by rw [hsteps]
  have hmem : t.mem = s.mem := by rw [hsteps]
  have hsearch := hadv.searchInv hp
  refine ⟨hp, hsteps, ⟨hpar ▸ hs.par, hmem ▸ hs.mem, ?_, hsearch⟩, hadv.remaining_lt⟩
  obtain ⟨e, rest, nu, -, hx, -⟩ := hadv
  exact hx.queue

theorem State.Searches.pfStep_ne_stuck (hs : s.Searches) (ha : s.ctl.pfState = .active) (x : Fault) :
    pfStep s ≠ .stuck x := fun h => by
  have hadv := hs.pfStep_advances ha
  rw [h] at hadv
  exact hadv

/-! ### The loop (R422) -/

/-- k steps of an active search lead from s to t. -/
def stepsTo (k : Nat) (s t : State) : Prop :=
  match k with
  | 0 => t = s
  | k + 1 => s.ctl.pfState = .active ∧ ∃ u, pfStep s = .ok u ∧ stepsTo k u t

/-- Steps keep all that a step keeps; each extracts a cell. -/
theorem State.Searches.of_stepsTo (hs : s.Searches) (h : stepsTo k s t) :
    s.stepsAs t ∧ t.Searches ∧ t.remaining + k ≤ s.remaining := by
  induction k generalizing s with
  | zero =>
    cases h
    exact ⟨State.stepsAs_refl _, hs, le_rfl⟩
  | succ k ih =>
    obtain ⟨ha, u, hu, h⟩ := h
    obtain ⟨-, hsu, hus, hlt⟩ := hs.pfStep_ok ha hu
    obtain ⟨hut, hts, hle⟩ := ih hus h
    exact ⟨State.stepsAs_trans hsu hut, hts, by omega⟩

/-- Steps are PF_STEPs of the host between completions (R412, R455). -/
theorem searchRuns_of_stepsTo (h : stepsTo k s t) : searchRuns k (finish s) (finish t) := by
  induction k generalizing s with
  | zero =>
    cases h
    rfl
  | succ k ih =>
    obtain ⟨ha, u, hu, h⟩ := h
    refine ⟨ha, finish u, ?_, (pfStep_searchGoesOn ha).1 u hu, ih h⟩
    rw [exec_pfStep_finish, hu]
    rfl

/-- The loop, with a turn for every cell not yet extracted and one more, takes steps until the goal is found or the next step
raises. -/
theorem State.Searches.pfLoop_stepsTo (n : Nat) (hs : s.Searches) (hp : s.ctl.pfState = .active ∨ s.ctl.pfState = .found)
    (hn : s.remaining < n) :
    ∃ k t, stepsTo k s t ∧ ((t.ctl.pfState = .found ∧ pfLoop n s = .ok t) ∨
      (t.ctl.pfState = .active ∧ ∃ e m u, pfStep t = .raised e m u ∧ pfLoop n s = .raised e m u)) := by
  induction n generalizing s with
  | zero => exact absurd hn (Nat.not_lt_zero _)
  | succ n ih =>
    unfold pfLoop
    rcases hp with ha | hfound
    · rw [if_neg (not_not.2 ha)]
      cases h : pfStep s with
      | ok u =>
        obtain ⟨hpu, -, hu, hlt⟩ := hs.pfStep_ok ha h
        obtain ⟨k, t, hk, hend⟩ := ih hu hpu (by omega)
        exact ⟨k + 1, t, ⟨ha, u, h, hk⟩, hend⟩
      | raised e m u => exact ⟨0, s, rfl, .inr ⟨ha, e, m, u, h, rfl⟩⟩
      | stuck x => exact absurd h (hs.pfStep_ne_stuck ha x)
    · rw [if_pos (by rw [hfound]; decide)]
      exact ⟨0, s, rfl, .inl ⟨hfound, rfl⟩⟩

/-- The extracted cells are cells of the grid. -/
theorem State.card_le_remaining (s : State) : Nat.card Coord ≤ s.remaining + s.latch.w.toNat * s.latch.h.toNat := by
  have := Coord.finite
  have hle : {c | s.extracted c}.ncard ≤ (Finset.range (s.latch.w.toNat * s.latch.h.toNat) : Set Nat).ncard :=
    Set.ncard_le_ncard_of_injOn s.cellIndex (fun c hc => Finset.mem_coe.2 (Finset.mem_range.2 (State.cellIndex_lt hc.1)))
      fun c hc d hd hcd => (State.cellIndex_inj hc.1 hd.1).1 hcd
  rw [Set.ncard_coe_finset, Finset.card_range] at hle
  have hsum := Set.ncard_add_ncard_compl {c | s.extracted c}
  have hcompl : {c | s.extracted c}ᶜ.ncard = s.remaining := rfl
  omega

/-- A search takes at most one step for each cell of its grid (R420). -/
theorem State.Searches.steps_le (hs : s.Searches) (h : stepsTo k s t) : k ≤ s.latch.w.toNat * s.latch.h.toNat := by
  have := Coord.finite
  obtain ⟨hsteps, -, hle⟩ := hs.of_stepsTo h
  have hcard := t.card_le_remaining
  have hall : s.remaining ≤ Nat.card Coord := Set.ncard_le_card _
  have hlatch : t.latch = s.latch := by rw [hsteps]
  rw [hlatch] at hcard
  omega

/-! ### The search PF_START seeds (R410, R411) -/

/-- The state PF_START leaves before its completion (R402, R410, R411). -/
def State.seeded (s : State) : State :=
  let d := State.heuristic { s with latch := s.latchWith s.pf.mode } (s.latchWith s.pf.mode).start
  { s with
    latch := s.latchWith s.pf.mode
    node := [(s.pf.startY.toNat * s.pf.w.toNat + s.pf.startX.toNat, ⟨0, none, d⟩)]
    frontier := [⟨s.pf.startX, s.pf.startY, 0, d⟩]
    pfSteps := 0
    pathLen := 0
    ctl := { s.ctl with pfState := .active } }

theorem pfStart_seeds (hcap : 1 ≤ s.par.frontierCap.toNat) (h : firstError s.startChecks = none)
    (hr : regionsPass s.par (pfStartRegionList s)) : pfStart s = .ok s.seeded :=
  (pfStart_passes h hr).trans (pfSeed_eq hcap _)

theorem State.seeded_latchInv (h : firstError s.startChecks = none) (hr : regionsPass s.par (pfStartRegionList s)) :
    s.seeded.latchInv :=
  latchInv_of_pfStartChecks ((pfStartChecks_eq_checked s).trans (State.checked_of_none h s)) (checkRegions_ok_iff.2 hr)
    s.pf.mode rfl rfl

theorem State.seeded_searches (hp : s.par.wf) (hm : s.mem.wf) (h : firstError s.startChecks = none)
    (hr : regionsPass s.par (pfStartRegionList s)) : s.seeded.Searches := by
  have hl := State.seeded_latchInv h hr
  obtain ⟨-, -, hset, hcomp, hcfg, -⟩ := State.resetWith_inv hp hm
  have hinv : s.seeded.searchAlone.Inv := State.seeded_inv hp hm hset hcomp hcfg hl rfl rfl rfl hp.1
  exact ⟨hp, hm, hinv.queue, hinv.search⟩

/-- The loop of a search that PF_START has seeded. -/
theorem State.pfSearchSteps_stepsTo (hp : s.par.wf) (hm : s.mem.wf) (h : firstError s.startChecks = none)
    (hr : regionsPass s.par (pfStartRegionList s)) :
    ∃ k t, stepsTo k s.seeded t ∧ ((t.ctl.pfState = .found ∧ pfSearchSteps s = .ok t) ∨
      (t.ctl.pfState = .active ∧ ∃ e m u, pfStep t = .raised e m u ∧ pfSearchSteps s = .raised e m u)) := by
  unfold pfSearchSteps
  rw [pfStart_seeds hp.1 h hr, Ended.andThen_ok]
  exact (State.seeded_searches hp hm h hr).pfLoop_stepsTo _ (.inl rfl)
    (State.remaining_lt_searchFuel (State.seeded_latchInv h hr))

/-! ### PF_SEARCH's trace (R418, R455) -/

/-- What the trace reads of a found search (R418, R419). -/
theorem State.Searches.found (hs : t.Searches) (hf : t.ctl.pfState = .found) :
    ∃ goal cells, t.nodeAt t.latch.goal = some goal ∧ t.foundPath = .path cells ∧ t.IsPath cells ∧ t.nodeInv ∧
      cells.length = goal.cost.toNat + 1 := by
  obtain ⟨hl, hn⟩ := hs.started (by rw [hf]; decide)
  obtain ⟨-, -, -, -, hfound⟩ := hs.search
  obtain ⟨goal, hgoal⟩ := Option.isSome_iff_exists.1 (hfound hf)
  obtain ⟨cells, hp, hpath, hlen⟩ := State.foundPath_isPath hl hn hgoal
  exact ⟨goal, cells, hgoal, hp, hpath, hn, hlen⟩

theorem traceChain_finish (fuel : Nat) (c : Coord) (cells : List Coord) :
    traceChain (finish t) fuel c cells = traceChain t fuel c cells := by
  induction fuel generalizing c cells with
  | zero => rfl
  | succ k ih =>
    simp only [traceChain, ih]
    rfl

theorem foundPath_finish (t : State) : (finish t).foundPath = t.foundPath := traceChain_finish _ _ _

theorem checkRegions_finish (rs : List Region) (t : State) : checkRegions rs (finish t) = (checkRegions rs t).finished := by
  unfold checkRegions
  rw [show (finish t).par = t.par from rfl]
  cases firstTooLarge 0 rs with
  | some i => rfl
  | none => cases firstOverlap 0 rs with
    | some i => rfl
    | none => cases firstBusError t.par rs <;> rfl

/-- A region check takes no notice of a completion before it. -/
theorem checkRegions_of_finish {rs : List Region} {e : ErrorKind} {i : Word}
    (h : checkRegions rs (finish t) = .raised e i (finish t)) : checkRegions rs t = .raised e i t := by
  rw [checkRegions_finish] at h
  obtain hc | ⟨x, n, -, hc⟩ := checkRegions_cases rs t <;> rw [hc] at h ⊢ <;> cases h
  rfl

/-- Two regions in range that share a byte, the second one written, are reported as the pair 0, 1 (R110, R111). -/
theorem checkRegions_pair {r q : Region} (hr : r.base + r.len ≤ 2 ^ 32) (hq : q.base + q.len ≤ 2 ^ 32) (hk : q.kind = .W)
    (h : ∃ x, r.holds x = true ∧ q.holds x = true) : checkRegions [r, q] t = .raised .regionOverlap 1 t := by
  refine checkRegions_regionOverlap (List.forall_mem_cons.2 ⟨hr, List.forall_mem_singleton.2 hq⟩) ?_
  simp [firstOverlap, firstClash, hk, (r.overlaps_iff q).2 h]

/-! ### PF_SEARCH -/

/-- The regions of PF_SEARCH's trace: the grid PF_START latched, and the path (R422). -/
theorem State.traceRegions (h : s.seeded.stepsAs t) (n : Nat) : [t.gridRegion] ++ [t.pathRegion n] =
    pfStartRegionList s ++ [s.pathRegion n] := by
  rw [h]
  rfl

theorem regionsPass_tail {p : Params} {r q : Region} (h : regionsPass p [r, q]) : regionsPass p [q] := by
  obtain ⟨hrange, -, hadmit⟩ := h
  exact ⟨fun x hx => hrange x (List.mem_cons_of_mem _ hx), List.pairwise_singleton _ _,
    fun x hx => hadmit x (List.mem_cons_of_mem _ hx)⟩

/-- Where grid and path pass, PF_TRACE completes as the trace of PF_SEARCH does. -/
theorem exec_pfTrace_finish {cells : List Coord} {r : Region} (hf : t.ctl.pfState = .found) (hp : t.foundPath = .path cells)
    (hfits : cells.length ≤ t.pf.pathCap.toNat) (hpass : regionsPass t.par ([r] ++ [t.pathRegion cells.length])) :
    exec .pfTrace (finish t) = complete 0x13 (tracePath [r] cells t) := by
  have hexec : exec .pfTrace (finish t) = complete 0x12 (pfTrace [] (finish t)) := rfl
  have hpath : regionsPass (finish t).par ([] ++ [(finish t).pathRegion cells.length]) := regionsPass_tail hpass
  rw [hexec, pfTrace_found (s := finish t) hf ((foundPath_finish t).trans hp), tracePath_passes (s := finish t) hfits hpath,
    tracePath_passes hfits hpass]
  rfl

/-- Settles O60: the phases one after another, each with its completion for the host. -/
theorem pfSearchRunsItsPhases : Obligations.PfSearchRunsItsPhases := by
  unfold Obligations.PfSearchRunsItsPhases
  intro s hinv grid
  have hexec : exec .pfSearch s = complete 0x13 (pfSearchRule s) := rfl
  refine ⟨fun e n h => ?_, fun h e n hr => ?_, fun h hr => ?_⟩
  · rw [hexec, pfSearchRule, pfSearchSteps, pfStart_checkFails h]
    rfl
  · rw [hexec, pfSearchRule, pfSearchSteps, pfStart_gridFails h hr]
    rfl
  · obtain ⟨hpar, hmem, -⟩ := hinv
    have hseeded := State.seeded_searches hpar hmem h hr
    obtain ⟨k, t, hk, hend⟩ := State.pfSearchSteps_stepsTo hpar hmem h hr
    have hstart : exec .pfStart s = .next (finish s.seeded) := by
      change complete 0x10 (pfStart s) = _
      rw [pfStart_seeds hpar.1 h hr, complete_ok]
    refine ⟨finish s.seeded, k, finish t, hstart, hseeded.steps_le hk, searchRuns_of_stepsTo hk, ?_⟩
    rcases hend with ⟨hfound, hloop⟩ | ⟨ha, e, m, u, hu, hloop⟩
    · obtain ⟨hsteps, hts, -⟩ := hseeded.of_stepsTo hk
      obtain ⟨goal, cells, hgoal, hp, -, -, hlen⟩ := hts.found hfound
      refine .inr ⟨goal, hfound, hgoal, ?_⟩
      intro n path
      have hpf : t.pf = s.pf := by rw [hsteps]; rfl
      have hregions : [t.gridRegion] ++ [t.pathRegion cells.length] = [grid, path] := by
        rw [State.traceRegions hsteps, hlen]
        rfl
      have hsearch : exec .pfSearch s = complete 0x13 (tracePath [t.gridRegion] cells t) := by
        rw [hexec, pfSearchRule, hloop, Ended.andThen_ok, pfTrace_found hfound hp]
      replace hlen : cells.length = n := hlen
      rw [← hlen, ← hpf, hsearch]
      refine ⟨fun hshort => ?_, fun hfits e i hfail => ?_, fun hfits hrange hx => ?_, fun hfits hpass => ?_⟩
      · rw [tracePath_overflows hshort]
        rfl
      · rw [tracePath_regionFails hfits (hregions ▸ checkRegions_of_finish hfail)]
        rfl
      · have hgrid := hr.1 grid (List.mem_singleton_self _)
        rw [tracePath_regionFails hfits (hregions ▸ checkRegions_pair hgrid hrange rfl hx)]
        rfl
      · have hpar' : t.par = s.par := by rw [hsteps]; rfl
        rw [← hregions, ← hpar'] at hpass
        exact (exec_pfTrace_finish hfound hp hfits hpass).symm
    · refine .inl ⟨takeError 0x11 e m (finish u), ha, ?_, (pfStep_searchGoesOn ha).2 e m u hu, ?_⟩
      · rw [exec_pfStep_finish, hu]
        rfl
      · rw [hexec, pfSearchRule, hloop]
        rfl

end Sys2Proof.Machine
end

section
/-! PROOF. PF_SEARCH finds a shortest walk (45_pathfinder.md R400, R407, R415 to R417, R431): the neighbours of extracted cells
have nodes of low cost, so a walk to the goal leaves the extracted cells at an entry, whose key is at most the length of
the walk. -/

namespace Sys2Proof.Machine

variable {s t : State}

/-! ### What extracted cells have done (R412 to R415) -/

/-- While the goal is not extracted: nodes stand on passable cells, the start apart, and each passable cell next to an
extracted one has a node of at most one more than its cost. -/
structure State.Explores (s : State) : Prop where
  passable : ∀ c, s.onGrid c = true → (s.nodeAt c).isSome = true → c ≠ s.latch.start → s.passable c
  closed : ∀ c n v, s.extracted c → s.nodeAt c = some n → s.passable v → c.adjacent v →
    ∃ m, s.nodeAt v = some m ∧ m.cost.toNat ≤ n.cost.toNat + 1
  goal : ¬ s.extracted s.latch.goal

/-- PF_START has extracted nothing: the start has an entry (R411). -/
theorem State.seeded_not_extracted (hl : s.seeded.latchInv) (c : Coord) : ¬ s.seeded.extracted c := by
  rintro ⟨hc, hn, hfree⟩
  obtain ⟨n, hn⟩ := Option.isSome_iff_exists.1 hn
  obtain ⟨-, -, -, -, -, hstart, -⟩ := hl
  rw [(State.nodeAt_single rfl hstart hc hn).1, findCell_eq_none] at hfree
  exact absurd (hfree _ List.mem_cons_self) (by rw [Entry.isAt_eq_false]; exact not_not.2 rfl)

theorem State.seeded_explores (hl : s.seeded.latchInv) : s.seeded.Explores where
  passable c hc hn hne := by
    obtain ⟨n, hn⟩ := Option.isSome_iff_exists.1 hn
    obtain ⟨-, -, -, -, -, hstart, -⟩ := hl
    exact absurd (State.nodeAt_single rfl hstart hc hn).1 hne
  closed c _ _ hc := absurd hc (State.seeded_not_extracted hl c)
  goal := State.seeded_not_extracted hl _

section
variable {e : Entry} {rest : List Entry} {nu : Node} {node : NodeTable} {q : List Entry}

/-- A cell extracted after a step was extracted before or is the step's, and the step has left its node. -/
theorem State.Relaxed.extracted (h : s.Relaxed e rest nu (⟨e.x, e.y⟩ : Coord).around node q) (hf : s.frontier = e :: rest)
    {c : Coord} (hc : (s.expanded e node q).extracted c) :
    (s.extracted c ∨ c = ⟨e.x, e.y⟩) ∧ (s.expanded e node q).nodeAt c = s.nodeAt c := by
  obtain ⟨hg, hn, hfree⟩ := hc
  replace hfree : ∀ g ∈ q, g.isAt c = false := findCell_eq_none.1 hfree
  have hmem {g : Entry} := State.mem_relaxedFrontier (s := s) (e := e) (Coord.nodup_around ⟨e.x, e.y⟩) (f := rest) (g := g)
  rw [← h.frontier] at hmem
  have hkept : c ∉ (⟨e.x, e.y⟩ : Coord).around ∨ s.lowers e c = false := by
    rw [or_iff_not_imp_left, not_not]
    intro hca
    by_contra hl
    have hin := hmem.2 (.inl ⟨c, hca, by simpa using hl, rfl⟩)
    exact Entry.isAt_eq_false.1 (hfree _ hin) rfl
  have hnode : (s.expanded e node q).nodeAt c = s.nodeAt c := h.others c hg hkept
  refine ⟨?_, hnode⟩
  by_cases hcu : c = ⟨e.x, e.y⟩
  · exact .inr hcu
  · refine .inl ⟨hg, hnode ▸ hn, ?_⟩
    rw [hf, findCell_cons_eq_none, findCell_eq_none]
    refine ⟨hcu, fun g hgr => ?_⟩
    by_contra hat
    have hcg : c = ⟨g.x, g.y⟩ := not_not.1 fun hne => hat (Entry.isAt_eq_false.2 hne)
    refine hat (hfree g (hmem.2 (.inr ⟨hgr, ?_⟩)))
    rintro v hv hl ⟨hx, hy⟩
    rw [show v = c from by rw [hcg, hx, hy]] at hv hl
    rcases hkept with hk | hk
    · exact hk hv
    · rw [hk] at hl
      cases hl

/-- A step leaves no node of higher cost than before (R413, R414). -/
theorem State.Relaxed.exists_node_le (h : s.Relaxed e rest nu (⟨e.x, e.y⟩ : Coord).around node q) {v : Coord} {m : Node}
    (hv : s.onGrid v = true) (hm : s.nodeAt v = some m) :
    ∃ m', (s.expanded e node q).nodeAt v = some m' ∧ m'.cost.toNat ≤ m.cost.toNat := by
  by_cases hlow : v ∈ (⟨e.x, e.y⟩ : Coord).around ∧ s.lowers e v = true
  · refine ⟨_, h.lowered v hlow.1 hlow.2, ?_⟩
    have hlt := (State.lowers_iff.1 hlow.2).2 m hm
    rw [State.relaxedTo, BitVec.toNat_add]
    exact (Nat.mod_le _ _).trans hlt.le
  · rw [not_and_or, Bool.not_eq_true] at hlow
    exact ⟨m, (h.others v hv hlow).trans hm, le_rfl⟩

/-- After a step each passable cell next to the extracted one has a node of at most one more than its cost. -/
theorem State.Relaxed.exists_node_around (h : s.Relaxed e rest nu (⟨e.x, e.y⟩ : Coord).around node q) {v : Coord}
    (hp : s.passable v) (ha : (⟨e.x, e.y⟩ : Coord).adjacent v) :
    ∃ m, (s.expanded e node q).nodeAt v = some m ∧ m.cost.toNat ≤ e.cost.toNat + 1 := by
  have hv := (h.expanding.latched.mem_around h.expanding.extracted.1 hp.1).2 ha
  cases hlow : s.lowers e v with
  | true =>
    refine ⟨_, h.lowered v hv hlow, ?_⟩
    rw [State.relaxedTo, BitVec.toNat_add]
    exact Nat.mod_le _ _
  | false =>
    rw [← Bool.not_eq_true, State.lowers_iff, not_and] at hlow
    obtain ⟨m, hm⟩ := not_forall.1 (hlow hp)
    rw [Classical.not_imp, not_lt] at hm
    obtain ⟨m', hm', hle⟩ := h.exists_node_le hp.1 hm.1
    exact ⟨m', hm', hle.trans hm.2⟩

/-- A step off the goal keeps what extracted cells have done. -/
theorem State.Relaxed.explores (h : s.Relaxed e rest nu (⟨e.x, e.y⟩ : Coord).around node q) (hs : s.Explores)
    (hf : s.frontier = e :: rest) (hg : ¬ (e.x = s.latch.gx ∧ e.y = s.latch.gy)) : (s.expanded e node q).Explores where
  passable c hc hn hne := by
    by_cases hlow : c ∈ (⟨e.x, e.y⟩ : Coord).around ∧ s.lowers e c = true
    · exact State.passable_of_lowers (s := s) hlow.2
    · rw [not_and_or, Bool.not_eq_true] at hlow
      have hnode : (s.expanded e node q).nodeAt c = s.nodeAt c := h.others c hc hlow
      exact hs.passable c hc (hnode ▸ hn) hne
  closed c n v hc hn hp ha := by
    obtain ⟨hc | rfl, hnode⟩ := h.extracted hf hc
    · obtain ⟨m, hm, hle⟩ := hs.closed c n v hc (hnode ▸ hn) hp ha
      obtain ⟨m', hm', hle'⟩ := h.exists_node_le hp.1 hm
      exact ⟨m', hm', hle'.trans hle⟩
    · rw [Option.some.inj (hn.symm.trans h.expanding.node), h.cost]
      exact h.exists_node_around hp ha
  goal hc := by
    obtain ⟨hc | hc, -⟩ := h.extracted hf hc
    · exact hs.goal hc
    · exact hg ⟨(congrArg Coord.x hc).symm, (congrArg Coord.y hc).symm⟩

end

/-! ### Room for every cell (R376) -/

/-- Different cells of the grid are no more than it has. -/
theorem State.length_le_cells {cells : List Coord} (hd : cells.Nodup) (hg : ∀ c ∈ cells, s.onGrid c = true) :
    cells.length ≤ s.latch.w.toNat * s.latch.h.toNat := by
  have hmap : (cells.map s.cellIndex).Nodup :=
    List.Nodup.map_on (fun c hc d hd h => (State.cellIndex_inj (hg c hc) (hg d hd)).1 h) hd
  have hsub : cells.map s.cellIndex ⊆ List.range (s.latch.w.toNat * s.latch.h.toNat) := fun i hi => by
    obtain ⟨c, hc, rfl⟩ := List.mem_map.1 hi
    exact List.mem_range.2 (State.cellIndex_lt (hg c hc))
  simpa using (List.subperm_of_subset hmap hsub).length_le

/-- A frontier with room for every cell has room for a step's new entries. -/
theorem State.Searches.room (hs : s.Searches) (ha : s.ctl.pfState = .active) {e : Entry} {rest : List Entry}
    (hf : s.frontier = e :: rest) (hcap : s.latch.w.toNat * s.latch.h.toNat ≤ s.par.frontierCap.toNat) :
    rest.length + ((⟨e.x, e.y⟩ : Coord).around.filter s.makes).length ≤ s.par.frontierCap.toNat := by
  obtain ⟨nu, hx, -⟩ := hs.expanding ha hf
  have hentries : ∀ g ∈ rest, s.onGrid ⟨g.x, g.y⟩ = true ∧ s.nodeAt ⟨g.x, g.y⟩ ≠ none := fun g hg => by
    obtain ⟨hgrid, n, hn, -⟩ := hx.entries g hg
    exact ⟨hgrid, fun hnone => nomatch hnone.symm.trans hn⟩
  have hmakes : ∀ v ∈ (⟨e.x, e.y⟩ : Coord).around.filter s.makes, s.onGrid v = true ∧ s.nodeAt v = none := fun v hv => by
    have hm := (List.mem_filter.1 hv).2
    have hlow : s.lowers e v = true := State.lowers_of_makes hm
    exact ⟨(State.passable_of_lowers hlow).1, (State.makes_iff hlow).1 hm⟩
  have hnodup : (rest.map (fun g => (⟨g.x, g.y⟩ : Coord)) ++ (⟨e.x, e.y⟩ : Coord).around.filter s.makes).Nodup := by
    refine List.nodup_append'.2 ⟨?_, (Coord.nodup_around _).filter _, fun c hc hv => ?_⟩
    · refine List.pairwise_map.2 (hx.queue.1.imp fun hne heq => hne ?_)
      simpa using heq
    · obtain ⟨g, hg, rfl⟩ := List.mem_map.1 hc
      exact (hentries g hg).2 (hmakes _ hv).2
  have hlen := State.length_le_cells hnodup fun c hc => by
    rcases List.mem_append.1 hc with hc | hc
    · obtain ⟨g, hg, rfl⟩ := List.mem_map.1 hc
      exact (hentries g hg).1
    · exact (hmakes c hc).1
  rw [List.length_append, List.length_map] at hlen
  exact hlen.trans hcap

/-! ### A walk and the frontier (R406, R407) -/

/-- The goal's d is 0. -/
theorem State.heuristic_goal (hl : s.latchInv) : (s.heuristic s.latch.goal).toNat = 0 := by
  have ⟨_, _, _, _, _, _, hgoal, _⟩ := hl
  rw [State.heuristic_toNat hl hgoal]
  simp [PfLatch.goal, squaredDiff]

/-- The root of a cell's d is at most the length of a way to the goal. -/
theorem State.heuristic_le (hl : s.latchInv) {c : Coord} {cells : List Coord} (hc : s.onGrid c = true)
    (hcells : ∀ d ∈ cells, s.passable d) (hchain : (c :: cells).IsChain Coord.adjacent)
    (hlast : (c :: cells).getLast? = some s.latch.goal) : √((s.heuristic c).toNat : ℝ) ≤ cells.length := by
  induction cells generalizing c with
  | nil =>
    obtain rfl : c = s.latch.goal := by simpa using hlast
    rw [State.heuristic_goal hl]
    simp
  | cons d cells ih =>
    rw [List.getLast?_cons_cons] at hlast
    obtain ⟨hadj, hchain⟩ := List.isChain_cons_cons.1 hchain
    obtain ⟨hd, hcells⟩ := List.forall_mem_cons.1 hcells
    have hstep := State.heuristic_step hl hc hd.1 hadj
    have hrest := ih hd.1 hcells hchain hlast
    push_cast [List.length_cons]
    linarith

/-- A cell with a node that has not been extracted has an entry of that node (R419). -/
theorem State.Searches.exists_entry (hs : s.Searches) (ha : s.ctl.pfState = .active) {c : Coord} {n : Node}
    (hc : s.onGrid c = true) (hn : s.nodeAt c = some n) (hx : ¬ s.extracted c) :
    ∃ g ∈ s.frontier, g.cost = n.cost ∧ g.d = s.heuristic c := by
  obtain ⟨-, hnodes⟩ := hs.started (by rw [ha]; decide)
  obtain ⟨-, -, -, hactive, -⟩ := hs.search
  have hentry : findCell s.frontier c ≠ none := fun hfree => hx ⟨hc, Option.isSome_iff_exists.2 ⟨n, hn⟩, hfree⟩
  rw [ne_eq, findCell_eq_none] at hentry
  push Not at hentry
  obtain ⟨g, hg, hat⟩ := hentry
  have hcg : c = ⟨g.x, g.y⟩ := not_not.1 fun hne => hat (Entry.isAt_eq_false.2 hne)
  obtain ⟨-, m, hm, hcost, hd⟩ := (hactive ha).1 g hg
  obtain rfl := Option.some.inj (hn.symm.trans (hcg ▸ hm))
  exact ⟨g, hg, hcost.symm, hd.symm.trans (State.nodeInv_d hnodes hc hn)⟩

/-- A cell not extracted with a way to the goal: the key of its entry is at most its cost and the way's length. -/
theorem State.Searches.exists_entry_le (hs : s.Searches) (ha : s.ctl.pfState = .active) {c : Coord} {cells : List Coord}
    {n : Node} (hc : s.onGrid c = true) (hn : s.nodeAt c = some n) (hx : ¬ s.extracted c)
    (hcells : ∀ d ∈ cells, s.passable d) (hchain : (c :: cells).IsChain Coord.adjacent)
    (hlast : (c :: cells).getLast? = some s.latch.goal) :
    ∃ g ∈ s.frontier, keyOf g.cost g.d ≤ n.cost.toNat + cells.length := by
  obtain ⟨hl, -⟩ := hs.started (by rw [ha]; decide)
  obtain ⟨g, hg, hcost, hd⟩ := hs.exists_entry ha hc hn hx
  refine ⟨g, hg, ?_⟩
  rw [keyOf, hcost, hd]
  linarith [State.heuristic_le hl hc hcells hchain hlast]

/-- On a way from a cell with a node to the goal there is an entry whose key is at most the node's cost and the way's length:
that of the first cell not extracted. -/
theorem State.Explores.exists_entry (h : s.Explores) (hs : s.Searches) (ha : s.ctl.pfState = .active) {c : Coord}
    {cells : List Coord} {n : Node} (hc : s.onGrid c = true) (hn : s.nodeAt c = some n)
    (hcells : ∀ d ∈ cells, s.passable d) (hchain : (c :: cells).IsChain Coord.adjacent)
    (hlast : (c :: cells).getLast? = some s.latch.goal) :
    ∃ g ∈ s.frontier, keyOf g.cost g.d ≤ n.cost.toNat + cells.length := by
  induction cells generalizing c n with
  | nil =>
    obtain rfl : c = s.latch.goal := by simpa using hlast
    exact hs.exists_entry_le ha hc hn h.goal hcells hchain hlast
  | cons d cells ih =>
    by_cases hx : s.extracted c
    · obtain ⟨hadj, hchain⟩ := List.isChain_cons_cons.1 hchain
      obtain ⟨hd, hcells⟩ := List.forall_mem_cons.1 hcells
      obtain ⟨m, hm, hle⟩ := h.closed c n d hx hn hd hadj
      rw [List.getLast?_cons_cons] at hlast
      obtain ⟨g, hg, hkey⟩ := ih hd.1 hm hcells hchain hlast
      have hle : (m.cost.toNat : ℝ) ≤ n.cost.toNat + 1 := by exact_mod_cast hle
      refine ⟨g, hg, ?_⟩
      push_cast [List.length_cons]
      linarith
    · exact hs.exists_entry_le ha hc hn hx hcells hchain hlast

/-- A walk passes an entry whose key is at most the number of its steps. -/
theorem State.Explores.exists_entry_of_isWalk (h : s.Explores) (hs : s.Searches) (ha : s.ctl.pfState = .active)
    {cells : List Coord} (hw : s.isWalk cells) : ∃ g ∈ s.frontier, keyOf g.cost g.d + 1 ≤ cells.length := by
  obtain ⟨hhead, hlast, hchain, htail⟩ := hw
  obtain ⟨hl, hnodes⟩ := hs.started (by rw [ha]; decide)
  obtain ⟨-, -, -, -, -, hstart, -⟩ := hl
  obtain ⟨tail, rfl⟩ := List.head?_eq_some_iff.1 hhead
  obtain ⟨g, hg, hkey⟩ := h.exists_entry hs ha hstart hnodes.1 htail hchain hlast
  refine ⟨g, hg, ?_⟩
  push_cast [List.length_cons]
  simp at hkey
  linarith

/-! ### Steps to the goal (R416, R417, R420) -/

/-- What holds when the goal has been extracted: nodes stand on passable cells, RES has the goal and its cost, and no walk has
fewer steps. -/
structure State.Reached (s : State) : Prop where
  passable : ∀ c, s.onGrid c = true → (s.nodeAt c).isSome = true → c ≠ s.latch.start → s.passable c
  cell : s.res.r0 = s.latch.gx.setWidth 32 ∧ s.res.r1 = s.latch.gy.setWidth 32
  cost : ∀ n, s.nodeAt s.latch.goal = some n → n.cost = s.res.r2
  shortest : ∀ cells, s.isWalk cells → s.res.r2.toNat + 1 ≤ cells.length

/-- The first entry has a key no greater than any other. -/
theorem State.Searches.first_le (hs : s.Searches) {e : Entry} {rest : List Entry} (hf : s.frontier = e :: rest) {g : Entry}
    (hg : g ∈ s.frontier) : keyOf e.cost e.d ≤ keyOf g.cost g.d := by
  obtain ⟨-, hsort, -⟩ := hs.queue
  rw [hf] at hsort hg
  rcases List.mem_cons.1 hg with rfl | hg
  · exact le_rfl
  · exact Entry.cmp_nonpos_iff.1 ((List.pairwise_cons.1 hsort).1 g hg)

/-- The extraction of the goal: its cost is that of a shortest walk, by the entry on any walk (R407). -/
theorem State.Explores.reached (h : s.Explores) (hs : s.Searches) (ha : s.ctl.pfState = .active) {e : Entry}
    {rest : List Entry} (hf : s.frontier = e :: rest) (hg : e.x = s.latch.gx ∧ e.y = s.latch.gy)
    (ht : pfStep s = .ok t) : t.Reached := by
  obtain ⟨nu, hx, hcost⟩ := hs.expanding ha hf
  have hgoal : (⟨e.x, e.y⟩ : Coord) = s.latch.goal := by rw [hg.1, hg.2]; rfl
  rw [pfStep_goal ha hf hg] at ht
  cases ht
  refine ⟨h.passable, ⟨congrArg (BitVec.setWidth 32) hg.1, congrArg (BitVec.setWidth 32) hg.2⟩, fun n hn => ?_,
    fun cells hw => ?_⟩
  · have hnode : s.nodeAt s.latch.goal = some nu := hgoal ▸ hx.node
    rw [Option.some.inj (hn.symm.trans hnode), hcost]
    rfl
  · obtain ⟨g, hgf, hkey⟩ := h.exists_entry_of_isWalk hs ha hw
    have hfirst := hs.first_le hf hgf
    have hroot := Real.sqrt_nonneg (e.d.toNat : ℝ)
    unfold keyOf at hfirst hkey
    have hle : ((e.cost.toNat + 1 : Nat) : ℝ) ≤ cells.length := by
      push_cast
      linarith
    exact_mod_cast hle

/-- With room for every cell a step of an active search finds the frontier empty, extracts the goal, or explores on. -/
theorem State.Explores.pfStep_cases (h : s.Explores) (hs : s.Searches) (ha : s.ctl.pfState = .active)
    (hcap : s.latch.w.toNat * s.latch.h.toNat ≤ s.par.frontierCap.toNat) :
    (s.frontier = [] ∧ pfStep s = .raised .noPath s.pfSteps { s with ctl := { s.ctl with pfState := .noPath } }) ∨
      ∃ t, pfStep s = .ok t ∧ (t.ctl.pfState = .active → t.Explores) ∧ (t.ctl.pfState = .found → t.Reached) := by
  by_cases hf : s.frontier = []
  · exact .inl ⟨hf, pfStep_empty ha hf⟩
  · obtain ⟨e, rest, hf⟩ := List.exists_cons_of_ne_nil hf
    right
    by_cases hg : e.x = s.latch.gx ∧ e.y = s.latch.gy
    · have hstep := pfStep_goal ha hf hg
      exact ⟨_, hstep, nofun, fun _ => h.reached hs ha hf hg hstep⟩
    · obtain ⟨nu, node, q, hstep, hr⟩ := hs.pfStep_room ha hf hg (hs.room ha hf hcap)
      exact ⟨_, hstep, fun _ => hr.explores h hf hg, fun hfound => nomatch ha.symm.trans hfound⟩

/-- Steps explore on until they extract the goal. -/
theorem State.Explores.of_stepsTo {k : Nat} (h : s.Explores) (hs : s.Searches) (ha : s.ctl.pfState = .active)
    (hcap : s.latch.w.toNat * s.latch.h.toNat ≤ s.par.frontierCap.toNat) (hk : stepsTo k s t) :
    (t.ctl.pfState = .active → t.Explores) ∧ (t.ctl.pfState = .found → t.Reached) := by
  induction k generalizing s with
  | zero =>
    cases hk
    exact ⟨fun _ => h, fun hfound => nomatch ha.symm.trans hfound⟩
  | succ k ih =>
    obtain ⟨-, u, hu, hk⟩ := hk
    obtain ⟨hpu, hsteps, hus, -⟩ := hs.pfStep_ok ha hu
    have hnext : (u.ctl.pfState = .active → u.Explores) ∧ (u.ctl.pfState = .found → u.Reached) := by
      obtain ⟨-, hraised⟩ | ⟨v, hv, hnext⟩ := h.pfStep_cases hs ha hcap
      · rw [hraised] at hu
        cases hu
      · rw [hv] at hu
        cases hu
        exact hnext
    rcases hpu with hau | hfound
    · exact ih (hnext.1 hau) hus hau (by rw [hsteps]; exact hcap) hk
    · cases k with
      | zero =>
        cases hk
        exact hnext
      | succ k => exact nomatch hfound.symm.trans hk.1

/-! ### PF_SEARCH -/

/-- A walk is a matter of the latch and of memory. -/
theorem State.isWalk_iff (hl : t.latch = s.latch) (hm : t.mem = s.mem) {cells : List Coord} :
    t.isWalk cells ↔ s.isWalk cells := by
  simp only [State.isWalk, State.passable, State.onGrid, hl, hm]

/-- Each cell of a path but the first has its predecessor. -/
theorem State.IsPath.exists_leads {cells : List Coord} (h : s.IsPath cells) {c : Coord} (hc : c ∈ cells.tail) :
    ∃ b, s.leads b c := by
  obtain ⟨i, hi, rfl⟩ := List.mem_iff_getElem.1 hc
  rw [List.length_tail] at hi
  rw [List.getElem_tail]
  exact ⟨_, List.isChain_iff_getElem.1 h.chain i (by omega)⟩

/-- A path of predecessors over nodes on passable cells is a walk. -/
theorem State.IsPath.isWalk {cells : List Coord} (h : s.IsPath cells) (hs : s.nodeInv)
    (hp : ∀ c, s.onGrid c = true → (s.nodeAt c).isSome = true → c ≠ s.latch.start → s.passable c) : s.isWalk cells := by
  refine ⟨h.start, h.goal, h.adjacent hs, fun c hc => ?_⟩
  obtain ⟨b, hgc, n, hn, -⟩ := h.exists_leads hc
  refine hp c hgc (by simp [hn]) ?_
  rintro rfl
  obtain ⟨tail, rfl⟩ := List.head?_eq_some_iff.1 h.start
  exact (List.nodup_cons.1 (h.nodup hs)).1 hc

/-- The goal is found, and the predecessors make a shortest walk to it of as many steps as the cost in RES. -/
structure State.Solved (s : State) (cells : List Coord) : Prop where
  found : s.ctl.pfState = .found
  path : s.foundPath = .path cells
  walk : s.isWalk cells
  nodup : cells.Nodup
  shortest : ∀ walk, s.isWalk walk → cells.length ≤ walk.length
  cell : s.res.r0 = s.latch.gx.setWidth 32 ∧ s.res.r1 = s.latch.gy.setWidth 32
  cost : s.res.r2.toNat + 1 = cells.length

theorem State.Reached.solved (h : s.Reached) (hs : s.Searches) (hf : s.ctl.pfState = .found) : ∃ cells, s.Solved cells := by
  obtain ⟨goal, cells, hgoal, hp, hpath, hn, hlen⟩ := hs.found hf
  rw [h.cost goal hgoal] at hlen
  exact ⟨cells, hf, hp, hpath.isWalk hn h.passable, hpath.nodup hn, fun walk hw => hlen ▸ h.shortest walk hw, h.cell,
    hlen.symm⟩

/-- With room for every cell the steps of PF_SEARCH solve the search, or end with NOPATH where there is no walk: on a walk
there would be an entry. -/
theorem State.pfSearchSteps_room (hp : s.par.wf) (hm : s.mem.wf) (h : firstError s.startChecks = none)
    (hr : regionsPass s.par (pfStartRegionList s)) (hcap : s.pf.w.toNat * s.pf.h.toNat ≤ s.par.frontierCap.toNat) :
    ∃ t, s.seeded.stepsAs t ∧ ((∃ cells, t.Solved cells ∧ pfSearchSteps s = .ok t) ∨
      (¬ ∃ cells, t.isWalk cells) ∧
        pfSearchSteps s = .raised .noPath t.pfSteps { t with ctl := { t.ctl with pfState := .noPath } }) := by
  have hseeded := State.seeded_searches hp hm h hr
  obtain ⟨k, t, hk, hend⟩ := State.pfSearchSteps_stepsTo hp hm h hr
  obtain ⟨hsteps, hts, -⟩ := hseeded.of_stepsTo hk
  obtain ⟨hactive, hreached⟩ := (State.seeded_explores (State.seeded_latchInv h hr)).of_stepsTo hseeded rfl hcap hk
  refine ⟨t, hsteps, ?_⟩
  rcases hend with ⟨hf, hloop⟩ | ⟨ha, e, m, u, hu, hloop⟩
  · obtain ⟨cells, hsolved⟩ := (hreached hf).solved hts hf
    exact .inl ⟨cells, hsolved, hloop⟩
  · have htcap : t.latch.w.toNat * t.latch.h.toNat ≤ t.par.frontierCap.toNat := by rw [hsteps]; exact hcap
    obtain ⟨hempty, hraised⟩ | ⟨v, hv, -⟩ := (hactive ha).pfStep_cases hts ha htcap
    · refine .inr ⟨fun ⟨cells, hw⟩ => ?_, hloop.trans (hu.symm.trans hraised)⟩
      obtain ⟨g, hg, -⟩ := (hactive ha).exists_entry_of_isWalk hts ha hw
      rw [hempty] at hg
      cases hg
    · exact nomatch hu.symm.trans hv

/-- Settles O47: the steps solve the search, and the trace writes its walk, or there is no walk. -/
theorem pfSearchFindsShortestWalk : Obligations.PfSearchFindsShortestWalk := by
  unfold Obligations.PfSearchFindsShortestWalk
  refine ⟨rfl, fun s hpar hmem h hr hcap => ?_⟩
  intro s1
  have hexec : exec .pfSearch s = complete 0x13 (pfSearchRule s) := rfl
  obtain ⟨t, hsteps, hend⟩ := State.pfSearchSteps_room hpar hmem h hr hcap
  have hlatch : t.latch = s1.latch := by rw [hsteps]; rfl
  have htmem : t.mem = s.mem := by rw [hsteps]; rfl
  have hwalk {cells : List Coord} : t.isWalk cells ↔ s1.isWalk cells := State.isWalk_iff hlatch htmem
  refine ⟨fun hnone => ?_, fun best hbest hmin hfits hpass => ?_⟩
  · obtain ⟨cells, hsolved, -⟩ | ⟨-, hloop⟩ := hend
    · exact absurd ⟨cells, hwalk.1 hsolved.walk⟩ hnone
    · refine ⟨takeError 0x13 .noPath t.pfSteps { t with ctl := { t.ctl with pfState := .noPath } }, ?_, rfl, rfl, rfl, rfl,
        rfl, ?_, htmem⟩
      · rw [hexec, pfSearchRule, hloop, Ended.andThen_raised, complete_raised]
      · rw [hsteps]
        rfl
  · obtain ⟨cells, hsolved, hloop⟩ | ⟨hnone, -⟩ := hend
    · have hlen : cells.length = best.length :=
        (hsolved.shortest best (hwalk.2 hbest)).antisymm (hmin cells (hwalk.1 hsolved.walk))
      rw [← hlen] at hfits hpass ⊢
      have hpf : t.pf = s.pf := by rw [hsteps]; rfl
      have htpass : regionsPass t.par ([t.gridRegion] ++ [t.pathRegion cells.length]) := by
        rw [State.traceRegions hsteps, hsteps]
        exact hpass
      have herr : t.ctl.err = s.ctl.err := by rw [hsteps]; rfl
      have hholds : holdsPath (t.traced cells).mem s.pf.pathAddr.toNat cells := by
        rw [← hpf]
        exact holdsPath_write (by rw [htmem]; exact hmem.1) _ cells
      refine ⟨finish (t.traced cells), cells, ?_, hsolved.found, rfl, herr, hwalk.1 hsolved.walk, rfl, hsolved.nodup, rfl,
        hholds, hsolved.cell.1.trans (by rw [hlatch]), hsolved.cell.2.trans (by rw [hlatch]), hsolved.cost⟩
      rw [hexec, pfSearchRule, hloop, Ended.andThen_ok, pfTrace_found hsolved.found hsolved.path,
        tracePath_passes (by rw [hpf]; exact hfits) htpass, complete_ok]
    · exact absurd ⟨best, hwalk.2 hbest⟩ hnone

end Sys2Proof.Machine
end

section
/-! PROOF. Completion, errors and the interrupt line (60_exceptions.md R451, R452, R454, R455, R460, R461, R464), and what a
step runs (00_scope.md R14, 70_reset_and_hazards.md R511). -/

namespace Sys2Proof.Machine

variable {s t : State} {w : Word} {i : Instr} {rest : List HostOp}

/-! ### Completion (R451, R455) -/

/-- The code of each error kind is that of its row in R451's table. -/
theorem mem_errorTable (e : ErrorKind) : (e, e.code.toNat) ∈ errorTable := by cases e <;> decide

/-- A command word is the encoding of the command it decodes to (R141). -/
theorem encode_eq_of_decode_cmd (hi : decode .cmd w.toNat = .ok i) : encode i = ⟨.cmd, w.toNat⟩ :=
  (encodeOfDecode .cmd w.toNat i hi).2

/-- The command of a word runs its rule and completes with the OPC of the word, bits [7:0] (R141, R454, R455). -/
theorem exec_of_decode_cmd (hi : decode .cmd w.toNat = .ok i) (s : State) :
    exec i s = complete (w.setWidth 8) (commandRule i s) := by
  have he := encode_eq_of_decode_cmd hi
  rw [exec_eq_complete (congrArg Encoded.fmt he), he, BitVec.ofNat_toNat]

/-- The rule of a command writes neither IE and OVR nor ERR and the error registers (R38, R455). -/
theorem State.writesAs.completionState_eq (h : s.writesAs i t) :
    t.ctl.ie = s.ctl.ie ∧ t.ctl.ovr = s.ctl.ovr ∧ t.ctl.err = s.ctl.err ∧ t.ctl.errCode = s.ctl.errCode ∧
      t.ctl.errInfo = s.ctl.errInfo ∧ t.ctl.errCmd = s.ctl.errCmd := by
  rw [h]
  exact ⟨rfl, rfl, rfl, rfl, rfl, rfl⟩

/-- Settles O16: the rule of a command leaves OVR, ERR and the error registers to its completion, which is a success or an
error of a kind the block raises. -/
theorem commandCompletion : Obligations.CommandCompletion := by
  unfold Obligations.CommandCompletion
  refine ⟨fun s => rfl, fun e => ⟨e.code.toNat, mem_errorTable e, fun s opc info => ?_⟩, fun s t w i hi ht => ?_⟩
  · rw [BitVec.ofNat_toNat, BitVec.setWidth_eq]
    rfl
  · have hrule := commandRule_leaves i s
    rw [exec_of_decode_cmd hi] at ht
    rcases complete_eq_next.1 ht with ⟨u, hu, rfl⟩ | ⟨e, n, u, hu, rfl⟩ <;> rw [hu] at hrule
    · obtain ⟨-, hovr, herrs⟩ := hrule.1.completionState_eq
      exact ⟨rfl, rfl, rfl, rfl, hovr, .inl herrs⟩
    · obtain ⟨⟨hne, hproduced⟩, hwrites, -⟩ := hrule
      obtain ⟨-, hovr, -⟩ := hwrites.completionState_eq
      exact ⟨rfl, rfl, rfl, rfl, hovr, .inr ⟨rfl, rfl, mt ErrorKind.code_eq_zero.1 hne, hproduced⟩⟩

/-! ### The engine's step (R454) -/

/-- An engine step runs the command that the pending word decodes to. -/
theorem engineStep_command (hw : s.pending = some w) (hi : decode .cmd w.toNat = .ok i) : engineStep s = exec i s := by
  simp only [engineStep, hw, hi]

/-- An engine step that completes a word, legal or not, sets DONE and leaves IE (R455, R142). -/
theorem engineStep_completes (hw : s.pending = some w) (h : engineStep s = .next t) :
    t.ctl.done = true ∧ t.ctl.ie = s.ctl.ie := by
  cases hd : decode .cmd w.toNat with
  | ok i =>
    rw [engineStep_command hw hd] at h
    obtain ⟨-, -, hcompletion⟩ := commandCompletion
    obtain ⟨-, -, -, hdone, -⟩ := hcompletion s t w i hd h
    obtain ⟨-, -, -, -, -, hie, -⟩ := commandsWriteOnlyTheirState s t i (fmt_of_decode_cmd hd) h
    exact ⟨hdone, hie⟩
  | error x =>
    rw [engineStep_illegal hw hd] at h
    cases h
    exact ⟨rfl, rfl⟩

/-! ### The interrupt line (R460, R461) -/

theorem irq_of_done (h : s.ctl.done = true) : s.irq = s.ctl.ie := by rw [State.irq, h, Bool.and_true]

theorem irq_of_not_done (h : s.ctl.done = false) : s.irq = false := by rw [State.irq, h, Bool.and_false]

/-- IRQ is down after a reset: DONE is 0 (R490, R491). -/
theorem irq_hardReset (s : State) : (hardReset s).irq = false := rfl

/-- A write of CTRL with SRST = 1 or IE = 0 leaves IRQ down (R39). -/
theorem irq_writeCtrl {v : Word} (hv : v.getLsbD 0 = false ∨ v.getLsbD 1 = true) (s : State) :
    (writeCtrl v s).irq = false := by
  unfold writeCtrl
  split_ifs with hsrst
  · exact irq_hardReset _
  · change (v.getLsbD 0 && s.ctl.done) = false
    rw [hv.resolve_right hsrst, Bool.false_and]

/-- Settles O14: a completion sets DONE and leaves IE; an acceptance, a clearing write and a reset leave one of the two
clear; a dropped CMD write touches neither. -/
theorem interruptLine : Obligations.InterruptLine := by
  unfold Obligations.InterruptLine
  intro s
  have hctrl (v : Word) : hostWrite 4 0x004 v s = .next (writeCtrl v s) := hostWrite_offset .ctrl v s
  have hstatus (v : Word) : hostWrite 4 0x008 v s = .next (s.writeStatus v) := hostWrite_offset .status v s
  have hcmd (w : Word) : hostWrite 4 0x00C w s = .next (accept w s) := hostWrite_offset .cmd w s
  refine ⟨rfl, fun t hw h => ?_, fun w t hb h => ?_, fun w t hb h => ?_, fun v t hv h => ?_, fun v t hv h => ?_,
    irq_hardReset s⟩
  · obtain ⟨w, hw⟩ := Option.isSome_iff_exists.1 hw
    obtain ⟨hdone, hie⟩ := engineStep_completes hw h
    rw [irq_of_done hdone, hie]
  · rw [hcmd, accept_idle hb] at h
    cases h
    exact irq_of_not_done rfl
  · rw [hcmd, accept_busy hb] at h
    cases h
    rfl
  · rw [hstatus] at h
    cases h
    exact irq_of_not_done (by rw [writeStatus_ctl, hv, Bool.not_true, Bool.and_false])
  · rw [hctrl] at h
    cases h
    exact irq_writeCtrl hv s

/-! ### What a step runs (R14, R454, R511) -/

/-- With nothing to come from the host the engine moves. -/
theorem step_agenda_nil (hi : s.item = none) (ha : s.agenda = []) : step s = engineStep s := by
  simp only [step, hi, ha]

/-- Else a step is the host's next access, in the state with the rest of the agenda. -/
theorem step_agenda_cons {op : HostOp} (hi : s.item = none) (ha : s.agenda = op :: rest) :
    step s = hostStep op { s with agenda := rest } := by
  simp only [step, hi, ha]

/-- A latched value is run as the item it decodes to, in the state without the latch. -/
theorem step_item {f : Format} {v : Nat} (hv : s.item = some (f, v)) (hi : decode f v = .ok i) :
    step s = exec i { s with item := none } := by
  simp only [step, itemStep, hv, hi]

/-- A poll while a command runs gives the engine its turn, and stays (R511). -/
theorem step_wait_busy (hi : s.item = none) (ha : s.agenda = .wait :: rest) (hb : s.busy = true) :
    step s = engineStep s := by
  rw [step_agenda_cons hi ha]
  refine (if_pos hb).trans ?_
  change engineStep { s with agenda := .wait :: rest } = engineStep s
  rw [← ha]

/-- A poll of an idle block is a read of STATUS (R156). -/
theorem step_wait_idle (hi : s.item = none) (ha : s.agenda = .wait :: rest) (hb : s.busy = false) :
    step s = .next { s with agenda := rest, reply := some (Reg.status.value s) } := by
  rw [step_agenda_cons hi ha]
  refine (if_neg (by rw [Bool.not_eq_true]; exact hb)).trans ?_
  simp only [busRead, Reg.unstable, Bool.and_false, Bool.false_eq_true, if_false]
  rfl

/-- Settles O5: by what is latched and the head of the agenda. -/
theorem stepRunsDecodedInstruction : Obligations.StepRunsDecodedInstruction := by
  unfold Obligations.StepRunsDecodedInstruction
  refine ⟨fun s w i hi hw hd => ⟨fun ha => ?_, fun rest ha => ?_, fun rest ha => ?_⟩, fun s f v i => step_item,
    fun s hi => ⟨step_agenda_nil hi, fun rest => ⟨step_agenda_cons hi, step_wait_busy hi, step_wait_idle hi,
      fun size offset => step_agenda_cons hi, fun size offset v => step_agenda_cons hi, fun a => step_agenda_cons hi,
      fun a v => step_agenda_cons hi, step_agenda_cons hi⟩⟩⟩
  · rw [step_agenda_nil hi ha, engineStep_command hw hd]
  · rw [step_agenda_cons hi ha]
    exact engineStep_command hw hd
  · rw [step_wait_busy hi ha (by rw [State.busy, hw]; rfl), engineStep_command hw hd]

end Sys2Proof.Machine
end

section
/-! PROOF. Resets (70_reset_and_hazards.md R490 to R493): the state a hardware reset and a soft reset leave, the wait of an
idle engine, and the invariant at reset. -/

namespace Sys2Proof.Machine

variable {s : State} {v : Word}

/-! ### Hardware reset (R490) -/

/-- Settles O20: the two hypotheses of the invariant at reset hold of the vectors' parameters and of an empty memory. -/
theorem resetMeetsInvariant : Obligations.ResetMeetsInvariant := by
  unfold Obligations.ResetMeetsInvariant
  have hvectors : Params.vectors.wf := by decide
  have hblank : Memory.wf [] := by decide
  exact ⟨State.resetWith_inv hvectors hblank, fun p m => State.resetWith_inv⟩

/-- Every register reads 0 after hardware reset but the constants ID, PARAM_FRONTIER_CAP and PARAM_NODE_CAP (R43, R490). -/
theorem value_hardReset (r : Reg) (s : State) : r.value (hardReset s) =
    if r = .id then 0x4D5A0007 else if r = .paramFrontierCap then s.par.frontierCap
    else if r = .paramNodeCap then s.par.nodeCap else 0 := by
  cases r <;> rfl

/-- An idle engine waits (R493). -/
theorem engineStep_idle (h : s.pending = none) : engineStep s = .next s := by
  simp only [engineStep, h]

/-- With no latch and no access to come, a step of an idle machine changes nothing (R493). -/
theorem step_idle (hitem : s.item = none) (hagenda : s.agenda = []) (hpending : s.pending = none) : step s = .next s :=
  (step_agenda_nil hitem hagenda).trans (engineStep_idle hpending)

/-- Settles O6: the registers' values, the rest of the table of R490 by definition, and the wait of an idle engine. -/
theorem resetLeaves : Obligations.ResetLeaves := by
  unfold Obligations.ResetLeaves
  refine ⟨fun s => ⟨fun r => value_hardReset r s, irq_hardReset s, rfl, rfl, rfl, rfl, rfl, rfl, rfl, fun r => rfl⟩,
    fun p m => step_idle rfl rfl rfl, fun s => step_idle⟩

/-! ### Soft reset (R39, R491, R492) -/

/-- A write of CTRL with SRST = 1 is a soft reset, whatever the other bits (R39). -/
theorem hostWrite_ctrl_srst (hv : v.getLsbD 1 = true) (s : State) : hostWrite 4 0x004 v s = .next (softReset s) := by
  have hctrl : hostWrite 4 0x004 v s = .next (writeCtrl v s) := hostWrite_offset .ctrl v s
  rw [hctrl, writeCtrl, if_pos hv]

/-- An idle engine has no regions (R492). -/
theorem runningRegions_idle (h : s.pending = none) : s.runningRegions = [] := by rw [State.runningRegions, h]

/-- A soft reset of an idle block is a hardware reset (R491). -/
theorem softReset_idle (h : s.pending = none) : softReset s = hardReset s := by
  rw [softReset, runningRegions_idle h, drawWrites]

/-- A soft reset is a hardware reset, but for the bytes in the write regions of the command it drops (R491, R492). -/
theorem softReset_eq (hs : Sparse.sorted s.mem) :
    ∃ m k, softReset s = { hardReset s with mem := m, draws := k } ∧ s.mem.keepsOutside m s.runningRegions := by
  obtain ⟨m, k, hdraw, hkeeps⟩ := drawWrites_keeps (List.Subset.refl s.runningRegions) hs
  exact ⟨m, k, by rw [softReset, hdraw]; rfl, hkeeps⟩

/-- Settles O7: the write is a soft reset, which is a hardware reset but for the dropped command's write regions, and an
idle block accepts any word. -/
theorem softResetDropsCommand : Obligations.SoftResetDropsCommand := by
  unfold Obligations.SoftResetDropsCommand
  intro s v hv hmem
  obtain ⟨m, k, hreset, hkeeps⟩ := softReset_eq hmem.1
  refine ⟨m, k, by rw [hostWrite_ctrl_srst hv, hreset], hkeeps, fun hidle => ?_, fun w => ?_⟩
  · rw [softReset_idle hidle] at hreset
    exact (congrArg State.mem hreset).symm
  · have hbusy : ({ hardReset s with mem := m, draws := k } : State).busy = false := rfl
    exact ⟨hbusy, by rw [accept_idle hbusy]⟩

end Sys2Proof.Machine
end
